-- ==== Sys2Proof/Word.lean ====
section
/-! DEFINITION. The plain types of the machine: bytes, words, the two bus lines and the events of the bus trace. -/

namespace Sys2Proof

/-- The data unit, `BYTE_W` = 8 (00_scope.md R2). -/
abbrev Byte := BitVec 8

/-- A command word or an argument word (30_encoding.md R36, R37). -/
abbrev Word := BitVec 32

/-- One of the two open-drain lines (10_state.md R5). -/
inductive Line where
  | sda
  | scl
  deriving DecidableEq, Repr

/-- An event of the bus trace, one for each atomic step of the controller (10_state.md R24, R26). -/
inductive Event where
  /-- `DL(L)`: DriveLow of line L. -/
  | dl (line : Line)
  /-- `RL(L)`: Release of line L. -/
  | rl (line : Line)
  /-- `SM(L, v)`: Sample of line L, which read level v (`true` is 1, high). -/
  | sm (line : Line) (v : Bool)
  /-- `SM2(a, b)`: the simultaneous sample of SDA (level a) and SCL (level b). -/
  | sm2 (a b : Bool)
  /-- `DY(n)`: Delay of n microseconds. -/
  | dy (n : Nat)
  /-- `BR(i, v)`: buffer read of index i, which returned v. -/
  | br (i : BitVec 16) (v : Byte)
  /-- `BW(i, v)`: buffer write of v to index i. -/
  | bw (i : BitVec 16) (v : Byte)
  /-- `TA`: the timing-critical section is acquired. -/
  | ta
  /-- `TR`: the timing-critical section is released. -/
  | tr
  /-- `RSP(r, e, a)`: the response. -/
  | rsp (r : Bool) (e : BitVec 3) (a : Bool)
  deriving DecidableEq, Repr

end Sys2Proof
end

