-- ==== Sys2Proof/Config.lean ====
section
/-! DEFINITION. The build parameters (00_scope.md R2), the decided constants, and the free values: opaque constants
without a body, so that nothing can be proved of the value of one. -/

namespace Sys2Proof

/-- The parameters fixed when the block is built (00_scope.md R2; 41_timing_and_timeout.md R58). A state carries
them, so that every statement about a state holds for every value. No command and no reset changes them. -/
structure Params where
  /-- `DEFAULT_DELAY_US`, OPEN, from 1 to 2^31 - 1 (R3). -/
  defaultDelayUs : BitVec 31
  /-- `BUS_IDLE_TIMEOUT_US`, OPEN, at least 0. -/
  busIdleTimeoutUs : Nat
  /-- `SCL_STRETCH_TIMEOUT_US`, OPEN, at least 0. -/
  sclStretchTimeoutUs : Nat
  /-- `F_CLK_HZ`, OPEN. No rule depends on it. -/
  fClkHz : Nat
  deriving DecidableEq, Repr

/-- `POLL_STEP_US` = 1, decided (00_scope.md R2, D5). -/
def Config.pollStepUs : Nat := 1

/-- What an index of the host's buffer that nothing has written reads as.
DESIGN CHOICE (log 5), unsafe: the buffer is the host's and the spec gives it no initial contents. -/
def Config.bufFill : Byte := 0x00#8

/-- The number of indices of the host's buffer: 0 to 2^16 - 1 (20_memory.md R29). -/
def Config.bufIndices : Nat := 65536

/-- The bits from which the built default delay is made (OPEN parameter, log 4). -/
opaque Config.defaultDelayBits : BitVec 31

/-- `DEFAULT_DELAY_US` as built: any value from 1 to 2^31 - 1 (00_scope.md R3). -/
def Config.defaultDelayUs : BitVec 31 :=
  if Config.defaultDelayBits = 0#31 then 1#31 else Config.defaultDelayBits

/-- `BUS_IDLE_TIMEOUT_US` as built (OPEN parameter, log 4). -/
opaque Config.busIdleTimeoutUs : Nat

/-- `SCL_STRETCH_TIMEOUT_US` as built (OPEN parameter, log 4). -/
opaque Config.sclStretchTimeoutUs : Nat

/-- `F_CLK_HZ` as built (OPEN parameter, log 4). -/
opaque Config.fClkHz : Nat

/-- The parameters of the built block. -/
def Config.params : Params where
  defaultDelayUs := Config.defaultDelayUs
  busIdleTimeoutUs := Config.busIdleTimeoutUs
  sclStretchTimeoutUs := Config.sclStretchTimeoutUs
  fClkHz := Config.fClkHz

/-- FREE VALUE (log 2). The bus environment's oracle `Env(trace, now_us, L)` of 40_open_drain_driver.md R42: whether
some other device holds L low at a sample. The first argument numbers the draws, so that two runs with one trace
(before and after a reset) need not agree. -/
opaque Config.extLow : Nat → List Event → Nat → Line → Bool

/-- FREE VALUE (log 7). The choice among the values of a host race (44_i2c_master.md R91). -/
opaque Config.freeChoice : Nat → Nat

/-- FREE VALUE (logs 7, 8). A byte the spec leaves open: the answer of a host that does not answer a buffer read
with the stored byte (44_i2c_master.md R91), and `data` of a failed READ_BYTE (43_byte_transfer_engine.md R76). -/
opaque Config.freeByte : Nat → Byte

end Sys2Proof
end

