-- ==== Sys2Proof/Machine/State.lean ====
section
/-! DEFINITION. The state of the block (10_state.md), its inputs as plain data, the reasons a step can stop, and the
state right after reset (70_reset_and_hazards.md R117). -/

namespace Sys2Proof.Machine

/-- The states of the transaction state machine (10_state.md R18). -/
inductive Phase where
  | idle
  | start
  | address
  | data
  | stop
  | aborted
  deriving DecidableEq, Repr

/-- The causes a command can fail for (60_exceptions.md R95). -/
inductive Cause where
  | busBusyTimeout
  | clockStretchTimeout
  | nack
  | arbitrationLost
  | rejected
  deriving DecidableEq, Repr

/-- The host's byte buffer: index and byte, in canonical form (`Memory.wf`). -/
abbrev Memory := List Host.Cell

/-- The state of the block, with its inputs held as plain data. -/
structure State where
  /-- The build parameters (00_scope.md R2). -/
  params : Params
  /-- `sda_drv`: 1 drives SDA low, 0 releases it (R5). -/
  sdaDrv : Bool
  /-- `scl_drv`: 1 drives SCL low, 0 releases it (R5). -/
  sclDrv : Bool
  /-- `delay_us` (R6). -/
  delayUs : BitVec 31
  /-- `arb_lost`, the sticky flag and the output signal (R7). -/
  arbLost : Bool
  /-- `rsp_result` (R9). -/
  rspResult : Bool
  /-- `rsp_err` (R9, R41). -/
  rspErr : BitVec 3
  /-- `rsp_arb` (R9). -/
  rspArb : Bool
  /-- `rsp_valid`: 1 from a response to the next step (R21). -/
  rspValid : Bool
  /-- `t_addr` (R10). -/
  tAddr : BitVec 7
  /-- `t_rw`: 0 write, 1 read (R10). -/
  tRw : Bool
  /-- `t_len` (R10). -/
  tLen : BitVec 16
  /-- `byte_idx` (R11). -/
  byteIdx : BitVec 16
  /-- `tx_byte` (R12). -/
  txByte : Byte
  /-- `bit_cnt`, the number of data bits done (R12). -/
  bitCnt : Nat
  /-- `cur_bit` (R12). -/
  curBit : Bool
  /-- `rx_acc` (R13). -/
  rxAcc : Byte
  /-- `ack`, the ACK sample of the last WRITE_BYTE (R14). -/
  ack : Bool
  /-- `wait_elapsed` (R15). -/
  waitElapsed : Nat
  /-- The delay counter, which a delay loads and counts down to 0 (60_exceptions.md R112). -/
  delayCnt : BitVec 31
  /-- `cause` (R16), coded as `rsp_err` is. -/
  cause : BitVec 3
  /-- `tcs`: the timing-critical section is held (R17). -/
  tcs : Bool
  /-- `phase`, the program counter analogue (R18). -/
  phase : Phase
  /-- A command has been accepted and its response has not yet been made (R19). -/
  active : Bool
  /-- `buf_rd`: 1 from a buffer read to the next atomic step (R20; 20_memory.md R29). -/
  bufRd : Bool
  /-- `buf_wr`: 1 from a buffer write to the next atomic step (R20; 20_memory.md R29). -/
  bufWr : Bool
  /-- `buf_idx` (R20; 20_memory.md R29). -/
  bufIdx : BitVec 16
  /-- `buf_wdata` (R20; 20_memory.md R29). -/
  bufWdata : Byte
  /-- The bus trace, oldest event first (R26). -/
  trace : List Event
  /-- `now_us`, model time (R27). -/
  nowUs : Nat
  /-- The host's byte buffer (20_memory.md R28, R29). -/
  buf : Memory
  /-- INPUT: how many bytes the host's buffer has (20_memory.md R28; 44_i2c_master.md R91). -/
  bufLen : Nat
  /-- INPUT: the commands the host presents, oldest first: `cmd_word` and `cmd_arg` (R20, R21). -/
  port : List (Word × Word)
  /-- INPUT: after how many more acceptances, atomic steps and waiting cycles `rst_n` is 0; none when no reset is coming
  (R117, R118; log 9). -/
  rstIn : Option Nat
  /-- INPUT: the bytes the host writes to the buffer while the next message runs (R91, a broken duty). -/
  hostWrites : List (BitVec 16 × Byte)
  /-- INPUT: the indices at which the host does not answer with the stored byte (R91, a broken duty). -/
  misanswers : List (BitVec 16)
  /-- INPUT: `ext_low(SDA)` at the coming samples of SDA (40_open_drain_driver.md R42). -/
  extSda : List Bool
  /-- INPUT: `ext_low(SCL)` at the coming samples of SCL (40_open_drain_driver.md R42). -/
  extScl : List Bool
  /-- MODEL'S OWN (log 8): the micro-operation the sequencer runs next by itself. -/
  uop : Option Byte
  /-- MODEL'S OWN (log 8): the byte operand of a WRITE_BYTE run by itself. -/
  uopByte : Byte
  /-- MODEL'S OWN (log 8): a DELAY run by itself is a poll step (1) or a delay step (0). -/
  uopPoll : Bool
  /-- MODEL'S OWN (log 8): what an internal operation run by itself handed back to its caller. -/
  uopResult : Bool
  /-- MODEL'S OWN (log 8): the `data` result of a READ_BYTE run by itself. -/
  uopData : Byte
  /-- MODEL'S OWN (log 2): how many free values have been drawn. -/
  freeCtr : Nat
  deriving DecidableEq, Repr

/-- Why the block has no step. -/
inductive Fault where
  /-- The block is stuck in a message at a buffer access beyond the end of the host's buffer: "a model's buffer access
  has no step (the block is stuck)" (44_i2c_master.md R91). Raised by `step` of a busy block when no reset is coming.
  Safe: the model stops. -/
  | bufferTooShort
  deriving DecidableEq, Repr

/-- Why the model gives no meaning. -/
inductive Refusal where
  /-- Raised by `exec` for an instruction that has no meaning yet. Safe. -/
  | notModelled (mnemonic : String)
  /-- Raised by `step` for a micro-operation code that names no operation (30_encoding.md R135). Safe: no port of the
  hardware carries such a code. -/
  | noSuchOperation
  deriving DecidableEq, Repr

/-- The state right after reset (70_reset_and_hazards.md R117). The registers the spec leaves unspecified after reset
hold 0 (log 3), the inputs are quiet (logs 2, 6, 7, 9), and the model's own fields are 0 (log 8). -/
def State.reset : State where
  params := Config.params
  sdaDrv := false
  sclDrv := false
  delayUs := Config.defaultDelayUs
  arbLost := false
  rspResult := false
  rspErr := 0#3
  rspArb := false
  rspValid := false
  tAddr := 0#7
  tRw := false
  tLen := 0#16
  byteIdx := 0#16
  txByte := 0#8
  bitCnt := 0
  curBit := false
  rxAcc := 0#8
  ack := false
  waitElapsed := 0
  delayCnt := 0#31
  cause := 0#3
  tcs := false
  phase := .idle
  active := false
  bufRd := false
  bufWr := false
  bufIdx := 0#16
  bufWdata := 0#8
  trace := []
  nowUs := 0
  buf := []
  bufLen := 65536
  port := []
  rstIn := none
  hostWrites := []
  misanswers := []
  extSda := []
  extScl := []
  uop := none
  uopByte := 0#8
  uopPoll := false
  uopResult := false
  uopData := 0#8
  freeCtr := 0

end Sys2Proof.Machine
end

