-- ==== Sys2Proof/Machine/Flags.lean ====
section
/-! DEFINITION. Levels, flags and codes: the wired-AND of a line, the arbitration check, the ACK flag, the cause
register and its codes. -/

namespace Sys2Proof.Machine

/-- The level of a line, the wired-AND of its drivers: 0 when the controller drives it low or another device holds it
low, else 1 (40_open_drain_driver.md R42). -/
def level (drv ext : Bool) : Bool := !(drv || ext)

/-- The arbitration check at a data bit: lost when the bit sent is 1 and SDA reads 0 (43_byte_transfer_engine.md
R73). -/
def lostArbitration (bit sda : Bool) : Bool := bit && !sda

/-- The ACK flag from the ACK sample: 1 when SDA reads 0 (43_byte_transfer_engine.md R74). -/
def ackFlag (sda : Bool) : Bool := !sda

/-- `rsp_err` code OK (30_encoding.md R41). -/
def codeOk : BitVec 3 := 0#3

/-- The `rsp_err` code of a cause (30_encoding.md R41). -/
def Cause.code : Cause → BitVec 3
  | .busBusyTimeout => 1#3
  | .clockStretchTimeout => 2#3
  | .nack => 3#3
  | .arbitrationLost => 4#3
  | .rejected => 7#3

/-- What a `raise` leaves in the cause register: the first cause stays (60_exceptions.md R110). -/
def firstCause (old : BitVec 3) (c : Cause) : BitVec 3 := if old = codeOk then c.code else old

end Sys2Proof.Machine
end

