-- ==== Sys2Proof/Machine/Operands.lean ====
section
/-! DEFINITION. The operand forms: the clamp of SET_DELAY, the address byte, the ACK request of a read byte, and the
bit orders on the wire. -/

namespace Sys2Proof.Machine

/-- `cmd_arg` of a SET_DELAY: the signed delay in two's complement (30_encoding.md R37). -/
def argWord (us : Int) : Word := BitVec.ofInt 32 us

/-- The clamp law (41_timing_and_timeout.md R53): 1 for an argument of at most 0, else its bits `[30:0]`. -/
def clamp (a : Word) : BitVec 31 := if a.toInt ≤ 0 then 1#31 else a.extractLsb' 0 31

/-- The R/W bit of the address byte: WRITE is 0, READ is 1 (30_encoding.md R39, D8). -/
def rwWrite : Bool := false

/-- See `rwWrite`. -/
def rwRead : Bool := true

/-- The address byte `{t_addr[6:0], t_rw}` (30_encoding.md R39). -/
def addressByte (addr : BitVec 7) (rw : Bool) : Byte := addr ++ BitVec.ofBool rw

/-- The ACK request of read byte i of n: 1 when i < n - 1, 0 for the last byte (44_i2c_master.md R92). -/
def ackRequest (i n : BitVec 16) : Bool := decide (i.toNat + 1 < n.toNat)

/-- Data bit `v[7 - k]`, the k-th on the wire: most significant first (43_byte_transfer_engine.md R66, R72). -/
def wireBit (v : Byte) (k : Nat) : Bool := v.getLsbD (7 - k)

/-- `{acc[6:0], b}`: the sampled bit enters at the least significant end (43_byte_transfer_engine.md R76). -/
def shiftIn (acc : Byte) (b : Bool) : Byte := acc.extractLsb' 0 7 ++ BitVec.ofBool b

end Sys2Proof.Machine
end

