-- ==== Sys2Proof/Machine/Pins.lean ====
section
/-! DEFINITION. The output signals that are functions of the state (10_state.md R19, R20; 40_open_drain_driver.md R46,
R47). The other outputs are fields of State under their own names. -/

namespace Sys2Proof.Machine

/-- The output state of a line: 1 drives it low (10_state.md R5). -/
def State.drv (s : State) : Line → Bool
  | .sda => s.sdaDrv
  | .scl => s.sclDrv

/-- `sda_oe`, `scl_oe`: equal to `sda_drv`, `scl_drv` (40_open_drain_driver.md R46). -/
def State.oe (s : State) (line : Line) : Bool := s.drv line

/-- `sda_pu`, `scl_pu`: the pull-up is on whenever the line is released (40_open_drain_driver.md R47). -/
def State.pu (s : State) (line : Line) : Bool := !s.oe line

/-- The pad output data, tied to 0: no operation can drive a line high (40_open_drain_driver.md R46). -/
def padData : Bool := false

/-- `busy`: `phase` is not IDLE, or a command has been accepted and has not responded (10_state.md R19). So it is 0 while
`rsp_valid` is 1 (log 14). -/
def State.busy (s : State) : Bool := decide (s.phase ≠ .idle) || s.active

/-- `cmd_ready`: `not busy` (10_state.md R20). -/
def State.cmdReady (s : State) : Bool := !s.busy

/-- `cmd_valid`: the host presents a command (10_state.md R20). -/
def State.cmdValid (s : State) : Bool := !s.port.isEmpty

end Sys2Proof.Machine
end

