-- ==== Sys2Proof/Machine/Ops.lean ====
section
/-! DEFINITION. The named operations over the state that the meanings share: the trace, the lines, the environment's
draws, the host's buffer, the cause register (taking a failure), acceptance and response (the return), and reset. -/

namespace Sys2Proof.Machine

/-! ### The trace -/

/-- `emit(e)`: one atomic step appends one event (10_state.md R26). The pulse outputs of the step before it,
`rsp_valid`, `buf_rd` and `buf_wr`, last until this step (10_state.md R20, R21). -/
def emit (e : Event) (s : State) : State :=
  { s with trace := s.trace ++ [e], rspValid := false, bufRd := false, bufWr := false }

/-! ### Register writes between two atomic steps (10_state.md R24) -/

/-- `phase <- p` (10_state.md R18). -/
def setPhase (p : Phase) (s : State) : State := { s with phase := p }

/-- Write `arb_lost` (10_state.md R7). -/
def setArbLost (b : Bool) (s : State) : State := { s with arbLost := b }

/-- Write `cause` (10_state.md R16). -/
def setCause (c : BitVec 3) (s : State) : State := { s with cause := c }

/-- Write `tcs` (10_state.md R17). -/
def setTcs (b : Bool) (s : State) : State := { s with tcs := b }

/-- Write `wait_elapsed` (10_state.md R15). -/
def setWaitElapsed (n : Nat) (s : State) : State := { s with waitElapsed := n }

/-- Write `byte_idx` (10_state.md R11). -/
def setByteIdx (i : BitVec 16) (s : State) : State := { s with byteIdx := i }

/-- Write `tx_byte` (10_state.md R12). -/
def setTxByte (v : Byte) (s : State) : State := { s with txByte := v }

/-- Write `bit_cnt` (10_state.md R12). -/
def setBitCnt (n : Nat) (s : State) : State := { s with bitCnt := n }

/-- Write `cur_bit` (10_state.md R12). -/
def setCurBit (b : Bool) (s : State) : State := { s with curBit := b }

/-- Write `rx_acc` (10_state.md R13). -/
def setRxAcc (v : Byte) (s : State) : State := { s with rxAcc := v }

/-- Write `ack` (10_state.md R14). -/
def setAck (b : Bool) (s : State) : State := { s with ack := b }

/-- Write `delay_us` (10_state.md R6). -/
def setDelayUs (d : BitVec 31) (s : State) : State := { s with delayUs := d }

/-- `n` microseconds pass (10_state.md R27); the delay counter, loaded with n, has counted down to 0 (60_exceptions.md
R112). -/
def passTime (n : Nat) (s : State) : State := { s with nowUs := s.nowUs + n, delayCnt := 0#31 }

/-- Hand back the boolean or level of an internal operation run by itself (log 8). -/
def setUopResult (b : Bool) (s : State) : State := { s with uopResult := b }

/-- Hand back the `data` of a READ_BYTE run by itself (log 8). -/
def setUopData (v : Byte) (s : State) : State := { s with uopData := v }

/-- One more free value has been drawn (log 2). -/
def countFree (s : State) : State := { s with freeCtr := s.freeCtr + 1 }

/-- Replace the commands at the port (10_state.md R21). -/
def setPort (p : List (Word × Word)) (s : State) : State := { s with port := p }

/-- Load or empty the sequencer's micro-operation latch (log 8). -/
def setUop (u : Option Byte) (s : State) : State := { s with uop := u }

/-- Replace the count to a coming reset (70_reset_and_hazards.md R118). -/
def setRstIn (r : Option Nat) (s : State) : State := { s with rstIn := r }

/-! ### The lines -/

/-- Write the output state of a line (10_state.md R5). -/
def setDrv (line : Line) (low : Bool) (s : State) : State :=
  match line with
  | .sda => { s with sdaDrv := low }
  | .scl => { s with sclDrv := low }

/-- The environment's answers still scripted for a line. -/
def State.ext (s : State) : Line → List Bool
  | .sda => s.extSda
  | .scl => s.extScl

/-- Replace the scripted answers for a line. -/
def setExt (line : Line) (bits : List Bool) (s : State) : State :=
  match line with
  | .sda => { s with extSda := bits }
  | .scl => { s with extScl := bits }

/-- The draw `Env(trace, now_us, L)` of 40_open_drain_driver.md R42: the next scripted answer, and a free value of the
oracle when the script has run out (log 2). -/
def drawExt (line : Line) (s : State) : Bool × State :=
  match s.ext line with
  | b :: rest => (b, setExt line rest s)
  | [] => (Config.extLow s.freeCtr s.trace s.nowUs line, countFree s)

/-! ### The host's byte buffer -/

/-- Canonical form from index `lo` on: indices strictly rising and below 2^16, no entry equal to what an unlisted
index reads as. -/
def Memory.wfFrom : Nat → Memory → Bool
  | _, [] => true
  | lo, (i, v) :: m => decide (lo ≤ i) && decide (i < Config.bufIndices) && decide (v ≠ Config.bufFill) && Memory.wfFrom (i + 1) m

/-- The buffer is in canonical form. -/
def Memory.wf (m : Memory) : Bool := Memory.wfFrom 0 m

/-- The byte at an index; an unlisted index reads `Config.bufFill` (log 5). -/
def Memory.read : Memory → Nat → Byte
  | [], _ => Config.bufFill
  | (j, w) :: m, i => if i = j then w else Memory.read m i

/-- Store a byte at an index, keeping the canonical form. -/
def Memory.write : Memory → Nat → Byte → Memory
  | [], i, v => if v = Config.bufFill then [] else [(i, v)]
  | (j, w) :: m, i, v =>
    if i < j then (if v = Config.bufFill then (j, w) :: m else (i, v) :: (j, w) :: m)
    else if i = j then (if v = Config.bufFill then m else (i, v) :: m)
    else (j, w) :: Memory.write m i v

/-- The bytes the host writes to an index while the message runs, oldest first, when it breaks that duty
(44_i2c_master.md R91). -/
def State.hostBytes (s : State) (i : BitVec 16) : List Byte := (s.hostWrites.filter (fun c => c.1 == i)).map (·.2)

/-- One of the values of a host race (44_i2c_master.md R91): the block's `v` or one of the host's. -/
def pickByte (ctr : Nat) (v : Byte) (ws : List Byte) : Byte :=
  ((v :: ws)[Config.freeChoice ctr % (ws.length + 1)]?).getD v

/-- The byte the host gives for index i (20_memory.md R29): the stored byte. When the host writes that byte while the
message runs, either the old or a new value; when it does not answer with the stored byte, any value
(44_i2c_master.md R91; 93_implementation_defined.md §2). -/
def answerRead (i : BitVec 16) (s : State) : Byte × State :=
  if s.misanswers.contains i then (Config.freeByte s.freeCtr, countFree s)
  else match s.hostBytes i with
    | [] => (s.buf.read i.toNat, s)
    | w :: ws => (pickByte s.freeCtr (s.buf.read i.toNat) (w :: ws), countFree s)

/-- The strobe of a buffer read (20_memory.md R29). DESIGN CHOICE (log 13): a read leaves `buf_wdata` as it was, and after
an access `buf_idx` and `buf_wdata` keep its values. -/
def strobeRead (i : BitVec 16) (s : State) : State := { s with bufRd := true, bufIdx := i }

/-- `MemRead(i, 1)` (20_memory.md R29). No step when the host's buffer is too short (44_i2c_master.md R91). -/
def memRead (i : BitVec 16) (s : State) : Option (Byte × State) :=
  if i.toNat < s.bufLen then
    let a := answerRead i s
    some (a.1, strobeRead i (emit (.br i a.1) a.2))
  else none

/-- Write the buffer (20_memory.md R29). -/
def setBuf (m : Memory) (s : State) : State := { s with buf := m }

/-- The host's writes to index i have met the block's (log 7). -/
def dropHostBytes (i : BitVec 16) (s : State) : State :=
  { s with hostWrites := s.hostWrites.filter (fun c => c.1 != i) }

/-- The buffer after the block's write of v to index i. When the host touches that index while the message runs, the
byte left is either a host's value or the block's (93_implementation_defined.md §2). -/
def storeByte (i : BitVec 16) (v : Byte) (s : State) : State :=
  match s.hostBytes i with
  | [] => setBuf (s.buf.write i.toNat v) s
  | w :: ws =>
    countFree (dropHostBytes i (setBuf (s.buf.write i.toNat (pickByte s.freeCtr v (w :: ws))) s))

/-- The strobe of a buffer write (20_memory.md R29). `buf_idx` and `buf_wdata` keep its values (log 13). -/
def strobeWrite (i : BitVec 16) (v : Byte) (s : State) : State :=
  { s with bufWr := true, bufIdx := i, bufWdata := v }

/-- `MemWrite(i, 1, v)` (20_memory.md R29). No step when the host's buffer is too short (44_i2c_master.md R91). -/
def memWrite (i : BitVec 16) (v : Byte) (s : State) : Option State :=
  if i.toNat < s.bufLen then
    some (strobeWrite i v (emit (.bw i v) (storeByte i v s)))
  else none

/-- The host's own writes are in the buffer at the end of the message at the latest; its broken duties concern that
message only (log 7). -/
def landHostWrites (s : State) : State :=
  { s with
    buf := s.hostWrites.foldl (fun m c => Memory.write m c.1.toNat c.2) s.buf
    hostWrites := []
    misanswers := [] }

/-! ### Taking a failure, and the return -/

/-- `raise C` (60_exceptions.md R110): the first cause is recorded and stays. The operation that raises it hands back
`false`. -/
def raise (c : Cause) (s : State) : State := setCause (firstCause s.cause c) s

/-- Acceptance of a command (44_i2c_master.md R80): `cause` is OK again and the block is busy. The `rsp_valid` pulse
of the command before it is over (10_state.md R21). -/
def accept (s : State) : State := { s with cause := codeOk, active := true, rspValid := false }

/-- `Respond(r)`, the last step of every command (44_i2c_master.md R85): the return (60_exceptions.md R106).
DESIGN CHOICE (log 12): the registers that are unspecified outside a transaction (10_state.md §3) keep their last values.
DESIGN CHOICE (log 14): the block is ready, `busy` 0, while `rsp_valid` is 1. -/
def respond (r : Bool) (s : State) : State :=
  { emit (.rsp r s.cause s.arbLost) s with
    rspResult := r, rspErr := s.cause, rspArb := s.arbLost, rspValid := true, active := false }

/-! ### Reset -/

/-- Reset at a rising edge of `clk` with `rst_n` = 0 (70_reset_and_hazards.md R117): the state after reset with this
block's own parameters. The host's buffer (with the host's own writes), its commands at the port, and the
environment's coming answers are outside the block and stay; the free values go on being fresh. -/
def hardReset (s : State) : State :=
  { State.reset with
    params := s.params
    delayUs := s.params.defaultDelayUs
    buf := (landHostWrites s).buf
    bufLen := s.bufLen
    port := s.port
    extSda := s.extSda
    extScl := s.extScl
    freeCtr := s.freeCtr }

/-- What one event of an abandoned command leaves outside the block: the byte it stored in the host's buffer, and the
environment's answers it used up. -/
def replayEvent (s : State) (e : Event) : State :=
  match e with
  | .dl _ => s
  | .rl _ => s
  | .sm line _ => (drawExt line s).2
  | .sm2 _ _ => (drawExt .scl (drawExt .sda s).2).2
  | .dy _ => s
  | .br _ _ => s
  | .bw i v => storeByte i v s
  | .ta => s
  | .tr => s
  | .rsp _ _ _ => s

/-- A command from `s` that would have ended in `t`, abandoned by a reset after `k` of its atomic steps: no response,
no STOP, both lines released, and no buffer write after the reset (70_reset_and_hazards.md R118). Everything else of
the block is overwritten by the reset, so the first `k` events say all that is left (log 9). -/
def abandon (k : Nat) (s t : State) : State :=
  hardReset (((t.trace.drop s.trace.length).take k).foldl replayEvent { s with freeCtr := t.freeCtr })

end Sys2Proof.Machine
end

