-- ==== Sys2Proof/Machine/Accessors.lean ====
section
/-! DEFINITION. The accessor commands SET_DELAY, GET_ARB_LOST and CLEAR_ARB (44_i2c_master.md R86, R87, R88). They make
no line event, no delay and no buffer access, and leave `phase` alone (R81). -/

namespace Sys2Proof.Machine

/-- SET_DELAY (44_i2c_master.md R86). -/
def execSetDelay (us : Int) (s : State) : Host.Outcome State Fault Refusal :=
  .next (respond true (setDelayUs (clamp (argWord us)) (accept s)))

/-- GET_ARB_LOST (44_i2c_master.md R87): `rsp_result` is the flag, and reading does not clear it. -/
def execGetArbLost (s : State) : Host.Outcome State Fault Refusal :=
  .next (respond s.arbLost (accept s))

/-- CLEAR_ARB (44_i2c_master.md R88). -/
def execClearArb (s : State) : Host.Outcome State Fault Refusal :=
  .next (respond true (setArbLost false (accept s)))

end Sys2Proof.Machine
end

