-- ==== Sys2Proof/Machine/LineDriver.lean ====
section
/-! DEFINITION. open_drain_driver: the three line primitives (40_open_drain_driver.md R43, R44, R45) and the two-line
sample (41_timing_and_timeout.md R55), and the meanings of DRIVE_LOW, RELEASE and READ_LEVEL. -/

namespace Sys2Proof.Machine

/-- `DriveLow(L)` (40_open_drain_driver.md R43). -/
def driveLow (line : Line) (s : State) : State := emit (.dl line) (setDrv line true s)

/-- `Release(L)` (40_open_drain_driver.md R44). -/
def release (line : Line) (s : State) : State := emit (.rl line) (setDrv line false s)

/-- Release for a 1, drive low for a 0 (43_byte_transfer_engine.md R68). -/
def setLine (line : Line) (bit : Bool) (s : State) : State :=
  if bit then release line s else driveLow line s

/-- `Sample(L)` (40_open_drain_driver.md R45): the level, and the state after. -/
def sample (line : Line) (s : State) : Bool × State :=
  let d := drawExt line s
  let v := level (s.drv line) d.1
  (v, emit (.sm line v) d.2)

/-- `Sample2()` (41_timing_and_timeout.md R55): both levels at one instant, in one atomic step. -/
def sample2 (s : State) : (Bool × Bool) × State :=
  let a := drawExt .sda s
  let b := drawExt .scl a.2
  let va := level s.sdaDrv a.1
  let vb := level s.sclDrv b.1
  ((va, vb), emit (.sm2 va vb) b.2)

/-- DRIVE_LOW (40_open_drain_driver.md R43). -/
def execDriveLow (line : Line) (s : State) : Host.Outcome State Fault Refusal := .next (driveLow line s)

/-- RELEASE (40_open_drain_driver.md R44). -/
def execRelease (line : Line) (s : State) : Host.Outcome State Fault Refusal := .next (release line s)

/-- READ_LEVEL (40_open_drain_driver.md R45). Its result goes to the caller (log 8). -/
def execReadLevel (line : Line) (s : State) : Host.Outcome State Fault Refusal :=
  let r := sample line s
  .next (setUopResult r.1 r.2)

end Sys2Proof.Machine
end

