-- ==== Sys2Proof/Machine/Timing.lean ====
section
/-! DEFINITION. clock_stretching_timeout: the delay and the two bounded waits (41_timing_and_timeout.md), and the
meanings of DELAY, WAIT_BUS_IDLE and WAIT_SCL_HIGH. -/

namespace Sys2Proof.Machine

/-- `Delay(n)` (41_timing_and_timeout.md R51). The delay counter is loaded with n and has counted down to 0 when the
delay ends (60_exceptions.md R112). -/
def delay (n : Nat) (s : State) : State := emit (.dy n) (passTime n s)

/-- A delay step: `Delay(delay_us)` (41_timing_and_timeout.md R52). -/
def delayStep (s : State) : State := delay s.delayUs.toNat s

/-- The poll step of a wait loop: `Delay(POLL_STEP_US)`, and `wait_elapsed` goes up by as much (41_timing_and_timeout.md
R54, R56). -/
def pollStep (s : State) : State :=
  setWaitElapsed (s.waitElapsed + Config.pollStepUs) (delay Config.pollStepUs s)

/-- The loop of WAIT_BUS_IDLE (41_timing_and_timeout.md R54), `left` poll steps before the timeout: `left` is
`BUS_IDLE_TIMEOUT_US - wait_elapsed`, so that `wait_elapsed >= BUS_IDLE_TIMEOUT_US` is `left` = 0. -/
def busIdleLoop : Nat → State → Bool × State
  | 0, s =>
    let r := sample2 s
    if r.1.1 && r.1.2 then (true, r.2) else (false, raise .busBusyTimeout r.2)
  | left + 1, s =>
    let r := sample2 s
    if r.1.1 && r.1.2 then (true, r.2) else busIdleLoop left (pollStep r.2)

/-- WAIT_BUS_IDLE (41_timing_and_timeout.md R54): the result and the state after. -/
def waitBusIdle (s : State) : Bool × State :=
  busIdleLoop s.params.busIdleTimeoutUs (setWaitElapsed 0 (release .scl (release .sda s)))

/-- The loop of WAIT_SCL_HIGH (41_timing_and_timeout.md R56), `left` poll steps before the timeout. -/
def sclHighLoop : Nat → State → Bool × State
  | 0, s =>
    let r := sample .scl s
    if r.1 then (true, r.2) else (false, raise .clockStretchTimeout r.2)
  | left + 1, s =>
    let r := sample .scl s
    if r.1 then (true, r.2) else sclHighLoop left (pollStep r.2)

/-- WAIT_SCL_HIGH (41_timing_and_timeout.md R56): the result and the state after. -/
def waitSclHigh (s : State) : Bool × State :=
  sclHighLoop s.params.sclStretchTimeoutUs (setWaitElapsed 0 s)

/-- DELAY (41_timing_and_timeout.md R51): its length is `delay_us` or, in a wait loop, `POLL_STEP_US`
(30_encoding.md R135; log 8). -/
def execDelay (s : State) : Host.Outcome State Fault Refusal :=
  .next (if s.uopPoll then delay Config.pollStepUs s else delayStep s)

/-- WAIT_BUS_IDLE (41_timing_and_timeout.md R54). Its result goes to the caller (log 8). -/
def execWaitBusIdle (s : State) : Host.Outcome State Fault Refusal :=
  let r := waitBusIdle s
  .next (setUopResult r.1 r.2)

/-- WAIT_SCL_HIGH (41_timing_and_timeout.md R56). Its result goes to the caller (log 8). -/
def execWaitSclHigh (s : State) : Host.Outcome State Fault Refusal :=
  let r := waitSclHigh s
  .next (setUopResult r.1 r.2)

end Sys2Proof.Machine
end

