-- ==== Sys2Proof/Machine/BusConditions.lean ====
section
/-! DEFINITION. The bus-condition sequencer: START and STOP (42_bus_conditions.md R61, R62) and their meanings. -/

namespace Sys2Proof.Machine

/-- START (42_bus_conditions.md R61): the result and the state after. -/
def startCondition (s : State) : Bool × State :=
  let w := waitBusIdle (setArbLost false s)
  if w.1 then (true, driveLow .scl (delayStep (driveLow .sda w.2))) else (false, w.2)

/-- The branch of STOP that drives the bus (42_bus_conditions.md R62). A timeout of its wait is absorbed: `cause` is
what it was (60_exceptions.md R107). -/
def stopDriving (s : State) : State :=
  let w := waitSclHigh (release .scl (driveLow .sda s))
  if w.1 then release .sda (delayStep w.2) else release .sda (setCause s.cause w.2)

/-- STOP (42_bus_conditions.md R62): when arbitration was lost it only releases the lines. -/
def stopCondition (s : State) : State :=
  if s.arbLost then release .scl (release .sda s) else stopDriving s

/-- START (42_bus_conditions.md R61). Its result goes to the caller (log 8). -/
def execStart (s : State) : Host.Outcome State Fault Refusal :=
  let r := startCondition s
  .next (setUopResult r.1 r.2)

/-- STOP (42_bus_conditions.md R62). It hands back nothing. -/
def execStop (s : State) : Host.Outcome State Fault Refusal := .next (stopCondition s)

end Sys2Proof.Machine
end

