-- ==== Sys2Proof/Machine/ByteEngine.lean ====
section
/-! DEFINITION. byte_transfer_engine and arbitration_detector: WRITE_BYTE and READ_BYTE (43_byte_transfer_engine.md)
and their meanings. -/

namespace Sys2Proof.Machine

/-- How a bit cell ends (43_byte_transfer_engine.md R72, R76). -/
inductive CellEnd where
  /-- The bit was clocked. -/
  | done
  /-- WAIT_SCL_HIGH failed (R75). -/
  | timeout
  /-- The arbitration detector saw SDA low (R73). -/
  | lost
  deriving DecidableEq, Repr

/-- Acquire the timing-critical section (43_byte_transfer_engine.md R67). -/
def acquireTcs (s : State) : State := emit .ta (setTcs true s)

/-- Release the timing-critical section (43_byte_transfer_engine.md R67). -/
def releaseTcs (s : State) : State := emit .tr (setTcs false s)

/-- Step 6 of a bit cell: SCL is driven low and one more data bit is done (43_byte_transfer_engine.md R68, R72). -/
def endCell (s : State) : State :=
  setBitCnt (s.bitCnt + 1) (driveLow .scl s)

/-- Step 5 of a data bit of WRITE_BYTE after its delay, with the arbitration detector, then step 6
(43_byte_transfer_engine.md R72, R73). -/
def arbitrate (s : State) : CellEnd × State :=
  if s.curBit then
    let r := sample .sda s
    if lostArbitration s.curBit r.1 then (.lost, setArbLost true r.2) else (.done, endCell r.2)
  else (.done, endCell s)

/-- One data bit cell of WRITE_BYTE (43_byte_transfer_engine.md R68, R72). -/
def writeCell (s : State) : CellEnd × State :=
  let b := wireBit s.txByte s.bitCnt
  let w := waitSclHigh (release .scl (delayStep (setLine .sda b (driveLow .scl (setCurBit b s)))))
  if w.1 then arbitrate (delayStep w.2) else (.timeout, w.2)

/-- The coming `n` data bit cells of WRITE_BYTE; the first that does not end well ends the byte. -/
def writeCells : Nat → State → CellEnd × State
  | 0, s => (.done, s)
  | n + 1, s =>
    let c := writeCell s
    if c.1 = .done then writeCells n c.2 else c

/-- The ACK bit of WRITE_BYTE (43_byte_transfer_engine.md R74): whether its wait succeeded, and the state after. -/
def receiveAck (s : State) : Bool × State :=
  let w := waitSclHigh (release .scl (release .sda s))
  if w.1 then
    let r := sample .sda (delayStep w.2)
    (true, release .sda (driveLow .scl (setAck (ackFlag r.1) r.2)))
  else (false, w.2)

/-- The end of WRITE_BYTE after a full ACK bit: NACK, or `ack && !arbitration_lost` (43_byte_transfer_engine.md
R72). -/
def writeResult (s : State) : Bool × State :=
  if s.ack then (!s.arbLost, s) else (false, raise .nack s)

/-- WRITE_BYTE(v) (43_byte_transfer_engine.md R72): the result and the state after. -/
def writeByte (v : Byte) (s : State) : Bool × State :=
  let c := writeCells 8 (setBitCnt 0 (setTxByte v (acquireTcs s)))
  match c.1 with
  | .timeout => (false, releaseTcs c.2)
  | .lost => (false, raise .arbitrationLost (releaseTcs c.2))
  | .done =>
    let a := receiveAck c.2
    if a.1 then writeResult (releaseTcs a.2) else (false, releaseTcs a.2)

/-- One data bit cell of READ_BYTE (43_byte_transfer_engine.md R68, R76). -/
def readCell (s : State) : CellEnd × State :=
  let w := waitSclHigh (release .scl (delayStep (release .sda (driveLow .scl s))))
  if w.1 then
    let r := sample .sda (delayStep w.2)
    (.done, endCell (setRxAcc (shiftIn r.2.rxAcc r.1) r.2))
  else (.timeout, w.2)

/-- The coming `n` data bit cells of READ_BYTE. -/
def readCells : Nat → State → CellEnd × State
  | 0, s => (.done, s)
  | n + 1, s =>
    let c := readCell s
    if c.1 = .done then readCells n c.2 else c

/-- The master's ACK bit of READ_BYTE (43_byte_transfer_engine.md R77): SDA driven low for ACK, released for NACK. -/
def sendAck (ackreq : Bool) (s : State) : Bool × State :=
  let w := waitSclHigh (release .scl (setLine .sda (!ackreq) s))
  if w.1 then (true, release .sda (driveLow .scl (delayStep w.2))) else (false, w.2)

/-- READ_BYTE(ackreq) (43_byte_transfer_engine.md R76): the result and the state after. When the result is `true`,
`data` is `rx_acc`. -/
def readByte (ackreq : Bool) (s : State) : Bool × State :=
  let c := readCells 8 (setBitCnt 0 (setRxAcc 0#8 (acquireTcs s)))
  if c.1 = .done then
    let a := sendAck ackreq c.2
    (a.1, releaseTcs a.2)
  else (false, releaseTcs c.2)

/-- WRITE_BYTE of the sequencer's byte operand (43_byte_transfer_engine.md R72; log 8). -/
def execWriteByte (s : State) : Host.Outcome State Fault Refusal :=
  let r := writeByte s.uopByte s
  .next (setUopResult r.1 r.2)

/-- READ_BYTE (43_byte_transfer_engine.md R76). "After a failure `data` is undefined": a free value (log 8). -/
def execReadByte (ackreq : Bool) (s : State) : Host.Outcome State Fault Refusal :=
  let r := readByte ackreq s
  .next (setUopResult r.1 (if r.1 then setUopData r.2.rxAcc r.2
    else setUopData (Config.freeByte r.2.freeCtr) (countFree r.2)))

end Sys2Proof.Machine
end

