-- ==== Sys2Proof/Machine/Messages.lean ====
section
/-! DEFINITION. The message commands WRITE_MESSAGE and READ_MESSAGE and the transaction state machine
(44_i2c_master.md R84, R89, R90; 10_state.md R18; 60_exceptions.md R105). -/

namespace Sys2Proof.Machine

/-- How the data phase of a message ends. -/
inductive DataEnd where
  /-- All `t_len` bytes are done. -/
  | done
  /-- A byte failed; the message is aborted. -/
  | failed
  /-- A buffer access has no step: the host's buffer is too short (44_i2c_master.md R91). -/
  | stuck
  deriving DecidableEq, Repr

/-- Acceptance of a message command opens a transaction (44_i2c_master.md R80, R84; 10_state.md R10). -/
def openTransaction (rw : Bool) (addr : BitVec 7) (len : BitVec 16) (s : State) : State :=
  { accept s with tAddr := addr, tRw := rw, tLen := len, phase := .start }

/-- The end of a message without STOP, after a failed START (42_bus_conditions.md R64; 90_conflicts.md C1). The registers of
the transaction keep their last values after it (log 12). -/
def endAtStart (s : State) : State := respond false (landHostWrites (setPhase .idle s))

/-- STOP, IDLE and the response: the end of a message after a successful START (44_i2c_master.md R89, R90). The registers
of the transaction keep their last values after it (log 12). -/
def endWithStop (r : Bool) (s : State) : State :=
  respond r (landHostWrites (setPhase .idle (stopCondition (setPhase .stop s))))

/-- The abort path (60_exceptions.md R105): ABORTED, STOP, IDLE and the response `false`. -/
def abortMessage (s : State) : State := endWithStop false (setPhase .aborted s)

/-- One data byte is done (10_state.md R11). -/
def nextByte (s : State) : State := setByteIdx (s.byteIdx + 1#16) s

/-- The data phase of WRITE_MESSAGE with `n` bytes to go, `n` = `t_len - byte_idx` (44_i2c_master.md R89;
20_memory.md R33). -/
def writeData : Nat → State → DataEnd × State
  | 0, s => (.done, s)
  | n + 1, s =>
    match memRead s.byteIdx s with
    | none => (.stuck, s)
    | some m =>
      let w := writeByte m.1 m.2
      if w.1 then writeData n (nextByte w.2) else (.failed, w.2)

/-- The data phase of READ_MESSAGE with `n` bytes to go, `n` = `t_len - byte_idx` (44_i2c_master.md R90;
20_memory.md R33). -/
def readData : Nat → State → DataEnd × State
  | 0, s => (.done, s)
  | n + 1, s =>
    let r := readByte (ackRequest s.byteIdx s.tLen) s
    if r.1 then
      match memWrite r.2.byteIdx r.2.rxAcc r.2 with
      | none => (.stuck, r.2)
      | some t => readData n (nextByte t)
    else (.failed, r.2)

/-- The data phase: `byte_idx` is 0 when the address phase ends (10_state.md R11). -/
def dataPhase (rw : Bool) (s : State) : DataEnd × State :=
  let t := setByteIdx 0#16 (setPhase .data s)
  if rw then readData t.tLen.toNat t else writeData t.tLen.toNat t

/-- The end of a message after its data phase. A block stuck at a buffer access stays where it is, busy, with no
response (44_i2c_master.md R91). -/
def endMessage (d : DataEnd × State) : State :=
  match d.1 with
  | .done => endWithStop true d.2
  | .failed => abortMessage d.2
  | .stuck => d.2

/-- A message command from acceptance to its end (44_i2c_master.md R89, R90). -/
def runMessage (rw : Bool) (addr : BitVec 7) (len : BitVec 16) (s : State) : State :=
  let a := startCondition (openTransaction rw addr len s)
  if a.1 then
    let b := writeByte (addressByte a.2.tAddr a.2.tRw) (setPhase .address a.2)
    if b.1 then endMessage (dataPhase rw b.2) else abortMessage b.2
  else endAtStart a.2

/-- WRITE_MESSAGE (44_i2c_master.md R89). -/
def execWriteMessage (addr len : Nat) (s : State) : Host.Outcome State Fault Refusal :=
  .next (runMessage rwWrite (BitVec.ofNat 7 addr) (BitVec.ofNat 16 len) s)

/-- READ_MESSAGE (44_i2c_master.md R90). -/
def execReadMessage (addr len : Nat) (s : State) : Host.Outcome State Fault Refusal :=
  .next (runMessage rwRead (BitVec.ofNat 7 addr) (BitVec.ofNat 16 len) s)

end Sys2Proof.Machine
end

