-- ==== Sys2Proof/Machine/Reserved.lean ====
section
/-! DEFINITION. The reserved opcodes 0x0 and 0x6 to 0xF (44_i2c_master.md R82; 60_exceptions.md R100): each is accepted
and rejected with the response (0, REJECTED, `arb_lost`), with no bus activity and no buffer access. -/

namespace Sys2Proof.Machine

/-- Reject a command (44_i2c_master.md R82): raise REJECTED and respond `false`. -/
def rejectCommand (s : State) : State := respond false (raise .rejected (accept s))

/-- Reserved opcode 0x0. -/
def execReservedOp0 (s : State) : Host.Outcome State Fault Refusal := .next (rejectCommand s)

/-- Reserved opcode 0x6. -/
def execReservedOp6 (s : State) : Host.Outcome State Fault Refusal := .next (rejectCommand s)

/-- Reserved opcode 0x7. -/
def execReservedOp7 (s : State) : Host.Outcome State Fault Refusal := .next (rejectCommand s)

/-- Reserved opcode 0x8. -/
def execReservedOp8 (s : State) : Host.Outcome State Fault Refusal := .next (rejectCommand s)

/-- Reserved opcode 0x9. -/
def execReservedOp9 (s : State) : Host.Outcome State Fault Refusal := .next (rejectCommand s)

/-- Reserved opcode 0xA. -/
def execReservedOpA (s : State) : Host.Outcome State Fault Refusal := .next (rejectCommand s)

/-- Reserved opcode 0xB. -/
def execReservedOpB (s : State) : Host.Outcome State Fault Refusal := .next (rejectCommand s)

/-- Reserved opcode 0xC. -/
def execReservedOpC (s : State) : Host.Outcome State Fault Refusal := .next (rejectCommand s)

/-- Reserved opcode 0xD. -/
def execReservedOpD (s : State) : Host.Outcome State Fault Refusal := .next (rejectCommand s)

/-- Reserved opcode 0xE. -/
def execReservedOpE (s : State) : Host.Outcome State Fault Refusal := .next (rejectCommand s)

/-- Reserved opcode 0xF. -/
def execReservedOpF (s : State) : Host.Outcome State Fault Refusal := .next (rejectCommand s)

end Sys2Proof.Machine
end

