-- ==== Sys2Proof/Syntax.lean ====
section
/-! DEFINITION. The instructions: the host commands in the command syntax of 30_encoding.md R136, the reserved
opcodes, and the internal operations of 30_encoding.md R135. One constructor per row of spec/opcode_table.json. -/

namespace Sys2Proof

/-- An instruction. The operands of a command are the numbers of the command syntax (R136); `Instr.wellFormed` says
which of them are in range. -/
inductive Instr where
  /-- SET_DELAY `<int>`: a signed 32-bit delay in microseconds (44_i2c_master.md R86). -/
  | setDelay (us : Int)
  /-- GET_ARB_LOST (44_i2c_master.md R87). -/
  | getArbLost
  /-- CLEAR_ARB (44_i2c_master.md R88). -/
  | clearArb
  /-- WRITE_MESSAGE `<addr7>, <len>` (44_i2c_master.md R89). -/
  | writeMessage (addr len : Nat)
  /-- READ_MESSAGE `<addr7>, <len>` (44_i2c_master.md R90). -/
  | readMessage (addr len : Nat)
  /-- Reserved opcode 0x0 (44_i2c_master.md R82). -/
  | reservedOp0
  /-- Reserved opcode 0x6 (44_i2c_master.md R82). -/
  | reservedOp6
  /-- Reserved opcode 0x7 (44_i2c_master.md R82). -/
  | reservedOp7
  /-- Reserved opcode 0x8 (44_i2c_master.md R82). -/
  | reservedOp8
  /-- Reserved opcode 0x9 (44_i2c_master.md R82). -/
  | reservedOp9
  /-- Reserved opcode 0xA (44_i2c_master.md R82). -/
  | reservedOpA
  /-- Reserved opcode 0xB (44_i2c_master.md R82). -/
  | reservedOpB
  /-- Reserved opcode 0xC (44_i2c_master.md R82). -/
  | reservedOpC
  /-- Reserved opcode 0xD (44_i2c_master.md R82). -/
  | reservedOpD
  /-- Reserved opcode 0xE (44_i2c_master.md R82). -/
  | reservedOpE
  /-- Reserved opcode 0xF (44_i2c_master.md R82). -/
  | reservedOpF
  /-- DRIVE_LOW of a line (40_open_drain_driver.md R43). -/
  | driveLow (line : Line)
  /-- RELEASE of a line (40_open_drain_driver.md R44). -/
  | release (line : Line)
  /-- READ_LEVEL of a line (40_open_drain_driver.md R45). -/
  | readLevel (line : Line)
  /-- DELAY: its length comes from `delay_us` or from a wait loop (41_timing_and_timeout.md R51). -/
  | delay
  /-- WAIT_BUS_IDLE (41_timing_and_timeout.md R54). -/
  | waitBusIdle
  /-- WAIT_SCL_HIGH (41_timing_and_timeout.md R56). -/
  | waitSclHigh
  /-- START (42_bus_conditions.md R61). -/
  | start
  /-- STOP (42_bus_conditions.md R62). -/
  | stop
  /-- WRITE_BYTE: the byte is an operand of the sequencer (43_byte_transfer_engine.md R72). -/
  | writeByte
  /-- READ_BYTE with its ACK request (43_byte_transfer_engine.md R76). -/
  | readByte (ackreq : Bool)
  deriving DecidableEq, Repr

/-- What the block is handed to run: a command at the port, two words captured together (30_encoding.md §1), or a
micro-operation code of the sequencer (30_encoding.md R135). -/
inductive Raw where
  | cmd (word arg : Word)
  | uop (code : Byte)
  deriving DecidableEq, Repr

end Sys2Proof
end

