-- ==== Sys2Proof/Machine/Dispatch.lean ====
section
/-! DEFINITION. exec: one arm per constructor of Instr. -/

namespace Sys2Proof.Machine

def exec (i : Instr) (s : State) : Host.Outcome State Fault Refusal :=
  match i with
  | .setDelay us => Sys2Proof.Machine.execSetDelay us s
  | .getArbLost => Sys2Proof.Machine.execGetArbLost s
  | .clearArb => Sys2Proof.Machine.execClearArb s
  | .writeMessage addr len => Sys2Proof.Machine.execWriteMessage addr len s
  | .readMessage addr len => Sys2Proof.Machine.execReadMessage addr len s
  | .reservedOp0 => Sys2Proof.Machine.execReservedOp0 s
  | .reservedOp6 => Sys2Proof.Machine.execReservedOp6 s
  | .reservedOp7 => Sys2Proof.Machine.execReservedOp7 s
  | .reservedOp8 => Sys2Proof.Machine.execReservedOp8 s
  | .reservedOp9 => Sys2Proof.Machine.execReservedOp9 s
  | .reservedOpA => Sys2Proof.Machine.execReservedOpA s
  | .reservedOpB => Sys2Proof.Machine.execReservedOpB s
  | .reservedOpC => Sys2Proof.Machine.execReservedOpC s
  | .reservedOpD => Sys2Proof.Machine.execReservedOpD s
  | .reservedOpE => Sys2Proof.Machine.execReservedOpE s
  | .reservedOpF => Sys2Proof.Machine.execReservedOpF s
  | .driveLow line => Sys2Proof.Machine.execDriveLow line s
  | .release line => Sys2Proof.Machine.execRelease line s
  | .readLevel line => Sys2Proof.Machine.execReadLevel line s
  | .delay => Sys2Proof.Machine.execDelay s
  | .waitBusIdle => Sys2Proof.Machine.execWaitBusIdle s
  | .waitSclHigh => Sys2Proof.Machine.execWaitSclHigh s
  | .start => Sys2Proof.Machine.execStart s
  | .stop => Sys2Proof.Machine.execStop s
  | .writeByte => Sys2Proof.Machine.execWriteByte s
  | .readByte ackreq => Sys2Proof.Machine.execReadByte ackreq s

end Sys2Proof.Machine
end

