-- ==== Sys2Proof/WellFormed.lean ====
section
/-! DEFINITION. Which instructions are well formed: the operand ranges of the command syntax (30_encoding.md R136).
"A value out of range is an assembly error: the command is not encoded." -/

namespace Sys2Proof

/-- `<addr7>` is 0 to 0x7F (R136; 00_scope.md R4). -/
def Instr.addrOk (addr : Nat) : Bool := decide (addr ≤ 0x7F)

/-- `<len>` is 0 to 65535 (R136; 30_encoding.md R36). -/
def Instr.lenOk (len : Nat) : Bool := decide (len ≤ 65535)

/-- `<int>` is a signed 32-bit value, from -2^31 to 2^31 - 1 (R136; 30_encoding.md R37). -/
def Instr.delayOk (us : Int) : Bool := decide (-2147483648 ≤ us) && decide (us ≤ 2147483647)

/-- Every operand of the instruction is in the range its encoding can hold. -/
def Instr.wellFormed : Instr → Bool
  | .setDelay us => Instr.delayOk us
  | .getArbLost => true
  | .clearArb => true
  | .writeMessage addr len => Instr.addrOk addr && Instr.lenOk len
  | .readMessage addr len => Instr.addrOk addr && Instr.lenOk len
  | .reservedOp0 => true
  | .reservedOp6 => true
  | .reservedOp7 => true
  | .reservedOp8 => true
  | .reservedOp9 => true
  | .reservedOpA => true
  | .reservedOpB => true
  | .reservedOpC => true
  | .reservedOpD => true
  | .reservedOpE => true
  | .reservedOpF => true
  | .driveLow _ => true
  | .release _ => true
  | .readLevel _ => true
  | .delay => true
  | .waitBusIdle => true
  | .waitSclHigh => true
  | .start => true
  | .stop => true
  | .writeByte => true
  | .readByte _ => true

end Sys2Proof
end

