-- ==== Sys2Proof/Decode.lean ====
section
/-! DEFINITION. The decoder, total on any word, and the encoder, both from 30_encoding.md R36, R37, R38 and R135. -/

namespace Sys2Proof

/-- Why a raw instruction is no instruction. -/
inductive DecodeError where
  /-- A UOP whose code is 0x0 or 0xB to 0xF: it names no operation (30_encoding.md R135). -/
  | noSuchCode
  /-- A UOP with one of bits `[7:5]` set, or bit 4 set for an operation that has no operand `X` (R135). -/
  | reservedBits
  deriving DecidableEq, Repr

/-- `OP`, bits `[3:0]` of the command word (30_encoding.md R36). -/
def cmdOp (word : Word) : BitVec 4 := word.extractLsb' 0 4

/-- `ADDR`, bits `[10:4]` of the command word (30_encoding.md R36). -/
def cmdAddr (word : Word) : BitVec 7 := word.extractLsb' 4 7

/-- `LEN`, bits `[31:16]` of the command word (30_encoding.md R36). -/
def cmdLen (word : Word) : BitVec 16 := word.extractLsb' 16 16

/-- The command a command word and an argument word stand for (30_encoding.md R36, R37, R38). Total: each of the
sixteen opcodes is a command or a reserved opcode, and the bits a command does not read are ignored
(44_i2c_master.md R83). -/
def decodeCmd (word arg : Word) : Instr :=
  match (cmdOp word).toNat with
  | 0x0 => .reservedOp0
  | 0x1 => .setDelay arg.toInt
  | 0x2 => .getArbLost
  | 0x3 => .clearArb
  | 0x4 => .writeMessage (cmdAddr word).toNat (cmdLen word).toNat
  | 0x5 => .readMessage (cmdAddr word).toNat (cmdLen word).toNat
  | 0x6 => .reservedOp6
  | 0x7 => .reservedOp7
  | 0x8 => .reservedOp8
  | 0x9 => .reservedOp9
  | 0xA => .reservedOpA
  | 0xB => .reservedOpB
  | 0xC => .reservedOpC
  | 0xD => .reservedOpD
  | 0xE => .reservedOpE
  | _ => .reservedOpF

/-- Operand `X` as a line: 0 SDA, 1 SCL (30_encoding.md R135). -/
def lineOf (x : Bool) : Line := if x then .scl else .sda

/-- An operation without operand: bit 4 is 0 (30_encoding.md R135). -/
def noOperand (x : Bool) (i : Instr) : Except DecodeError Instr :=
  if x then .error .reservedBits else .ok i

/-- The internal operation a micro-operation code names (30_encoding.md R135): bits `[3:0]` the code, bit 4 the
operand `X`, bits `[7:5]` zero. -/
def decodeUop (code : Byte) : Except DecodeError Instr :=
  let x := code.getLsbD 4
  if code.extractLsb' 5 3 ≠ 0#3 then .error .reservedBits else
    match (code.extractLsb' 0 4).toNat with
    | 0x1 => .ok (.driveLow (lineOf x))
    | 0x2 => .ok (.release (lineOf x))
    | 0x3 => .ok (.readLevel (lineOf x))
    | 0x4 => noOperand x .delay
    | 0x5 => noOperand x .waitBusIdle
    | 0x6 => noOperand x .waitSclHigh
    | 0x7 => noOperand x .start
    | 0x8 => noOperand x .stop
    | 0x9 => noOperand x .writeByte
    | 0xA => .ok (.readByte x)
    | _ => .error .noSuchCode

/-- The decoder. -/
def decode : Raw → Except DecodeError Instr
  | .cmd word arg => .ok (decodeCmd word arg)
  | .uop code => decodeUop code

/-- A command word of format CMD: `LEN`, five reserved zeros, `ADDR`, `OP` (30_encoding.md R36). -/
def cmdWord (op : BitVec 4) (addr : BitVec 7) (len : BitVec 16) : Word := len ++ 0#5 ++ addr ++ op

/-- A command that reads neither `ADDR` nor `LEN`; software writes 0 in the unread bits (30_encoding.md R36). -/
def plainCmd (op : BitVec 4) : Raw := .cmd (cmdWord op 0#7 0#16) 0#32

/-- A micro-operation code of format UOP (30_encoding.md R135). -/
def uopCode (x : Bool) (code : BitVec 4) : Raw := .uop (0#3 ++ BitVec.ofBool x ++ code)

/-- A line as operand `X` (30_encoding.md R135). -/
def lineBit : Line → Bool
  | .sda => false
  | .scl => true

/-- The words of an instruction whose operands are in range. -/
def encodeWords : Instr → Raw
  | .setDelay us => .cmd (cmdWord 0x1#4 0#7 0#16) (BitVec.ofInt 32 us)
  | .getArbLost => plainCmd 0x2#4
  | .clearArb => plainCmd 0x3#4
  | .writeMessage addr len => .cmd (cmdWord 0x4#4 (BitVec.ofNat 7 addr) (BitVec.ofNat 16 len)) 0#32
  | .readMessage addr len => .cmd (cmdWord 0x5#4 (BitVec.ofNat 7 addr) (BitVec.ofNat 16 len)) 0#32
  | .reservedOp0 => plainCmd 0x0#4
  | .reservedOp6 => plainCmd 0x6#4
  | .reservedOp7 => plainCmd 0x7#4
  | .reservedOp8 => plainCmd 0x8#4
  | .reservedOp9 => plainCmd 0x9#4
  | .reservedOpA => plainCmd 0xA#4
  | .reservedOpB => plainCmd 0xB#4
  | .reservedOpC => plainCmd 0xC#4
  | .reservedOpD => plainCmd 0xD#4
  | .reservedOpE => plainCmd 0xE#4
  | .reservedOpF => plainCmd 0xF#4
  | .driveLow line => uopCode (lineBit line) 0x1#4
  | .release line => uopCode (lineBit line) 0x2#4
  | .readLevel line => uopCode (lineBit line) 0x3#4
  | .delay => uopCode false 0x4#4
  | .waitBusIdle => uopCode false 0x5#4
  | .waitSclHigh => uopCode false 0x6#4
  | .start => uopCode false 0x7#4
  | .stop => uopCode false 0x8#4
  | .writeByte => uopCode false 0x9#4
  | .readByte ackreq => uopCode ackreq 0xA#4

/-- The encoder: an instruction with an operand out of range is an assembly error and is not encoded
(30_encoding.md R136). -/
def encode (i : Instr) : Option Raw := if i.wellFormed then some (encodeWords i) else none

/-- An instruction's bits, numbered as spec/opcode_table.json numbers them, as the block is handed them. A row of at
most 8 bits is a micro-operation code; a longer one is a command word in bits 31..0 and an argument word in bits
63..32. -/
def rawOfTable (nbits w : Nat) : Raw :=
  if nbits ≤ 8 then .uop (BitVec.ofNat 8 w)
  else .cmd (BitVec.ofNat 32 w) (BitVec.ofNat 32 (w / 2 ^ 32))

/-- The instruction the decoder reads from a word numbered as the opcode table numbers it. -/
def decodeTableWord (nbits w : Nat) : Option Instr :=
  match decode (rawOfTable nbits w) with
  | .ok i => some i
  | .error _ => none

end Sys2Proof
end

