-- ==== Sys2Proof/Machine/Port.lean ====
section
/-! DEFINITION. What a step does around an instruction: taking the next command from the port (10_state.md R21),
waiting, and a reset that comes in the middle of a command (70_reset_and_hazards.md R118). -/

namespace Sys2Proof.Machine

/-- What the block runs next: a micro-operation the sequencer was loaded with (log 8), or the oldest command at the
port when `cmd_ready` is 1 (10_state.md R21). A command presented while the block is busy stays at the port. -/
def fetch (s : State) : Option (Raw × State) :=
  match s.uop with
  | some code => some (.uop code, setUop none s)
  | none =>
    if s.busy then none
    else match s.port with
      | [] => none
      | c :: rest => some (.cmd c.1 c.2, setPort rest s)

/-- A cycle with nothing to run: the block waits, its state is kept (60_exceptions.md R116), and the pulse outputs of
the step before are over (10_state.md R21). It counts as one step towards a coming reset. -/
def idleCycle (s : State) : State :=
  { s with rspValid := false, bufRd := false, bufWr := false, rstIn := s.rstIn.map (· - 1) }

/-- A step with nothing to run. A busy block is stuck at a buffer access beyond the host's buffer (44_i2c_master.md
R91): only a reset frees it (70_reset_and_hazards.md R118). -/
def waitStep (s : State) : Host.Outcome State Fault Refusal :=
  if s.busy then
    match s.rstIn with
    | some _ => .next (hardReset s)
    | none => .fault .bufferTooShort
  else .next (idleCycle s)

/-- What an instruction run from `s` to `t` counts towards a coming reset: one for its acceptance, and one for each of
its atomic steps. DESIGN CHOICE (log 9): the spec does not say whether a reset can fall between a command's acceptance
(10_state.md R21) and its first atomic step (R24). In the model it can. -/
def stepsMade (s t : State) : Nat := t.trace.length - s.trace.length + 1

/-- An instruction run from `s`, with a reset that may come while it runs (70_reset_and_hazards.md R118): after its
acceptance, or after any of its atomic steps but the last, it is abandoned; later, it is complete. -/
def underReset (s : State) (o : Host.Outcome State Fault Refusal) : Host.Outcome State Fault Refusal :=
  match s.rstIn with
  | none => o
  | some k =>
    match o with
    | .next t =>
      if k < stepsMade s t then .next (abandon (k - 1) s t)
      else .next (setRstIn (some (k - stepsMade s t)) t)
    | .fault f => .fault f
    | .refused r => .refused r

/-- Make a command the next that the block accepts: at the front of the port, with the block ready. -/
def presentCommand (word arg : Word) (s : State) : State :=
  { s with port := (word, arg) :: s.port, phase := .idle, active := false, uop := none, rstIn := none }

/-- Load the sequencer with a micro-operation code (log 8). -/
def loadUop (code : Byte) (s : State) : State := { s with uop := some code, rstIn := none }

end Sys2Proof.Machine
end

