-- ==== Sys2Proof/Machine/Step.lean ====
section
/-! DEFINITION. One step of the block: a reset, one command, one micro-operation, or one waiting cycle. -/

namespace Sys2Proof.Machine

/-- One step. While `rst_n` is 0 the block accepts no command (70_reset_and_hazards.md R117). A reset that comes with the
acceptance behind it abandons the command, one that comes first leaves it at the port (log 9). -/
def step (s : State) : Host.Outcome State Fault Refusal :=
  if s.rstIn = some 0 then .next (hardReset s)
  else
    match fetch s with
    | none => waitStep s
    | some (raw, t) =>
      match decode raw with
      | .ok i => underReset t (exec i t)
      | .error _ => .refused .noSuchOperation

/-- `s` with the instruction of an opcode-table word where the next step takes it from (log 10): a command at the
front of the port of a ready block, or a micro-operation in the sequencer. -/
def State.withFetchWord (s : State) (nbits w : Nat) : State :=
  match rawOfTable nbits w with
  | .cmd word arg => presentCommand word arg s
  | .uop code => loadUop code s

end Sys2Proof.Machine
end

