-- ==== Sys2Proof/Safety.lean ====
section
/-! DEFINITION. The terms the claims use: what a bus trace says (time, lines, clock pulses, bytes on the wire), and the
invariant of the block. -/

namespace Sys2Proof.Machine

/-! ### What a trace says -/

/-- The model time an event takes: only `Delay(n)` takes any (10_state.md R27). -/
def eventTime : Event → Nat
  | .dy n => n
  | .dl _ => 0
  | .rl _ => 0
  | .sm _ _ => 0
  | .sm2 _ _ => 0
  | .br _ _ => 0
  | .bw _ _ => 0
  | .ta => 0
  | .tr => 0
  | .rsp _ _ _ => 0

/-- The model time a list of events takes. -/
def elapsed (es : List Event) : Nat := (es.map eventTime).sum

/-- The output state of a line after an event: 1 is driven low. -/
def lineAfter (line : Line) (low : Bool) : Event → Bool
  | .dl l => if l = line then true else low
  | .rl l => if l = line then false else low
  | .sm _ _ => low
  | .sm2 _ _ => low
  | .dy _ => low
  | .br _ _ => low
  | .bw _ _ => low
  | .ta => low
  | .tr => low
  | .rsp _ _ _ => low

/-- The output state of a line after a list of events (92_eei_decisions.md D29). -/
def linesAfter (line : Line) (low : Bool) (es : List Event) : Bool := es.foldl (lineAfter line) low

/-- An event of SCL: `true` for DriveLow(SCL), `false` for Release(SCL). -/
def sclEdge : Event → Option Bool
  | .dl .scl => some true
  | .rl .scl => some false
  | _ => none

/-- The clock pulses in a list of SCL events: a Release between two DriveLows (00_scope.md §6, D36). -/
def pulsesOf : List Bool → Nat
  | a :: b :: c :: rest => (if a && !b && c then 1 else 0) + pulsesOf (b :: c :: rest)
  | _ => 0

/-- The clock pulses of one command's events (00_scope.md §6). -/
def clockPulses (es : List Event) : Nat := pulsesOf (es.filterMap sclEdge)

/-- The level the master gives SDA at each Release(SCL): 1 released, 0 driven low. -/
def sentBits : Bool → List Event → List Bool
  | _, [] => []
  | low, e :: es =>
    match e with
    | .rl .scl => (!low) :: sentBits low es
    | e => sentBits (lineAfter .sda low e) es

/-- The sample of SDA an event makes. -/
def sdaSample : Event → Option Bool
  | .sm .sda v => some v
  | _ => none

/-- The samples of SDA, oldest first. -/
def sdaSamples (es : List Event) : List Bool := es.filterMap sdaSample

/-- The events of each timing-critical section, from `TA` to `TR`: one section for each byte on the wire
(43_byte_transfer_engine.md R67). The first argument is the section that is open. -/
def sectionsFrom : Option (List Event) → List Event → List (List Event)
  | _, [] => []
  | cur, e :: es =>
    match e with
    | .ta => sectionsFrom (some []) es
    | .tr => cur.toList ++ sectionsFrom none es
    | e => sectionsFrom (cur.map (· ++ [e])) es

/-- The byte sections of a list of events. -/
def byteSections (es : List Event) : List (List Event) := sectionsFrom none es

/-- The timing-critical section is acquired only while it is not held and released only while it is held, and it is not held
at the end. The first argument says whether it is held (43_byte_transfer_engine.md R67). -/
def tcsPairs : Bool → List Event → Bool
  | held, [] => !held
  | held, e :: es =>
    match e with
    | .ta => !held && tcsPairs true es
    | .tr => held && tcsPairs false es
    | _ => tcsPairs held es

/-- The buffer reads, oldest first. -/
def bufReads (es : List Event) : List (BitVec 16 × Byte) :=
  es.filterMap fun
    | .br i v => some (i, v)
    | _ => none

/-- The buffer writes, oldest first. -/
def bufWrites (es : List Event) : List (BitVec 16 × Byte) :=
  es.filterMap fun
    | .bw i v => some (i, v)
    | _ => none

/-- The responses, oldest first. -/
def responses (es : List Event) : List (Bool × BitVec 3 × Bool) :=
  es.filterMap fun
    | .rsp r e a => some (r, e, a)
    | _ => none

/-- Every sample is of a line the controller has released (40_open_drain_driver.md R49). -/
def samplesReleased : Bool → Bool → List Event → Bool
  | _, _, [] => true
  | sda, scl, e :: es =>
    (match e with
      | .sm .sda _ => !sda
      | .sm .scl _ => !scl
      | .sm2 _ _ => !sda && !scl
      | _ => true) &&
    samplesReleased (lineAfter .sda sda e) (lineAfter .scl scl e) es

/-- SDA is set only while the controller drives SCL low (43_byte_transfer_engine.md R69). -/
def sdaSetOnlyWhileSclLow : Bool → List Event → Bool
  | _, [] => true
  | scl, e :: es =>
    (match e with
      | .dl .sda => scl
      | .rl .sda => scl
      | _ => true) &&
    sdaSetOnlyWhileSclLow (lineAfter .scl scl e) es

/-- A sample that fails a wait: SCL low, or the bus not idle (70_reset_and_hazards.md R129). -/
def failedWaitSample : Event → Bool
  | .sm .scl v => !v
  | .sm2 a b => !(a && b)
  | _ => false

/-- `k` failed samples of WAIT_SCL_HIGH, each with its poll step (41_timing_and_timeout.md R56). -/
def sclPolls : Nat → List Event
  | 0 => []
  | k + 1 => .sm .scl false :: .dy 1 :: sclPolls k

/-- The failed samples of WAIT_BUS_IDLE in `lows`, each with its poll step (41_timing_and_timeout.md R54). -/
def idlePolls : List (Bool × Bool) → List Event
  | [] => []
  | p :: rest => .sm2 p.1 p.2 :: .dy 1 :: idlePolls rest

/-- The eight bits of a byte in the order of the wire (43_byte_transfer_engine.md R66). -/
def wireBits (v : Byte) : List Bool :=
  [v.getLsbD 7, v.getLsbD 6, v.getLsbD 5, v.getLsbD 4, v.getLsbD 3, v.getLsbD 2, v.getLsbD 1, v.getLsbD 0]

/-- The events a run from `s` to `t` appended to the trace. -/
def newEvents (s t : State) : List Event := t.trace.drop s.trace.length

/-- The events of STOP (42_bus_conditions.md R62), with stretch timeout `T` and delay `d`: release-only when arbitration
was lost (`lost`), else the STOP condition after `k` failed samples of SCL, or a timeout that releases SDA. -/
def IsStop (T d : Nat) (lost : Bool) (es : List Event) : Prop :=
  if lost then es = [.rl .sda, .rl .scl]
  else (∃ k, k ≤ T ∧ es = [.dl .sda, .rl .scl] ++ sclPolls k ++ [.sm .scl true, .dy d, .rl .sda]) ∨
    es = [.dl .sda, .rl .scl] ++ sclPolls T ++ [.sm .scl false, .rl .sda]

/-- The state after a command's response (44_i2c_master.md R85). -/
structure State.Answered (t : State) (r : Bool) (e : BitVec 3) (a : Bool) : Prop where
  /-- `rsp_result`. -/
  result : t.rspResult = r
  /-- `rsp_err`. -/
  err : t.rspErr = e
  /-- `rsp_arb`. -/
  arb : t.rspArb = a
  /-- `rsp_valid` pulses. -/
  valid : t.rspValid = true
  /-- The command is over, and the block is ready while `rsp_valid` is 1 (log 14). -/
  idle : t.busy = false

/-- What no message command changes: the parameters, `delay_us`, the inputs at the port, the reset input, the size of the
host's buffer, and the model's own fields of the sequencer. -/
structure Kept (s t : State) : Prop where
  params : t.params = s.params
  delayUs : t.delayUs = s.delayUs
  port : t.port = s.port
  rstIn : t.rstIn = s.rstIn
  bufLen : t.bufLen = s.bufLen
  uop : t.uop = s.uop
  uopByte : t.uopByte = s.uopByte
  uopPoll : t.uopPoll = s.uopPoll
  uopResult : t.uopResult = s.uopResult
  uopData : t.uopData = s.uopData

/-! ### The invariant -/

/-- Both lines are released. -/
def State.released (s : State) : Prop := s.sdaDrv = false ∧ s.sclDrv = false

/-- What holds of the block between steps, as long as only its own port feeds it. -/
structure State.Inv (s : State) : Prop where
  /-- No micro-operation is loaded from outside: no port carries one (30_encoding.md R135). -/
  noUop : s.uop = none
  /-- `DEFAULT_DELAY_US` is at least 1 (00_scope.md R3). -/
  defaultDelay : s.params.defaultDelayUs ≠ 0#31
  /-- `delay_us` is at least 1 (10_state.md R6). -/
  delay : s.delayUs ≠ 0#31
  /-- While `phase` is IDLE both lines are released (10_state.md R25). -/
  idleReleased : s.phase = .idle → s.released
  /-- Between steps the block is idle with its response made, or it is stuck in the data phase of a message. -/
  idleOrStuck : (s.phase = .idle ∧ s.active = false) ∨ (s.phase = .data ∧ s.active = true)
  /-- The timing-critical section is held only inside a byte (43_byte_transfer_engine.md R67). -/
  noTcs : s.tcs = false
  /-- The reserved error codes 5 and 6 are never produced (30_encoding.md R41). -/
  rspErr : s.rspErr ≠ 5#3 ∧ s.rspErr ≠ 6#3
  /-- The same of the cause register (10_state.md R16). -/
  cause : s.cause ≠ 5#3 ∧ s.cause ≠ 6#3
  /-- `bit_cnt` is at most 8 (10_state.md R12). -/
  bitCnt : s.bitCnt ≤ 8
  /-- `wait_elapsed` does not exceed the longer timeout (10_state.md R15). -/
  waitElapsed : s.waitElapsed ≤ max s.params.busIdleTimeoutUs s.params.sclStretchTimeoutUs
  /-- The delay counter is spent (60_exceptions.md R112). -/
  delayCnt : s.delayCnt = 0#31
  /-- The host's buffer is in canonical form. -/
  bufWf : s.buf.wf = true

end Sys2Proof.Machine
end

