-- ==== Sys2Proof/Certificates/Slice0/Obligations.lean ====
section
/-! DEFINITION. The statements for the provers. Each one cites the rules of spec/ it formalises. -/

section

open Sys2Proof Sys2Proof.Machine

/-! ### Encoding (30_encoding.md) -/

/-- Every instruction with operands in range has an encoding, and the decoder gives the instruction back with every
operand; and whatever the decoder gives is well formed, a micro-operation having no code but its own (R36, R37, R38, R135,
R136). -/
def Obligations.DecodeEncodeRoundTrip : Prop :=
  (∀ i : Instr, i.wellFormed = true → ∃ raw, encode i = some raw ∧ decode raw = .ok i) ∧
  (∀ (raw : Raw) (i : Instr), decode raw = .ok i →
    i.wellFormed = true ∧ ∀ code, raw = .uop code → encode i = some raw)

/-- A command is encoded exactly when its operands are in the ranges of the command syntax, and every instruction
without such operands is encoded (R136). -/
def Obligations.EncodedExactlyWhenInRange : Prop :=
  (∀ us : Int, (encode (.setDelay us)).isSome = true ↔ -2147483648 ≤ us ∧ us ≤ 2147483647) ∧
  (∀ addr len : Nat, (encode (.writeMessage addr len)).isSome = true ↔ addr ≤ 0x7F ∧ len ≤ 65535) ∧
  (∀ addr len : Nat, (encode (.readMessage addr len)).isSome = true ↔ addr ≤ 0x7F ∧ len ≤ 65535) ∧
  (∀ i : Instr, (∀ us, i ≠ .setDelay us) → (∀ a l, i ≠ .writeMessage a l) → (∀ a l, i ≠ .readMessage a l) →
    (encode i).isSome = true)

/-- The fields of the command word and the argument word, said with arithmetic on the two words as numbers: `OP` is the
word mod 16, `ADDR` the seven bits above it, `LEN` the upper half, `DELAY` the argument in two's complement; and the
opcode map (R36, R37, R38). -/
def Obligations.CommandFieldsAndOpcodeMap : Prop :=
  ∀ word arg : Word,
    (word.toNat % 16 = 0x0 → decode (.cmd word arg) = .ok .reservedOp0) ∧
    (word.toNat % 16 = 0x1 → decode (.cmd word arg) =
      .ok (.setDelay (if arg.toNat < 2147483648 then (arg.toNat : Int) else (arg.toNat : Int) - 4294967296))) ∧
    (word.toNat % 16 = 0x2 → decode (.cmd word arg) = .ok .getArbLost) ∧
    (word.toNat % 16 = 0x3 → decode (.cmd word arg) = .ok .clearArb) ∧
    (word.toNat % 16 = 0x4 →
      decode (.cmd word arg) = .ok (.writeMessage (word.toNat / 16 % 128) (word.toNat / 65536))) ∧
    (word.toNat % 16 = 0x5 →
      decode (.cmd word arg) = .ok (.readMessage (word.toNat / 16 % 128) (word.toNat / 65536))) ∧
    (word.toNat % 16 = 0x6 → decode (.cmd word arg) = .ok .reservedOp6) ∧
    (word.toNat % 16 = 0x7 → decode (.cmd word arg) = .ok .reservedOp7) ∧
    (word.toNat % 16 = 0x8 → decode (.cmd word arg) = .ok .reservedOp8) ∧
    (word.toNat % 16 = 0x9 → decode (.cmd word arg) = .ok .reservedOp9) ∧
    (word.toNat % 16 = 0xA → decode (.cmd word arg) = .ok .reservedOpA) ∧
    (word.toNat % 16 = 0xB → decode (.cmd word arg) = .ok .reservedOpB) ∧
    (word.toNat % 16 = 0xC → decode (.cmd word arg) = .ok .reservedOpC) ∧
    (word.toNat % 16 = 0xD → decode (.cmd word arg) = .ok .reservedOpD) ∧
    (word.toNat % 16 = 0xE → decode (.cmd word arg) = .ok .reservedOpE) ∧
    (word.toNat % 16 = 0xF → decode (.cmd word arg) = .ok .reservedOpF)

/-- The micro-operation codes: the fourteen that name an operation with its operand, and no other. A code with one of bits
[7:5] set, or with X = 1 for an operation without operand, is not of the format (R135). -/
def Obligations.MicroOperationCodes : Prop :=
  ∀ code : Byte, (decode (.uop code)).toOption =
    match code.toNat with
    | 0x01 => some (.driveLow .sda)
    | 0x11 => some (.driveLow .scl)
    | 0x02 => some (.release .sda)
    | 0x12 => some (.release .scl)
    | 0x03 => some (.readLevel .sda)
    | 0x13 => some (.readLevel .scl)
    | 0x04 => some .delay
    | 0x05 => some .waitBusIdle
    | 0x06 => some .waitSclHigh
    | 0x07 => some .start
    | 0x08 => some .stop
    | 0x09 => some .writeByte
    | 0x0A => some (.readByte false)
    | 0x1A => some (.readByte true)
    | _ => none

/-- The worked encodings of the spec (R38). -/
def Obligations.WorkedEncodings : Prop :=
  encode (.writeMessage 0x68 2) = some (.cmd 0x00020684#32 0#32) ∧
  encode (.readMessage 0x68 2) = some (.cmd 0x00020685#32 0#32) ∧
  encode (.readMessage 0x68 1) = some (.cmd 0x00010685#32 0#32) ∧
  encode (.writeMessage 0x68 0) = some (.cmd 0x00000684#32 0#32) ∧
  encode (.setDelay 0) = some (.cmd 0x00000001#32 0x00000000#32) ∧
  encode (.setDelay (-5)) = some (.cmd 0x00000001#32 0xFFFFFFFB#32) ∧
  encode (.setDelay 10) = some (.cmd 0x00000001#32 0x0000000A#32) ∧
  encode .getArbLost = some (.cmd 0x00000002#32 0#32) ∧
  encode .clearArb = some (.cmd 0x00000003#32 0#32) ∧
  decode (.cmd 0x00000000#32 0#32) = .ok .reservedOp0 ∧
  decode (.cmd 0x00020684#32 0xDEADBEEF#32) = .ok (.writeMessage 0x68 2)

/-- A command reads only the fields its rule names: two command words that agree on them make the same step, whatever
the other bits hold (44_i2c_master.md R83). -/
def Obligations.UnreadFieldsHaveNoEffect : Prop :=
  ∀ (s : State) (word word' arg arg' : Word) (rest : List (Word × Word)),
    s.uop = none → s.busy = false → s.rstIn ≠ some 0 →
    word.toNat % 16 = word'.toNat % 16 →
    (word.toNat % 16 = 0x1 → arg = arg') →
    (word.toNat % 16 = 0x4 ∨ word.toNat % 16 = 0x5 →
      word.toNat / 16 % 128 = word'.toNat / 16 % 128 ∧ word.toNat / 65536 = word'.toNat / 65536) →
    step { s with port := (word, arg) :: rest } = step { s with port := (word', arg') :: rest }

/-! ### Steps and reset (10_state.md R21; 70_reset_and_hazards.md) -/

/-- A ready block takes the oldest command at the port and runs it to its end in one step; a reset that comes later than
the command's last atomic step leaves the command's result as it is. The step is one whole command (log 1), and its
acceptance counts as one towards a coming reset (log 9). -/
def Obligations.StepRunsTheCommandAtThePort : Prop :=
  ∀ (s : State) (word arg : Word) (rest : List (Word × Word)),
    s.uop = none → s.busy = false → s.port = (word, arg) :: rest →
    ∃ i, decode (.cmd word arg) = .ok i ∧
      (s.rstIn = none → step s = exec i { s with port := rest }) ∧
      (∀ k t, s.rstIn = some (k + 1) → exec i { s with port := rest } = .next t → (newEvents s t).length ≤ k →
        step s = .next { t with rstIn := some (k - (newEvents s t).length) })

/-- A micro-operation the sequencer is loaded with runs by itself in one step; a code that names no operation is refused
(30_encoding.md R135; log 8). -/
def Obligations.StepRunsTheLoadedMicroOperation : Prop :=
  ∀ (s : State) (code : Byte), s.uop = some code → s.rstIn = none →
    (∀ i, decode (.uop code) = .ok i → step s = exec i { s with uop := none }) ∧
    ((decode (.uop code)).toOption = none → step s = .refused .noSuchOperation)

/-- A block with nothing to run. An idle block with no command at the port waits, and its state is kept (60_exceptions.md
R116). A busy block accepts no command: one presented is held at the port, not lost (10_state.md R21); between steps the
block is busy only when it is stuck at a buffer access (44_i2c_master.md R91), and then it has no step until a reset frees
it. -/
def Obligations.BlockWithNothingToRunWaitsOrIsStuck : Prop :=
  ∀ s : State, s.uop = none →
    (s.busy = false → s.port = [] → s.rstIn ≠ some 0 →
      step s = .next { s with rspValid := false, bufRd := false, bufWr := false, rstIn := s.rstIn.map (· - 1) }) ∧
    (s.busy = true → s.rstIn = none → step s = .fault .bufferTooShort) ∧
    (s.busy = true → ∀ k, s.rstIn = some k →
      ∃ t, step s = .next t ∧ t.busy = false ∧ t.released ∧ t.rspValid = false ∧ t.port = s.port)

/-- Reset (70_reset_and_hazards.md R117). The registers the rule calls unspecified are not mentioned. -/
def Obligations.ResetSetsTheBlock : Prop :=
  ∀ s : State, s.rstIn = some 0 → ∃ t, step s = .next t ∧
    t.sdaDrv = false ∧ t.sclDrv = false ∧ (∀ l, t.oe l = false ∧ t.pu l = true) ∧
    t.delayUs = s.params.defaultDelayUs ∧ t.arbLost = false ∧
    t.rspResult = false ∧ t.rspErr = 0#3 ∧ t.rspArb = false ∧
    t.phase = .idle ∧ t.busy = false ∧ t.cmdReady = true ∧
    t.tcs = false ∧ t.rspValid = false ∧ t.bufRd = false ∧ t.bufWr = false ∧ t.bufIdx = 0#16 ∧ t.bufWdata = 0#8 ∧
    t.params = s.params ∧ t.trace = [] ∧ t.nowUs = 0 ∧
    t.port = s.port ∧ t.extSda = s.extSda ∧ t.extScl = s.extScl

/-- A reset after the acceptance of a command and `k` of its atomic steps, its response not among them, abandons it: no
response, both lines released, no STOP, and the host's buffer holds what the block had written before the reset and nothing
after it (70_reset_and_hazards.md R118). Every command can be abandoned so, an accessor or a reserved opcode after no atomic
step (that a reset can fall right after the acceptance is log 9). -/
def Obligations.ResetMidCommandAbandonsIt : Prop :=
  ∀ (s t : State) (word arg : Word) (rest : List (Word × Word)) (i : Instr) (k : Nat),
    s.uop = none → s.busy = false → s.port = (word, arg) :: rest → s.rstIn = some (k + 1) →
    decode (.cmd word arg) = .ok i → exec i { s with port := rest } = .next t → k < (newEvents s t).length →
    s.hostWrites = [] → s.buf.wf = true →
    ∃ u, step s = .next u ∧ u.released ∧ u.phase = .idle ∧ u.busy = false ∧
      u.rspValid = false ∧ u.rspResult = false ∧ u.rspErr = 0#3 ∧ u.rspArb = false ∧
      u.arbLost = false ∧ u.delayUs = s.params.defaultDelayUs ∧ u.tcs = false ∧
      u.trace = [] ∧ u.nowUs = 0 ∧ u.port = rest ∧
      ∀ j : BitVec 16, u.buf.read j.toNat =
        ((bufWrites ((newEvents s t).take k)).reverse.lookup j).getD (s.buf.read j.toNat)

/-- The state after reset, and the first command: `delay_us` is the built default, which is at least 1, the flag is clear,
and a GET_ARB_LOST sent first responds (0, OK, 0) (70_reset_and_hazards.md R121; 00_scope.md R3). That the block is ready
while `rsp_valid` is 1 is the model's choice (log 14). -/
def Obligations.FirstCommandAfterReset : Prop :=
  State.reset.delayUs = State.reset.params.defaultDelayUs ∧ 1 ≤ State.reset.delayUs.toNat ∧
  State.reset.arbLost = false ∧
  ∃ t, step (State.reset.withFetchWord 64 0x00000002) = .next t ∧ t.Answered false 0#3 false ∧
    t.trace = [.rsp false 0#3 false]

/-! ### Accessor commands (44_i2c_master.md) -/

/-- SET_DELAY: the clamp law (41_timing_and_timeout.md R53), the response (1, OK, `arb_lost`), and nothing else (R86).
The model's choices in it: the registers that are unspecified outside a transaction are kept (log 12), so are `buf_idx` and
`buf_wdata` (log 13), and the block is ready while `rsp_valid` is 1 (log 14). -/
def Obligations.SetDelayStoresTheClampedArgument : Prop :=
  ∀ (us : Int) (s : State), (Instr.setDelay us).wellFormed = true →
    ∃ d : BitVec 31, d.toNat = (if us ≤ 0 then 1 else us.toNat) ∧
      exec (.setDelay us) s = .next { s with
        delayUs := d, cause := 0#3, active := false,
        rspResult := true, rspErr := 0#3, rspArb := s.arbLost, rspValid := true, bufRd := false, bufWr := false,
        trace := s.trace ++ [.rsp true 0#3 s.arbLost] }

/-- GET_ARB_LOST: opcode 0x2; the response is (flag, OK, flag), reading does not clear the flag, and nothing else changes
(R87). The model's choices in it are those of SET_DELAY's statement (logs 12, 13, 14). -/
def Obligations.GetArbLostRespondsTheFlag : Prop :=
  (∀ word arg : Word, word.toNat % 16 = 0x2 → decode (.cmd word arg) = .ok .getArbLost) ∧
  ∀ s : State, exec .getArbLost s = .next { s with
    cause := 0#3, active := false,
    rspResult := s.arbLost, rspErr := 0#3, rspArb := s.arbLost, rspValid := true, bufRd := false, bufWr := false,
    trace := s.trace ++ [.rsp s.arbLost 0#3 s.arbLost] }

/-- CLEAR_ARB: opcode 0x3; the flag is cleared, the response is (1, OK, 0), and nothing else changes (R88).
The model's choices in it are those of SET_DELAY's statement (logs 12, 13, 14). -/
def Obligations.ClearArbClearsTheFlag : Prop :=
  (∀ word arg : Word, word.toNat % 16 = 0x3 → decode (.cmd word arg) = .ok .clearArb) ∧
  ∀ s : State, exec .clearArb s = .next { s with
    arbLost := false, cause := 0#3, active := false,
    rspResult := true, rspErr := 0#3, rspArb := false, rspValid := true, bufRd := false, bufWr := false,
    trace := s.trace ++ [.rsp true 0#3 false] }

/-- Each of the eleven reserved opcodes responds (0, REJECTED, `arb_lost`) and changes nothing but the response
registers (R82). That the cause register keeps REJECTED is the model's reading (log 11), and the other choices are those of
SET_DELAY's statement (logs 12, 13, 14). -/
def Obligations.ReservedOpcodesAreRejected : Prop :=
  ∀ (i : Instr) (s : State),
    i ∈ [Instr.reservedOp0, .reservedOp6, .reservedOp7, .reservedOp8, .reservedOp9, .reservedOpA, .reservedOpB,
      .reservedOpC, .reservedOpD, .reservedOpE, .reservedOpF] →
    exec i s = .next { s with
      cause := 7#3, active := false,
      rspResult := false, rspErr := 7#3, rspArb := s.arbLost, rspValid := true, bufRd := false, bufWr := false,
      trace := s.trace ++ [.rsp false 7#3 s.arbLost] }

/-! ### Line primitives (40_open_drain_driver.md) -/

/-- DRIVE_LOW: the line's output state, the event, nothing else; and the line reads 0 afterwards, whatever other devices
do (R43). -/
def Obligations.DriveLowDrivesTheLine : Prop :=
  ∀ (l : Line) (s : State), ∃ t, exec (.driveLow l) s = .next t ∧
    t = { s with
      sdaDrv := if l = .sda then true else s.sdaDrv, sclDrv := if l = .scl then true else s.sclDrv,
      trace := s.trace ++ [.dl l], rspValid := false, bufRd := false, bufWr := false } ∧
    ∃ u, exec (.readLevel l) t = .next u ∧ u.uopResult = false

/-- RELEASE: the line's output state, the event, nothing else; and the line reads 1 afterwards unless another device holds
it low (R44). -/
def Obligations.ReleaseReleasesTheLine : Prop :=
  ∀ (l : Line) (s : State), ∃ t, exec (.release l) s = .next t ∧
    t = { s with
      sdaDrv := if l = .sda then false else s.sdaDrv, sclDrv := if l = .scl then false else s.sclDrv,
      trace := s.trace ++ [.rl l], rspValid := false, bufRd := false, bufWr := false } ∧
    t.oe l = false ∧ t.pu l = true ∧
    ∀ held rest, s.ext l = held :: rest → ∃ u, exec (.readLevel l) t = .next u ∧ u.uopResult = !held

/-- READ_LEVEL: the level is 0 when the controller drives the line low or another device holds it low, else 1; the next
scripted answer of the environment is used up, and a free value stands for the answer when none is scripted; only the
trace changes besides (R42, R45). -/
def Obligations.ReadLevelReadsTheWiredAnd : Prop :=
  ∀ (l : Line) (s : State),
    (∀ held rest, s.ext l = held :: rest → exec (.readLevel l) s = .next { s with
      extSda := if l = .sda then rest else s.extSda, extScl := if l = .scl then rest else s.extScl,
      uopResult := !(s.drv l || held), trace := s.trace ++ [.sm l (!(s.drv l || held))],
      rspValid := false, bufRd := false, bufWr := false }) ∧
    (s.ext l = [] → ∃ held, exec (.readLevel l) s = .next { s with
      freeCtr := s.freeCtr + 1,
      uopResult := !(s.drv l || held), trace := s.trace ++ [.sm l (!(s.drv l || held))],
      rspValid := false, bufRd := false, bufWr := false })

/-! ### Delays and bounded waits (41_timing_and_timeout.md) -/

/-- DELAY: model time goes up by the length, `delay_us` for a delay step and 1 for a poll step (R51, R52, R54). The delay
counter is spent (60_exceptions.md R112; log 11). -/
def Obligations.DelayAdvancesTime : Prop :=
  ∀ s : State, ∃ n, (s.uopPoll = true → n = 1) ∧ (s.uopPoll = false → n = s.delayUs.toNat) ∧
    exec .delay s = .next { s with
      nowUs := s.nowUs + n, delayCnt := 0#31, trace := s.trace ++ [.dy n],
      rspValid := false, bufRd := false, bufWr := false }

/-- WAIT_SCL_HIGH, whatever the environment does: `k` failed samples with a poll step each, then the last sample; at most
the timeout; a failure only at the timeout, with the cause recorded unless one already is (R56, R57; 60_exceptions.md
R110). No line changes. -/
def Obligations.WaitSclHighIsBounded : Prop :=
  ∀ s : State, ∃ t k, exec .waitSclHigh s = .next t ∧
    k ≤ s.params.sclStretchTimeoutUs ∧ (t.uopResult = false → k = s.params.sclStretchTimeoutUs) ∧
    t.trace = s.trace ++ sclPolls k ++ [.sm .scl t.uopResult] ∧ t.nowUs = s.nowUs + k ∧ t.waitElapsed = k ∧
    t.cause = (if t.uopResult = true ∨ s.cause ≠ 0#3 then s.cause else 2#3) ∧
    t = { s with
      uopResult := t.uopResult, waitElapsed := t.waitElapsed, cause := t.cause, trace := t.trace, nowUs := t.nowUs,
      delayCnt := t.delayCnt, extSda := t.extSda, extScl := t.extScl, freeCtr := t.freeCtr,
      rspValid := false, bufRd := false, bufWr := false }

/-- WAIT_SCL_HIGH of a released SCL succeeds at the first sample that reads high, and fails exactly when the timeout's
worth of samples in a row read low (R57). -/
def Obligations.WaitSclHighFollowsTheLine : Prop :=
  ∀ (s : State) (k : Nat) (rest : List Bool), s.sclDrv = false →
    (k ≤ s.params.sclStretchTimeoutUs → s.extScl = List.replicate k true ++ false :: rest →
      ∃ t, exec .waitSclHigh s = .next t ∧ t.uopResult = true ∧ t.waitElapsed = k ∧ t.extScl = rest) ∧
    (s.extScl = List.replicate (s.params.sclStretchTimeoutUs + 1) true ++ rest →
      ∃ t, exec .waitSclHigh s = .next t ∧ t.uopResult = false ∧
        t.waitElapsed = s.params.sclStretchTimeoutUs ∧ t.extScl = rest)

/-- WAIT_BUS_IDLE, whatever the environment does: both lines are released, SDA first; `lows` failed samples with a poll
step each, then the last sample; at most the timeout; a failure only at the timeout (R54, R55, R57). -/
def Obligations.WaitBusIdleIsBounded : Prop :=
  ∀ s : State, ∃ (t : State) (lows : List (Bool × Bool)) (last : Bool × Bool), exec .waitBusIdle s = .next t ∧
    (∀ p ∈ lows, (p.1 && p.2) = false) ∧ t.uopResult = (last.1 && last.2) ∧
    lows.length ≤ s.params.busIdleTimeoutUs ∧ (t.uopResult = false → lows.length = s.params.busIdleTimeoutUs) ∧
    t.trace = s.trace ++ [.rl .sda, .rl .scl] ++ idlePolls lows ++ [.sm2 last.1 last.2] ∧
    t.nowUs = s.nowUs + lows.length ∧ t.waitElapsed = lows.length ∧ t.released ∧
    t.cause = (if t.uopResult = true ∨ s.cause ≠ 0#3 then s.cause else 1#3) ∧
    t = { s with
      sdaDrv := false, sclDrv := false,
      uopResult := t.uopResult, waitElapsed := t.waitElapsed, cause := t.cause, trace := t.trace, nowUs := t.nowUs,
      delayCnt := t.delayCnt, extSda := t.extSda, extScl := t.extScl, freeCtr := t.freeCtr,
      rspValid := false, bufRd := false, bufWr := false }

/-- WAIT_BUS_IDLE succeeds at the first sample in which no other device holds a line, and fails exactly when the timeout's
worth of samples in a row fail (R54, R57). `held` says which lines are held at each of those samples. -/
def Obligations.WaitBusIdleFollowsTheLines : Prop :=
  ∀ (s : State) (held : List (Bool × Bool)) (restSda restScl : List Bool), (∀ p ∈ held, (p.1 || p.2) = true) →
    (held.length ≤ s.params.busIdleTimeoutUs →
      s.extSda = held.map (·.1) ++ false :: restSda → s.extScl = held.map (·.2) ++ false :: restScl →
      ∃ t, exec .waitBusIdle s = .next t ∧ t.uopResult = true ∧ t.waitElapsed = held.length ∧
        t.extSda = restSda ∧ t.extScl = restScl) ∧
    (held.length = s.params.busIdleTimeoutUs + 1 →
      s.extSda = held.map (·.1) ++ restSda → s.extScl = held.map (·.2) ++ restScl →
      ∃ t, exec .waitBusIdle s = .next t ∧ t.uopResult = false ∧ t.waitElapsed = s.params.busIdleTimeoutUs ∧
        t.extSda = restSda ∧ t.extScl = restScl)

/-! ### START and STOP (42_bus_conditions.md) -/

/-- START: the flag is cleared, even when it fails; the idle wait; and, when the bus was seen idle, SDA falls while SCL is
released, one delay step, and SCL falls. On failure nothing was driven low (R61). -/
def Obligations.StartConditionEffect : Prop :=
  ∀ s : State, ∃ (t : State) (lows : List (Bool × Bool)) (last : Bool × Bool), exec .start s = .next t ∧
    (∀ p ∈ lows, (p.1 && p.2) = false) ∧ t.uopResult = (last.1 && last.2) ∧
    lows.length ≤ s.params.busIdleTimeoutUs ∧ (t.uopResult = false → lows.length = s.params.busIdleTimeoutUs) ∧
    t.trace = s.trace ++ [.rl .sda, .rl .scl] ++ idlePolls lows ++ [.sm2 last.1 last.2] ++
      (if t.uopResult then [.dl .sda, .dy s.delayUs.toNat, .dl .scl] else []) ∧
    t.sdaDrv = t.uopResult ∧ t.sclDrv = t.uopResult ∧ t.arbLost = false ∧
    t.nowUs = s.nowUs + lows.length + (if t.uopResult then s.delayUs.toNat else 0) ∧
    t.cause = (if t.uopResult = true ∨ s.cause ≠ 0#3 then s.cause else 1#3) ∧
    t = { s with
      sdaDrv := t.sdaDrv, sclDrv := t.sclDrv, arbLost := false,
      uopResult := t.uopResult, waitElapsed := t.waitElapsed, cause := t.cause, trace := t.trace, nowUs := t.nowUs,
      delayCnt := t.delayCnt, extSda := t.extSda, extScl := t.extScl, freeCtr := t.freeCtr,
      rspValid := false, bufRd := false, bufWr := false }

/-- STOP: release-only when arbitration was lost, else the STOP condition, or a wait that timed out and is absorbed; it
changes neither `cause` nor `arb_lost`, and both lines are released on every branch (R62, R63). -/
def Obligations.StopConditionEffect : Prop :=
  ∀ s : State, ∃ t, exec .stop s = .next t ∧
    IsStop s.params.sclStretchTimeoutUs s.delayUs.toNat s.arbLost (newEvents s t) ∧
    t.trace = s.trace ++ newEvents s t ∧ t.nowUs = s.nowUs + elapsed (newEvents s t) ∧ t.released ∧
    t = { s with
      sdaDrv := false, sclDrv := false,
      waitElapsed := t.waitElapsed, trace := t.trace, nowUs := t.nowUs,
      delayCnt := t.delayCnt, extSda := t.extSda, extScl := t.extScl, freeCtr := t.freeCtr,
      rspValid := false, bufRd := false, bufWr := false }

/-! ### WRITE_BYTE and READ_BYTE (43_byte_transfer_engine.md) -/

/-- The exits of WRITE_BYTE(v), with the line states of R79, the result of R70, the causes, the flag, and the frame
(R70, R72, R73, R74, R75, R79). -/
def Obligations.WriteByteExits : Prop :=
  ∀ s : State, ∃ t, exec .writeByte s = .next t ∧
    ((∃ ack, t.ack = ack ∧ t.uopResult = (ack && !s.arbLost) ∧ t.sclDrv = true ∧ t.sdaDrv = false ∧ t.bitCnt = 8 ∧
        t.arbLost = s.arbLost ∧ t.cause = (if ack = true ∨ s.cause ≠ 0#3 then s.cause else 3#3)) ∨
      (∃ n, n < 8 ∧ t.uopResult = false ∧ t.sclDrv = false ∧ t.sdaDrv = !s.uopByte.getLsbD (7 - n) ∧ t.bitCnt = n ∧
        t.arbLost = s.arbLost ∧ t.cause = (if s.cause ≠ 0#3 then s.cause else 2#3)) ∨
      (t.uopResult = false ∧ t.sclDrv = false ∧ t.sdaDrv = false ∧ t.bitCnt = 8 ∧
        t.arbLost = s.arbLost ∧ t.cause = (if s.cause ≠ 0#3 then s.cause else 2#3)) ∨
      (∃ n, n < 8 ∧ s.uopByte.getLsbD (7 - n) = true ∧ t.uopResult = false ∧ t.sclDrv = false ∧ t.sdaDrv = false ∧
        t.bitCnt = n ∧ t.arbLost = true ∧ t.cause = (if s.cause ≠ 0#3 then s.cause else 4#3))) ∧
    t.txByte = s.uopByte ∧ t.tcs = false ∧
    t = { s with
      sdaDrv := t.sdaDrv, sclDrv := t.sclDrv, arbLost := t.arbLost, txByte := t.txByte, bitCnt := t.bitCnt,
      curBit := t.curBit, ack := t.ack, waitElapsed := t.waitElapsed, cause := t.cause, tcs := false,
      uopResult := t.uopResult, trace := t.trace, nowUs := t.nowUs, delayCnt := t.delayCnt,
      extSda := t.extSda, extScl := t.extScl, freeCtr := t.freeCtr,
      rspValid := false, bufRd := false, bufWr := false }

/-- What WRITE_BYTE(v) puts on SDA at each Release(SCL): the bits of v, most significant first, up to the bit it ended in,
and a released ACK bit when all eight were clocked; with nine clock pulses when the ACK bit was clocked (R66, R72). -/
def Obligations.WriteByteSendsMostSignificantBitFirst : Prop :=
  ∀ s t : State, exec .writeByte s = .next t →
    sentBits s.sdaDrv (newEvents s t) = ((wireBits s.uopByte ++ [true]).take (t.bitCnt + 1)) ∧
    (t.sclDrv = true → clockPulses (newEvents s t) = 9 ∧
      ((newEvents s t).all (fun e => !failedWaitSample e) = true → t.nowUs = s.nowUs + 17 * s.delayUs.toNat))

/-- The arbitration detector: WRITE_BYTE samples SDA once in each data bit of value 1 that was clocked to its end, and
each of those samples read 1, but for one that read 0: it is the last event of the byte before `TR`, and it sets the
flag. The one other sample of SDA is the ACK bit's (R73, R74). -/
def Obligations.WriteByteChecksEachOneBit : Prop :=
  ∀ s t : State, exec .writeByte s = .next t → s.arbLost = false →
    (t.arbLost = true → ∃ es, newEvents s t = es ++ [.sm .sda false, .tr] ∧
      sdaSamples es = List.replicate (((wireBits s.uopByte).take t.bitCnt).count true) true) ∧
    (t.arbLost = false → sdaSamples (newEvents s t) =
      List.replicate (((wireBits s.uopByte).take t.bitCnt).count true) true ++
        (if t.sclDrv then [!t.ack] else []))

/-- The exits of READ_BYTE(ackreq), with the line states of R79: it fails only by a clock-stretch timeout, never changes
`arb_lost`, and its frame (R76, R78, R79). -/
def Obligations.ReadByteExits : Prop :=
  ∀ (ackreq : Bool) (s : State), ∃ t, exec (.readByte ackreq) s = .next t ∧
    ((t.uopResult = true ∧ t.sclDrv = true ∧ t.sdaDrv = false ∧ t.bitCnt = 8 ∧ t.uopData = t.rxAcc ∧
        t.cause = s.cause) ∨
      (∃ n, n < 8 ∧ t.uopResult = false ∧ t.sclDrv = false ∧ t.sdaDrv = false ∧ t.bitCnt = n ∧
        t.cause = (if s.cause ≠ 0#3 then s.cause else 2#3)) ∨
      (t.uopResult = false ∧ t.sclDrv = false ∧ t.sdaDrv = ackreq ∧ t.bitCnt = 8 ∧
        t.cause = (if s.cause ≠ 0#3 then s.cause else 2#3))) ∧
    t.tcs = false ∧
    t = { s with
      sdaDrv := t.sdaDrv, sclDrv := t.sclDrv, rxAcc := t.rxAcc, bitCnt := t.bitCnt, waitElapsed := t.waitElapsed,
      cause := t.cause, tcs := false, uopResult := t.uopResult, uopData := t.uopData, trace := t.trace,
      nowUs := t.nowUs, delayCnt := t.delayCnt, extSda := t.extSda, extScl := t.extScl, freeCtr := t.freeCtr,
      rspValid := false, bufRd := false, bufWr := false }

/-- A READ_BYTE that succeeds: its data are its eight samples of SDA, most significant first; the master releases SDA in
the data bits and drives it low in the ninth exactly for a requested ACK (R66, R76, R77). -/
def Obligations.ReadByteReadsMostSignificantBitFirst : Prop :=
  ∀ (ackreq : Bool) (s t : State), exec (.readByte ackreq) s = .next t → t.uopResult = true →
    wireBits t.uopData = sdaSamples (newEvents s t) ∧
    sentBits s.sdaDrv (newEvents s t) = List.replicate 8 true ++ [!ackreq] ∧
    clockPulses (newEvents s t) = 9 ∧
    ((newEvents s t).all (fun e => !failedWaitSample e) = true → t.nowUs = s.nowUs + 17 * s.delayUs.toNat)

/-- A clock-stretch timeout in any bit of WRITE_BYTE or READ_BYTE ends the operation at once: the last events are the
failed samples of the whole wait and `TR` (R75). -/
def Obligations.StretchTimeoutEndsTheByteAtOnce : Prop :=
  ∀ (i : Instr) (s t : State), (i = .writeByte ∨ i = .readByte true ∨ i = .readByte false) →
    exec i s = .next t → s.cause = 0#3 → t.cause = 2#3 →
    t.uopResult = false ∧ ∃ es, newEvents s t =
      es ++ .rl .scl :: sclPolls s.params.sclStretchTimeoutUs ++ [.sm .scl false, .tr]

/-- WRITE_BYTE and READ_BYTE set SDA only while the controller drives SCL low (R69). -/
def Obligations.SdaIsSetOnlyWhileSclIsLow : Prop :=
  ∀ (i : Instr) (s t : State), (i = .writeByte ∨ i = .readByte true ∨ i = .readByte false) →
    exec i s = .next t → sdaSetOnlyWhileSclLow s.sclDrv (newEvents s t) = true

/-- WRITE_BYTE and READ_BYTE acquire the timing-critical section first and release it last, on every exit; in a message
command every acquisition has its release before the next one, and the section is not held at the end; a message that sends
no byte, every other operation run by itself, the accessors and the reserved opcodes leave `tcs` alone (R67). -/
def Obligations.TimingCriticalSectionSpansEachByte : Prop :=
  ∀ (i : Instr) (s t : State), exec i s = .next t →
    ((i = .writeByte ∨ i = .readByte true ∨ i = .readByte false) →
      t.tcs = false ∧ ∃ es, newEvents s t = .ta :: es ++ [.tr] ∧ .ta ∉ es ∧ .tr ∉ es) ∧
    ((i ≠ .writeByte ∧ i ≠ .readByte true ∧ i ≠ .readByte false ∧ (∀ a l, i ≠ .writeMessage a l) ∧
        (∀ a l, i ≠ .readMessage a l)) →
      t.tcs = s.tcs ∧ .ta ∉ newEvents s t ∧ .tr ∉ newEvents s t) ∧
    ((∃ a l, i = .writeMessage a l ∨ i = .readMessage a l) →
      tcsPairs false (newEvents s t) = true ∧ (.ta ∈ newEvents s t → t.tcs = false) ∧
      (.ta ∉ newEvents s t → t.tcs = s.tcs))

/-! ### Message commands (44_i2c_master.md; 60_exceptions.md) -/

/-- A message command whose host supplies the buffer completes, whatever the bus does: it responds once and is over, both
lines are released, the result is 1 exactly when the code is OK, the code is one of 0 to 4 (5 and 6 are never produced),
ARBITRATION_LOST goes with the flag; the transaction latch holds the operands, and what no message changes is kept
(R25, R41, R65, R84, R85, R89, R90, R106, R108). The model's choices in it: the latch, unspecified outside a transaction,
keeps the operands after the response (log 12), the strobes are over (log 1), and the block is ready while `rsp_valid` is 1
(log 14). -/
def Obligations.MessageCommandsEndIdleReleasedAndAnswered : Prop :=
  ∀ (i : Instr) (addr len : Nat) (s : State), (i = .writeMessage addr len ∨ i = .readMessage addr len) →
    i.wellFormed = true → len ≤ s.bufLen →
    ∃ t r e, exec i s = .next t ∧ t.Answered r e t.arbLost ∧ t.phase = .idle ∧ t.released ∧
      (r = true ↔ e = 0#3) ∧ e ∈ [0#3, 1#3, 2#3, 3#3, 4#3] ∧ (t.arbLost = true ↔ e = 4#3) ∧
      t.tAddr.toNat = addr ∧ t.tLen.toNat = len ∧ t.tRw = decide (i = .readMessage addr len) ∧
      t.trace = s.trace ++ newEvents s t ∧ responses (newEvents s t) = [(r, e, t.arbLost)] ∧
      t.bufRd = false ∧ t.bufWr = false ∧ Kept s t

/-- A message whose host supplies too short a buffer either fails before it reaches the missing byte, or it is stuck
there: busy in its data phase with no response, no step but a reset follows (R91; log 6). A message that failed is over
while `rsp_valid` is 1 (log 14). -/
def Obligations.ShortBufferBlocksTheMessage : Prop :=
  ∀ (i : Instr) (addr len : Nat) (s : State), (i = .writeMessage addr len ∨ i = .readMessage addr len) →
    i.wellFormed = true → s.bufLen < len →
    ∃ t, exec i s = .next t ∧
      ((∃ e, e ≠ 0#3 ∧ t.Answered false e t.arbLost) ∨
        (t.busy = true ∧ t.phase = .data ∧ responses (newEvents s t) = [] ∧ t.byteIdx.toNat = s.bufLen ∧
          (s.uop = none → s.rstIn = none → step t = .fault .bufferTooShort)))

/-- BUS_BUSY_TIMEOUT: only a failed START gives it, after the whole wait; both lines released, no line driven low, no STOP,
the flag clear, and no byte on the wire (R96; 42_bus_conditions.md R64). -/
def Obligations.BusBusyEndsWithoutStop : Prop :=
  ∀ (i : Instr) (addr len : Nat) (s t : State), (i = .writeMessage addr len ∨ i = .readMessage addr len) →
    i.wellFormed = true → exec i s = .next t → t.busy = false → t.rspErr = 1#3 →
    t.rspResult = false ∧ t.arbLost = false ∧ t.released ∧
    ∃ (lows : List (Bool × Bool)) (last : Bool × Bool),
      lows.length = s.params.busIdleTimeoutUs ∧ (∀ p ∈ last :: lows, (p.1 && p.2) = false) ∧
      newEvents s t = [.rl .sda, .rl .scl] ++ idlePolls lows ++ [.sm2 last.1 last.2] ++ [.rsp false 1#3 false]

/-- CLOCK_STRETCH_TIMEOUT: the failing byte ends with the failed samples of its whole wait and `TR`, and STOP's full branch
follows, whose own timeout is not reported (R97; 60_exceptions.md R107). -/
def Obligations.StretchTimeoutEndsTheMessageWithStop : Prop :=
  ∀ (i : Instr) (addr len : Nat) (s t : State), (i = .writeMessage addr len ∨ i = .readMessage addr len) →
    i.wellFormed = true → exec i s = .next t → t.busy = false → t.rspErr = 2#3 →
    t.rspResult = false ∧ t.arbLost = false ∧
    ∃ es stop, IsStop s.params.sclStretchTimeoutUs s.delayUs.toNat false stop ∧
      newEvents s t = es ++ .rl .scl :: sclPolls s.params.sclStretchTimeoutUs ++ [.sm .scl false, .tr] ++ stop ++
        [.rsp false 2#3 false]

/-- NACK: the ACK bit of the failing byte was clocked in full and read 1, and STOP's full branch follows; every byte has
nine clock pulses and there is none after the failing byte (R98; 90_conflicts.md C3). -/
def Obligations.NackEndsTheMessageWithStop : Prop :=
  ∀ (i : Instr) (addr len : Nat) (s t : State), (i = .writeMessage addr len ∨ i = .readMessage addr len) →
    i.wellFormed = true → exec i s = .next t → t.busy = false → t.rspErr = 3#3 →
    t.rspResult = false ∧ t.arbLost = false ∧
    clockPulses (newEvents s t) = 9 * (byteSections (newEvents s t)).length ∧
    ∃ es stop, IsStop s.params.sclStretchTimeoutUs s.delayUs.toNat false stop ∧
      newEvents s t = es ++ [.sm .sda true, .dl .scl, .rl .sda, .tr] ++ stop ++ [.rsp false 3#3 false]

/-- ARBITRATION_LOST: the byte stops at the sample that read 0 with no further line event, and STOP only releases the lines;
the flag stays set (R99; 10_state.md R8). -/
def Obligations.ArbitrationLossOnlyReleasesTheLines : Prop :=
  ∀ (i : Instr) (addr len : Nat) (s t : State), (i = .writeMessage addr len ∨ i = .readMessage addr len) →
    i.wellFormed = true → exec i s = .next t → t.busy = false → t.rspErr = 4#3 →
    t.rspResult = false ∧ t.arbLost = true ∧
    ∃ es, newEvents s t = es ++ [.sm .sda false, .tr, .rl .sda, .rl .scl, .rsp false 4#3 true]

/-- A WRITE_MESSAGE that responds 1, for a host that keeps its duties: the bytes on the wire are the address byte with R/W
0 and then `buf[0]` to `buf[len-1]`, in that order and each once, every one of them most significant bit first with a
released ACK bit that the receiver pulled low; there was no failure (R93; 30_encoding.md R39, R40; 20_memory.md R31, R33). -/
def Obligations.SuccessfulWriteSentEveryByte : Prop :=
  ∀ (addr len : Nat) (s t : State), (Instr.writeMessage addr len).wellFormed = true →
    exec (.writeMessage addr len) s = .next t → t.busy = false → t.rspResult = true →
    s.hostWrites = [] → s.misanswers = [] →
    (byteSections (newEvents s t)).map (sentBits false) =
      (BitVec.ofNat 8 (2 * addr) :: (List.range len).map s.buf.read).map (fun v => wireBits v ++ [true]) ∧
    (∀ sec ∈ byteSections (newEvents s t), (sdaSamples sec).getLast? = some false) ∧
    t.rspErr = 0#3 ∧ t.arbLost = false

/-- A WRITE_MESSAGE that responds 0 after its START: every byte before the last on the wire was sent in full and
acknowledged; the last one, byte `k` of the address byte and the data bytes, began with the bits of that byte and was not
acknowledged (no ACK sample of 0 after nine bits); and nothing but the STOP sequence follows it (R93; R89). -/
def Obligations.FailedWriteStopsAtTheFailingByte : Prop :=
  ∀ (addr len : Nat) (s t : State), (Instr.writeMessage addr len).wellFormed = true →
    exec (.writeMessage addr len) s = .next t → t.busy = false → t.rspResult = false → t.rspErr ≠ 1#3 →
    s.hostWrites = [] → s.misanswers = [] →
    ∃ (k : Nat) (v : Byte) (bad es stop : List Event), k ≤ len ∧
      (BitVec.ofNat 8 (2 * addr) :: (List.range len).map s.buf.read)[k]? = some v ∧
      sentBits false bad ≠ [] ∧ sentBits false bad <+: wireBits v ++ [true] ∧
      ¬ ((sentBits false bad).length = 9 ∧ (sdaSamples bad).getLast? = some false) ∧
      (bufReads (newEvents s t)).length = k ∧
      byteSections (newEvents s t) = byteSections es ++ [bad] ∧
      newEvents s t = es ++ .ta :: bad ++ .tr :: stop ++ [.rsp false t.rspErr t.arbLost] ∧
      (byteSections es).map (sentBits false) =
        ((BitVec.ofNat 8 (2 * addr) :: (List.range len).map s.buf.read).take k).map (fun v => wireBits v ++ [true]) ∧
      (∀ sec ∈ byteSections es, (sdaSamples sec).getLast? = some false) ∧
      IsStop s.params.sclStretchTimeoutUs s.delayUs.toNat t.arbLost stop

/-- WRITE_MESSAGE reads the buffer in increasing index order, each index once and only indices below the length, and does
not write it; each read of index j comes when the address byte and the j data bytes before have ended and right before byte
j begins, whose bits are those of the value read; with the host's duties kept each read gives the stored byte (20_memory.md
R28, R29, R33). -/
def Obligations.WriteMessageReadsTheBufferInOrder : Prop :=
  ∀ (addr len : Nat) (s t : State), (Instr.writeMessage addr len).wellFormed = true →
    exec (.writeMessage addr len) s = .next t →
    (∃ k, k ≤ len ∧ k ≤ s.bufLen ∧ (bufReads (newEvents s t)).map (·.1) = (List.range k).map (BitVec.ofNat 16)) ∧
    bufWrites (newEvents s t) = [] ∧
    (∀ pre j v post, newEvents s t = pre ++ .br j v :: post →
      (byteSections pre).length = j.toNat + 1 ∧ pre.getLast? = some .tr ∧ post.head? = some .ta ∧
      ∃ sec rest, byteSections post = sec :: rest ∧ sentBits false sec <+: wireBits v ++ [true]) ∧
    (s.hostWrites = [] → s.misanswers = [] →
      (∀ c ∈ bufReads (newEvents s t), c.2 = s.buf.read c.1.toNat) ∧ t.buf = s.buf)

/-- READ_MESSAGE writes the buffer in increasing index order, each index once and only indices below the length, and does
not read it; each write of index j comes right after byte j, whose samples are the bits of the value written, has ended, and
before the next byte, or after the last byte STOP, begins; with the host's duties kept the buffer afterwards holds the bytes written, and every other byte is as it was,
so that after a failure the bytes from the failing one on are unchanged (20_memory.md R28, R29, R33). -/
def Obligations.ReadMessageWritesTheBufferInOrder : Prop :=
  ∀ (addr len : Nat) (s t : State), (Instr.readMessage addr len).wellFormed = true →
    exec (.readMessage addr len) s = .next t → s.buf.wf = true → s.hostWrites = [] →
    (∀ pre j v post, newEvents s t = pre ++ .bw j v :: post →
      (byteSections pre).length = j.toNat + 2 ∧ pre.getLast? = some .tr ∧
      (byteSections pre).getLast?.map sdaSamples = some (wireBits v) ∧
      post.head? = some (if j.toNat + 1 = len then .dl .sda else .ta)) ∧
    ∃ bytes : List Byte, bytes.length ≤ len ∧ bytes.length ≤ s.bufLen ∧
      bufWrites (newEvents s t) = (List.range bytes.length).zipWith (fun i v => (BitVec.ofNat 16 i, v)) bytes ∧
      bufReads (newEvents s t) = [] ∧
      (∀ i v, bytes[i]? = some v → t.buf.read i = v) ∧
      (∀ j : BitVec 16, bytes.length ≤ j.toNat → t.buf.read j.toNat = s.buf.read j.toNat) ∧
      (t.busy = false → (t.rspResult = true ↔ bytes.length = len ∧ t.rspErr = 0#3))

/-- A READ_MESSAGE that responds 1, for a host that keeps its duties: the wire carries the address byte with R/W 1, then one
byte for each index; the samples of SDA in the byte for index `i` are the bits of `buf[i]` afterwards, most significant
first; and the master ACKs every byte but the last, which it NACKs (R90, R92; 30_encoding.md R39, R40; 20_memory.md R31). -/
def Obligations.SuccessfulReadStoredEveryByte : Prop :=
  ∀ (addr len : Nat) (s t : State), (Instr.readMessage addr len).wellFormed = true →
    exec (.readMessage addr len) s = .next t → t.busy = false → t.rspResult = true →
    s.buf.wf = true → s.hostWrites = [] →
    ∃ (first : List Event) (rest : List (List Event)), byteSections (newEvents s t) = first :: rest ∧
      sentBits false first = wireBits (BitVec.ofNat 8 (2 * addr + 1)) ++ [true] ∧
      (sdaSamples first).getLast? = some false ∧
      rest.map sdaSamples = (List.range len).map (fun i => wireBits (t.buf.read i)) ∧
      rest.map (sentBits false) = (List.range len).map (fun i => List.replicate 8 true ++ [decide (i + 1 = len)])

/-- On a bus where no device stretches SCL, no other master drives SDA, and the addressed device acknowledges every byte, a
WRITE_MESSAGE responds 1 after `(17 len + 19) d` microseconds. The environment's answers at the coming samples say what the
bus does: no line held at the idle sample, SDA not held at the sample of each data bit of value 1, SDA held at each ACK
sample (R89; 30_encoding.md R39; 70_reset_and_hazards.md R129). That the block is ready while `rsp_valid` is 1 is log 14. -/
def Obligations.AcknowledgedWriteSucceeds : Prop :=
  ∀ (addr len : Nat) (s : State) (restSda restScl : List Bool), (Instr.writeMessage addr len).wellFormed = true →
    len ≤ s.bufLen → s.hostWrites = [] → s.misanswers = [] →
    s.extSda = false :: ((BitVec.ofNat 8 (2 * addr) :: (List.range len).map s.buf.read).flatMap fun v =>
      List.replicate ((wireBits v).count true) false ++ [true]) ++ restSda →
    s.extScl = List.replicate (9 * (len + 1) + 2) false ++ restScl →
    ∃ t, exec (.writeMessage addr len) s = .next t ∧ t.Answered true 0#3 false ∧ t.arbLost = false ∧ t.released ∧
      t.nowUs = s.nowUs + (17 * len + 19) * s.delayUs.toNat ∧ t.extSda = restSda ∧ t.extScl = restScl

/-- On a bus where no device stretches SCL and the addressed device acknowledges its address and then sends the bytes
`data`, a READ_MESSAGE responds 1 and the buffer holds those bytes (R90; 30_encoding.md R39; 70_reset_and_hazards.md
R129). That the block is ready while `rsp_valid` is 1 is log 14. -/
def Obligations.AcknowledgedReadStoresTheBytes : Prop :=
  ∀ (addr : Nat) (data : List Byte) (s : State) (restSda restScl : List Bool),
    (Instr.readMessage addr data.length).wellFormed = true →
    data.length ≤ s.bufLen → s.hostWrites = [] → s.buf.wf = true →
    s.extSda = false ::
      (List.replicate ((wireBits (BitVec.ofNat 8 (2 * addr + 1))).count true) false ++ [true] ++
        data.flatMap fun v => (wireBits v).map (!·)) ++ restSda →
    s.extScl = List.replicate (9 * (data.length + 1) + 2) false ++ restScl →
    ∃ t, exec (.readMessage addr data.length) s = .next t ∧ t.Answered true 0#3 false ∧ t.arbLost = false ∧
      t.released ∧ (∀ i v, data[i]? = some v → t.buf.read i = v) ∧
      t.nowUs = s.nowUs + (17 * data.length + 19) * s.delayUs.toNat ∧ t.extSda = restSda ∧ t.extScl = restScl

/-- What a host that breaks its duties can see (R91; 93_implementation_defined.md): a byte WRITE_MESSAGE reads is the old or
a value the host wrote meanwhile, unless the host does not answer with the stored byte; a byte READ_MESSAGE wrote is left
as received or as the host wrote it. -/
def Obligations.HostRacesGiveOneOfTheirValues : Prop :=
  ∀ (addr len : Nat) (s t : State),
    (exec (.writeMessage addr len) s = .next t →
      ∀ c ∈ bufReads (newEvents s t), c.1 ∉ s.misanswers → c.2 = s.buf.read c.1.toNat ∨ c ∈ s.hostWrites) ∧
    (exec (.readMessage addr len) s = .next t → s.buf.wf = true →
      ∀ c ∈ bufWrites (newEvents s t), t.buf.read c.1.toNat = c.2 ∨ (c.1, t.buf.read c.1.toNat) ∈ s.hostWrites)

/-- A message that responds 1 makes nine clock pulses for each of its `len + 1` bytes, and no other (R66; 00_scope.md §6;
90_conflicts.md C3). -/
def Obligations.SuccessfulMessageMakesNinePulsesPerByte : Prop :=
  ∀ (i : Instr) (addr len : Nat) (s t : State), (i = .writeMessage addr len ∨ i = .readMessage addr len) →
    i.wellFormed = true → exec i s = .next t → t.busy = false → t.rspResult = true →
    (byteSections (newEvents s t)).length = len + 1 ∧ clockPulses (newEvents s t) = 9 * (len + 1)

/-- The model time of a message that responds 1 when no sample of a wait failed: `(17 len + 19) d` (70_reset_and_hazards.md
R129). -/
def Obligations.SuccessfulMessageDuration : Prop :=
  ∀ (i : Instr) (addr len : Nat) (s t : State), (i = .writeMessage addr len ∨ i = .readMessage addr len) →
    i.wellFormed = true → exec i s = .next t → t.busy = false → t.rspResult = true →
    (newEvents s t).all (fun e => !failedWaitSample e) = true →
    t.nowUs = s.nowUs + (17 * len + 19) * s.delayUs.toNat

/-- Every message command ends within a bounded time, whatever the bus does: one idle wait, nine stretch waits and
seventeen delay steps for each of its bytes, and STOP's wait and delay step (60_exceptions.md R108; R57). -/
def Obligations.MessageTimeIsBounded : Prop :=
  ∀ (i : Instr) (addr len : Nat) (s t : State), (i = .writeMessage addr len ∨ i = .readMessage addr len) →
    i.wellFormed = true → exec i s = .next t →
    t.nowUs ≤ s.nowUs + s.params.busIdleTimeoutUs + s.delayUs.toNat +
      (len + 1) * (9 * s.params.sclStretchTimeoutUs + 17 * s.delayUs.toNat) +
      s.params.sclStretchTimeoutUs + s.delayUs.toNat

/-- Every sample a host command makes is of a line the controller has released (40_open_drain_driver.md R49). -/
def Obligations.EverySampleIsOfAReleasedLine : Prop :=
  ∀ (word arg : Word) (i : Instr) (s t : State), decode (.cmd word arg) = .ok i → exec i s = .next t →
    samplesReleased s.sdaDrv s.sclDrv (newEvents s t) = true

/-- Each accepted command responds exactly once, as its last event, with the response registers written and `rsp_valid`
set; for every command but GET_ARB_LOST the result is 1 exactly when the code is OK (R85). A message command's host
supplies the buffer (R91). That `cause` is kept after the response is the model's choice (log 12). -/
def Obligations.EachCommandRespondsOnceAtItsEnd : Prop :=
  ∀ (word arg : Word) (i : Instr) (s t : State), decode (.cmd word arg) = .ok i → exec i s = .next t →
    (∀ addr len, i = .writeMessage addr len ∨ i = .readMessage addr len → len ≤ s.bufLen) →
    (∃ es, newEvents s t = es ++ [.rsp t.rspResult t.rspErr t.rspArb] ∧ responses es = []) ∧
    t.rspErr = t.cause ∧ t.rspArb = t.arbLost ∧ t.rspValid = true ∧ t.active = false ∧
    (i ≠ .getArbLost → (t.rspResult = true ↔ t.rspErr = 0#3))

/-! ### The whole machine -/

/-- Every instruction completes: no instruction stops on any operand or state, for a message with a short buffer is a block
that stands still, not a stop of the instruction (40_open_drain_driver.md R48; 60_exceptions.md R108; log 6). -/
def Obligations.EveryInstructionCompletes : Prop :=
  ∀ (i : Instr) (s : State), ∃ t, exec i s = .next t

/-- Time and trace: every instruction only appends to the trace, and model time goes up by exactly the delays it appended
(10_state.md R26, R27). -/
def Obligations.OnlyDelaysAdvanceTime : Prop :=
  ∀ (i : Instr) (s t : State), exec i s = .next t →
    t.trace = s.trace ++ newEvents s t ∧ t.nowUs = s.nowUs + elapsed (newEvents s t)

/-- The output state of each line follows the DriveLow and Release events, and nothing else writes it (10_state.md R5;
92_eei_decisions.md D29). -/
def Obligations.LinesFollowTheTrace : Prop :=
  ∀ (i : Instr) (s t : State), exec i s = .next t →
    ∀ l, t.drv l = linesAfter l (s.drv l) (newEvents s t)

/-- Only SET_DELAY writes `delay_us`, and no instruction changes the parameters (10_state.md R6; 41_timing_and_timeout.md
R58). -/
def Obligations.OnlySetDelayWritesTheDelay : Prop :=
  ∀ (i : Instr) (s t : State), exec i s = .next t →
    t.params = s.params ∧ ((∀ us, i ≠ .setDelay us) → t.delayUs = s.delayUs)

/-- `arb_lost`: only the arbitration detector sets it, which saw SDA low as the byte's last event; only START (of a message
too) and CLEAR_ARB clear it (10_state.md R7). -/
def Obligations.WhoWritesTheArbitrationFlag : Prop :=
  ∀ (i : Instr) (s t : State), exec i s = .next t →
    (s.arbLost = false → t.arbLost = true → ∃ es fs, newEvents s t = es ++ [.sm .sda false, .tr] ++ fs ∧
      (i = .writeByte ∨ (∃ a n, i = .writeMessage a n) ∨ (∃ a n, i = .readMessage a n))) ∧
    (s.arbLost = true → t.arbLost = false →
      i = .start ∨ i = .clearArb ∨ (∃ a n, i = .writeMessage a n) ∨ (∃ a n, i = .readMessage a n))

/-- The invariant of the block (`State.Inv`): among other things both lines are released whenever `phase` is IDLE, the delay
is at least 1, the reserved error codes are never held, the timing-critical section is not held between steps, and the
host's buffer is in canonical form. Every step keeps it, a reset in the middle of a command among them (10_state.md R6,
R12, R15, R16, R17, R25; 30_encoding.md R41). Clauses that rest on the model's choices: between steps the block is idle or
stuck at a buffer access (log 6), the delay counter is spent (log 11), and `cause`, `bit_cnt`, `wait_elapsed` and the delay
counter, which the spec leaves unspecified after a reset (log 3) and outside a transaction (log 12), stay in their ranges. -/
def Obligations.EveryStepKeepsTheInvariant : Prop :=
  ∀ s t : State, s.Inv → step s = .next t → t.Inv

/-- The state after reset meets the invariant. Its clauses on `cause`, `bit_cnt`, `wait_elapsed` and the delay counter rest on
the model's reset values (log 3). -/
def Obligations.ResetMeetsTheInvariant : Prop :=
  State.reset.Inv

end
end

