-- ==== Sys2Proof/Laws/State.lean ====
section
/-! SUPPORT. For each update of the state, one lemma per field (true by unfolding the update once). -/

namespace Sys2Proof.Machine

/-! ### emit -/

@[simp] theorem emit_params (e : Event) (s : State) : (emit e s).params = s.params := rfl
@[simp] theorem emit_sdaDrv (e : Event) (s : State) : (emit e s).sdaDrv = s.sdaDrv := rfl
@[simp] theorem emit_sclDrv (e : Event) (s : State) : (emit e s).sclDrv = s.sclDrv := rfl
@[simp] theorem emit_delayUs (e : Event) (s : State) : (emit e s).delayUs = s.delayUs := rfl
@[simp] theorem emit_arbLost (e : Event) (s : State) : (emit e s).arbLost = s.arbLost := rfl
@[simp] theorem emit_rspResult (e : Event) (s : State) : (emit e s).rspResult = s.rspResult := rfl
@[simp] theorem emit_rspErr (e : Event) (s : State) : (emit e s).rspErr = s.rspErr := rfl
@[simp] theorem emit_rspArb (e : Event) (s : State) : (emit e s).rspArb = s.rspArb := rfl
@[simp] theorem emit_rspValid (e : Event) (s : State) : (emit e s).rspValid = false := rfl
@[simp] theorem emit_tAddr (e : Event) (s : State) : (emit e s).tAddr = s.tAddr := rfl
@[simp] theorem emit_tRw (e : Event) (s : State) : (emit e s).tRw = s.tRw := rfl
@[simp] theorem emit_tLen (e : Event) (s : State) : (emit e s).tLen = s.tLen := rfl
@[simp] theorem emit_byteIdx (e : Event) (s : State) : (emit e s).byteIdx = s.byteIdx := rfl
@[simp] theorem emit_txByte (e : Event) (s : State) : (emit e s).txByte = s.txByte := rfl
@[simp] theorem emit_bitCnt (e : Event) (s : State) : (emit e s).bitCnt = s.bitCnt := rfl
@[simp] theorem emit_curBit (e : Event) (s : State) : (emit e s).curBit = s.curBit := rfl
@[simp] theorem emit_rxAcc (e : Event) (s : State) : (emit e s).rxAcc = s.rxAcc := rfl
@[simp] theorem emit_ack (e : Event) (s : State) : (emit e s).ack = s.ack := rfl
@[simp] theorem emit_waitElapsed (e : Event) (s : State) : (emit e s).waitElapsed = s.waitElapsed := rfl
@[simp] theorem emit_delayCnt (e : Event) (s : State) : (emit e s).delayCnt = s.delayCnt := rfl
@[simp] theorem emit_cause (e : Event) (s : State) : (emit e s).cause = s.cause := rfl
@[simp] theorem emit_tcs (e : Event) (s : State) : (emit e s).tcs = s.tcs := rfl
@[simp] theorem emit_phase (e : Event) (s : State) : (emit e s).phase = s.phase := rfl
@[simp] theorem emit_active (e : Event) (s : State) : (emit e s).active = s.active := rfl
@[simp] theorem emit_bufRd (e : Event) (s : State) : (emit e s).bufRd = false := rfl
@[simp] theorem emit_bufWr (e : Event) (s : State) : (emit e s).bufWr = false := rfl
@[simp] theorem emit_bufIdx (e : Event) (s : State) : (emit e s).bufIdx = s.bufIdx := rfl
@[simp] theorem emit_bufWdata (e : Event) (s : State) : (emit e s).bufWdata = s.bufWdata := rfl
@[simp] theorem emit_trace (e : Event) (s : State) : (emit e s).trace = s.trace ++ [e] := rfl
@[simp] theorem emit_nowUs (e : Event) (s : State) : (emit e s).nowUs = s.nowUs := rfl
@[simp] theorem emit_buf (e : Event) (s : State) : (emit e s).buf = s.buf := rfl
@[simp] theorem emit_bufLen (e : Event) (s : State) : (emit e s).bufLen = s.bufLen := rfl
@[simp] theorem emit_port (e : Event) (s : State) : (emit e s).port = s.port := rfl
@[simp] theorem emit_rstIn (e : Event) (s : State) : (emit e s).rstIn = s.rstIn := rfl
@[simp] theorem emit_hostWrites (e : Event) (s : State) : (emit e s).hostWrites = s.hostWrites := rfl
@[simp] theorem emit_misanswers (e : Event) (s : State) : (emit e s).misanswers = s.misanswers := rfl
@[simp] theorem emit_extSda (e : Event) (s : State) : (emit e s).extSda = s.extSda := rfl
@[simp] theorem emit_extScl (e : Event) (s : State) : (emit e s).extScl = s.extScl := rfl
@[simp] theorem emit_uop (e : Event) (s : State) : (emit e s).uop = s.uop := rfl
@[simp] theorem emit_uopByte (e : Event) (s : State) : (emit e s).uopByte = s.uopByte := rfl
@[simp] theorem emit_uopPoll (e : Event) (s : State) : (emit e s).uopPoll = s.uopPoll := rfl
@[simp] theorem emit_uopResult (e : Event) (s : State) : (emit e s).uopResult = s.uopResult := rfl
@[simp] theorem emit_uopData (e : Event) (s : State) : (emit e s).uopData = s.uopData := rfl
@[simp] theorem emit_freeCtr (e : Event) (s : State) : (emit e s).freeCtr = s.freeCtr := rfl

/-! ### setDrv -/

@[simp] theorem setDrv_params (l : Line) (b : Bool) (s : State) : (setDrv l b s).params = s.params := by cases l <;> rfl
@[simp] theorem setDrv_sdaDrv (l : Line) (b : Bool) (s : State) : (setDrv l b s).sdaDrv = if l = .sda then b else s.sdaDrv := by cases l <;> rfl
@[simp] theorem setDrv_sclDrv (l : Line) (b : Bool) (s : State) : (setDrv l b s).sclDrv = if l = .scl then b else s.sclDrv := by cases l <;> rfl
@[simp] theorem setDrv_delayUs (l : Line) (b : Bool) (s : State) : (setDrv l b s).delayUs = s.delayUs := by cases l <;> rfl
@[simp] theorem setDrv_arbLost (l : Line) (b : Bool) (s : State) : (setDrv l b s).arbLost = s.arbLost := by cases l <;> rfl
@[simp] theorem setDrv_rspResult (l : Line) (b : Bool) (s : State) : (setDrv l b s).rspResult = s.rspResult := by cases l <;> rfl
@[simp] theorem setDrv_rspErr (l : Line) (b : Bool) (s : State) : (setDrv l b s).rspErr = s.rspErr := by cases l <;> rfl
@[simp] theorem setDrv_rspArb (l : Line) (b : Bool) (s : State) : (setDrv l b s).rspArb = s.rspArb := by cases l <;> rfl
@[simp] theorem setDrv_rspValid (l : Line) (b : Bool) (s : State) : (setDrv l b s).rspValid = s.rspValid := by cases l <;> rfl
@[simp] theorem setDrv_tAddr (l : Line) (b : Bool) (s : State) : (setDrv l b s).tAddr = s.tAddr := by cases l <;> rfl
@[simp] theorem setDrv_tRw (l : Line) (b : Bool) (s : State) : (setDrv l b s).tRw = s.tRw := by cases l <;> rfl
@[simp] theorem setDrv_tLen (l : Line) (b : Bool) (s : State) : (setDrv l b s).tLen = s.tLen := by cases l <;> rfl
@[simp] theorem setDrv_byteIdx (l : Line) (b : Bool) (s : State) : (setDrv l b s).byteIdx = s.byteIdx := by cases l <;> rfl
@[simp] theorem setDrv_txByte (l : Line) (b : Bool) (s : State) : (setDrv l b s).txByte = s.txByte := by cases l <;> rfl
@[simp] theorem setDrv_bitCnt (l : Line) (b : Bool) (s : State) : (setDrv l b s).bitCnt = s.bitCnt := by cases l <;> rfl
@[simp] theorem setDrv_curBit (l : Line) (b : Bool) (s : State) : (setDrv l b s).curBit = s.curBit := by cases l <;> rfl
@[simp] theorem setDrv_rxAcc (l : Line) (b : Bool) (s : State) : (setDrv l b s).rxAcc = s.rxAcc := by cases l <;> rfl
@[simp] theorem setDrv_ack (l : Line) (b : Bool) (s : State) : (setDrv l b s).ack = s.ack := by cases l <;> rfl
@[simp] theorem setDrv_waitElapsed (l : Line) (b : Bool) (s : State) : (setDrv l b s).waitElapsed = s.waitElapsed := by cases l <;> rfl
@[simp] theorem setDrv_delayCnt (l : Line) (b : Bool) (s : State) : (setDrv l b s).delayCnt = s.delayCnt := by cases l <;> rfl
@[simp] theorem setDrv_cause (l : Line) (b : Bool) (s : State) : (setDrv l b s).cause = s.cause := by cases l <;> rfl
@[simp] theorem setDrv_tcs (l : Line) (b : Bool) (s : State) : (setDrv l b s).tcs = s.tcs := by cases l <;> rfl
@[simp] theorem setDrv_phase (l : Line) (b : Bool) (s : State) : (setDrv l b s).phase = s.phase := by cases l <;> rfl
@[simp] theorem setDrv_active (l : Line) (b : Bool) (s : State) : (setDrv l b s).active = s.active := by cases l <;> rfl
@[simp] theorem setDrv_bufRd (l : Line) (b : Bool) (s : State) : (setDrv l b s).bufRd = s.bufRd := by cases l <;> rfl
@[simp] theorem setDrv_bufWr (l : Line) (b : Bool) (s : State) : (setDrv l b s).bufWr = s.bufWr := by cases l <;> rfl
@[simp] theorem setDrv_bufIdx (l : Line) (b : Bool) (s : State) : (setDrv l b s).bufIdx = s.bufIdx := by cases l <;> rfl
@[simp] theorem setDrv_bufWdata (l : Line) (b : Bool) (s : State) : (setDrv l b s).bufWdata = s.bufWdata := by cases l <;> rfl
@[simp] theorem setDrv_trace (l : Line) (b : Bool) (s : State) : (setDrv l b s).trace = s.trace := by cases l <;> rfl
@[simp] theorem setDrv_nowUs (l : Line) (b : Bool) (s : State) : (setDrv l b s).nowUs = s.nowUs := by cases l <;> rfl
@[simp] theorem setDrv_buf (l : Line) (b : Bool) (s : State) : (setDrv l b s).buf = s.buf := by cases l <;> rfl
@[simp] theorem setDrv_bufLen (l : Line) (b : Bool) (s : State) : (setDrv l b s).bufLen = s.bufLen := by cases l <;> rfl
@[simp] theorem setDrv_port (l : Line) (b : Bool) (s : State) : (setDrv l b s).port = s.port := by cases l <;> rfl
@[simp] theorem setDrv_rstIn (l : Line) (b : Bool) (s : State) : (setDrv l b s).rstIn = s.rstIn := by cases l <;> rfl
@[simp] theorem setDrv_hostWrites (l : Line) (b : Bool) (s : State) : (setDrv l b s).hostWrites = s.hostWrites := by cases l <;> rfl
@[simp] theorem setDrv_misanswers (l : Line) (b : Bool) (s : State) : (setDrv l b s).misanswers = s.misanswers := by cases l <;> rfl
@[simp] theorem setDrv_extSda (l : Line) (b : Bool) (s : State) : (setDrv l b s).extSda = s.extSda := by cases l <;> rfl
@[simp] theorem setDrv_extScl (l : Line) (b : Bool) (s : State) : (setDrv l b s).extScl = s.extScl := by cases l <;> rfl
@[simp] theorem setDrv_uop (l : Line) (b : Bool) (s : State) : (setDrv l b s).uop = s.uop := by cases l <;> rfl
@[simp] theorem setDrv_uopByte (l : Line) (b : Bool) (s : State) : (setDrv l b s).uopByte = s.uopByte := by cases l <;> rfl
@[simp] theorem setDrv_uopPoll (l : Line) (b : Bool) (s : State) : (setDrv l b s).uopPoll = s.uopPoll := by cases l <;> rfl
@[simp] theorem setDrv_uopResult (l : Line) (b : Bool) (s : State) : (setDrv l b s).uopResult = s.uopResult := by cases l <;> rfl
@[simp] theorem setDrv_uopData (l : Line) (b : Bool) (s : State) : (setDrv l b s).uopData = s.uopData := by cases l <;> rfl
@[simp] theorem setDrv_freeCtr (l : Line) (b : Bool) (s : State) : (setDrv l b s).freeCtr = s.freeCtr := by cases l <;> rfl

/-! ### setExt -/

@[simp] theorem setExt_params (l : Line) (x : List Bool) (s : State) : (setExt l x s).params = s.params := by cases l <;> rfl
@[simp] theorem setExt_sdaDrv (l : Line) (x : List Bool) (s : State) : (setExt l x s).sdaDrv = s.sdaDrv := by cases l <;> rfl
@[simp] theorem setExt_sclDrv (l : Line) (x : List Bool) (s : State) : (setExt l x s).sclDrv = s.sclDrv := by cases l <;> rfl
@[simp] theorem setExt_delayUs (l : Line) (x : List Bool) (s : State) : (setExt l x s).delayUs = s.delayUs := by cases l <;> rfl
@[simp] theorem setExt_arbLost (l : Line) (x : List Bool) (s : State) : (setExt l x s).arbLost = s.arbLost := by cases l <;> rfl
@[simp] theorem setExt_rspResult (l : Line) (x : List Bool) (s : State) : (setExt l x s).rspResult = s.rspResult := by cases l <;> rfl
@[simp] theorem setExt_rspErr (l : Line) (x : List Bool) (s : State) : (setExt l x s).rspErr = s.rspErr := by cases l <;> rfl
@[simp] theorem setExt_rspArb (l : Line) (x : List Bool) (s : State) : (setExt l x s).rspArb = s.rspArb := by cases l <;> rfl
@[simp] theorem setExt_rspValid (l : Line) (x : List Bool) (s : State) : (setExt l x s).rspValid = s.rspValid := by cases l <;> rfl
@[simp] theorem setExt_tAddr (l : Line) (x : List Bool) (s : State) : (setExt l x s).tAddr = s.tAddr := by cases l <;> rfl
@[simp] theorem setExt_tRw (l : Line) (x : List Bool) (s : State) : (setExt l x s).tRw = s.tRw := by cases l <;> rfl
@[simp] theorem setExt_tLen (l : Line) (x : List Bool) (s : State) : (setExt l x s).tLen = s.tLen := by cases l <;> rfl
@[simp] theorem setExt_byteIdx (l : Line) (x : List Bool) (s : State) : (setExt l x s).byteIdx = s.byteIdx := by cases l <;> rfl
@[simp] theorem setExt_txByte (l : Line) (x : List Bool) (s : State) : (setExt l x s).txByte = s.txByte := by cases l <;> rfl
@[simp] theorem setExt_bitCnt (l : Line) (x : List Bool) (s : State) : (setExt l x s).bitCnt = s.bitCnt := by cases l <;> rfl
@[simp] theorem setExt_curBit (l : Line) (x : List Bool) (s : State) : (setExt l x s).curBit = s.curBit := by cases l <;> rfl
@[simp] theorem setExt_rxAcc (l : Line) (x : List Bool) (s : State) : (setExt l x s).rxAcc = s.rxAcc := by cases l <;> rfl
@[simp] theorem setExt_ack (l : Line) (x : List Bool) (s : State) : (setExt l x s).ack = s.ack := by cases l <;> rfl
@[simp] theorem setExt_waitElapsed (l : Line) (x : List Bool) (s : State) : (setExt l x s).waitElapsed = s.waitElapsed := by cases l <;> rfl
@[simp] theorem setExt_delayCnt (l : Line) (x : List Bool) (s : State) : (setExt l x s).delayCnt = s.delayCnt := by cases l <;> rfl
@[simp] theorem setExt_cause (l : Line) (x : List Bool) (s : State) : (setExt l x s).cause = s.cause := by cases l <;> rfl
@[simp] theorem setExt_tcs (l : Line) (x : List Bool) (s : State) : (setExt l x s).tcs = s.tcs := by cases l <;> rfl
@[simp] theorem setExt_phase (l : Line) (x : List Bool) (s : State) : (setExt l x s).phase = s.phase := by cases l <;> rfl
@[simp] theorem setExt_active (l : Line) (x : List Bool) (s : State) : (setExt l x s).active = s.active := by cases l <;> rfl
@[simp] theorem setExt_bufRd (l : Line) (x : List Bool) (s : State) : (setExt l x s).bufRd = s.bufRd := by cases l <;> rfl
@[simp] theorem setExt_bufWr (l : Line) (x : List Bool) (s : State) : (setExt l x s).bufWr = s.bufWr := by cases l <;> rfl
@[simp] theorem setExt_bufIdx (l : Line) (x : List Bool) (s : State) : (setExt l x s).bufIdx = s.bufIdx := by cases l <;> rfl
@[simp] theorem setExt_bufWdata (l : Line) (x : List Bool) (s : State) : (setExt l x s).bufWdata = s.bufWdata := by cases l <;> rfl
@[simp] theorem setExt_trace (l : Line) (x : List Bool) (s : State) : (setExt l x s).trace = s.trace := by cases l <;> rfl
@[simp] theorem setExt_nowUs (l : Line) (x : List Bool) (s : State) : (setExt l x s).nowUs = s.nowUs := by cases l <;> rfl
@[simp] theorem setExt_buf (l : Line) (x : List Bool) (s : State) : (setExt l x s).buf = s.buf := by cases l <;> rfl
@[simp] theorem setExt_bufLen (l : Line) (x : List Bool) (s : State) : (setExt l x s).bufLen = s.bufLen := by cases l <;> rfl
@[simp] theorem setExt_port (l : Line) (x : List Bool) (s : State) : (setExt l x s).port = s.port := by cases l <;> rfl
@[simp] theorem setExt_rstIn (l : Line) (x : List Bool) (s : State) : (setExt l x s).rstIn = s.rstIn := by cases l <;> rfl
@[simp] theorem setExt_hostWrites (l : Line) (x : List Bool) (s : State) : (setExt l x s).hostWrites = s.hostWrites := by cases l <;> rfl
@[simp] theorem setExt_misanswers (l : Line) (x : List Bool) (s : State) : (setExt l x s).misanswers = s.misanswers := by cases l <;> rfl
@[simp] theorem setExt_extSda (l : Line) (x : List Bool) (s : State) : (setExt l x s).extSda = if l = .sda then x else s.extSda := by cases l <;> rfl
@[simp] theorem setExt_extScl (l : Line) (x : List Bool) (s : State) : (setExt l x s).extScl = if l = .scl then x else s.extScl := by cases l <;> rfl
@[simp] theorem setExt_uop (l : Line) (x : List Bool) (s : State) : (setExt l x s).uop = s.uop := by cases l <;> rfl
@[simp] theorem setExt_uopByte (l : Line) (x : List Bool) (s : State) : (setExt l x s).uopByte = s.uopByte := by cases l <;> rfl
@[simp] theorem setExt_uopPoll (l : Line) (x : List Bool) (s : State) : (setExt l x s).uopPoll = s.uopPoll := by cases l <;> rfl
@[simp] theorem setExt_uopResult (l : Line) (x : List Bool) (s : State) : (setExt l x s).uopResult = s.uopResult := by cases l <;> rfl
@[simp] theorem setExt_uopData (l : Line) (x : List Bool) (s : State) : (setExt l x s).uopData = s.uopData := by cases l <;> rfl
@[simp] theorem setExt_freeCtr (l : Line) (x : List Bool) (s : State) : (setExt l x s).freeCtr = s.freeCtr := by cases l <;> rfl

/-! ### setPhase -/

@[simp] theorem setPhase_params (x : Phase) (s : State) : (setPhase x s).params = s.params := rfl
@[simp] theorem setPhase_sdaDrv (x : Phase) (s : State) : (setPhase x s).sdaDrv = s.sdaDrv := rfl
@[simp] theorem setPhase_sclDrv (x : Phase) (s : State) : (setPhase x s).sclDrv = s.sclDrv := rfl
@[simp] theorem setPhase_delayUs (x : Phase) (s : State) : (setPhase x s).delayUs = s.delayUs := rfl
@[simp] theorem setPhase_arbLost (x : Phase) (s : State) : (setPhase x s).arbLost = s.arbLost := rfl
@[simp] theorem setPhase_rspResult (x : Phase) (s : State) : (setPhase x s).rspResult = s.rspResult := rfl
@[simp] theorem setPhase_rspErr (x : Phase) (s : State) : (setPhase x s).rspErr = s.rspErr := rfl
@[simp] theorem setPhase_rspArb (x : Phase) (s : State) : (setPhase x s).rspArb = s.rspArb := rfl
@[simp] theorem setPhase_rspValid (x : Phase) (s : State) : (setPhase x s).rspValid = s.rspValid := rfl
@[simp] theorem setPhase_tAddr (x : Phase) (s : State) : (setPhase x s).tAddr = s.tAddr := rfl
@[simp] theorem setPhase_tRw (x : Phase) (s : State) : (setPhase x s).tRw = s.tRw := rfl
@[simp] theorem setPhase_tLen (x : Phase) (s : State) : (setPhase x s).tLen = s.tLen := rfl
@[simp] theorem setPhase_byteIdx (x : Phase) (s : State) : (setPhase x s).byteIdx = s.byteIdx := rfl
@[simp] theorem setPhase_txByte (x : Phase) (s : State) : (setPhase x s).txByte = s.txByte := rfl
@[simp] theorem setPhase_bitCnt (x : Phase) (s : State) : (setPhase x s).bitCnt = s.bitCnt := rfl
@[simp] theorem setPhase_curBit (x : Phase) (s : State) : (setPhase x s).curBit = s.curBit := rfl
@[simp] theorem setPhase_rxAcc (x : Phase) (s : State) : (setPhase x s).rxAcc = s.rxAcc := rfl
@[simp] theorem setPhase_ack (x : Phase) (s : State) : (setPhase x s).ack = s.ack := rfl
@[simp] theorem setPhase_waitElapsed (x : Phase) (s : State) : (setPhase x s).waitElapsed = s.waitElapsed := rfl
@[simp] theorem setPhase_delayCnt (x : Phase) (s : State) : (setPhase x s).delayCnt = s.delayCnt := rfl
@[simp] theorem setPhase_cause (x : Phase) (s : State) : (setPhase x s).cause = s.cause := rfl
@[simp] theorem setPhase_tcs (x : Phase) (s : State) : (setPhase x s).tcs = s.tcs := rfl
@[simp] theorem setPhase_phase (x : Phase) (s : State) : (setPhase x s).phase = x := rfl
@[simp] theorem setPhase_active (x : Phase) (s : State) : (setPhase x s).active = s.active := rfl
@[simp] theorem setPhase_bufRd (x : Phase) (s : State) : (setPhase x s).bufRd = s.bufRd := rfl
@[simp] theorem setPhase_bufWr (x : Phase) (s : State) : (setPhase x s).bufWr = s.bufWr := rfl
@[simp] theorem setPhase_bufIdx (x : Phase) (s : State) : (setPhase x s).bufIdx = s.bufIdx := rfl
@[simp] theorem setPhase_bufWdata (x : Phase) (s : State) : (setPhase x s).bufWdata = s.bufWdata := rfl
@[simp] theorem setPhase_trace (x : Phase) (s : State) : (setPhase x s).trace = s.trace := rfl
@[simp] theorem setPhase_nowUs (x : Phase) (s : State) : (setPhase x s).nowUs = s.nowUs := rfl
@[simp] theorem setPhase_buf (x : Phase) (s : State) : (setPhase x s).buf = s.buf := rfl
@[simp] theorem setPhase_bufLen (x : Phase) (s : State) : (setPhase x s).bufLen = s.bufLen := rfl
@[simp] theorem setPhase_port (x : Phase) (s : State) : (setPhase x s).port = s.port := rfl
@[simp] theorem setPhase_rstIn (x : Phase) (s : State) : (setPhase x s).rstIn = s.rstIn := rfl
@[simp] theorem setPhase_hostWrites (x : Phase) (s : State) : (setPhase x s).hostWrites = s.hostWrites := rfl
@[simp] theorem setPhase_misanswers (x : Phase) (s : State) : (setPhase x s).misanswers = s.misanswers := rfl
@[simp] theorem setPhase_extSda (x : Phase) (s : State) : (setPhase x s).extSda = s.extSda := rfl
@[simp] theorem setPhase_extScl (x : Phase) (s : State) : (setPhase x s).extScl = s.extScl := rfl
@[simp] theorem setPhase_uop (x : Phase) (s : State) : (setPhase x s).uop = s.uop := rfl
@[simp] theorem setPhase_uopByte (x : Phase) (s : State) : (setPhase x s).uopByte = s.uopByte := rfl
@[simp] theorem setPhase_uopPoll (x : Phase) (s : State) : (setPhase x s).uopPoll = s.uopPoll := rfl
@[simp] theorem setPhase_uopResult (x : Phase) (s : State) : (setPhase x s).uopResult = s.uopResult := rfl
@[simp] theorem setPhase_uopData (x : Phase) (s : State) : (setPhase x s).uopData = s.uopData := rfl
@[simp] theorem setPhase_freeCtr (x : Phase) (s : State) : (setPhase x s).freeCtr = s.freeCtr := rfl

/-! ### setArbLost -/

@[simp] theorem setArbLost_params (x : Bool) (s : State) : (setArbLost x s).params = s.params := rfl
@[simp] theorem setArbLost_sdaDrv (x : Bool) (s : State) : (setArbLost x s).sdaDrv = s.sdaDrv := rfl
@[simp] theorem setArbLost_sclDrv (x : Bool) (s : State) : (setArbLost x s).sclDrv = s.sclDrv := rfl
@[simp] theorem setArbLost_delayUs (x : Bool) (s : State) : (setArbLost x s).delayUs = s.delayUs := rfl
@[simp] theorem setArbLost_arbLost (x : Bool) (s : State) : (setArbLost x s).arbLost = x := rfl
@[simp] theorem setArbLost_rspResult (x : Bool) (s : State) : (setArbLost x s).rspResult = s.rspResult := rfl
@[simp] theorem setArbLost_rspErr (x : Bool) (s : State) : (setArbLost x s).rspErr = s.rspErr := rfl
@[simp] theorem setArbLost_rspArb (x : Bool) (s : State) : (setArbLost x s).rspArb = s.rspArb := rfl
@[simp] theorem setArbLost_rspValid (x : Bool) (s : State) : (setArbLost x s).rspValid = s.rspValid := rfl
@[simp] theorem setArbLost_tAddr (x : Bool) (s : State) : (setArbLost x s).tAddr = s.tAddr := rfl
@[simp] theorem setArbLost_tRw (x : Bool) (s : State) : (setArbLost x s).tRw = s.tRw := rfl
@[simp] theorem setArbLost_tLen (x : Bool) (s : State) : (setArbLost x s).tLen = s.tLen := rfl
@[simp] theorem setArbLost_byteIdx (x : Bool) (s : State) : (setArbLost x s).byteIdx = s.byteIdx := rfl
@[simp] theorem setArbLost_txByte (x : Bool) (s : State) : (setArbLost x s).txByte = s.txByte := rfl
@[simp] theorem setArbLost_bitCnt (x : Bool) (s : State) : (setArbLost x s).bitCnt = s.bitCnt := rfl
@[simp] theorem setArbLost_curBit (x : Bool) (s : State) : (setArbLost x s).curBit = s.curBit := rfl
@[simp] theorem setArbLost_rxAcc (x : Bool) (s : State) : (setArbLost x s).rxAcc = s.rxAcc := rfl
@[simp] theorem setArbLost_ack (x : Bool) (s : State) : (setArbLost x s).ack = s.ack := rfl
@[simp] theorem setArbLost_waitElapsed (x : Bool) (s : State) : (setArbLost x s).waitElapsed = s.waitElapsed := rfl
@[simp] theorem setArbLost_delayCnt (x : Bool) (s : State) : (setArbLost x s).delayCnt = s.delayCnt := rfl
@[simp] theorem setArbLost_cause (x : Bool) (s : State) : (setArbLost x s).cause = s.cause := rfl
@[simp] theorem setArbLost_tcs (x : Bool) (s : State) : (setArbLost x s).tcs = s.tcs := rfl
@[simp] theorem setArbLost_phase (x : Bool) (s : State) : (setArbLost x s).phase = s.phase := rfl
@[simp] theorem setArbLost_active (x : Bool) (s : State) : (setArbLost x s).active = s.active := rfl
@[simp] theorem setArbLost_bufRd (x : Bool) (s : State) : (setArbLost x s).bufRd = s.bufRd := rfl
@[simp] theorem setArbLost_bufWr (x : Bool) (s : State) : (setArbLost x s).bufWr = s.bufWr := rfl
@[simp] theorem setArbLost_bufIdx (x : Bool) (s : State) : (setArbLost x s).bufIdx = s.bufIdx := rfl
@[simp] theorem setArbLost_bufWdata (x : Bool) (s : State) : (setArbLost x s).bufWdata = s.bufWdata := rfl
@[simp] theorem setArbLost_trace (x : Bool) (s : State) : (setArbLost x s).trace = s.trace := rfl
@[simp] theorem setArbLost_nowUs (x : Bool) (s : State) : (setArbLost x s).nowUs = s.nowUs := rfl
@[simp] theorem setArbLost_buf (x : Bool) (s : State) : (setArbLost x s).buf = s.buf := rfl
@[simp] theorem setArbLost_bufLen (x : Bool) (s : State) : (setArbLost x s).bufLen = s.bufLen := rfl
@[simp] theorem setArbLost_port (x : Bool) (s : State) : (setArbLost x s).port = s.port := rfl
@[simp] theorem setArbLost_rstIn (x : Bool) (s : State) : (setArbLost x s).rstIn = s.rstIn := rfl
@[simp] theorem setArbLost_hostWrites (x : Bool) (s : State) : (setArbLost x s).hostWrites = s.hostWrites := rfl
@[simp] theorem setArbLost_misanswers (x : Bool) (s : State) : (setArbLost x s).misanswers = s.misanswers := rfl
@[simp] theorem setArbLost_extSda (x : Bool) (s : State) : (setArbLost x s).extSda = s.extSda := rfl
@[simp] theorem setArbLost_extScl (x : Bool) (s : State) : (setArbLost x s).extScl = s.extScl := rfl
@[simp] theorem setArbLost_uop (x : Bool) (s : State) : (setArbLost x s).uop = s.uop := rfl
@[simp] theorem setArbLost_uopByte (x : Bool) (s : State) : (setArbLost x s).uopByte = s.uopByte := rfl
@[simp] theorem setArbLost_uopPoll (x : Bool) (s : State) : (setArbLost x s).uopPoll = s.uopPoll := rfl
@[simp] theorem setArbLost_uopResult (x : Bool) (s : State) : (setArbLost x s).uopResult = s.uopResult := rfl
@[simp] theorem setArbLost_uopData (x : Bool) (s : State) : (setArbLost x s).uopData = s.uopData := rfl
@[simp] theorem setArbLost_freeCtr (x : Bool) (s : State) : (setArbLost x s).freeCtr = s.freeCtr := rfl

/-! ### setCause -/

@[simp] theorem setCause_params (x : BitVec 3) (s : State) : (setCause x s).params = s.params := rfl
@[simp] theorem setCause_sdaDrv (x : BitVec 3) (s : State) : (setCause x s).sdaDrv = s.sdaDrv := rfl
@[simp] theorem setCause_sclDrv (x : BitVec 3) (s : State) : (setCause x s).sclDrv = s.sclDrv := rfl
@[simp] theorem setCause_delayUs (x : BitVec 3) (s : State) : (setCause x s).delayUs = s.delayUs := rfl
@[simp] theorem setCause_arbLost (x : BitVec 3) (s : State) : (setCause x s).arbLost = s.arbLost := rfl
@[simp] theorem setCause_rspResult (x : BitVec 3) (s : State) : (setCause x s).rspResult = s.rspResult := rfl
@[simp] theorem setCause_rspErr (x : BitVec 3) (s : State) : (setCause x s).rspErr = s.rspErr := rfl
@[simp] theorem setCause_rspArb (x : BitVec 3) (s : State) : (setCause x s).rspArb = s.rspArb := rfl
@[simp] theorem setCause_rspValid (x : BitVec 3) (s : State) : (setCause x s).rspValid = s.rspValid := rfl
@[simp] theorem setCause_tAddr (x : BitVec 3) (s : State) : (setCause x s).tAddr = s.tAddr := rfl
@[simp] theorem setCause_tRw (x : BitVec 3) (s : State) : (setCause x s).tRw = s.tRw := rfl
@[simp] theorem setCause_tLen (x : BitVec 3) (s : State) : (setCause x s).tLen = s.tLen := rfl
@[simp] theorem setCause_byteIdx (x : BitVec 3) (s : State) : (setCause x s).byteIdx = s.byteIdx := rfl
@[simp] theorem setCause_txByte (x : BitVec 3) (s : State) : (setCause x s).txByte = s.txByte := rfl
@[simp] theorem setCause_bitCnt (x : BitVec 3) (s : State) : (setCause x s).bitCnt = s.bitCnt := rfl
@[simp] theorem setCause_curBit (x : BitVec 3) (s : State) : (setCause x s).curBit = s.curBit := rfl
@[simp] theorem setCause_rxAcc (x : BitVec 3) (s : State) : (setCause x s).rxAcc = s.rxAcc := rfl
@[simp] theorem setCause_ack (x : BitVec 3) (s : State) : (setCause x s).ack = s.ack := rfl
@[simp] theorem setCause_waitElapsed (x : BitVec 3) (s : State) : (setCause x s).waitElapsed = s.waitElapsed := rfl
@[simp] theorem setCause_delayCnt (x : BitVec 3) (s : State) : (setCause x s).delayCnt = s.delayCnt := rfl
@[simp] theorem setCause_cause (x : BitVec 3) (s : State) : (setCause x s).cause = x := rfl
@[simp] theorem setCause_tcs (x : BitVec 3) (s : State) : (setCause x s).tcs = s.tcs := rfl
@[simp] theorem setCause_phase (x : BitVec 3) (s : State) : (setCause x s).phase = s.phase := rfl
@[simp] theorem setCause_active (x : BitVec 3) (s : State) : (setCause x s).active = s.active := rfl
@[simp] theorem setCause_bufRd (x : BitVec 3) (s : State) : (setCause x s).bufRd = s.bufRd := rfl
@[simp] theorem setCause_bufWr (x : BitVec 3) (s : State) : (setCause x s).bufWr = s.bufWr := rfl
@[simp] theorem setCause_bufIdx (x : BitVec 3) (s : State) : (setCause x s).bufIdx = s.bufIdx := rfl
@[simp] theorem setCause_bufWdata (x : BitVec 3) (s : State) : (setCause x s).bufWdata = s.bufWdata := rfl
@[simp] theorem setCause_trace (x : BitVec 3) (s : State) : (setCause x s).trace = s.trace := rfl
@[simp] theorem setCause_nowUs (x : BitVec 3) (s : State) : (setCause x s).nowUs = s.nowUs := rfl
@[simp] theorem setCause_buf (x : BitVec 3) (s : State) : (setCause x s).buf = s.buf := rfl
@[simp] theorem setCause_bufLen (x : BitVec 3) (s : State) : (setCause x s).bufLen = s.bufLen := rfl
@[simp] theorem setCause_port (x : BitVec 3) (s : State) : (setCause x s).port = s.port := rfl
@[simp] theorem setCause_rstIn (x : BitVec 3) (s : State) : (setCause x s).rstIn = s.rstIn := rfl
@[simp] theorem setCause_hostWrites (x : BitVec 3) (s : State) : (setCause x s).hostWrites = s.hostWrites := rfl
@[simp] theorem setCause_misanswers (x : BitVec 3) (s : State) : (setCause x s).misanswers = s.misanswers := rfl
@[simp] theorem setCause_extSda (x : BitVec 3) (s : State) : (setCause x s).extSda = s.extSda := rfl
@[simp] theorem setCause_extScl (x : BitVec 3) (s : State) : (setCause x s).extScl = s.extScl := rfl
@[simp] theorem setCause_uop (x : BitVec 3) (s : State) : (setCause x s).uop = s.uop := rfl
@[simp] theorem setCause_uopByte (x : BitVec 3) (s : State) : (setCause x s).uopByte = s.uopByte := rfl
@[simp] theorem setCause_uopPoll (x : BitVec 3) (s : State) : (setCause x s).uopPoll = s.uopPoll := rfl
@[simp] theorem setCause_uopResult (x : BitVec 3) (s : State) : (setCause x s).uopResult = s.uopResult := rfl
@[simp] theorem setCause_uopData (x : BitVec 3) (s : State) : (setCause x s).uopData = s.uopData := rfl
@[simp] theorem setCause_freeCtr (x : BitVec 3) (s : State) : (setCause x s).freeCtr = s.freeCtr := rfl

/-! ### setTcs -/

@[simp] theorem setTcs_params (x : Bool) (s : State) : (setTcs x s).params = s.params := rfl
@[simp] theorem setTcs_sdaDrv (x : Bool) (s : State) : (setTcs x s).sdaDrv = s.sdaDrv := rfl
@[simp] theorem setTcs_sclDrv (x : Bool) (s : State) : (setTcs x s).sclDrv = s.sclDrv := rfl
@[simp] theorem setTcs_delayUs (x : Bool) (s : State) : (setTcs x s).delayUs = s.delayUs := rfl
@[simp] theorem setTcs_arbLost (x : Bool) (s : State) : (setTcs x s).arbLost = s.arbLost := rfl
@[simp] theorem setTcs_rspResult (x : Bool) (s : State) : (setTcs x s).rspResult = s.rspResult := rfl
@[simp] theorem setTcs_rspErr (x : Bool) (s : State) : (setTcs x s).rspErr = s.rspErr := rfl
@[simp] theorem setTcs_rspArb (x : Bool) (s : State) : (setTcs x s).rspArb = s.rspArb := rfl
@[simp] theorem setTcs_rspValid (x : Bool) (s : State) : (setTcs x s).rspValid = s.rspValid := rfl
@[simp] theorem setTcs_tAddr (x : Bool) (s : State) : (setTcs x s).tAddr = s.tAddr := rfl
@[simp] theorem setTcs_tRw (x : Bool) (s : State) : (setTcs x s).tRw = s.tRw := rfl
@[simp] theorem setTcs_tLen (x : Bool) (s : State) : (setTcs x s).tLen = s.tLen := rfl
@[simp] theorem setTcs_byteIdx (x : Bool) (s : State) : (setTcs x s).byteIdx = s.byteIdx := rfl
@[simp] theorem setTcs_txByte (x : Bool) (s : State) : (setTcs x s).txByte = s.txByte := rfl
@[simp] theorem setTcs_bitCnt (x : Bool) (s : State) : (setTcs x s).bitCnt = s.bitCnt := rfl
@[simp] theorem setTcs_curBit (x : Bool) (s : State) : (setTcs x s).curBit = s.curBit := rfl
@[simp] theorem setTcs_rxAcc (x : Bool) (s : State) : (setTcs x s).rxAcc = s.rxAcc := rfl
@[simp] theorem setTcs_ack (x : Bool) (s : State) : (setTcs x s).ack = s.ack := rfl
@[simp] theorem setTcs_waitElapsed (x : Bool) (s : State) : (setTcs x s).waitElapsed = s.waitElapsed := rfl
@[simp] theorem setTcs_delayCnt (x : Bool) (s : State) : (setTcs x s).delayCnt = s.delayCnt := rfl
@[simp] theorem setTcs_cause (x : Bool) (s : State) : (setTcs x s).cause = s.cause := rfl
@[simp] theorem setTcs_tcs (x : Bool) (s : State) : (setTcs x s).tcs = x := rfl
@[simp] theorem setTcs_phase (x : Bool) (s : State) : (setTcs x s).phase = s.phase := rfl
@[simp] theorem setTcs_active (x : Bool) (s : State) : (setTcs x s).active = s.active := rfl
@[simp] theorem setTcs_bufRd (x : Bool) (s : State) : (setTcs x s).bufRd = s.bufRd := rfl
@[simp] theorem setTcs_bufWr (x : Bool) (s : State) : (setTcs x s).bufWr = s.bufWr := rfl
@[simp] theorem setTcs_bufIdx (x : Bool) (s : State) : (setTcs x s).bufIdx = s.bufIdx := rfl
@[simp] theorem setTcs_bufWdata (x : Bool) (s : State) : (setTcs x s).bufWdata = s.bufWdata := rfl
@[simp] theorem setTcs_trace (x : Bool) (s : State) : (setTcs x s).trace = s.trace := rfl
@[simp] theorem setTcs_nowUs (x : Bool) (s : State) : (setTcs x s).nowUs = s.nowUs := rfl
@[simp] theorem setTcs_buf (x : Bool) (s : State) : (setTcs x s).buf = s.buf := rfl
@[simp] theorem setTcs_bufLen (x : Bool) (s : State) : (setTcs x s).bufLen = s.bufLen := rfl
@[simp] theorem setTcs_port (x : Bool) (s : State) : (setTcs x s).port = s.port := rfl
@[simp] theorem setTcs_rstIn (x : Bool) (s : State) : (setTcs x s).rstIn = s.rstIn := rfl
@[simp] theorem setTcs_hostWrites (x : Bool) (s : State) : (setTcs x s).hostWrites = s.hostWrites := rfl
@[simp] theorem setTcs_misanswers (x : Bool) (s : State) : (setTcs x s).misanswers = s.misanswers := rfl
@[simp] theorem setTcs_extSda (x : Bool) (s : State) : (setTcs x s).extSda = s.extSda := rfl
@[simp] theorem setTcs_extScl (x : Bool) (s : State) : (setTcs x s).extScl = s.extScl := rfl
@[simp] theorem setTcs_uop (x : Bool) (s : State) : (setTcs x s).uop = s.uop := rfl
@[simp] theorem setTcs_uopByte (x : Bool) (s : State) : (setTcs x s).uopByte = s.uopByte := rfl
@[simp] theorem setTcs_uopPoll (x : Bool) (s : State) : (setTcs x s).uopPoll = s.uopPoll := rfl
@[simp] theorem setTcs_uopResult (x : Bool) (s : State) : (setTcs x s).uopResult = s.uopResult := rfl
@[simp] theorem setTcs_uopData (x : Bool) (s : State) : (setTcs x s).uopData = s.uopData := rfl
@[simp] theorem setTcs_freeCtr (x : Bool) (s : State) : (setTcs x s).freeCtr = s.freeCtr := rfl

/-! ### setWaitElapsed -/

@[simp] theorem setWaitElapsed_params (x : Nat) (s : State) : (setWaitElapsed x s).params = s.params := rfl
@[simp] theorem setWaitElapsed_sdaDrv (x : Nat) (s : State) : (setWaitElapsed x s).sdaDrv = s.sdaDrv := rfl
@[simp] theorem setWaitElapsed_sclDrv (x : Nat) (s : State) : (setWaitElapsed x s).sclDrv = s.sclDrv := rfl
@[simp] theorem setWaitElapsed_delayUs (x : Nat) (s : State) : (setWaitElapsed x s).delayUs = s.delayUs := rfl
@[simp] theorem setWaitElapsed_arbLost (x : Nat) (s : State) : (setWaitElapsed x s).arbLost = s.arbLost := rfl
@[simp] theorem setWaitElapsed_rspResult (x : Nat) (s : State) : (setWaitElapsed x s).rspResult = s.rspResult := rfl
@[simp] theorem setWaitElapsed_rspErr (x : Nat) (s : State) : (setWaitElapsed x s).rspErr = s.rspErr := rfl
@[simp] theorem setWaitElapsed_rspArb (x : Nat) (s : State) : (setWaitElapsed x s).rspArb = s.rspArb := rfl
@[simp] theorem setWaitElapsed_rspValid (x : Nat) (s : State) : (setWaitElapsed x s).rspValid = s.rspValid := rfl
@[simp] theorem setWaitElapsed_tAddr (x : Nat) (s : State) : (setWaitElapsed x s).tAddr = s.tAddr := rfl
@[simp] theorem setWaitElapsed_tRw (x : Nat) (s : State) : (setWaitElapsed x s).tRw = s.tRw := rfl
@[simp] theorem setWaitElapsed_tLen (x : Nat) (s : State) : (setWaitElapsed x s).tLen = s.tLen := rfl
@[simp] theorem setWaitElapsed_byteIdx (x : Nat) (s : State) : (setWaitElapsed x s).byteIdx = s.byteIdx := rfl
@[simp] theorem setWaitElapsed_txByte (x : Nat) (s : State) : (setWaitElapsed x s).txByte = s.txByte := rfl
@[simp] theorem setWaitElapsed_bitCnt (x : Nat) (s : State) : (setWaitElapsed x s).bitCnt = s.bitCnt := rfl
@[simp] theorem setWaitElapsed_curBit (x : Nat) (s : State) : (setWaitElapsed x s).curBit = s.curBit := rfl
@[simp] theorem setWaitElapsed_rxAcc (x : Nat) (s : State) : (setWaitElapsed x s).rxAcc = s.rxAcc := rfl
@[simp] theorem setWaitElapsed_ack (x : Nat) (s : State) : (setWaitElapsed x s).ack = s.ack := rfl
@[simp] theorem setWaitElapsed_waitElapsed (x : Nat) (s : State) : (setWaitElapsed x s).waitElapsed = x := rfl
@[simp] theorem setWaitElapsed_delayCnt (x : Nat) (s : State) : (setWaitElapsed x s).delayCnt = s.delayCnt := rfl
@[simp] theorem setWaitElapsed_cause (x : Nat) (s : State) : (setWaitElapsed x s).cause = s.cause := rfl
@[simp] theorem setWaitElapsed_tcs (x : Nat) (s : State) : (setWaitElapsed x s).tcs = s.tcs := rfl
@[simp] theorem setWaitElapsed_phase (x : Nat) (s : State) : (setWaitElapsed x s).phase = s.phase := rfl
@[simp] theorem setWaitElapsed_active (x : Nat) (s : State) : (setWaitElapsed x s).active = s.active := rfl
@[simp] theorem setWaitElapsed_bufRd (x : Nat) (s : State) : (setWaitElapsed x s).bufRd = s.bufRd := rfl
@[simp] theorem setWaitElapsed_bufWr (x : Nat) (s : State) : (setWaitElapsed x s).bufWr = s.bufWr := rfl
@[simp] theorem setWaitElapsed_bufIdx (x : Nat) (s : State) : (setWaitElapsed x s).bufIdx = s.bufIdx := rfl
@[simp] theorem setWaitElapsed_bufWdata (x : Nat) (s : State) : (setWaitElapsed x s).bufWdata = s.bufWdata := rfl
@[simp] theorem setWaitElapsed_trace (x : Nat) (s : State) : (setWaitElapsed x s).trace = s.trace := rfl
@[simp] theorem setWaitElapsed_nowUs (x : Nat) (s : State) : (setWaitElapsed x s).nowUs = s.nowUs := rfl
@[simp] theorem setWaitElapsed_buf (x : Nat) (s : State) : (setWaitElapsed x s).buf = s.buf := rfl
@[simp] theorem setWaitElapsed_bufLen (x : Nat) (s : State) : (setWaitElapsed x s).bufLen = s.bufLen := rfl
@[simp] theorem setWaitElapsed_port (x : Nat) (s : State) : (setWaitElapsed x s).port = s.port := rfl
@[simp] theorem setWaitElapsed_rstIn (x : Nat) (s : State) : (setWaitElapsed x s).rstIn = s.rstIn := rfl
@[simp] theorem setWaitElapsed_hostWrites (x : Nat) (s : State) : (setWaitElapsed x s).hostWrites = s.hostWrites := rfl
@[simp] theorem setWaitElapsed_misanswers (x : Nat) (s : State) : (setWaitElapsed x s).misanswers = s.misanswers := rfl
@[simp] theorem setWaitElapsed_extSda (x : Nat) (s : State) : (setWaitElapsed x s).extSda = s.extSda := rfl
@[simp] theorem setWaitElapsed_extScl (x : Nat) (s : State) : (setWaitElapsed x s).extScl = s.extScl := rfl
@[simp] theorem setWaitElapsed_uop (x : Nat) (s : State) : (setWaitElapsed x s).uop = s.uop := rfl
@[simp] theorem setWaitElapsed_uopByte (x : Nat) (s : State) : (setWaitElapsed x s).uopByte = s.uopByte := rfl
@[simp] theorem setWaitElapsed_uopPoll (x : Nat) (s : State) : (setWaitElapsed x s).uopPoll = s.uopPoll := rfl
@[simp] theorem setWaitElapsed_uopResult (x : Nat) (s : State) : (setWaitElapsed x s).uopResult = s.uopResult := rfl
@[simp] theorem setWaitElapsed_uopData (x : Nat) (s : State) : (setWaitElapsed x s).uopData = s.uopData := rfl
@[simp] theorem setWaitElapsed_freeCtr (x : Nat) (s : State) : (setWaitElapsed x s).freeCtr = s.freeCtr := rfl

/-! ### setByteIdx -/

@[simp] theorem setByteIdx_params (x : BitVec 16) (s : State) : (setByteIdx x s).params = s.params := rfl
@[simp] theorem setByteIdx_sdaDrv (x : BitVec 16) (s : State) : (setByteIdx x s).sdaDrv = s.sdaDrv := rfl
@[simp] theorem setByteIdx_sclDrv (x : BitVec 16) (s : State) : (setByteIdx x s).sclDrv = s.sclDrv := rfl
@[simp] theorem setByteIdx_delayUs (x : BitVec 16) (s : State) : (setByteIdx x s).delayUs = s.delayUs := rfl
@[simp] theorem setByteIdx_arbLost (x : BitVec 16) (s : State) : (setByteIdx x s).arbLost = s.arbLost := rfl
@[simp] theorem setByteIdx_rspResult (x : BitVec 16) (s : State) : (setByteIdx x s).rspResult = s.rspResult := rfl
@[simp] theorem setByteIdx_rspErr (x : BitVec 16) (s : State) : (setByteIdx x s).rspErr = s.rspErr := rfl
@[simp] theorem setByteIdx_rspArb (x : BitVec 16) (s : State) : (setByteIdx x s).rspArb = s.rspArb := rfl
@[simp] theorem setByteIdx_rspValid (x : BitVec 16) (s : State) : (setByteIdx x s).rspValid = s.rspValid := rfl
@[simp] theorem setByteIdx_tAddr (x : BitVec 16) (s : State) : (setByteIdx x s).tAddr = s.tAddr := rfl
@[simp] theorem setByteIdx_tRw (x : BitVec 16) (s : State) : (setByteIdx x s).tRw = s.tRw := rfl
@[simp] theorem setByteIdx_tLen (x : BitVec 16) (s : State) : (setByteIdx x s).tLen = s.tLen := rfl
@[simp] theorem setByteIdx_byteIdx (x : BitVec 16) (s : State) : (setByteIdx x s).byteIdx = x := rfl
@[simp] theorem setByteIdx_txByte (x : BitVec 16) (s : State) : (setByteIdx x s).txByte = s.txByte := rfl
@[simp] theorem setByteIdx_bitCnt (x : BitVec 16) (s : State) : (setByteIdx x s).bitCnt = s.bitCnt := rfl
@[simp] theorem setByteIdx_curBit (x : BitVec 16) (s : State) : (setByteIdx x s).curBit = s.curBit := rfl
@[simp] theorem setByteIdx_rxAcc (x : BitVec 16) (s : State) : (setByteIdx x s).rxAcc = s.rxAcc := rfl
@[simp] theorem setByteIdx_ack (x : BitVec 16) (s : State) : (setByteIdx x s).ack = s.ack := rfl
@[simp] theorem setByteIdx_waitElapsed (x : BitVec 16) (s : State) : (setByteIdx x s).waitElapsed = s.waitElapsed := rfl
@[simp] theorem setByteIdx_delayCnt (x : BitVec 16) (s : State) : (setByteIdx x s).delayCnt = s.delayCnt := rfl
@[simp] theorem setByteIdx_cause (x : BitVec 16) (s : State) : (setByteIdx x s).cause = s.cause := rfl
@[simp] theorem setByteIdx_tcs (x : BitVec 16) (s : State) : (setByteIdx x s).tcs = s.tcs := rfl
@[simp] theorem setByteIdx_phase (x : BitVec 16) (s : State) : (setByteIdx x s).phase = s.phase := rfl
@[simp] theorem setByteIdx_active (x : BitVec 16) (s : State) : (setByteIdx x s).active = s.active := rfl
@[simp] theorem setByteIdx_bufRd (x : BitVec 16) (s : State) : (setByteIdx x s).bufRd = s.bufRd := rfl
@[simp] theorem setByteIdx_bufWr (x : BitVec 16) (s : State) : (setByteIdx x s).bufWr = s.bufWr := rfl
@[simp] theorem setByteIdx_bufIdx (x : BitVec 16) (s : State) : (setByteIdx x s).bufIdx = s.bufIdx := rfl
@[simp] theorem setByteIdx_bufWdata (x : BitVec 16) (s : State) : (setByteIdx x s).bufWdata = s.bufWdata := rfl
@[simp] theorem setByteIdx_trace (x : BitVec 16) (s : State) : (setByteIdx x s).trace = s.trace := rfl
@[simp] theorem setByteIdx_nowUs (x : BitVec 16) (s : State) : (setByteIdx x s).nowUs = s.nowUs := rfl
@[simp] theorem setByteIdx_buf (x : BitVec 16) (s : State) : (setByteIdx x s).buf = s.buf := rfl
@[simp] theorem setByteIdx_bufLen (x : BitVec 16) (s : State) : (setByteIdx x s).bufLen = s.bufLen := rfl
@[simp] theorem setByteIdx_port (x : BitVec 16) (s : State) : (setByteIdx x s).port = s.port := rfl
@[simp] theorem setByteIdx_rstIn (x : BitVec 16) (s : State) : (setByteIdx x s).rstIn = s.rstIn := rfl
@[simp] theorem setByteIdx_hostWrites (x : BitVec 16) (s : State) : (setByteIdx x s).hostWrites = s.hostWrites := rfl
@[simp] theorem setByteIdx_misanswers (x : BitVec 16) (s : State) : (setByteIdx x s).misanswers = s.misanswers := rfl
@[simp] theorem setByteIdx_extSda (x : BitVec 16) (s : State) : (setByteIdx x s).extSda = s.extSda := rfl
@[simp] theorem setByteIdx_extScl (x : BitVec 16) (s : State) : (setByteIdx x s).extScl = s.extScl := rfl
@[simp] theorem setByteIdx_uop (x : BitVec 16) (s : State) : (setByteIdx x s).uop = s.uop := rfl
@[simp] theorem setByteIdx_uopByte (x : BitVec 16) (s : State) : (setByteIdx x s).uopByte = s.uopByte := rfl
@[simp] theorem setByteIdx_uopPoll (x : BitVec 16) (s : State) : (setByteIdx x s).uopPoll = s.uopPoll := rfl
@[simp] theorem setByteIdx_uopResult (x : BitVec 16) (s : State) : (setByteIdx x s).uopResult = s.uopResult := rfl
@[simp] theorem setByteIdx_uopData (x : BitVec 16) (s : State) : (setByteIdx x s).uopData = s.uopData := rfl
@[simp] theorem setByteIdx_freeCtr (x : BitVec 16) (s : State) : (setByteIdx x s).freeCtr = s.freeCtr := rfl

/-! ### setTxByte -/

@[simp] theorem setTxByte_params (x : Byte) (s : State) : (setTxByte x s).params = s.params := rfl
@[simp] theorem setTxByte_sdaDrv (x : Byte) (s : State) : (setTxByte x s).sdaDrv = s.sdaDrv := rfl
@[simp] theorem setTxByte_sclDrv (x : Byte) (s : State) : (setTxByte x s).sclDrv = s.sclDrv := rfl
@[simp] theorem setTxByte_delayUs (x : Byte) (s : State) : (setTxByte x s).delayUs = s.delayUs := rfl
@[simp] theorem setTxByte_arbLost (x : Byte) (s : State) : (setTxByte x s).arbLost = s.arbLost := rfl
@[simp] theorem setTxByte_rspResult (x : Byte) (s : State) : (setTxByte x s).rspResult = s.rspResult := rfl
@[simp] theorem setTxByte_rspErr (x : Byte) (s : State) : (setTxByte x s).rspErr = s.rspErr := rfl
@[simp] theorem setTxByte_rspArb (x : Byte) (s : State) : (setTxByte x s).rspArb = s.rspArb := rfl
@[simp] theorem setTxByte_rspValid (x : Byte) (s : State) : (setTxByte x s).rspValid = s.rspValid := rfl
@[simp] theorem setTxByte_tAddr (x : Byte) (s : State) : (setTxByte x s).tAddr = s.tAddr := rfl
@[simp] theorem setTxByte_tRw (x : Byte) (s : State) : (setTxByte x s).tRw = s.tRw := rfl
@[simp] theorem setTxByte_tLen (x : Byte) (s : State) : (setTxByte x s).tLen = s.tLen := rfl
@[simp] theorem setTxByte_byteIdx (x : Byte) (s : State) : (setTxByte x s).byteIdx = s.byteIdx := rfl
@[simp] theorem setTxByte_txByte (x : Byte) (s : State) : (setTxByte x s).txByte = x := rfl
@[simp] theorem setTxByte_bitCnt (x : Byte) (s : State) : (setTxByte x s).bitCnt = s.bitCnt := rfl
@[simp] theorem setTxByte_curBit (x : Byte) (s : State) : (setTxByte x s).curBit = s.curBit := rfl
@[simp] theorem setTxByte_rxAcc (x : Byte) (s : State) : (setTxByte x s).rxAcc = s.rxAcc := rfl
@[simp] theorem setTxByte_ack (x : Byte) (s : State) : (setTxByte x s).ack = s.ack := rfl
@[simp] theorem setTxByte_waitElapsed (x : Byte) (s : State) : (setTxByte x s).waitElapsed = s.waitElapsed := rfl
@[simp] theorem setTxByte_delayCnt (x : Byte) (s : State) : (setTxByte x s).delayCnt = s.delayCnt := rfl
@[simp] theorem setTxByte_cause (x : Byte) (s : State) : (setTxByte x s).cause = s.cause := rfl
@[simp] theorem setTxByte_tcs (x : Byte) (s : State) : (setTxByte x s).tcs = s.tcs := rfl
@[simp] theorem setTxByte_phase (x : Byte) (s : State) : (setTxByte x s).phase = s.phase := rfl
@[simp] theorem setTxByte_active (x : Byte) (s : State) : (setTxByte x s).active = s.active := rfl
@[simp] theorem setTxByte_bufRd (x : Byte) (s : State) : (setTxByte x s).bufRd = s.bufRd := rfl
@[simp] theorem setTxByte_bufWr (x : Byte) (s : State) : (setTxByte x s).bufWr = s.bufWr := rfl
@[simp] theorem setTxByte_bufIdx (x : Byte) (s : State) : (setTxByte x s).bufIdx = s.bufIdx := rfl
@[simp] theorem setTxByte_bufWdata (x : Byte) (s : State) : (setTxByte x s).bufWdata = s.bufWdata := rfl
@[simp] theorem setTxByte_trace (x : Byte) (s : State) : (setTxByte x s).trace = s.trace := rfl
@[simp] theorem setTxByte_nowUs (x : Byte) (s : State) : (setTxByte x s).nowUs = s.nowUs := rfl
@[simp] theorem setTxByte_buf (x : Byte) (s : State) : (setTxByte x s).buf = s.buf := rfl
@[simp] theorem setTxByte_bufLen (x : Byte) (s : State) : (setTxByte x s).bufLen = s.bufLen := rfl
@[simp] theorem setTxByte_port (x : Byte) (s : State) : (setTxByte x s).port = s.port := rfl
@[simp] theorem setTxByte_rstIn (x : Byte) (s : State) : (setTxByte x s).rstIn = s.rstIn := rfl
@[simp] theorem setTxByte_hostWrites (x : Byte) (s : State) : (setTxByte x s).hostWrites = s.hostWrites := rfl
@[simp] theorem setTxByte_misanswers (x : Byte) (s : State) : (setTxByte x s).misanswers = s.misanswers := rfl
@[simp] theorem setTxByte_extSda (x : Byte) (s : State) : (setTxByte x s).extSda = s.extSda := rfl
@[simp] theorem setTxByte_extScl (x : Byte) (s : State) : (setTxByte x s).extScl = s.extScl := rfl
@[simp] theorem setTxByte_uop (x : Byte) (s : State) : (setTxByte x s).uop = s.uop := rfl
@[simp] theorem setTxByte_uopByte (x : Byte) (s : State) : (setTxByte x s).uopByte = s.uopByte := rfl
@[simp] theorem setTxByte_uopPoll (x : Byte) (s : State) : (setTxByte x s).uopPoll = s.uopPoll := rfl
@[simp] theorem setTxByte_uopResult (x : Byte) (s : State) : (setTxByte x s).uopResult = s.uopResult := rfl
@[simp] theorem setTxByte_uopData (x : Byte) (s : State) : (setTxByte x s).uopData = s.uopData := rfl
@[simp] theorem setTxByte_freeCtr (x : Byte) (s : State) : (setTxByte x s).freeCtr = s.freeCtr := rfl

/-! ### setBitCnt -/

@[simp] theorem setBitCnt_params (x : Nat) (s : State) : (setBitCnt x s).params = s.params := rfl
@[simp] theorem setBitCnt_sdaDrv (x : Nat) (s : State) : (setBitCnt x s).sdaDrv = s.sdaDrv := rfl
@[simp] theorem setBitCnt_sclDrv (x : Nat) (s : State) : (setBitCnt x s).sclDrv = s.sclDrv := rfl
@[simp] theorem setBitCnt_delayUs (x : Nat) (s : State) : (setBitCnt x s).delayUs = s.delayUs := rfl
@[simp] theorem setBitCnt_arbLost (x : Nat) (s : State) : (setBitCnt x s).arbLost = s.arbLost := rfl
@[simp] theorem setBitCnt_rspResult (x : Nat) (s : State) : (setBitCnt x s).rspResult = s.rspResult := rfl
@[simp] theorem setBitCnt_rspErr (x : Nat) (s : State) : (setBitCnt x s).rspErr = s.rspErr := rfl
@[simp] theorem setBitCnt_rspArb (x : Nat) (s : State) : (setBitCnt x s).rspArb = s.rspArb := rfl
@[simp] theorem setBitCnt_rspValid (x : Nat) (s : State) : (setBitCnt x s).rspValid = s.rspValid := rfl
@[simp] theorem setBitCnt_tAddr (x : Nat) (s : State) : (setBitCnt x s).tAddr = s.tAddr := rfl
@[simp] theorem setBitCnt_tRw (x : Nat) (s : State) : (setBitCnt x s).tRw = s.tRw := rfl
@[simp] theorem setBitCnt_tLen (x : Nat) (s : State) : (setBitCnt x s).tLen = s.tLen := rfl
@[simp] theorem setBitCnt_byteIdx (x : Nat) (s : State) : (setBitCnt x s).byteIdx = s.byteIdx := rfl
@[simp] theorem setBitCnt_txByte (x : Nat) (s : State) : (setBitCnt x s).txByte = s.txByte := rfl
@[simp] theorem setBitCnt_bitCnt (x : Nat) (s : State) : (setBitCnt x s).bitCnt = x := rfl
@[simp] theorem setBitCnt_curBit (x : Nat) (s : State) : (setBitCnt x s).curBit = s.curBit := rfl
@[simp] theorem setBitCnt_rxAcc (x : Nat) (s : State) : (setBitCnt x s).rxAcc = s.rxAcc := rfl
@[simp] theorem setBitCnt_ack (x : Nat) (s : State) : (setBitCnt x s).ack = s.ack := rfl
@[simp] theorem setBitCnt_waitElapsed (x : Nat) (s : State) : (setBitCnt x s).waitElapsed = s.waitElapsed := rfl
@[simp] theorem setBitCnt_delayCnt (x : Nat) (s : State) : (setBitCnt x s).delayCnt = s.delayCnt := rfl
@[simp] theorem setBitCnt_cause (x : Nat) (s : State) : (setBitCnt x s).cause = s.cause := rfl
@[simp] theorem setBitCnt_tcs (x : Nat) (s : State) : (setBitCnt x s).tcs = s.tcs := rfl
@[simp] theorem setBitCnt_phase (x : Nat) (s : State) : (setBitCnt x s).phase = s.phase := rfl
@[simp] theorem setBitCnt_active (x : Nat) (s : State) : (setBitCnt x s).active = s.active := rfl
@[simp] theorem setBitCnt_bufRd (x : Nat) (s : State) : (setBitCnt x s).bufRd = s.bufRd := rfl
@[simp] theorem setBitCnt_bufWr (x : Nat) (s : State) : (setBitCnt x s).bufWr = s.bufWr := rfl
@[simp] theorem setBitCnt_bufIdx (x : Nat) (s : State) : (setBitCnt x s).bufIdx = s.bufIdx := rfl
@[simp] theorem setBitCnt_bufWdata (x : Nat) (s : State) : (setBitCnt x s).bufWdata = s.bufWdata := rfl
@[simp] theorem setBitCnt_trace (x : Nat) (s : State) : (setBitCnt x s).trace = s.trace := rfl
@[simp] theorem setBitCnt_nowUs (x : Nat) (s : State) : (setBitCnt x s).nowUs = s.nowUs := rfl
@[simp] theorem setBitCnt_buf (x : Nat) (s : State) : (setBitCnt x s).buf = s.buf := rfl
@[simp] theorem setBitCnt_bufLen (x : Nat) (s : State) : (setBitCnt x s).bufLen = s.bufLen := rfl
@[simp] theorem setBitCnt_port (x : Nat) (s : State) : (setBitCnt x s).port = s.port := rfl
@[simp] theorem setBitCnt_rstIn (x : Nat) (s : State) : (setBitCnt x s).rstIn = s.rstIn := rfl
@[simp] theorem setBitCnt_hostWrites (x : Nat) (s : State) : (setBitCnt x s).hostWrites = s.hostWrites := rfl
@[simp] theorem setBitCnt_misanswers (x : Nat) (s : State) : (setBitCnt x s).misanswers = s.misanswers := rfl
@[simp] theorem setBitCnt_extSda (x : Nat) (s : State) : (setBitCnt x s).extSda = s.extSda := rfl
@[simp] theorem setBitCnt_extScl (x : Nat) (s : State) : (setBitCnt x s).extScl = s.extScl := rfl
@[simp] theorem setBitCnt_uop (x : Nat) (s : State) : (setBitCnt x s).uop = s.uop := rfl
@[simp] theorem setBitCnt_uopByte (x : Nat) (s : State) : (setBitCnt x s).uopByte = s.uopByte := rfl
@[simp] theorem setBitCnt_uopPoll (x : Nat) (s : State) : (setBitCnt x s).uopPoll = s.uopPoll := rfl
@[simp] theorem setBitCnt_uopResult (x : Nat) (s : State) : (setBitCnt x s).uopResult = s.uopResult := rfl
@[simp] theorem setBitCnt_uopData (x : Nat) (s : State) : (setBitCnt x s).uopData = s.uopData := rfl
@[simp] theorem setBitCnt_freeCtr (x : Nat) (s : State) : (setBitCnt x s).freeCtr = s.freeCtr := rfl

/-! ### setCurBit -/

@[simp] theorem setCurBit_params (x : Bool) (s : State) : (setCurBit x s).params = s.params := rfl
@[simp] theorem setCurBit_sdaDrv (x : Bool) (s : State) : (setCurBit x s).sdaDrv = s.sdaDrv := rfl
@[simp] theorem setCurBit_sclDrv (x : Bool) (s : State) : (setCurBit x s).sclDrv = s.sclDrv := rfl
@[simp] theorem setCurBit_delayUs (x : Bool) (s : State) : (setCurBit x s).delayUs = s.delayUs := rfl
@[simp] theorem setCurBit_arbLost (x : Bool) (s : State) : (setCurBit x s).arbLost = s.arbLost := rfl
@[simp] theorem setCurBit_rspResult (x : Bool) (s : State) : (setCurBit x s).rspResult = s.rspResult := rfl
@[simp] theorem setCurBit_rspErr (x : Bool) (s : State) : (setCurBit x s).rspErr = s.rspErr := rfl
@[simp] theorem setCurBit_rspArb (x : Bool) (s : State) : (setCurBit x s).rspArb = s.rspArb := rfl
@[simp] theorem setCurBit_rspValid (x : Bool) (s : State) : (setCurBit x s).rspValid = s.rspValid := rfl
@[simp] theorem setCurBit_tAddr (x : Bool) (s : State) : (setCurBit x s).tAddr = s.tAddr := rfl
@[simp] theorem setCurBit_tRw (x : Bool) (s : State) : (setCurBit x s).tRw = s.tRw := rfl
@[simp] theorem setCurBit_tLen (x : Bool) (s : State) : (setCurBit x s).tLen = s.tLen := rfl
@[simp] theorem setCurBit_byteIdx (x : Bool) (s : State) : (setCurBit x s).byteIdx = s.byteIdx := rfl
@[simp] theorem setCurBit_txByte (x : Bool) (s : State) : (setCurBit x s).txByte = s.txByte := rfl
@[simp] theorem setCurBit_bitCnt (x : Bool) (s : State) : (setCurBit x s).bitCnt = s.bitCnt := rfl
@[simp] theorem setCurBit_curBit (x : Bool) (s : State) : (setCurBit x s).curBit = x := rfl
@[simp] theorem setCurBit_rxAcc (x : Bool) (s : State) : (setCurBit x s).rxAcc = s.rxAcc := rfl
@[simp] theorem setCurBit_ack (x : Bool) (s : State) : (setCurBit x s).ack = s.ack := rfl
@[simp] theorem setCurBit_waitElapsed (x : Bool) (s : State) : (setCurBit x s).waitElapsed = s.waitElapsed := rfl
@[simp] theorem setCurBit_delayCnt (x : Bool) (s : State) : (setCurBit x s).delayCnt = s.delayCnt := rfl
@[simp] theorem setCurBit_cause (x : Bool) (s : State) : (setCurBit x s).cause = s.cause := rfl
@[simp] theorem setCurBit_tcs (x : Bool) (s : State) : (setCurBit x s).tcs = s.tcs := rfl
@[simp] theorem setCurBit_phase (x : Bool) (s : State) : (setCurBit x s).phase = s.phase := rfl
@[simp] theorem setCurBit_active (x : Bool) (s : State) : (setCurBit x s).active = s.active := rfl
@[simp] theorem setCurBit_bufRd (x : Bool) (s : State) : (setCurBit x s).bufRd = s.bufRd := rfl
@[simp] theorem setCurBit_bufWr (x : Bool) (s : State) : (setCurBit x s).bufWr = s.bufWr := rfl
@[simp] theorem setCurBit_bufIdx (x : Bool) (s : State) : (setCurBit x s).bufIdx = s.bufIdx := rfl
@[simp] theorem setCurBit_bufWdata (x : Bool) (s : State) : (setCurBit x s).bufWdata = s.bufWdata := rfl
@[simp] theorem setCurBit_trace (x : Bool) (s : State) : (setCurBit x s).trace = s.trace := rfl
@[simp] theorem setCurBit_nowUs (x : Bool) (s : State) : (setCurBit x s).nowUs = s.nowUs := rfl
@[simp] theorem setCurBit_buf (x : Bool) (s : State) : (setCurBit x s).buf = s.buf := rfl
@[simp] theorem setCurBit_bufLen (x : Bool) (s : State) : (setCurBit x s).bufLen = s.bufLen := rfl
@[simp] theorem setCurBit_port (x : Bool) (s : State) : (setCurBit x s).port = s.port := rfl
@[simp] theorem setCurBit_rstIn (x : Bool) (s : State) : (setCurBit x s).rstIn = s.rstIn := rfl
@[simp] theorem setCurBit_hostWrites (x : Bool) (s : State) : (setCurBit x s).hostWrites = s.hostWrites := rfl
@[simp] theorem setCurBit_misanswers (x : Bool) (s : State) : (setCurBit x s).misanswers = s.misanswers := rfl
@[simp] theorem setCurBit_extSda (x : Bool) (s : State) : (setCurBit x s).extSda = s.extSda := rfl
@[simp] theorem setCurBit_extScl (x : Bool) (s : State) : (setCurBit x s).extScl = s.extScl := rfl
@[simp] theorem setCurBit_uop (x : Bool) (s : State) : (setCurBit x s).uop = s.uop := rfl
@[simp] theorem setCurBit_uopByte (x : Bool) (s : State) : (setCurBit x s).uopByte = s.uopByte := rfl
@[simp] theorem setCurBit_uopPoll (x : Bool) (s : State) : (setCurBit x s).uopPoll = s.uopPoll := rfl
@[simp] theorem setCurBit_uopResult (x : Bool) (s : State) : (setCurBit x s).uopResult = s.uopResult := rfl
@[simp] theorem setCurBit_uopData (x : Bool) (s : State) : (setCurBit x s).uopData = s.uopData := rfl
@[simp] theorem setCurBit_freeCtr (x : Bool) (s : State) : (setCurBit x s).freeCtr = s.freeCtr := rfl

/-! ### setRxAcc -/

@[simp] theorem setRxAcc_params (x : Byte) (s : State) : (setRxAcc x s).params = s.params := rfl
@[simp] theorem setRxAcc_sdaDrv (x : Byte) (s : State) : (setRxAcc x s).sdaDrv = s.sdaDrv := rfl
@[simp] theorem setRxAcc_sclDrv (x : Byte) (s : State) : (setRxAcc x s).sclDrv = s.sclDrv := rfl
@[simp] theorem setRxAcc_delayUs (x : Byte) (s : State) : (setRxAcc x s).delayUs = s.delayUs := rfl
@[simp] theorem setRxAcc_arbLost (x : Byte) (s : State) : (setRxAcc x s).arbLost = s.arbLost := rfl
@[simp] theorem setRxAcc_rspResult (x : Byte) (s : State) : (setRxAcc x s).rspResult = s.rspResult := rfl
@[simp] theorem setRxAcc_rspErr (x : Byte) (s : State) : (setRxAcc x s).rspErr = s.rspErr := rfl
@[simp] theorem setRxAcc_rspArb (x : Byte) (s : State) : (setRxAcc x s).rspArb = s.rspArb := rfl
@[simp] theorem setRxAcc_rspValid (x : Byte) (s : State) : (setRxAcc x s).rspValid = s.rspValid := rfl
@[simp] theorem setRxAcc_tAddr (x : Byte) (s : State) : (setRxAcc x s).tAddr = s.tAddr := rfl
@[simp] theorem setRxAcc_tRw (x : Byte) (s : State) : (setRxAcc x s).tRw = s.tRw := rfl
@[simp] theorem setRxAcc_tLen (x : Byte) (s : State) : (setRxAcc x s).tLen = s.tLen := rfl
@[simp] theorem setRxAcc_byteIdx (x : Byte) (s : State) : (setRxAcc x s).byteIdx = s.byteIdx := rfl
@[simp] theorem setRxAcc_txByte (x : Byte) (s : State) : (setRxAcc x s).txByte = s.txByte := rfl
@[simp] theorem setRxAcc_bitCnt (x : Byte) (s : State) : (setRxAcc x s).bitCnt = s.bitCnt := rfl
@[simp] theorem setRxAcc_curBit (x : Byte) (s : State) : (setRxAcc x s).curBit = s.curBit := rfl
@[simp] theorem setRxAcc_rxAcc (x : Byte) (s : State) : (setRxAcc x s).rxAcc = x := rfl
@[simp] theorem setRxAcc_ack (x : Byte) (s : State) : (setRxAcc x s).ack = s.ack := rfl
@[simp] theorem setRxAcc_waitElapsed (x : Byte) (s : State) : (setRxAcc x s).waitElapsed = s.waitElapsed := rfl
@[simp] theorem setRxAcc_delayCnt (x : Byte) (s : State) : (setRxAcc x s).delayCnt = s.delayCnt := rfl
@[simp] theorem setRxAcc_cause (x : Byte) (s : State) : (setRxAcc x s).cause = s.cause := rfl
@[simp] theorem setRxAcc_tcs (x : Byte) (s : State) : (setRxAcc x s).tcs = s.tcs := rfl
@[simp] theorem setRxAcc_phase (x : Byte) (s : State) : (setRxAcc x s).phase = s.phase := rfl
@[simp] theorem setRxAcc_active (x : Byte) (s : State) : (setRxAcc x s).active = s.active := rfl
@[simp] theorem setRxAcc_bufRd (x : Byte) (s : State) : (setRxAcc x s).bufRd = s.bufRd := rfl
@[simp] theorem setRxAcc_bufWr (x : Byte) (s : State) : (setRxAcc x s).bufWr = s.bufWr := rfl
@[simp] theorem setRxAcc_bufIdx (x : Byte) (s : State) : (setRxAcc x s).bufIdx = s.bufIdx := rfl
@[simp] theorem setRxAcc_bufWdata (x : Byte) (s : State) : (setRxAcc x s).bufWdata = s.bufWdata := rfl
@[simp] theorem setRxAcc_trace (x : Byte) (s : State) : (setRxAcc x s).trace = s.trace := rfl
@[simp] theorem setRxAcc_nowUs (x : Byte) (s : State) : (setRxAcc x s).nowUs = s.nowUs := rfl
@[simp] theorem setRxAcc_buf (x : Byte) (s : State) : (setRxAcc x s).buf = s.buf := rfl
@[simp] theorem setRxAcc_bufLen (x : Byte) (s : State) : (setRxAcc x s).bufLen = s.bufLen := rfl
@[simp] theorem setRxAcc_port (x : Byte) (s : State) : (setRxAcc x s).port = s.port := rfl
@[simp] theorem setRxAcc_rstIn (x : Byte) (s : State) : (setRxAcc x s).rstIn = s.rstIn := rfl
@[simp] theorem setRxAcc_hostWrites (x : Byte) (s : State) : (setRxAcc x s).hostWrites = s.hostWrites := rfl
@[simp] theorem setRxAcc_misanswers (x : Byte) (s : State) : (setRxAcc x s).misanswers = s.misanswers := rfl
@[simp] theorem setRxAcc_extSda (x : Byte) (s : State) : (setRxAcc x s).extSda = s.extSda := rfl
@[simp] theorem setRxAcc_extScl (x : Byte) (s : State) : (setRxAcc x s).extScl = s.extScl := rfl
@[simp] theorem setRxAcc_uop (x : Byte) (s : State) : (setRxAcc x s).uop = s.uop := rfl
@[simp] theorem setRxAcc_uopByte (x : Byte) (s : State) : (setRxAcc x s).uopByte = s.uopByte := rfl
@[simp] theorem setRxAcc_uopPoll (x : Byte) (s : State) : (setRxAcc x s).uopPoll = s.uopPoll := rfl
@[simp] theorem setRxAcc_uopResult (x : Byte) (s : State) : (setRxAcc x s).uopResult = s.uopResult := rfl
@[simp] theorem setRxAcc_uopData (x : Byte) (s : State) : (setRxAcc x s).uopData = s.uopData := rfl
@[simp] theorem setRxAcc_freeCtr (x : Byte) (s : State) : (setRxAcc x s).freeCtr = s.freeCtr := rfl

/-! ### setAck -/

@[simp] theorem setAck_params (x : Bool) (s : State) : (setAck x s).params = s.params := rfl
@[simp] theorem setAck_sdaDrv (x : Bool) (s : State) : (setAck x s).sdaDrv = s.sdaDrv := rfl
@[simp] theorem setAck_sclDrv (x : Bool) (s : State) : (setAck x s).sclDrv = s.sclDrv := rfl
@[simp] theorem setAck_delayUs (x : Bool) (s : State) : (setAck x s).delayUs = s.delayUs := rfl
@[simp] theorem setAck_arbLost (x : Bool) (s : State) : (setAck x s).arbLost = s.arbLost := rfl
@[simp] theorem setAck_rspResult (x : Bool) (s : State) : (setAck x s).rspResult = s.rspResult := rfl
@[simp] theorem setAck_rspErr (x : Bool) (s : State) : (setAck x s).rspErr = s.rspErr := rfl
@[simp] theorem setAck_rspArb (x : Bool) (s : State) : (setAck x s).rspArb = s.rspArb := rfl
@[simp] theorem setAck_rspValid (x : Bool) (s : State) : (setAck x s).rspValid = s.rspValid := rfl
@[simp] theorem setAck_tAddr (x : Bool) (s : State) : (setAck x s).tAddr = s.tAddr := rfl
@[simp] theorem setAck_tRw (x : Bool) (s : State) : (setAck x s).tRw = s.tRw := rfl
@[simp] theorem setAck_tLen (x : Bool) (s : State) : (setAck x s).tLen = s.tLen := rfl
@[simp] theorem setAck_byteIdx (x : Bool) (s : State) : (setAck x s).byteIdx = s.byteIdx := rfl
@[simp] theorem setAck_txByte (x : Bool) (s : State) : (setAck x s).txByte = s.txByte := rfl
@[simp] theorem setAck_bitCnt (x : Bool) (s : State) : (setAck x s).bitCnt = s.bitCnt := rfl
@[simp] theorem setAck_curBit (x : Bool) (s : State) : (setAck x s).curBit = s.curBit := rfl
@[simp] theorem setAck_rxAcc (x : Bool) (s : State) : (setAck x s).rxAcc = s.rxAcc := rfl
@[simp] theorem setAck_ack (x : Bool) (s : State) : (setAck x s).ack = x := rfl
@[simp] theorem setAck_waitElapsed (x : Bool) (s : State) : (setAck x s).waitElapsed = s.waitElapsed := rfl
@[simp] theorem setAck_delayCnt (x : Bool) (s : State) : (setAck x s).delayCnt = s.delayCnt := rfl
@[simp] theorem setAck_cause (x : Bool) (s : State) : (setAck x s).cause = s.cause := rfl
@[simp] theorem setAck_tcs (x : Bool) (s : State) : (setAck x s).tcs = s.tcs := rfl
@[simp] theorem setAck_phase (x : Bool) (s : State) : (setAck x s).phase = s.phase := rfl
@[simp] theorem setAck_active (x : Bool) (s : State) : (setAck x s).active = s.active := rfl
@[simp] theorem setAck_bufRd (x : Bool) (s : State) : (setAck x s).bufRd = s.bufRd := rfl
@[simp] theorem setAck_bufWr (x : Bool) (s : State) : (setAck x s).bufWr = s.bufWr := rfl
@[simp] theorem setAck_bufIdx (x : Bool) (s : State) : (setAck x s).bufIdx = s.bufIdx := rfl
@[simp] theorem setAck_bufWdata (x : Bool) (s : State) : (setAck x s).bufWdata = s.bufWdata := rfl
@[simp] theorem setAck_trace (x : Bool) (s : State) : (setAck x s).trace = s.trace := rfl
@[simp] theorem setAck_nowUs (x : Bool) (s : State) : (setAck x s).nowUs = s.nowUs := rfl
@[simp] theorem setAck_buf (x : Bool) (s : State) : (setAck x s).buf = s.buf := rfl
@[simp] theorem setAck_bufLen (x : Bool) (s : State) : (setAck x s).bufLen = s.bufLen := rfl
@[simp] theorem setAck_port (x : Bool) (s : State) : (setAck x s).port = s.port := rfl
@[simp] theorem setAck_rstIn (x : Bool) (s : State) : (setAck x s).rstIn = s.rstIn := rfl
@[simp] theorem setAck_hostWrites (x : Bool) (s : State) : (setAck x s).hostWrites = s.hostWrites := rfl
@[simp] theorem setAck_misanswers (x : Bool) (s : State) : (setAck x s).misanswers = s.misanswers := rfl
@[simp] theorem setAck_extSda (x : Bool) (s : State) : (setAck x s).extSda = s.extSda := rfl
@[simp] theorem setAck_extScl (x : Bool) (s : State) : (setAck x s).extScl = s.extScl := rfl
@[simp] theorem setAck_uop (x : Bool) (s : State) : (setAck x s).uop = s.uop := rfl
@[simp] theorem setAck_uopByte (x : Bool) (s : State) : (setAck x s).uopByte = s.uopByte := rfl
@[simp] theorem setAck_uopPoll (x : Bool) (s : State) : (setAck x s).uopPoll = s.uopPoll := rfl
@[simp] theorem setAck_uopResult (x : Bool) (s : State) : (setAck x s).uopResult = s.uopResult := rfl
@[simp] theorem setAck_uopData (x : Bool) (s : State) : (setAck x s).uopData = s.uopData := rfl
@[simp] theorem setAck_freeCtr (x : Bool) (s : State) : (setAck x s).freeCtr = s.freeCtr := rfl

/-! ### setDelayUs -/

@[simp] theorem setDelayUs_params (x : BitVec 31) (s : State) : (setDelayUs x s).params = s.params := rfl
@[simp] theorem setDelayUs_sdaDrv (x : BitVec 31) (s : State) : (setDelayUs x s).sdaDrv = s.sdaDrv := rfl
@[simp] theorem setDelayUs_sclDrv (x : BitVec 31) (s : State) : (setDelayUs x s).sclDrv = s.sclDrv := rfl
@[simp] theorem setDelayUs_delayUs (x : BitVec 31) (s : State) : (setDelayUs x s).delayUs = x := rfl
@[simp] theorem setDelayUs_arbLost (x : BitVec 31) (s : State) : (setDelayUs x s).arbLost = s.arbLost := rfl
@[simp] theorem setDelayUs_rspResult (x : BitVec 31) (s : State) : (setDelayUs x s).rspResult = s.rspResult := rfl
@[simp] theorem setDelayUs_rspErr (x : BitVec 31) (s : State) : (setDelayUs x s).rspErr = s.rspErr := rfl
@[simp] theorem setDelayUs_rspArb (x : BitVec 31) (s : State) : (setDelayUs x s).rspArb = s.rspArb := rfl
@[simp] theorem setDelayUs_rspValid (x : BitVec 31) (s : State) : (setDelayUs x s).rspValid = s.rspValid := rfl
@[simp] theorem setDelayUs_tAddr (x : BitVec 31) (s : State) : (setDelayUs x s).tAddr = s.tAddr := rfl
@[simp] theorem setDelayUs_tRw (x : BitVec 31) (s : State) : (setDelayUs x s).tRw = s.tRw := rfl
@[simp] theorem setDelayUs_tLen (x : BitVec 31) (s : State) : (setDelayUs x s).tLen = s.tLen := rfl
@[simp] theorem setDelayUs_byteIdx (x : BitVec 31) (s : State) : (setDelayUs x s).byteIdx = s.byteIdx := rfl
@[simp] theorem setDelayUs_txByte (x : BitVec 31) (s : State) : (setDelayUs x s).txByte = s.txByte := rfl
@[simp] theorem setDelayUs_bitCnt (x : BitVec 31) (s : State) : (setDelayUs x s).bitCnt = s.bitCnt := rfl
@[simp] theorem setDelayUs_curBit (x : BitVec 31) (s : State) : (setDelayUs x s).curBit = s.curBit := rfl
@[simp] theorem setDelayUs_rxAcc (x : BitVec 31) (s : State) : (setDelayUs x s).rxAcc = s.rxAcc := rfl
@[simp] theorem setDelayUs_ack (x : BitVec 31) (s : State) : (setDelayUs x s).ack = s.ack := rfl
@[simp] theorem setDelayUs_waitElapsed (x : BitVec 31) (s : State) : (setDelayUs x s).waitElapsed = s.waitElapsed := rfl
@[simp] theorem setDelayUs_delayCnt (x : BitVec 31) (s : State) : (setDelayUs x s).delayCnt = s.delayCnt := rfl
@[simp] theorem setDelayUs_cause (x : BitVec 31) (s : State) : (setDelayUs x s).cause = s.cause := rfl
@[simp] theorem setDelayUs_tcs (x : BitVec 31) (s : State) : (setDelayUs x s).tcs = s.tcs := rfl
@[simp] theorem setDelayUs_phase (x : BitVec 31) (s : State) : (setDelayUs x s).phase = s.phase := rfl
@[simp] theorem setDelayUs_active (x : BitVec 31) (s : State) : (setDelayUs x s).active = s.active := rfl
@[simp] theorem setDelayUs_bufRd (x : BitVec 31) (s : State) : (setDelayUs x s).bufRd = s.bufRd := rfl
@[simp] theorem setDelayUs_bufWr (x : BitVec 31) (s : State) : (setDelayUs x s).bufWr = s.bufWr := rfl
@[simp] theorem setDelayUs_bufIdx (x : BitVec 31) (s : State) : (setDelayUs x s).bufIdx = s.bufIdx := rfl
@[simp] theorem setDelayUs_bufWdata (x : BitVec 31) (s : State) : (setDelayUs x s).bufWdata = s.bufWdata := rfl
@[simp] theorem setDelayUs_trace (x : BitVec 31) (s : State) : (setDelayUs x s).trace = s.trace := rfl
@[simp] theorem setDelayUs_nowUs (x : BitVec 31) (s : State) : (setDelayUs x s).nowUs = s.nowUs := rfl
@[simp] theorem setDelayUs_buf (x : BitVec 31) (s : State) : (setDelayUs x s).buf = s.buf := rfl
@[simp] theorem setDelayUs_bufLen (x : BitVec 31) (s : State) : (setDelayUs x s).bufLen = s.bufLen := rfl
@[simp] theorem setDelayUs_port (x : BitVec 31) (s : State) : (setDelayUs x s).port = s.port := rfl
@[simp] theorem setDelayUs_rstIn (x : BitVec 31) (s : State) : (setDelayUs x s).rstIn = s.rstIn := rfl
@[simp] theorem setDelayUs_hostWrites (x : BitVec 31) (s : State) : (setDelayUs x s).hostWrites = s.hostWrites := rfl
@[simp] theorem setDelayUs_misanswers (x : BitVec 31) (s : State) : (setDelayUs x s).misanswers = s.misanswers := rfl
@[simp] theorem setDelayUs_extSda (x : BitVec 31) (s : State) : (setDelayUs x s).extSda = s.extSda := rfl
@[simp] theorem setDelayUs_extScl (x : BitVec 31) (s : State) : (setDelayUs x s).extScl = s.extScl := rfl
@[simp] theorem setDelayUs_uop (x : BitVec 31) (s : State) : (setDelayUs x s).uop = s.uop := rfl
@[simp] theorem setDelayUs_uopByte (x : BitVec 31) (s : State) : (setDelayUs x s).uopByte = s.uopByte := rfl
@[simp] theorem setDelayUs_uopPoll (x : BitVec 31) (s : State) : (setDelayUs x s).uopPoll = s.uopPoll := rfl
@[simp] theorem setDelayUs_uopResult (x : BitVec 31) (s : State) : (setDelayUs x s).uopResult = s.uopResult := rfl
@[simp] theorem setDelayUs_uopData (x : BitVec 31) (s : State) : (setDelayUs x s).uopData = s.uopData := rfl
@[simp] theorem setDelayUs_freeCtr (x : BitVec 31) (s : State) : (setDelayUs x s).freeCtr = s.freeCtr := rfl

/-! ### setUopResult -/

@[simp] theorem setUopResult_params (x : Bool) (s : State) : (setUopResult x s).params = s.params := rfl
@[simp] theorem setUopResult_sdaDrv (x : Bool) (s : State) : (setUopResult x s).sdaDrv = s.sdaDrv := rfl
@[simp] theorem setUopResult_sclDrv (x : Bool) (s : State) : (setUopResult x s).sclDrv = s.sclDrv := rfl
@[simp] theorem setUopResult_delayUs (x : Bool) (s : State) : (setUopResult x s).delayUs = s.delayUs := rfl
@[simp] theorem setUopResult_arbLost (x : Bool) (s : State) : (setUopResult x s).arbLost = s.arbLost := rfl
@[simp] theorem setUopResult_rspResult (x : Bool) (s : State) : (setUopResult x s).rspResult = s.rspResult := rfl
@[simp] theorem setUopResult_rspErr (x : Bool) (s : State) : (setUopResult x s).rspErr = s.rspErr := rfl
@[simp] theorem setUopResult_rspArb (x : Bool) (s : State) : (setUopResult x s).rspArb = s.rspArb := rfl
@[simp] theorem setUopResult_rspValid (x : Bool) (s : State) : (setUopResult x s).rspValid = s.rspValid := rfl
@[simp] theorem setUopResult_tAddr (x : Bool) (s : State) : (setUopResult x s).tAddr = s.tAddr := rfl
@[simp] theorem setUopResult_tRw (x : Bool) (s : State) : (setUopResult x s).tRw = s.tRw := rfl
@[simp] theorem setUopResult_tLen (x : Bool) (s : State) : (setUopResult x s).tLen = s.tLen := rfl
@[simp] theorem setUopResult_byteIdx (x : Bool) (s : State) : (setUopResult x s).byteIdx = s.byteIdx := rfl
@[simp] theorem setUopResult_txByte (x : Bool) (s : State) : (setUopResult x s).txByte = s.txByte := rfl
@[simp] theorem setUopResult_bitCnt (x : Bool) (s : State) : (setUopResult x s).bitCnt = s.bitCnt := rfl
@[simp] theorem setUopResult_curBit (x : Bool) (s : State) : (setUopResult x s).curBit = s.curBit := rfl
@[simp] theorem setUopResult_rxAcc (x : Bool) (s : State) : (setUopResult x s).rxAcc = s.rxAcc := rfl
@[simp] theorem setUopResult_ack (x : Bool) (s : State) : (setUopResult x s).ack = s.ack := rfl
@[simp] theorem setUopResult_waitElapsed (x : Bool) (s : State) : (setUopResult x s).waitElapsed = s.waitElapsed := rfl
@[simp] theorem setUopResult_delayCnt (x : Bool) (s : State) : (setUopResult x s).delayCnt = s.delayCnt := rfl
@[simp] theorem setUopResult_cause (x : Bool) (s : State) : (setUopResult x s).cause = s.cause := rfl
@[simp] theorem setUopResult_tcs (x : Bool) (s : State) : (setUopResult x s).tcs = s.tcs := rfl
@[simp] theorem setUopResult_phase (x : Bool) (s : State) : (setUopResult x s).phase = s.phase := rfl
@[simp] theorem setUopResult_active (x : Bool) (s : State) : (setUopResult x s).active = s.active := rfl
@[simp] theorem setUopResult_bufRd (x : Bool) (s : State) : (setUopResult x s).bufRd = s.bufRd := rfl
@[simp] theorem setUopResult_bufWr (x : Bool) (s : State) : (setUopResult x s).bufWr = s.bufWr := rfl
@[simp] theorem setUopResult_bufIdx (x : Bool) (s : State) : (setUopResult x s).bufIdx = s.bufIdx := rfl
@[simp] theorem setUopResult_bufWdata (x : Bool) (s : State) : (setUopResult x s).bufWdata = s.bufWdata := rfl
@[simp] theorem setUopResult_trace (x : Bool) (s : State) : (setUopResult x s).trace = s.trace := rfl
@[simp] theorem setUopResult_nowUs (x : Bool) (s : State) : (setUopResult x s).nowUs = s.nowUs := rfl
@[simp] theorem setUopResult_buf (x : Bool) (s : State) : (setUopResult x s).buf = s.buf := rfl
@[simp] theorem setUopResult_bufLen (x : Bool) (s : State) : (setUopResult x s).bufLen = s.bufLen := rfl
@[simp] theorem setUopResult_port (x : Bool) (s : State) : (setUopResult x s).port = s.port := rfl
@[simp] theorem setUopResult_rstIn (x : Bool) (s : State) : (setUopResult x s).rstIn = s.rstIn := rfl
@[simp] theorem setUopResult_hostWrites (x : Bool) (s : State) : (setUopResult x s).hostWrites = s.hostWrites := rfl
@[simp] theorem setUopResult_misanswers (x : Bool) (s : State) : (setUopResult x s).misanswers = s.misanswers := rfl
@[simp] theorem setUopResult_extSda (x : Bool) (s : State) : (setUopResult x s).extSda = s.extSda := rfl
@[simp] theorem setUopResult_extScl (x : Bool) (s : State) : (setUopResult x s).extScl = s.extScl := rfl
@[simp] theorem setUopResult_uop (x : Bool) (s : State) : (setUopResult x s).uop = s.uop := rfl
@[simp] theorem setUopResult_uopByte (x : Bool) (s : State) : (setUopResult x s).uopByte = s.uopByte := rfl
@[simp] theorem setUopResult_uopPoll (x : Bool) (s : State) : (setUopResult x s).uopPoll = s.uopPoll := rfl
@[simp] theorem setUopResult_uopResult (x : Bool) (s : State) : (setUopResult x s).uopResult = x := rfl
@[simp] theorem setUopResult_uopData (x : Bool) (s : State) : (setUopResult x s).uopData = s.uopData := rfl
@[simp] theorem setUopResult_freeCtr (x : Bool) (s : State) : (setUopResult x s).freeCtr = s.freeCtr := rfl

/-! ### setUopData -/

@[simp] theorem setUopData_params (x : Byte) (s : State) : (setUopData x s).params = s.params := rfl
@[simp] theorem setUopData_sdaDrv (x : Byte) (s : State) : (setUopData x s).sdaDrv = s.sdaDrv := rfl
@[simp] theorem setUopData_sclDrv (x : Byte) (s : State) : (setUopData x s).sclDrv = s.sclDrv := rfl
@[simp] theorem setUopData_delayUs (x : Byte) (s : State) : (setUopData x s).delayUs = s.delayUs := rfl
@[simp] theorem setUopData_arbLost (x : Byte) (s : State) : (setUopData x s).arbLost = s.arbLost := rfl
@[simp] theorem setUopData_rspResult (x : Byte) (s : State) : (setUopData x s).rspResult = s.rspResult := rfl
@[simp] theorem setUopData_rspErr (x : Byte) (s : State) : (setUopData x s).rspErr = s.rspErr := rfl
@[simp] theorem setUopData_rspArb (x : Byte) (s : State) : (setUopData x s).rspArb = s.rspArb := rfl
@[simp] theorem setUopData_rspValid (x : Byte) (s : State) : (setUopData x s).rspValid = s.rspValid := rfl
@[simp] theorem setUopData_tAddr (x : Byte) (s : State) : (setUopData x s).tAddr = s.tAddr := rfl
@[simp] theorem setUopData_tRw (x : Byte) (s : State) : (setUopData x s).tRw = s.tRw := rfl
@[simp] theorem setUopData_tLen (x : Byte) (s : State) : (setUopData x s).tLen = s.tLen := rfl
@[simp] theorem setUopData_byteIdx (x : Byte) (s : State) : (setUopData x s).byteIdx = s.byteIdx := rfl
@[simp] theorem setUopData_txByte (x : Byte) (s : State) : (setUopData x s).txByte = s.txByte := rfl
@[simp] theorem setUopData_bitCnt (x : Byte) (s : State) : (setUopData x s).bitCnt = s.bitCnt := rfl
@[simp] theorem setUopData_curBit (x : Byte) (s : State) : (setUopData x s).curBit = s.curBit := rfl
@[simp] theorem setUopData_rxAcc (x : Byte) (s : State) : (setUopData x s).rxAcc = s.rxAcc := rfl
@[simp] theorem setUopData_ack (x : Byte) (s : State) : (setUopData x s).ack = s.ack := rfl
@[simp] theorem setUopData_waitElapsed (x : Byte) (s : State) : (setUopData x s).waitElapsed = s.waitElapsed := rfl
@[simp] theorem setUopData_delayCnt (x : Byte) (s : State) : (setUopData x s).delayCnt = s.delayCnt := rfl
@[simp] theorem setUopData_cause (x : Byte) (s : State) : (setUopData x s).cause = s.cause := rfl
@[simp] theorem setUopData_tcs (x : Byte) (s : State) : (setUopData x s).tcs = s.tcs := rfl
@[simp] theorem setUopData_phase (x : Byte) (s : State) : (setUopData x s).phase = s.phase := rfl
@[simp] theorem setUopData_active (x : Byte) (s : State) : (setUopData x s).active = s.active := rfl
@[simp] theorem setUopData_bufRd (x : Byte) (s : State) : (setUopData x s).bufRd = s.bufRd := rfl
@[simp] theorem setUopData_bufWr (x : Byte) (s : State) : (setUopData x s).bufWr = s.bufWr := rfl
@[simp] theorem setUopData_bufIdx (x : Byte) (s : State) : (setUopData x s).bufIdx = s.bufIdx := rfl
@[simp] theorem setUopData_bufWdata (x : Byte) (s : State) : (setUopData x s).bufWdata = s.bufWdata := rfl
@[simp] theorem setUopData_trace (x : Byte) (s : State) : (setUopData x s).trace = s.trace := rfl
@[simp] theorem setUopData_nowUs (x : Byte) (s : State) : (setUopData x s).nowUs = s.nowUs := rfl
@[simp] theorem setUopData_buf (x : Byte) (s : State) : (setUopData x s).buf = s.buf := rfl
@[simp] theorem setUopData_bufLen (x : Byte) (s : State) : (setUopData x s).bufLen = s.bufLen := rfl
@[simp] theorem setUopData_port (x : Byte) (s : State) : (setUopData x s).port = s.port := rfl
@[simp] theorem setUopData_rstIn (x : Byte) (s : State) : (setUopData x s).rstIn = s.rstIn := rfl
@[simp] theorem setUopData_hostWrites (x : Byte) (s : State) : (setUopData x s).hostWrites = s.hostWrites := rfl
@[simp] theorem setUopData_misanswers (x : Byte) (s : State) : (setUopData x s).misanswers = s.misanswers := rfl
@[simp] theorem setUopData_extSda (x : Byte) (s : State) : (setUopData x s).extSda = s.extSda := rfl
@[simp] theorem setUopData_extScl (x : Byte) (s : State) : (setUopData x s).extScl = s.extScl := rfl
@[simp] theorem setUopData_uop (x : Byte) (s : State) : (setUopData x s).uop = s.uop := rfl
@[simp] theorem setUopData_uopByte (x : Byte) (s : State) : (setUopData x s).uopByte = s.uopByte := rfl
@[simp] theorem setUopData_uopPoll (x : Byte) (s : State) : (setUopData x s).uopPoll = s.uopPoll := rfl
@[simp] theorem setUopData_uopResult (x : Byte) (s : State) : (setUopData x s).uopResult = s.uopResult := rfl
@[simp] theorem setUopData_uopData (x : Byte) (s : State) : (setUopData x s).uopData = x := rfl
@[simp] theorem setUopData_freeCtr (x : Byte) (s : State) : (setUopData x s).freeCtr = s.freeCtr := rfl

/-! ### countFree -/

@[simp] theorem countFree_params (s : State) : (countFree s).params = s.params := rfl
@[simp] theorem countFree_sdaDrv (s : State) : (countFree s).sdaDrv = s.sdaDrv := rfl
@[simp] theorem countFree_sclDrv (s : State) : (countFree s).sclDrv = s.sclDrv := rfl
@[simp] theorem countFree_delayUs (s : State) : (countFree s).delayUs = s.delayUs := rfl
@[simp] theorem countFree_arbLost (s : State) : (countFree s).arbLost = s.arbLost := rfl
@[simp] theorem countFree_rspResult (s : State) : (countFree s).rspResult = s.rspResult := rfl
@[simp] theorem countFree_rspErr (s : State) : (countFree s).rspErr = s.rspErr := rfl
@[simp] theorem countFree_rspArb (s : State) : (countFree s).rspArb = s.rspArb := rfl
@[simp] theorem countFree_rspValid (s : State) : (countFree s).rspValid = s.rspValid := rfl
@[simp] theorem countFree_tAddr (s : State) : (countFree s).tAddr = s.tAddr := rfl
@[simp] theorem countFree_tRw (s : State) : (countFree s).tRw = s.tRw := rfl
@[simp] theorem countFree_tLen (s : State) : (countFree s).tLen = s.tLen := rfl
@[simp] theorem countFree_byteIdx (s : State) : (countFree s).byteIdx = s.byteIdx := rfl
@[simp] theorem countFree_txByte (s : State) : (countFree s).txByte = s.txByte := rfl
@[simp] theorem countFree_bitCnt (s : State) : (countFree s).bitCnt = s.bitCnt := rfl
@[simp] theorem countFree_curBit (s : State) : (countFree s).curBit = s.curBit := rfl
@[simp] theorem countFree_rxAcc (s : State) : (countFree s).rxAcc = s.rxAcc := rfl
@[simp] theorem countFree_ack (s : State) : (countFree s).ack = s.ack := rfl
@[simp] theorem countFree_waitElapsed (s : State) : (countFree s).waitElapsed = s.waitElapsed := rfl
@[simp] theorem countFree_delayCnt (s : State) : (countFree s).delayCnt = s.delayCnt := rfl
@[simp] theorem countFree_cause (s : State) : (countFree s).cause = s.cause := rfl
@[simp] theorem countFree_tcs (s : State) : (countFree s).tcs = s.tcs := rfl
@[simp] theorem countFree_phase (s : State) : (countFree s).phase = s.phase := rfl
@[simp] theorem countFree_active (s : State) : (countFree s).active = s.active := rfl
@[simp] theorem countFree_bufRd (s : State) : (countFree s).bufRd = s.bufRd := rfl
@[simp] theorem countFree_bufWr (s : State) : (countFree s).bufWr = s.bufWr := rfl
@[simp] theorem countFree_bufIdx (s : State) : (countFree s).bufIdx = s.bufIdx := rfl
@[simp] theorem countFree_bufWdata (s : State) : (countFree s).bufWdata = s.bufWdata := rfl
@[simp] theorem countFree_trace (s : State) : (countFree s).trace = s.trace := rfl
@[simp] theorem countFree_nowUs (s : State) : (countFree s).nowUs = s.nowUs := rfl
@[simp] theorem countFree_buf (s : State) : (countFree s).buf = s.buf := rfl
@[simp] theorem countFree_bufLen (s : State) : (countFree s).bufLen = s.bufLen := rfl
@[simp] theorem countFree_port (s : State) : (countFree s).port = s.port := rfl
@[simp] theorem countFree_rstIn (s : State) : (countFree s).rstIn = s.rstIn := rfl
@[simp] theorem countFree_hostWrites (s : State) : (countFree s).hostWrites = s.hostWrites := rfl
@[simp] theorem countFree_misanswers (s : State) : (countFree s).misanswers = s.misanswers := rfl
@[simp] theorem countFree_extSda (s : State) : (countFree s).extSda = s.extSda := rfl
@[simp] theorem countFree_extScl (s : State) : (countFree s).extScl = s.extScl := rfl
@[simp] theorem countFree_uop (s : State) : (countFree s).uop = s.uop := rfl
@[simp] theorem countFree_uopByte (s : State) : (countFree s).uopByte = s.uopByte := rfl
@[simp] theorem countFree_uopPoll (s : State) : (countFree s).uopPoll = s.uopPoll := rfl
@[simp] theorem countFree_uopResult (s : State) : (countFree s).uopResult = s.uopResult := rfl
@[simp] theorem countFree_uopData (s : State) : (countFree s).uopData = s.uopData := rfl
@[simp] theorem countFree_freeCtr (s : State) : (countFree s).freeCtr = s.freeCtr + 1 := rfl

/-! ### setPort -/

@[simp] theorem setPort_params (x : List (Word × Word)) (s : State) : (setPort x s).params = s.params := rfl
@[simp] theorem setPort_sdaDrv (x : List (Word × Word)) (s : State) : (setPort x s).sdaDrv = s.sdaDrv := rfl
@[simp] theorem setPort_sclDrv (x : List (Word × Word)) (s : State) : (setPort x s).sclDrv = s.sclDrv := rfl
@[simp] theorem setPort_delayUs (x : List (Word × Word)) (s : State) : (setPort x s).delayUs = s.delayUs := rfl
@[simp] theorem setPort_arbLost (x : List (Word × Word)) (s : State) : (setPort x s).arbLost = s.arbLost := rfl
@[simp] theorem setPort_rspResult (x : List (Word × Word)) (s : State) : (setPort x s).rspResult = s.rspResult := rfl
@[simp] theorem setPort_rspErr (x : List (Word × Word)) (s : State) : (setPort x s).rspErr = s.rspErr := rfl
@[simp] theorem setPort_rspArb (x : List (Word × Word)) (s : State) : (setPort x s).rspArb = s.rspArb := rfl
@[simp] theorem setPort_rspValid (x : List (Word × Word)) (s : State) : (setPort x s).rspValid = s.rspValid := rfl
@[simp] theorem setPort_tAddr (x : List (Word × Word)) (s : State) : (setPort x s).tAddr = s.tAddr := rfl
@[simp] theorem setPort_tRw (x : List (Word × Word)) (s : State) : (setPort x s).tRw = s.tRw := rfl
@[simp] theorem setPort_tLen (x : List (Word × Word)) (s : State) : (setPort x s).tLen = s.tLen := rfl
@[simp] theorem setPort_byteIdx (x : List (Word × Word)) (s : State) : (setPort x s).byteIdx = s.byteIdx := rfl
@[simp] theorem setPort_txByte (x : List (Word × Word)) (s : State) : (setPort x s).txByte = s.txByte := rfl
@[simp] theorem setPort_bitCnt (x : List (Word × Word)) (s : State) : (setPort x s).bitCnt = s.bitCnt := rfl
@[simp] theorem setPort_curBit (x : List (Word × Word)) (s : State) : (setPort x s).curBit = s.curBit := rfl
@[simp] theorem setPort_rxAcc (x : List (Word × Word)) (s : State) : (setPort x s).rxAcc = s.rxAcc := rfl
@[simp] theorem setPort_ack (x : List (Word × Word)) (s : State) : (setPort x s).ack = s.ack := rfl
@[simp] theorem setPort_waitElapsed (x : List (Word × Word)) (s : State) : (setPort x s).waitElapsed = s.waitElapsed := rfl
@[simp] theorem setPort_delayCnt (x : List (Word × Word)) (s : State) : (setPort x s).delayCnt = s.delayCnt := rfl
@[simp] theorem setPort_cause (x : List (Word × Word)) (s : State) : (setPort x s).cause = s.cause := rfl
@[simp] theorem setPort_tcs (x : List (Word × Word)) (s : State) : (setPort x s).tcs = s.tcs := rfl
@[simp] theorem setPort_phase (x : List (Word × Word)) (s : State) : (setPort x s).phase = s.phase := rfl
@[simp] theorem setPort_active (x : List (Word × Word)) (s : State) : (setPort x s).active = s.active := rfl
@[simp] theorem setPort_bufRd (x : List (Word × Word)) (s : State) : (setPort x s).bufRd = s.bufRd := rfl
@[simp] theorem setPort_bufWr (x : List (Word × Word)) (s : State) : (setPort x s).bufWr = s.bufWr := rfl
@[simp] theorem setPort_bufIdx (x : List (Word × Word)) (s : State) : (setPort x s).bufIdx = s.bufIdx := rfl
@[simp] theorem setPort_bufWdata (x : List (Word × Word)) (s : State) : (setPort x s).bufWdata = s.bufWdata := rfl
@[simp] theorem setPort_trace (x : List (Word × Word)) (s : State) : (setPort x s).trace = s.trace := rfl
@[simp] theorem setPort_nowUs (x : List (Word × Word)) (s : State) : (setPort x s).nowUs = s.nowUs := rfl
@[simp] theorem setPort_buf (x : List (Word × Word)) (s : State) : (setPort x s).buf = s.buf := rfl
@[simp] theorem setPort_bufLen (x : List (Word × Word)) (s : State) : (setPort x s).bufLen = s.bufLen := rfl
@[simp] theorem setPort_port (x : List (Word × Word)) (s : State) : (setPort x s).port = x := rfl
@[simp] theorem setPort_rstIn (x : List (Word × Word)) (s : State) : (setPort x s).rstIn = s.rstIn := rfl
@[simp] theorem setPort_hostWrites (x : List (Word × Word)) (s : State) : (setPort x s).hostWrites = s.hostWrites := rfl
@[simp] theorem setPort_misanswers (x : List (Word × Word)) (s : State) : (setPort x s).misanswers = s.misanswers := rfl
@[simp] theorem setPort_extSda (x : List (Word × Word)) (s : State) : (setPort x s).extSda = s.extSda := rfl
@[simp] theorem setPort_extScl (x : List (Word × Word)) (s : State) : (setPort x s).extScl = s.extScl := rfl
@[simp] theorem setPort_uop (x : List (Word × Word)) (s : State) : (setPort x s).uop = s.uop := rfl
@[simp] theorem setPort_uopByte (x : List (Word × Word)) (s : State) : (setPort x s).uopByte = s.uopByte := rfl
@[simp] theorem setPort_uopPoll (x : List (Word × Word)) (s : State) : (setPort x s).uopPoll = s.uopPoll := rfl
@[simp] theorem setPort_uopResult (x : List (Word × Word)) (s : State) : (setPort x s).uopResult = s.uopResult := rfl
@[simp] theorem setPort_uopData (x : List (Word × Word)) (s : State) : (setPort x s).uopData = s.uopData := rfl
@[simp] theorem setPort_freeCtr (x : List (Word × Word)) (s : State) : (setPort x s).freeCtr = s.freeCtr := rfl

/-! ### setUop -/

@[simp] theorem setUop_params (x : Option Byte) (s : State) : (setUop x s).params = s.params := rfl
@[simp] theorem setUop_sdaDrv (x : Option Byte) (s : State) : (setUop x s).sdaDrv = s.sdaDrv := rfl
@[simp] theorem setUop_sclDrv (x : Option Byte) (s : State) : (setUop x s).sclDrv = s.sclDrv := rfl
@[simp] theorem setUop_delayUs (x : Option Byte) (s : State) : (setUop x s).delayUs = s.delayUs := rfl
@[simp] theorem setUop_arbLost (x : Option Byte) (s : State) : (setUop x s).arbLost = s.arbLost := rfl
@[simp] theorem setUop_rspResult (x : Option Byte) (s : State) : (setUop x s).rspResult = s.rspResult := rfl
@[simp] theorem setUop_rspErr (x : Option Byte) (s : State) : (setUop x s).rspErr = s.rspErr := rfl
@[simp] theorem setUop_rspArb (x : Option Byte) (s : State) : (setUop x s).rspArb = s.rspArb := rfl
@[simp] theorem setUop_rspValid (x : Option Byte) (s : State) : (setUop x s).rspValid = s.rspValid := rfl
@[simp] theorem setUop_tAddr (x : Option Byte) (s : State) : (setUop x s).tAddr = s.tAddr := rfl
@[simp] theorem setUop_tRw (x : Option Byte) (s : State) : (setUop x s).tRw = s.tRw := rfl
@[simp] theorem setUop_tLen (x : Option Byte) (s : State) : (setUop x s).tLen = s.tLen := rfl
@[simp] theorem setUop_byteIdx (x : Option Byte) (s : State) : (setUop x s).byteIdx = s.byteIdx := rfl
@[simp] theorem setUop_txByte (x : Option Byte) (s : State) : (setUop x s).txByte = s.txByte := rfl
@[simp] theorem setUop_bitCnt (x : Option Byte) (s : State) : (setUop x s).bitCnt = s.bitCnt := rfl
@[simp] theorem setUop_curBit (x : Option Byte) (s : State) : (setUop x s).curBit = s.curBit := rfl
@[simp] theorem setUop_rxAcc (x : Option Byte) (s : State) : (setUop x s).rxAcc = s.rxAcc := rfl
@[simp] theorem setUop_ack (x : Option Byte) (s : State) : (setUop x s).ack = s.ack := rfl
@[simp] theorem setUop_waitElapsed (x : Option Byte) (s : State) : (setUop x s).waitElapsed = s.waitElapsed := rfl
@[simp] theorem setUop_delayCnt (x : Option Byte) (s : State) : (setUop x s).delayCnt = s.delayCnt := rfl
@[simp] theorem setUop_cause (x : Option Byte) (s : State) : (setUop x s).cause = s.cause := rfl
@[simp] theorem setUop_tcs (x : Option Byte) (s : State) : (setUop x s).tcs = s.tcs := rfl
@[simp] theorem setUop_phase (x : Option Byte) (s : State) : (setUop x s).phase = s.phase := rfl
@[simp] theorem setUop_active (x : Option Byte) (s : State) : (setUop x s).active = s.active := rfl
@[simp] theorem setUop_bufRd (x : Option Byte) (s : State) : (setUop x s).bufRd = s.bufRd := rfl
@[simp] theorem setUop_bufWr (x : Option Byte) (s : State) : (setUop x s).bufWr = s.bufWr := rfl
@[simp] theorem setUop_bufIdx (x : Option Byte) (s : State) : (setUop x s).bufIdx = s.bufIdx := rfl
@[simp] theorem setUop_bufWdata (x : Option Byte) (s : State) : (setUop x s).bufWdata = s.bufWdata := rfl
@[simp] theorem setUop_trace (x : Option Byte) (s : State) : (setUop x s).trace = s.trace := rfl
@[simp] theorem setUop_nowUs (x : Option Byte) (s : State) : (setUop x s).nowUs = s.nowUs := rfl
@[simp] theorem setUop_buf (x : Option Byte) (s : State) : (setUop x s).buf = s.buf := rfl
@[simp] theorem setUop_bufLen (x : Option Byte) (s : State) : (setUop x s).bufLen = s.bufLen := rfl
@[simp] theorem setUop_port (x : Option Byte) (s : State) : (setUop x s).port = s.port := rfl
@[simp] theorem setUop_rstIn (x : Option Byte) (s : State) : (setUop x s).rstIn = s.rstIn := rfl
@[simp] theorem setUop_hostWrites (x : Option Byte) (s : State) : (setUop x s).hostWrites = s.hostWrites := rfl
@[simp] theorem setUop_misanswers (x : Option Byte) (s : State) : (setUop x s).misanswers = s.misanswers := rfl
@[simp] theorem setUop_extSda (x : Option Byte) (s : State) : (setUop x s).extSda = s.extSda := rfl
@[simp] theorem setUop_extScl (x : Option Byte) (s : State) : (setUop x s).extScl = s.extScl := rfl
@[simp] theorem setUop_uop (x : Option Byte) (s : State) : (setUop x s).uop = x := rfl
@[simp] theorem setUop_uopByte (x : Option Byte) (s : State) : (setUop x s).uopByte = s.uopByte := rfl
@[simp] theorem setUop_uopPoll (x : Option Byte) (s : State) : (setUop x s).uopPoll = s.uopPoll := rfl
@[simp] theorem setUop_uopResult (x : Option Byte) (s : State) : (setUop x s).uopResult = s.uopResult := rfl
@[simp] theorem setUop_uopData (x : Option Byte) (s : State) : (setUop x s).uopData = s.uopData := rfl
@[simp] theorem setUop_freeCtr (x : Option Byte) (s : State) : (setUop x s).freeCtr = s.freeCtr := rfl

/-! ### setRstIn -/

@[simp] theorem setRstIn_params (x : Option Nat) (s : State) : (setRstIn x s).params = s.params := rfl
@[simp] theorem setRstIn_sdaDrv (x : Option Nat) (s : State) : (setRstIn x s).sdaDrv = s.sdaDrv := rfl
@[simp] theorem setRstIn_sclDrv (x : Option Nat) (s : State) : (setRstIn x s).sclDrv = s.sclDrv := rfl
@[simp] theorem setRstIn_delayUs (x : Option Nat) (s : State) : (setRstIn x s).delayUs = s.delayUs := rfl
@[simp] theorem setRstIn_arbLost (x : Option Nat) (s : State) : (setRstIn x s).arbLost = s.arbLost := rfl
@[simp] theorem setRstIn_rspResult (x : Option Nat) (s : State) : (setRstIn x s).rspResult = s.rspResult := rfl
@[simp] theorem setRstIn_rspErr (x : Option Nat) (s : State) : (setRstIn x s).rspErr = s.rspErr := rfl
@[simp] theorem setRstIn_rspArb (x : Option Nat) (s : State) : (setRstIn x s).rspArb = s.rspArb := rfl
@[simp] theorem setRstIn_rspValid (x : Option Nat) (s : State) : (setRstIn x s).rspValid = s.rspValid := rfl
@[simp] theorem setRstIn_tAddr (x : Option Nat) (s : State) : (setRstIn x s).tAddr = s.tAddr := rfl
@[simp] theorem setRstIn_tRw (x : Option Nat) (s : State) : (setRstIn x s).tRw = s.tRw := rfl
@[simp] theorem setRstIn_tLen (x : Option Nat) (s : State) : (setRstIn x s).tLen = s.tLen := rfl
@[simp] theorem setRstIn_byteIdx (x : Option Nat) (s : State) : (setRstIn x s).byteIdx = s.byteIdx := rfl
@[simp] theorem setRstIn_txByte (x : Option Nat) (s : State) : (setRstIn x s).txByte = s.txByte := rfl
@[simp] theorem setRstIn_bitCnt (x : Option Nat) (s : State) : (setRstIn x s).bitCnt = s.bitCnt := rfl
@[simp] theorem setRstIn_curBit (x : Option Nat) (s : State) : (setRstIn x s).curBit = s.curBit := rfl
@[simp] theorem setRstIn_rxAcc (x : Option Nat) (s : State) : (setRstIn x s).rxAcc = s.rxAcc := rfl
@[simp] theorem setRstIn_ack (x : Option Nat) (s : State) : (setRstIn x s).ack = s.ack := rfl
@[simp] theorem setRstIn_waitElapsed (x : Option Nat) (s : State) : (setRstIn x s).waitElapsed = s.waitElapsed := rfl
@[simp] theorem setRstIn_delayCnt (x : Option Nat) (s : State) : (setRstIn x s).delayCnt = s.delayCnt := rfl
@[simp] theorem setRstIn_cause (x : Option Nat) (s : State) : (setRstIn x s).cause = s.cause := rfl
@[simp] theorem setRstIn_tcs (x : Option Nat) (s : State) : (setRstIn x s).tcs = s.tcs := rfl
@[simp] theorem setRstIn_phase (x : Option Nat) (s : State) : (setRstIn x s).phase = s.phase := rfl
@[simp] theorem setRstIn_active (x : Option Nat) (s : State) : (setRstIn x s).active = s.active := rfl
@[simp] theorem setRstIn_bufRd (x : Option Nat) (s : State) : (setRstIn x s).bufRd = s.bufRd := rfl
@[simp] theorem setRstIn_bufWr (x : Option Nat) (s : State) : (setRstIn x s).bufWr = s.bufWr := rfl
@[simp] theorem setRstIn_bufIdx (x : Option Nat) (s : State) : (setRstIn x s).bufIdx = s.bufIdx := rfl
@[simp] theorem setRstIn_bufWdata (x : Option Nat) (s : State) : (setRstIn x s).bufWdata = s.bufWdata := rfl
@[simp] theorem setRstIn_trace (x : Option Nat) (s : State) : (setRstIn x s).trace = s.trace := rfl
@[simp] theorem setRstIn_nowUs (x : Option Nat) (s : State) : (setRstIn x s).nowUs = s.nowUs := rfl
@[simp] theorem setRstIn_buf (x : Option Nat) (s : State) : (setRstIn x s).buf = s.buf := rfl
@[simp] theorem setRstIn_bufLen (x : Option Nat) (s : State) : (setRstIn x s).bufLen = s.bufLen := rfl
@[simp] theorem setRstIn_port (x : Option Nat) (s : State) : (setRstIn x s).port = s.port := rfl
@[simp] theorem setRstIn_rstIn (x : Option Nat) (s : State) : (setRstIn x s).rstIn = x := rfl
@[simp] theorem setRstIn_hostWrites (x : Option Nat) (s : State) : (setRstIn x s).hostWrites = s.hostWrites := rfl
@[simp] theorem setRstIn_misanswers (x : Option Nat) (s : State) : (setRstIn x s).misanswers = s.misanswers := rfl
@[simp] theorem setRstIn_extSda (x : Option Nat) (s : State) : (setRstIn x s).extSda = s.extSda := rfl
@[simp] theorem setRstIn_extScl (x : Option Nat) (s : State) : (setRstIn x s).extScl = s.extScl := rfl
@[simp] theorem setRstIn_uop (x : Option Nat) (s : State) : (setRstIn x s).uop = s.uop := rfl
@[simp] theorem setRstIn_uopByte (x : Option Nat) (s : State) : (setRstIn x s).uopByte = s.uopByte := rfl
@[simp] theorem setRstIn_uopPoll (x : Option Nat) (s : State) : (setRstIn x s).uopPoll = s.uopPoll := rfl
@[simp] theorem setRstIn_uopResult (x : Option Nat) (s : State) : (setRstIn x s).uopResult = s.uopResult := rfl
@[simp] theorem setRstIn_uopData (x : Option Nat) (s : State) : (setRstIn x s).uopData = s.uopData := rfl
@[simp] theorem setRstIn_freeCtr (x : Option Nat) (s : State) : (setRstIn x s).freeCtr = s.freeCtr := rfl

/-! ### passTime -/

@[simp] theorem passTime_params (n : Nat) (s : State) : (passTime n s).params = s.params := rfl
@[simp] theorem passTime_sdaDrv (n : Nat) (s : State) : (passTime n s).sdaDrv = s.sdaDrv := rfl
@[simp] theorem passTime_sclDrv (n : Nat) (s : State) : (passTime n s).sclDrv = s.sclDrv := rfl
@[simp] theorem passTime_delayUs (n : Nat) (s : State) : (passTime n s).delayUs = s.delayUs := rfl
@[simp] theorem passTime_arbLost (n : Nat) (s : State) : (passTime n s).arbLost = s.arbLost := rfl
@[simp] theorem passTime_rspResult (n : Nat) (s : State) : (passTime n s).rspResult = s.rspResult := rfl
@[simp] theorem passTime_rspErr (n : Nat) (s : State) : (passTime n s).rspErr = s.rspErr := rfl
@[simp] theorem passTime_rspArb (n : Nat) (s : State) : (passTime n s).rspArb = s.rspArb := rfl
@[simp] theorem passTime_rspValid (n : Nat) (s : State) : (passTime n s).rspValid = s.rspValid := rfl
@[simp] theorem passTime_tAddr (n : Nat) (s : State) : (passTime n s).tAddr = s.tAddr := rfl
@[simp] theorem passTime_tRw (n : Nat) (s : State) : (passTime n s).tRw = s.tRw := rfl
@[simp] theorem passTime_tLen (n : Nat) (s : State) : (passTime n s).tLen = s.tLen := rfl
@[simp] theorem passTime_byteIdx (n : Nat) (s : State) : (passTime n s).byteIdx = s.byteIdx := rfl
@[simp] theorem passTime_txByte (n : Nat) (s : State) : (passTime n s).txByte = s.txByte := rfl
@[simp] theorem passTime_bitCnt (n : Nat) (s : State) : (passTime n s).bitCnt = s.bitCnt := rfl
@[simp] theorem passTime_curBit (n : Nat) (s : State) : (passTime n s).curBit = s.curBit := rfl
@[simp] theorem passTime_rxAcc (n : Nat) (s : State) : (passTime n s).rxAcc = s.rxAcc := rfl
@[simp] theorem passTime_ack (n : Nat) (s : State) : (passTime n s).ack = s.ack := rfl
@[simp] theorem passTime_waitElapsed (n : Nat) (s : State) : (passTime n s).waitElapsed = s.waitElapsed := rfl
@[simp] theorem passTime_delayCnt (n : Nat) (s : State) : (passTime n s).delayCnt = 0#31 := rfl
@[simp] theorem passTime_cause (n : Nat) (s : State) : (passTime n s).cause = s.cause := rfl
@[simp] theorem passTime_tcs (n : Nat) (s : State) : (passTime n s).tcs = s.tcs := rfl
@[simp] theorem passTime_phase (n : Nat) (s : State) : (passTime n s).phase = s.phase := rfl
@[simp] theorem passTime_active (n : Nat) (s : State) : (passTime n s).active = s.active := rfl
@[simp] theorem passTime_bufRd (n : Nat) (s : State) : (passTime n s).bufRd = s.bufRd := rfl
@[simp] theorem passTime_bufWr (n : Nat) (s : State) : (passTime n s).bufWr = s.bufWr := rfl
@[simp] theorem passTime_bufIdx (n : Nat) (s : State) : (passTime n s).bufIdx = s.bufIdx := rfl
@[simp] theorem passTime_bufWdata (n : Nat) (s : State) : (passTime n s).bufWdata = s.bufWdata := rfl
@[simp] theorem passTime_trace (n : Nat) (s : State) : (passTime n s).trace = s.trace := rfl
@[simp] theorem passTime_nowUs (n : Nat) (s : State) : (passTime n s).nowUs = s.nowUs + n := rfl
@[simp] theorem passTime_buf (n : Nat) (s : State) : (passTime n s).buf = s.buf := rfl
@[simp] theorem passTime_bufLen (n : Nat) (s : State) : (passTime n s).bufLen = s.bufLen := rfl
@[simp] theorem passTime_port (n : Nat) (s : State) : (passTime n s).port = s.port := rfl
@[simp] theorem passTime_rstIn (n : Nat) (s : State) : (passTime n s).rstIn = s.rstIn := rfl
@[simp] theorem passTime_hostWrites (n : Nat) (s : State) : (passTime n s).hostWrites = s.hostWrites := rfl
@[simp] theorem passTime_misanswers (n : Nat) (s : State) : (passTime n s).misanswers = s.misanswers := rfl
@[simp] theorem passTime_extSda (n : Nat) (s : State) : (passTime n s).extSda = s.extSda := rfl
@[simp] theorem passTime_extScl (n : Nat) (s : State) : (passTime n s).extScl = s.extScl := rfl
@[simp] theorem passTime_uop (n : Nat) (s : State) : (passTime n s).uop = s.uop := rfl
@[simp] theorem passTime_uopByte (n : Nat) (s : State) : (passTime n s).uopByte = s.uopByte := rfl
@[simp] theorem passTime_uopPoll (n : Nat) (s : State) : (passTime n s).uopPoll = s.uopPoll := rfl
@[simp] theorem passTime_uopResult (n : Nat) (s : State) : (passTime n s).uopResult = s.uopResult := rfl
@[simp] theorem passTime_uopData (n : Nat) (s : State) : (passTime n s).uopData = s.uopData := rfl
@[simp] theorem passTime_freeCtr (n : Nat) (s : State) : (passTime n s).freeCtr = s.freeCtr := rfl

/-! ### setBuf -/

@[simp] theorem setBuf_params (m : Memory) (s : State) : (setBuf m s).params = s.params := rfl
@[simp] theorem setBuf_sdaDrv (m : Memory) (s : State) : (setBuf m s).sdaDrv = s.sdaDrv := rfl
@[simp] theorem setBuf_sclDrv (m : Memory) (s : State) : (setBuf m s).sclDrv = s.sclDrv := rfl
@[simp] theorem setBuf_delayUs (m : Memory) (s : State) : (setBuf m s).delayUs = s.delayUs := rfl
@[simp] theorem setBuf_arbLost (m : Memory) (s : State) : (setBuf m s).arbLost = s.arbLost := rfl
@[simp] theorem setBuf_rspResult (m : Memory) (s : State) : (setBuf m s).rspResult = s.rspResult := rfl
@[simp] theorem setBuf_rspErr (m : Memory) (s : State) : (setBuf m s).rspErr = s.rspErr := rfl
@[simp] theorem setBuf_rspArb (m : Memory) (s : State) : (setBuf m s).rspArb = s.rspArb := rfl
@[simp] theorem setBuf_rspValid (m : Memory) (s : State) : (setBuf m s).rspValid = s.rspValid := rfl
@[simp] theorem setBuf_tAddr (m : Memory) (s : State) : (setBuf m s).tAddr = s.tAddr := rfl
@[simp] theorem setBuf_tRw (m : Memory) (s : State) : (setBuf m s).tRw = s.tRw := rfl
@[simp] theorem setBuf_tLen (m : Memory) (s : State) : (setBuf m s).tLen = s.tLen := rfl
@[simp] theorem setBuf_byteIdx (m : Memory) (s : State) : (setBuf m s).byteIdx = s.byteIdx := rfl
@[simp] theorem setBuf_txByte (m : Memory) (s : State) : (setBuf m s).txByte = s.txByte := rfl
@[simp] theorem setBuf_bitCnt (m : Memory) (s : State) : (setBuf m s).bitCnt = s.bitCnt := rfl
@[simp] theorem setBuf_curBit (m : Memory) (s : State) : (setBuf m s).curBit = s.curBit := rfl
@[simp] theorem setBuf_rxAcc (m : Memory) (s : State) : (setBuf m s).rxAcc = s.rxAcc := rfl
@[simp] theorem setBuf_ack (m : Memory) (s : State) : (setBuf m s).ack = s.ack := rfl
@[simp] theorem setBuf_waitElapsed (m : Memory) (s : State) : (setBuf m s).waitElapsed = s.waitElapsed := rfl
@[simp] theorem setBuf_delayCnt (m : Memory) (s : State) : (setBuf m s).delayCnt = s.delayCnt := rfl
@[simp] theorem setBuf_cause (m : Memory) (s : State) : (setBuf m s).cause = s.cause := rfl
@[simp] theorem setBuf_tcs (m : Memory) (s : State) : (setBuf m s).tcs = s.tcs := rfl
@[simp] theorem setBuf_phase (m : Memory) (s : State) : (setBuf m s).phase = s.phase := rfl
@[simp] theorem setBuf_active (m : Memory) (s : State) : (setBuf m s).active = s.active := rfl
@[simp] theorem setBuf_bufRd (m : Memory) (s : State) : (setBuf m s).bufRd = s.bufRd := rfl
@[simp] theorem setBuf_bufWr (m : Memory) (s : State) : (setBuf m s).bufWr = s.bufWr := rfl
@[simp] theorem setBuf_bufIdx (m : Memory) (s : State) : (setBuf m s).bufIdx = s.bufIdx := rfl
@[simp] theorem setBuf_bufWdata (m : Memory) (s : State) : (setBuf m s).bufWdata = s.bufWdata := rfl
@[simp] theorem setBuf_trace (m : Memory) (s : State) : (setBuf m s).trace = s.trace := rfl
@[simp] theorem setBuf_nowUs (m : Memory) (s : State) : (setBuf m s).nowUs = s.nowUs := rfl
@[simp] theorem setBuf_buf (m : Memory) (s : State) : (setBuf m s).buf = m := rfl
@[simp] theorem setBuf_bufLen (m : Memory) (s : State) : (setBuf m s).bufLen = s.bufLen := rfl
@[simp] theorem setBuf_port (m : Memory) (s : State) : (setBuf m s).port = s.port := rfl
@[simp] theorem setBuf_rstIn (m : Memory) (s : State) : (setBuf m s).rstIn = s.rstIn := rfl
@[simp] theorem setBuf_hostWrites (m : Memory) (s : State) : (setBuf m s).hostWrites = s.hostWrites := rfl
@[simp] theorem setBuf_misanswers (m : Memory) (s : State) : (setBuf m s).misanswers = s.misanswers := rfl
@[simp] theorem setBuf_extSda (m : Memory) (s : State) : (setBuf m s).extSda = s.extSda := rfl
@[simp] theorem setBuf_extScl (m : Memory) (s : State) : (setBuf m s).extScl = s.extScl := rfl
@[simp] theorem setBuf_uop (m : Memory) (s : State) : (setBuf m s).uop = s.uop := rfl
@[simp] theorem setBuf_uopByte (m : Memory) (s : State) : (setBuf m s).uopByte = s.uopByte := rfl
@[simp] theorem setBuf_uopPoll (m : Memory) (s : State) : (setBuf m s).uopPoll = s.uopPoll := rfl
@[simp] theorem setBuf_uopResult (m : Memory) (s : State) : (setBuf m s).uopResult = s.uopResult := rfl
@[simp] theorem setBuf_uopData (m : Memory) (s : State) : (setBuf m s).uopData = s.uopData := rfl
@[simp] theorem setBuf_freeCtr (m : Memory) (s : State) : (setBuf m s).freeCtr = s.freeCtr := rfl

/-! ### dropHostBytes -/

@[simp] theorem dropHostBytes_params (i : BitVec 16) (s : State) : (dropHostBytes i s).params = s.params := rfl
@[simp] theorem dropHostBytes_sdaDrv (i : BitVec 16) (s : State) : (dropHostBytes i s).sdaDrv = s.sdaDrv := rfl
@[simp] theorem dropHostBytes_sclDrv (i : BitVec 16) (s : State) : (dropHostBytes i s).sclDrv = s.sclDrv := rfl
@[simp] theorem dropHostBytes_delayUs (i : BitVec 16) (s : State) : (dropHostBytes i s).delayUs = s.delayUs := rfl
@[simp] theorem dropHostBytes_arbLost (i : BitVec 16) (s : State) : (dropHostBytes i s).arbLost = s.arbLost := rfl
@[simp] theorem dropHostBytes_rspResult (i : BitVec 16) (s : State) : (dropHostBytes i s).rspResult = s.rspResult := rfl
@[simp] theorem dropHostBytes_rspErr (i : BitVec 16) (s : State) : (dropHostBytes i s).rspErr = s.rspErr := rfl
@[simp] theorem dropHostBytes_rspArb (i : BitVec 16) (s : State) : (dropHostBytes i s).rspArb = s.rspArb := rfl
@[simp] theorem dropHostBytes_rspValid (i : BitVec 16) (s : State) : (dropHostBytes i s).rspValid = s.rspValid := rfl
@[simp] theorem dropHostBytes_tAddr (i : BitVec 16) (s : State) : (dropHostBytes i s).tAddr = s.tAddr := rfl
@[simp] theorem dropHostBytes_tRw (i : BitVec 16) (s : State) : (dropHostBytes i s).tRw = s.tRw := rfl
@[simp] theorem dropHostBytes_tLen (i : BitVec 16) (s : State) : (dropHostBytes i s).tLen = s.tLen := rfl
@[simp] theorem dropHostBytes_byteIdx (i : BitVec 16) (s : State) : (dropHostBytes i s).byteIdx = s.byteIdx := rfl
@[simp] theorem dropHostBytes_txByte (i : BitVec 16) (s : State) : (dropHostBytes i s).txByte = s.txByte := rfl
@[simp] theorem dropHostBytes_bitCnt (i : BitVec 16) (s : State) : (dropHostBytes i s).bitCnt = s.bitCnt := rfl
@[simp] theorem dropHostBytes_curBit (i : BitVec 16) (s : State) : (dropHostBytes i s).curBit = s.curBit := rfl
@[simp] theorem dropHostBytes_rxAcc (i : BitVec 16) (s : State) : (dropHostBytes i s).rxAcc = s.rxAcc := rfl
@[simp] theorem dropHostBytes_ack (i : BitVec 16) (s : State) : (dropHostBytes i s).ack = s.ack := rfl
@[simp] theorem dropHostBytes_waitElapsed (i : BitVec 16) (s : State) : (dropHostBytes i s).waitElapsed = s.waitElapsed := rfl
@[simp] theorem dropHostBytes_delayCnt (i : BitVec 16) (s : State) : (dropHostBytes i s).delayCnt = s.delayCnt := rfl
@[simp] theorem dropHostBytes_cause (i : BitVec 16) (s : State) : (dropHostBytes i s).cause = s.cause := rfl
@[simp] theorem dropHostBytes_tcs (i : BitVec 16) (s : State) : (dropHostBytes i s).tcs = s.tcs := rfl
@[simp] theorem dropHostBytes_phase (i : BitVec 16) (s : State) : (dropHostBytes i s).phase = s.phase := rfl
@[simp] theorem dropHostBytes_active (i : BitVec 16) (s : State) : (dropHostBytes i s).active = s.active := rfl
@[simp] theorem dropHostBytes_bufRd (i : BitVec 16) (s : State) : (dropHostBytes i s).bufRd = s.bufRd := rfl
@[simp] theorem dropHostBytes_bufWr (i : BitVec 16) (s : State) : (dropHostBytes i s).bufWr = s.bufWr := rfl
@[simp] theorem dropHostBytes_bufIdx (i : BitVec 16) (s : State) : (dropHostBytes i s).bufIdx = s.bufIdx := rfl
@[simp] theorem dropHostBytes_bufWdata (i : BitVec 16) (s : State) : (dropHostBytes i s).bufWdata = s.bufWdata := rfl
@[simp] theorem dropHostBytes_trace (i : BitVec 16) (s : State) : (dropHostBytes i s).trace = s.trace := rfl
@[simp] theorem dropHostBytes_nowUs (i : BitVec 16) (s : State) : (dropHostBytes i s).nowUs = s.nowUs := rfl
@[simp] theorem dropHostBytes_buf (i : BitVec 16) (s : State) : (dropHostBytes i s).buf = s.buf := rfl
@[simp] theorem dropHostBytes_bufLen (i : BitVec 16) (s : State) : (dropHostBytes i s).bufLen = s.bufLen := rfl
@[simp] theorem dropHostBytes_port (i : BitVec 16) (s : State) : (dropHostBytes i s).port = s.port := rfl
@[simp] theorem dropHostBytes_rstIn (i : BitVec 16) (s : State) : (dropHostBytes i s).rstIn = s.rstIn := rfl
@[simp] theorem dropHostBytes_hostWrites (i : BitVec 16) (s : State) : (dropHostBytes i s).hostWrites = s.hostWrites.filter (fun c => c.1 != i) := rfl
@[simp] theorem dropHostBytes_misanswers (i : BitVec 16) (s : State) : (dropHostBytes i s).misanswers = s.misanswers := rfl
@[simp] theorem dropHostBytes_extSda (i : BitVec 16) (s : State) : (dropHostBytes i s).extSda = s.extSda := rfl
@[simp] theorem dropHostBytes_extScl (i : BitVec 16) (s : State) : (dropHostBytes i s).extScl = s.extScl := rfl
@[simp] theorem dropHostBytes_uop (i : BitVec 16) (s : State) : (dropHostBytes i s).uop = s.uop := rfl
@[simp] theorem dropHostBytes_uopByte (i : BitVec 16) (s : State) : (dropHostBytes i s).uopByte = s.uopByte := rfl
@[simp] theorem dropHostBytes_uopPoll (i : BitVec 16) (s : State) : (dropHostBytes i s).uopPoll = s.uopPoll := rfl
@[simp] theorem dropHostBytes_uopResult (i : BitVec 16) (s : State) : (dropHostBytes i s).uopResult = s.uopResult := rfl
@[simp] theorem dropHostBytes_uopData (i : BitVec 16) (s : State) : (dropHostBytes i s).uopData = s.uopData := rfl
@[simp] theorem dropHostBytes_freeCtr (i : BitVec 16) (s : State) : (dropHostBytes i s).freeCtr = s.freeCtr := rfl

/-! ### strobeRead -/

@[simp] theorem strobeRead_params (i : BitVec 16) (s : State) : (strobeRead i s).params = s.params := rfl
@[simp] theorem strobeRead_sdaDrv (i : BitVec 16) (s : State) : (strobeRead i s).sdaDrv = s.sdaDrv := rfl
@[simp] theorem strobeRead_sclDrv (i : BitVec 16) (s : State) : (strobeRead i s).sclDrv = s.sclDrv := rfl
@[simp] theorem strobeRead_delayUs (i : BitVec 16) (s : State) : (strobeRead i s).delayUs = s.delayUs := rfl
@[simp] theorem strobeRead_arbLost (i : BitVec 16) (s : State) : (strobeRead i s).arbLost = s.arbLost := rfl
@[simp] theorem strobeRead_rspResult (i : BitVec 16) (s : State) : (strobeRead i s).rspResult = s.rspResult := rfl
@[simp] theorem strobeRead_rspErr (i : BitVec 16) (s : State) : (strobeRead i s).rspErr = s.rspErr := rfl
@[simp] theorem strobeRead_rspArb (i : BitVec 16) (s : State) : (strobeRead i s).rspArb = s.rspArb := rfl
@[simp] theorem strobeRead_rspValid (i : BitVec 16) (s : State) : (strobeRead i s).rspValid = s.rspValid := rfl
@[simp] theorem strobeRead_tAddr (i : BitVec 16) (s : State) : (strobeRead i s).tAddr = s.tAddr := rfl
@[simp] theorem strobeRead_tRw (i : BitVec 16) (s : State) : (strobeRead i s).tRw = s.tRw := rfl
@[simp] theorem strobeRead_tLen (i : BitVec 16) (s : State) : (strobeRead i s).tLen = s.tLen := rfl
@[simp] theorem strobeRead_byteIdx (i : BitVec 16) (s : State) : (strobeRead i s).byteIdx = s.byteIdx := rfl
@[simp] theorem strobeRead_txByte (i : BitVec 16) (s : State) : (strobeRead i s).txByte = s.txByte := rfl
@[simp] theorem strobeRead_bitCnt (i : BitVec 16) (s : State) : (strobeRead i s).bitCnt = s.bitCnt := rfl
@[simp] theorem strobeRead_curBit (i : BitVec 16) (s : State) : (strobeRead i s).curBit = s.curBit := rfl
@[simp] theorem strobeRead_rxAcc (i : BitVec 16) (s : State) : (strobeRead i s).rxAcc = s.rxAcc := rfl
@[simp] theorem strobeRead_ack (i : BitVec 16) (s : State) : (strobeRead i s).ack = s.ack := rfl
@[simp] theorem strobeRead_waitElapsed (i : BitVec 16) (s : State) : (strobeRead i s).waitElapsed = s.waitElapsed := rfl
@[simp] theorem strobeRead_delayCnt (i : BitVec 16) (s : State) : (strobeRead i s).delayCnt = s.delayCnt := rfl
@[simp] theorem strobeRead_cause (i : BitVec 16) (s : State) : (strobeRead i s).cause = s.cause := rfl
@[simp] theorem strobeRead_tcs (i : BitVec 16) (s : State) : (strobeRead i s).tcs = s.tcs := rfl
@[simp] theorem strobeRead_phase (i : BitVec 16) (s : State) : (strobeRead i s).phase = s.phase := rfl
@[simp] theorem strobeRead_active (i : BitVec 16) (s : State) : (strobeRead i s).active = s.active := rfl
@[simp] theorem strobeRead_bufRd (i : BitVec 16) (s : State) : (strobeRead i s).bufRd = true := rfl
@[simp] theorem strobeRead_bufWr (i : BitVec 16) (s : State) : (strobeRead i s).bufWr = s.bufWr := rfl
@[simp] theorem strobeRead_bufIdx (i : BitVec 16) (s : State) : (strobeRead i s).bufIdx = i := rfl
@[simp] theorem strobeRead_bufWdata (i : BitVec 16) (s : State) : (strobeRead i s).bufWdata = s.bufWdata := rfl
@[simp] theorem strobeRead_trace (i : BitVec 16) (s : State) : (strobeRead i s).trace = s.trace := rfl
@[simp] theorem strobeRead_nowUs (i : BitVec 16) (s : State) : (strobeRead i s).nowUs = s.nowUs := rfl
@[simp] theorem strobeRead_buf (i : BitVec 16) (s : State) : (strobeRead i s).buf = s.buf := rfl
@[simp] theorem strobeRead_bufLen (i : BitVec 16) (s : State) : (strobeRead i s).bufLen = s.bufLen := rfl
@[simp] theorem strobeRead_port (i : BitVec 16) (s : State) : (strobeRead i s).port = s.port := rfl
@[simp] theorem strobeRead_rstIn (i : BitVec 16) (s : State) : (strobeRead i s).rstIn = s.rstIn := rfl
@[simp] theorem strobeRead_hostWrites (i : BitVec 16) (s : State) : (strobeRead i s).hostWrites = s.hostWrites := rfl
@[simp] theorem strobeRead_misanswers (i : BitVec 16) (s : State) : (strobeRead i s).misanswers = s.misanswers := rfl
@[simp] theorem strobeRead_extSda (i : BitVec 16) (s : State) : (strobeRead i s).extSda = s.extSda := rfl
@[simp] theorem strobeRead_extScl (i : BitVec 16) (s : State) : (strobeRead i s).extScl = s.extScl := rfl
@[simp] theorem strobeRead_uop (i : BitVec 16) (s : State) : (strobeRead i s).uop = s.uop := rfl
@[simp] theorem strobeRead_uopByte (i : BitVec 16) (s : State) : (strobeRead i s).uopByte = s.uopByte := rfl
@[simp] theorem strobeRead_uopPoll (i : BitVec 16) (s : State) : (strobeRead i s).uopPoll = s.uopPoll := rfl
@[simp] theorem strobeRead_uopResult (i : BitVec 16) (s : State) : (strobeRead i s).uopResult = s.uopResult := rfl
@[simp] theorem strobeRead_uopData (i : BitVec 16) (s : State) : (strobeRead i s).uopData = s.uopData := rfl
@[simp] theorem strobeRead_freeCtr (i : BitVec 16) (s : State) : (strobeRead i s).freeCtr = s.freeCtr := rfl

/-! ### strobeWrite -/

@[simp] theorem strobeWrite_params (i : BitVec 16) (v : Byte) (s : State) : (strobeWrite i v s).params = s.params := rfl
@[simp] theorem strobeWrite_sdaDrv (i : BitVec 16) (v : Byte) (s : State) : (strobeWrite i v s).sdaDrv = s.sdaDrv := rfl
@[simp] theorem strobeWrite_sclDrv (i : BitVec 16) (v : Byte) (s : State) : (strobeWrite i v s).sclDrv = s.sclDrv := rfl
@[simp] theorem strobeWrite_delayUs (i : BitVec 16) (v : Byte) (s : State) : (strobeWrite i v s).delayUs = s.delayUs := rfl
@[simp] theorem strobeWrite_arbLost (i : BitVec 16) (v : Byte) (s : State) : (strobeWrite i v s).arbLost = s.arbLost := rfl
@[simp] theorem strobeWrite_rspResult (i : BitVec 16) (v : Byte) (s : State) : (strobeWrite i v s).rspResult = s.rspResult := rfl
@[simp] theorem strobeWrite_rspErr (i : BitVec 16) (v : Byte) (s : State) : (strobeWrite i v s).rspErr = s.rspErr := rfl
@[simp] theorem strobeWrite_rspArb (i : BitVec 16) (v : Byte) (s : State) : (strobeWrite i v s).rspArb = s.rspArb := rfl
@[simp] theorem strobeWrite_rspValid (i : BitVec 16) (v : Byte) (s : State) : (strobeWrite i v s).rspValid = s.rspValid := rfl
@[simp] theorem strobeWrite_tAddr (i : BitVec 16) (v : Byte) (s : State) : (strobeWrite i v s).tAddr = s.tAddr := rfl
@[simp] theorem strobeWrite_tRw (i : BitVec 16) (v : Byte) (s : State) : (strobeWrite i v s).tRw = s.tRw := rfl
@[simp] theorem strobeWrite_tLen (i : BitVec 16) (v : Byte) (s : State) : (strobeWrite i v s).tLen = s.tLen := rfl
@[simp] theorem strobeWrite_byteIdx (i : BitVec 16) (v : Byte) (s : State) : (strobeWrite i v s).byteIdx = s.byteIdx := rfl
@[simp] theorem strobeWrite_txByte (i : BitVec 16) (v : Byte) (s : State) : (strobeWrite i v s).txByte = s.txByte := rfl
@[simp] theorem strobeWrite_bitCnt (i : BitVec 16) (v : Byte) (s : State) : (strobeWrite i v s).bitCnt = s.bitCnt := rfl
@[simp] theorem strobeWrite_curBit (i : BitVec 16) (v : Byte) (s : State) : (strobeWrite i v s).curBit = s.curBit := rfl
@[simp] theorem strobeWrite_rxAcc (i : BitVec 16) (v : Byte) (s : State) : (strobeWrite i v s).rxAcc = s.rxAcc := rfl
@[simp] theorem strobeWrite_ack (i : BitVec 16) (v : Byte) (s : State) : (strobeWrite i v s).ack = s.ack := rfl
@[simp] theorem strobeWrite_waitElapsed (i : BitVec 16) (v : Byte) (s : State) : (strobeWrite i v s).waitElapsed = s.waitElapsed := rfl
@[simp] theorem strobeWrite_delayCnt (i : BitVec 16) (v : Byte) (s : State) : (strobeWrite i v s).delayCnt = s.delayCnt := rfl
@[simp] theorem strobeWrite_cause (i : BitVec 16) (v : Byte) (s : State) : (strobeWrite i v s).cause = s.cause := rfl
@[simp] theorem strobeWrite_tcs (i : BitVec 16) (v : Byte) (s : State) : (strobeWrite i v s).tcs = s.tcs := rfl
@[simp] theorem strobeWrite_phase (i : BitVec 16) (v : Byte) (s : State) : (strobeWrite i v s).phase = s.phase := rfl
@[simp] theorem strobeWrite_active (i : BitVec 16) (v : Byte) (s : State) : (strobeWrite i v s).active = s.active := rfl
@[simp] theorem strobeWrite_bufRd (i : BitVec 16) (v : Byte) (s : State) : (strobeWrite i v s).bufRd = s.bufRd := rfl
@[simp] theorem strobeWrite_bufWr (i : BitVec 16) (v : Byte) (s : State) : (strobeWrite i v s).bufWr = true := rfl
@[simp] theorem strobeWrite_bufIdx (i : BitVec 16) (v : Byte) (s : State) : (strobeWrite i v s).bufIdx = i := rfl
@[simp] theorem strobeWrite_bufWdata (i : BitVec 16) (v : Byte) (s : State) : (strobeWrite i v s).bufWdata = v := rfl
@[simp] theorem strobeWrite_trace (i : BitVec 16) (v : Byte) (s : State) : (strobeWrite i v s).trace = s.trace := rfl
@[simp] theorem strobeWrite_nowUs (i : BitVec 16) (v : Byte) (s : State) : (strobeWrite i v s).nowUs = s.nowUs := rfl
@[simp] theorem strobeWrite_buf (i : BitVec 16) (v : Byte) (s : State) : (strobeWrite i v s).buf = s.buf := rfl
@[simp] theorem strobeWrite_bufLen (i : BitVec 16) (v : Byte) (s : State) : (strobeWrite i v s).bufLen = s.bufLen := rfl
@[simp] theorem strobeWrite_port (i : BitVec 16) (v : Byte) (s : State) : (strobeWrite i v s).port = s.port := rfl
@[simp] theorem strobeWrite_rstIn (i : BitVec 16) (v : Byte) (s : State) : (strobeWrite i v s).rstIn = s.rstIn := rfl
@[simp] theorem strobeWrite_hostWrites (i : BitVec 16) (v : Byte) (s : State) : (strobeWrite i v s).hostWrites = s.hostWrites := rfl
@[simp] theorem strobeWrite_misanswers (i : BitVec 16) (v : Byte) (s : State) : (strobeWrite i v s).misanswers = s.misanswers := rfl
@[simp] theorem strobeWrite_extSda (i : BitVec 16) (v : Byte) (s : State) : (strobeWrite i v s).extSda = s.extSda := rfl
@[simp] theorem strobeWrite_extScl (i : BitVec 16) (v : Byte) (s : State) : (strobeWrite i v s).extScl = s.extScl := rfl
@[simp] theorem strobeWrite_uop (i : BitVec 16) (v : Byte) (s : State) : (strobeWrite i v s).uop = s.uop := rfl
@[simp] theorem strobeWrite_uopByte (i : BitVec 16) (v : Byte) (s : State) : (strobeWrite i v s).uopByte = s.uopByte := rfl
@[simp] theorem strobeWrite_uopPoll (i : BitVec 16) (v : Byte) (s : State) : (strobeWrite i v s).uopPoll = s.uopPoll := rfl
@[simp] theorem strobeWrite_uopResult (i : BitVec 16) (v : Byte) (s : State) : (strobeWrite i v s).uopResult = s.uopResult := rfl
@[simp] theorem strobeWrite_uopData (i : BitVec 16) (v : Byte) (s : State) : (strobeWrite i v s).uopData = s.uopData := rfl
@[simp] theorem strobeWrite_freeCtr (i : BitVec 16) (v : Byte) (s : State) : (strobeWrite i v s).freeCtr = s.freeCtr := rfl

/-! ### driveLow -/

@[simp] theorem driveLow_params (l : Line) (s : State) : (driveLow l s).params = s.params := by cases l <;> rfl
@[simp] theorem driveLow_sdaDrv (l : Line) (s : State) : (driveLow l s).sdaDrv = if l = .sda then true else s.sdaDrv := by cases l <;> rfl
@[simp] theorem driveLow_sclDrv (l : Line) (s : State) : (driveLow l s).sclDrv = if l = .scl then true else s.sclDrv := by cases l <;> rfl
@[simp] theorem driveLow_delayUs (l : Line) (s : State) : (driveLow l s).delayUs = s.delayUs := by cases l <;> rfl
@[simp] theorem driveLow_arbLost (l : Line) (s : State) : (driveLow l s).arbLost = s.arbLost := by cases l <;> rfl
@[simp] theorem driveLow_rspResult (l : Line) (s : State) : (driveLow l s).rspResult = s.rspResult := by cases l <;> rfl
@[simp] theorem driveLow_rspErr (l : Line) (s : State) : (driveLow l s).rspErr = s.rspErr := by cases l <;> rfl
@[simp] theorem driveLow_rspArb (l : Line) (s : State) : (driveLow l s).rspArb = s.rspArb := by cases l <;> rfl
@[simp] theorem driveLow_rspValid (l : Line) (s : State) : (driveLow l s).rspValid = false := by cases l <;> rfl
@[simp] theorem driveLow_tAddr (l : Line) (s : State) : (driveLow l s).tAddr = s.tAddr := by cases l <;> rfl
@[simp] theorem driveLow_tRw (l : Line) (s : State) : (driveLow l s).tRw = s.tRw := by cases l <;> rfl
@[simp] theorem driveLow_tLen (l : Line) (s : State) : (driveLow l s).tLen = s.tLen := by cases l <;> rfl
@[simp] theorem driveLow_byteIdx (l : Line) (s : State) : (driveLow l s).byteIdx = s.byteIdx := by cases l <;> rfl
@[simp] theorem driveLow_txByte (l : Line) (s : State) : (driveLow l s).txByte = s.txByte := by cases l <;> rfl
@[simp] theorem driveLow_bitCnt (l : Line) (s : State) : (driveLow l s).bitCnt = s.bitCnt := by cases l <;> rfl
@[simp] theorem driveLow_curBit (l : Line) (s : State) : (driveLow l s).curBit = s.curBit := by cases l <;> rfl
@[simp] theorem driveLow_rxAcc (l : Line) (s : State) : (driveLow l s).rxAcc = s.rxAcc := by cases l <;> rfl
@[simp] theorem driveLow_ack (l : Line) (s : State) : (driveLow l s).ack = s.ack := by cases l <;> rfl
@[simp] theorem driveLow_waitElapsed (l : Line) (s : State) : (driveLow l s).waitElapsed = s.waitElapsed := by cases l <;> rfl
@[simp] theorem driveLow_delayCnt (l : Line) (s : State) : (driveLow l s).delayCnt = s.delayCnt := by cases l <;> rfl
@[simp] theorem driveLow_cause (l : Line) (s : State) : (driveLow l s).cause = s.cause := by cases l <;> rfl
@[simp] theorem driveLow_tcs (l : Line) (s : State) : (driveLow l s).tcs = s.tcs := by cases l <;> rfl
@[simp] theorem driveLow_phase (l : Line) (s : State) : (driveLow l s).phase = s.phase := by cases l <;> rfl
@[simp] theorem driveLow_active (l : Line) (s : State) : (driveLow l s).active = s.active := by cases l <;> rfl
@[simp] theorem driveLow_bufRd (l : Line) (s : State) : (driveLow l s).bufRd = false := by cases l <;> rfl
@[simp] theorem driveLow_bufWr (l : Line) (s : State) : (driveLow l s).bufWr = false := by cases l <;> rfl
@[simp] theorem driveLow_bufIdx (l : Line) (s : State) : (driveLow l s).bufIdx = s.bufIdx := by cases l <;> rfl
@[simp] theorem driveLow_bufWdata (l : Line) (s : State) : (driveLow l s).bufWdata = s.bufWdata := by cases l <;> rfl
@[simp] theorem driveLow_trace (l : Line) (s : State) : (driveLow l s).trace = s.trace ++ [.dl l] := by cases l <;> rfl
@[simp] theorem driveLow_nowUs (l : Line) (s : State) : (driveLow l s).nowUs = s.nowUs := by cases l <;> rfl
@[simp] theorem driveLow_buf (l : Line) (s : State) : (driveLow l s).buf = s.buf := by cases l <;> rfl
@[simp] theorem driveLow_bufLen (l : Line) (s : State) : (driveLow l s).bufLen = s.bufLen := by cases l <;> rfl
@[simp] theorem driveLow_port (l : Line) (s : State) : (driveLow l s).port = s.port := by cases l <;> rfl
@[simp] theorem driveLow_rstIn (l : Line) (s : State) : (driveLow l s).rstIn = s.rstIn := by cases l <;> rfl
@[simp] theorem driveLow_hostWrites (l : Line) (s : State) : (driveLow l s).hostWrites = s.hostWrites := by cases l <;> rfl
@[simp] theorem driveLow_misanswers (l : Line) (s : State) : (driveLow l s).misanswers = s.misanswers := by cases l <;> rfl
@[simp] theorem driveLow_extSda (l : Line) (s : State) : (driveLow l s).extSda = s.extSda := by cases l <;> rfl
@[simp] theorem driveLow_extScl (l : Line) (s : State) : (driveLow l s).extScl = s.extScl := by cases l <;> rfl
@[simp] theorem driveLow_uop (l : Line) (s : State) : (driveLow l s).uop = s.uop := by cases l <;> rfl
@[simp] theorem driveLow_uopByte (l : Line) (s : State) : (driveLow l s).uopByte = s.uopByte := by cases l <;> rfl
@[simp] theorem driveLow_uopPoll (l : Line) (s : State) : (driveLow l s).uopPoll = s.uopPoll := by cases l <;> rfl
@[simp] theorem driveLow_uopResult (l : Line) (s : State) : (driveLow l s).uopResult = s.uopResult := by cases l <;> rfl
@[simp] theorem driveLow_uopData (l : Line) (s : State) : (driveLow l s).uopData = s.uopData := by cases l <;> rfl
@[simp] theorem driveLow_freeCtr (l : Line) (s : State) : (driveLow l s).freeCtr = s.freeCtr := by cases l <;> rfl

/-! ### release -/

@[simp] theorem release_params (l : Line) (s : State) : (release l s).params = s.params := by cases l <;> rfl
@[simp] theorem release_sdaDrv (l : Line) (s : State) : (release l s).sdaDrv = if l = .sda then false else s.sdaDrv := by cases l <;> rfl
@[simp] theorem release_sclDrv (l : Line) (s : State) : (release l s).sclDrv = if l = .scl then false else s.sclDrv := by cases l <;> rfl
@[simp] theorem release_delayUs (l : Line) (s : State) : (release l s).delayUs = s.delayUs := by cases l <;> rfl
@[simp] theorem release_arbLost (l : Line) (s : State) : (release l s).arbLost = s.arbLost := by cases l <;> rfl
@[simp] theorem release_rspResult (l : Line) (s : State) : (release l s).rspResult = s.rspResult := by cases l <;> rfl
@[simp] theorem release_rspErr (l : Line) (s : State) : (release l s).rspErr = s.rspErr := by cases l <;> rfl
@[simp] theorem release_rspArb (l : Line) (s : State) : (release l s).rspArb = s.rspArb := by cases l <;> rfl
@[simp] theorem release_rspValid (l : Line) (s : State) : (release l s).rspValid = false := by cases l <;> rfl
@[simp] theorem release_tAddr (l : Line) (s : State) : (release l s).tAddr = s.tAddr := by cases l <;> rfl
@[simp] theorem release_tRw (l : Line) (s : State) : (release l s).tRw = s.tRw := by cases l <;> rfl
@[simp] theorem release_tLen (l : Line) (s : State) : (release l s).tLen = s.tLen := by cases l <;> rfl
@[simp] theorem release_byteIdx (l : Line) (s : State) : (release l s).byteIdx = s.byteIdx := by cases l <;> rfl
@[simp] theorem release_txByte (l : Line) (s : State) : (release l s).txByte = s.txByte := by cases l <;> rfl
@[simp] theorem release_bitCnt (l : Line) (s : State) : (release l s).bitCnt = s.bitCnt := by cases l <;> rfl
@[simp] theorem release_curBit (l : Line) (s : State) : (release l s).curBit = s.curBit := by cases l <;> rfl
@[simp] theorem release_rxAcc (l : Line) (s : State) : (release l s).rxAcc = s.rxAcc := by cases l <;> rfl
@[simp] theorem release_ack (l : Line) (s : State) : (release l s).ack = s.ack := by cases l <;> rfl
@[simp] theorem release_waitElapsed (l : Line) (s : State) : (release l s).waitElapsed = s.waitElapsed := by cases l <;> rfl
@[simp] theorem release_delayCnt (l : Line) (s : State) : (release l s).delayCnt = s.delayCnt := by cases l <;> rfl
@[simp] theorem release_cause (l : Line) (s : State) : (release l s).cause = s.cause := by cases l <;> rfl
@[simp] theorem release_tcs (l : Line) (s : State) : (release l s).tcs = s.tcs := by cases l <;> rfl
@[simp] theorem release_phase (l : Line) (s : State) : (release l s).phase = s.phase := by cases l <;> rfl
@[simp] theorem release_active (l : Line) (s : State) : (release l s).active = s.active := by cases l <;> rfl
@[simp] theorem release_bufRd (l : Line) (s : State) : (release l s).bufRd = false := by cases l <;> rfl
@[simp] theorem release_bufWr (l : Line) (s : State) : (release l s).bufWr = false := by cases l <;> rfl
@[simp] theorem release_bufIdx (l : Line) (s : State) : (release l s).bufIdx = s.bufIdx := by cases l <;> rfl
@[simp] theorem release_bufWdata (l : Line) (s : State) : (release l s).bufWdata = s.bufWdata := by cases l <;> rfl
@[simp] theorem release_trace (l : Line) (s : State) : (release l s).trace = s.trace ++ [.rl l] := by cases l <;> rfl
@[simp] theorem release_nowUs (l : Line) (s : State) : (release l s).nowUs = s.nowUs := by cases l <;> rfl
@[simp] theorem release_buf (l : Line) (s : State) : (release l s).buf = s.buf := by cases l <;> rfl
@[simp] theorem release_bufLen (l : Line) (s : State) : (release l s).bufLen = s.bufLen := by cases l <;> rfl
@[simp] theorem release_port (l : Line) (s : State) : (release l s).port = s.port := by cases l <;> rfl
@[simp] theorem release_rstIn (l : Line) (s : State) : (release l s).rstIn = s.rstIn := by cases l <;> rfl
@[simp] theorem release_hostWrites (l : Line) (s : State) : (release l s).hostWrites = s.hostWrites := by cases l <;> rfl
@[simp] theorem release_misanswers (l : Line) (s : State) : (release l s).misanswers = s.misanswers := by cases l <;> rfl
@[simp] theorem release_extSda (l : Line) (s : State) : (release l s).extSda = s.extSda := by cases l <;> rfl
@[simp] theorem release_extScl (l : Line) (s : State) : (release l s).extScl = s.extScl := by cases l <;> rfl
@[simp] theorem release_uop (l : Line) (s : State) : (release l s).uop = s.uop := by cases l <;> rfl
@[simp] theorem release_uopByte (l : Line) (s : State) : (release l s).uopByte = s.uopByte := by cases l <;> rfl
@[simp] theorem release_uopPoll (l : Line) (s : State) : (release l s).uopPoll = s.uopPoll := by cases l <;> rfl
@[simp] theorem release_uopResult (l : Line) (s : State) : (release l s).uopResult = s.uopResult := by cases l <;> rfl
@[simp] theorem release_uopData (l : Line) (s : State) : (release l s).uopData = s.uopData := by cases l <;> rfl
@[simp] theorem release_freeCtr (l : Line) (s : State) : (release l s).freeCtr = s.freeCtr := by cases l <;> rfl

/-! ### delay -/

@[simp] theorem delay_params (n : Nat) (s : State) : (delay n s).params = s.params := rfl
@[simp] theorem delay_sdaDrv (n : Nat) (s : State) : (delay n s).sdaDrv = s.sdaDrv := rfl
@[simp] theorem delay_sclDrv (n : Nat) (s : State) : (delay n s).sclDrv = s.sclDrv := rfl
@[simp] theorem delay_delayUs (n : Nat) (s : State) : (delay n s).delayUs = s.delayUs := rfl
@[simp] theorem delay_arbLost (n : Nat) (s : State) : (delay n s).arbLost = s.arbLost := rfl
@[simp] theorem delay_rspResult (n : Nat) (s : State) : (delay n s).rspResult = s.rspResult := rfl
@[simp] theorem delay_rspErr (n : Nat) (s : State) : (delay n s).rspErr = s.rspErr := rfl
@[simp] theorem delay_rspArb (n : Nat) (s : State) : (delay n s).rspArb = s.rspArb := rfl
@[simp] theorem delay_rspValid (n : Nat) (s : State) : (delay n s).rspValid = false := rfl
@[simp] theorem delay_tAddr (n : Nat) (s : State) : (delay n s).tAddr = s.tAddr := rfl
@[simp] theorem delay_tRw (n : Nat) (s : State) : (delay n s).tRw = s.tRw := rfl
@[simp] theorem delay_tLen (n : Nat) (s : State) : (delay n s).tLen = s.tLen := rfl
@[simp] theorem delay_byteIdx (n : Nat) (s : State) : (delay n s).byteIdx = s.byteIdx := rfl
@[simp] theorem delay_txByte (n : Nat) (s : State) : (delay n s).txByte = s.txByte := rfl
@[simp] theorem delay_bitCnt (n : Nat) (s : State) : (delay n s).bitCnt = s.bitCnt := rfl
@[simp] theorem delay_curBit (n : Nat) (s : State) : (delay n s).curBit = s.curBit := rfl
@[simp] theorem delay_rxAcc (n : Nat) (s : State) : (delay n s).rxAcc = s.rxAcc := rfl
@[simp] theorem delay_ack (n : Nat) (s : State) : (delay n s).ack = s.ack := rfl
@[simp] theorem delay_waitElapsed (n : Nat) (s : State) : (delay n s).waitElapsed = s.waitElapsed := rfl
@[simp] theorem delay_delayCnt (n : Nat) (s : State) : (delay n s).delayCnt = 0#31 := rfl
@[simp] theorem delay_cause (n : Nat) (s : State) : (delay n s).cause = s.cause := rfl
@[simp] theorem delay_tcs (n : Nat) (s : State) : (delay n s).tcs = s.tcs := rfl
@[simp] theorem delay_phase (n : Nat) (s : State) : (delay n s).phase = s.phase := rfl
@[simp] theorem delay_active (n : Nat) (s : State) : (delay n s).active = s.active := rfl
@[simp] theorem delay_bufRd (n : Nat) (s : State) : (delay n s).bufRd = false := rfl
@[simp] theorem delay_bufWr (n : Nat) (s : State) : (delay n s).bufWr = false := rfl
@[simp] theorem delay_bufIdx (n : Nat) (s : State) : (delay n s).bufIdx = s.bufIdx := rfl
@[simp] theorem delay_bufWdata (n : Nat) (s : State) : (delay n s).bufWdata = s.bufWdata := rfl
@[simp] theorem delay_trace (n : Nat) (s : State) : (delay n s).trace = s.trace ++ [.dy n] := rfl
@[simp] theorem delay_nowUs (n : Nat) (s : State) : (delay n s).nowUs = s.nowUs + n := rfl
@[simp] theorem delay_buf (n : Nat) (s : State) : (delay n s).buf = s.buf := rfl
@[simp] theorem delay_bufLen (n : Nat) (s : State) : (delay n s).bufLen = s.bufLen := rfl
@[simp] theorem delay_port (n : Nat) (s : State) : (delay n s).port = s.port := rfl
@[simp] theorem delay_rstIn (n : Nat) (s : State) : (delay n s).rstIn = s.rstIn := rfl
@[simp] theorem delay_hostWrites (n : Nat) (s : State) : (delay n s).hostWrites = s.hostWrites := rfl
@[simp] theorem delay_misanswers (n : Nat) (s : State) : (delay n s).misanswers = s.misanswers := rfl
@[simp] theorem delay_extSda (n : Nat) (s : State) : (delay n s).extSda = s.extSda := rfl
@[simp] theorem delay_extScl (n : Nat) (s : State) : (delay n s).extScl = s.extScl := rfl
@[simp] theorem delay_uop (n : Nat) (s : State) : (delay n s).uop = s.uop := rfl
@[simp] theorem delay_uopByte (n : Nat) (s : State) : (delay n s).uopByte = s.uopByte := rfl
@[simp] theorem delay_uopPoll (n : Nat) (s : State) : (delay n s).uopPoll = s.uopPoll := rfl
@[simp] theorem delay_uopResult (n : Nat) (s : State) : (delay n s).uopResult = s.uopResult := rfl
@[simp] theorem delay_uopData (n : Nat) (s : State) : (delay n s).uopData = s.uopData := rfl
@[simp] theorem delay_freeCtr (n : Nat) (s : State) : (delay n s).freeCtr = s.freeCtr := rfl

/-! ### delayStep -/

@[simp] theorem delayStep_params (s : State) : (delayStep s).params = s.params := rfl
@[simp] theorem delayStep_sdaDrv (s : State) : (delayStep s).sdaDrv = s.sdaDrv := rfl
@[simp] theorem delayStep_sclDrv (s : State) : (delayStep s).sclDrv = s.sclDrv := rfl
@[simp] theorem delayStep_delayUs (s : State) : (delayStep s).delayUs = s.delayUs := rfl
@[simp] theorem delayStep_arbLost (s : State) : (delayStep s).arbLost = s.arbLost := rfl
@[simp] theorem delayStep_rspResult (s : State) : (delayStep s).rspResult = s.rspResult := rfl
@[simp] theorem delayStep_rspErr (s : State) : (delayStep s).rspErr = s.rspErr := rfl
@[simp] theorem delayStep_rspArb (s : State) : (delayStep s).rspArb = s.rspArb := rfl
@[simp] theorem delayStep_rspValid (s : State) : (delayStep s).rspValid = false := rfl
@[simp] theorem delayStep_tAddr (s : State) : (delayStep s).tAddr = s.tAddr := rfl
@[simp] theorem delayStep_tRw (s : State) : (delayStep s).tRw = s.tRw := rfl
@[simp] theorem delayStep_tLen (s : State) : (delayStep s).tLen = s.tLen := rfl
@[simp] theorem delayStep_byteIdx (s : State) : (delayStep s).byteIdx = s.byteIdx := rfl
@[simp] theorem delayStep_txByte (s : State) : (delayStep s).txByte = s.txByte := rfl
@[simp] theorem delayStep_bitCnt (s : State) : (delayStep s).bitCnt = s.bitCnt := rfl
@[simp] theorem delayStep_curBit (s : State) : (delayStep s).curBit = s.curBit := rfl
@[simp] theorem delayStep_rxAcc (s : State) : (delayStep s).rxAcc = s.rxAcc := rfl
@[simp] theorem delayStep_ack (s : State) : (delayStep s).ack = s.ack := rfl
@[simp] theorem delayStep_waitElapsed (s : State) : (delayStep s).waitElapsed = s.waitElapsed := rfl
@[simp] theorem delayStep_delayCnt (s : State) : (delayStep s).delayCnt = 0#31 := rfl
@[simp] theorem delayStep_cause (s : State) : (delayStep s).cause = s.cause := rfl
@[simp] theorem delayStep_tcs (s : State) : (delayStep s).tcs = s.tcs := rfl
@[simp] theorem delayStep_phase (s : State) : (delayStep s).phase = s.phase := rfl
@[simp] theorem delayStep_active (s : State) : (delayStep s).active = s.active := rfl
@[simp] theorem delayStep_bufRd (s : State) : (delayStep s).bufRd = false := rfl
@[simp] theorem delayStep_bufWr (s : State) : (delayStep s).bufWr = false := rfl
@[simp] theorem delayStep_bufIdx (s : State) : (delayStep s).bufIdx = s.bufIdx := rfl
@[simp] theorem delayStep_bufWdata (s : State) : (delayStep s).bufWdata = s.bufWdata := rfl
@[simp] theorem delayStep_trace (s : State) : (delayStep s).trace = s.trace ++ [.dy s.delayUs.toNat] := rfl
@[simp] theorem delayStep_nowUs (s : State) : (delayStep s).nowUs = s.nowUs + s.delayUs.toNat := rfl
@[simp] theorem delayStep_buf (s : State) : (delayStep s).buf = s.buf := rfl
@[simp] theorem delayStep_bufLen (s : State) : (delayStep s).bufLen = s.bufLen := rfl
@[simp] theorem delayStep_port (s : State) : (delayStep s).port = s.port := rfl
@[simp] theorem delayStep_rstIn (s : State) : (delayStep s).rstIn = s.rstIn := rfl
@[simp] theorem delayStep_hostWrites (s : State) : (delayStep s).hostWrites = s.hostWrites := rfl
@[simp] theorem delayStep_misanswers (s : State) : (delayStep s).misanswers = s.misanswers := rfl
@[simp] theorem delayStep_extSda (s : State) : (delayStep s).extSda = s.extSda := rfl
@[simp] theorem delayStep_extScl (s : State) : (delayStep s).extScl = s.extScl := rfl
@[simp] theorem delayStep_uop (s : State) : (delayStep s).uop = s.uop := rfl
@[simp] theorem delayStep_uopByte (s : State) : (delayStep s).uopByte = s.uopByte := rfl
@[simp] theorem delayStep_uopPoll (s : State) : (delayStep s).uopPoll = s.uopPoll := rfl
@[simp] theorem delayStep_uopResult (s : State) : (delayStep s).uopResult = s.uopResult := rfl
@[simp] theorem delayStep_uopData (s : State) : (delayStep s).uopData = s.uopData := rfl
@[simp] theorem delayStep_freeCtr (s : State) : (delayStep s).freeCtr = s.freeCtr := rfl

/-! ### pollStep -/

@[simp] theorem pollStep_params (s : State) : (pollStep s).params = s.params := rfl
@[simp] theorem pollStep_sdaDrv (s : State) : (pollStep s).sdaDrv = s.sdaDrv := rfl
@[simp] theorem pollStep_sclDrv (s : State) : (pollStep s).sclDrv = s.sclDrv := rfl
@[simp] theorem pollStep_delayUs (s : State) : (pollStep s).delayUs = s.delayUs := rfl
@[simp] theorem pollStep_arbLost (s : State) : (pollStep s).arbLost = s.arbLost := rfl
@[simp] theorem pollStep_rspResult (s : State) : (pollStep s).rspResult = s.rspResult := rfl
@[simp] theorem pollStep_rspErr (s : State) : (pollStep s).rspErr = s.rspErr := rfl
@[simp] theorem pollStep_rspArb (s : State) : (pollStep s).rspArb = s.rspArb := rfl
@[simp] theorem pollStep_rspValid (s : State) : (pollStep s).rspValid = false := rfl
@[simp] theorem pollStep_tAddr (s : State) : (pollStep s).tAddr = s.tAddr := rfl
@[simp] theorem pollStep_tRw (s : State) : (pollStep s).tRw = s.tRw := rfl
@[simp] theorem pollStep_tLen (s : State) : (pollStep s).tLen = s.tLen := rfl
@[simp] theorem pollStep_byteIdx (s : State) : (pollStep s).byteIdx = s.byteIdx := rfl
@[simp] theorem pollStep_txByte (s : State) : (pollStep s).txByte = s.txByte := rfl
@[simp] theorem pollStep_bitCnt (s : State) : (pollStep s).bitCnt = s.bitCnt := rfl
@[simp] theorem pollStep_curBit (s : State) : (pollStep s).curBit = s.curBit := rfl
@[simp] theorem pollStep_rxAcc (s : State) : (pollStep s).rxAcc = s.rxAcc := rfl
@[simp] theorem pollStep_ack (s : State) : (pollStep s).ack = s.ack := rfl
@[simp] theorem pollStep_waitElapsed (s : State) : (pollStep s).waitElapsed = s.waitElapsed + 1 := rfl
@[simp] theorem pollStep_delayCnt (s : State) : (pollStep s).delayCnt = 0#31 := rfl
@[simp] theorem pollStep_cause (s : State) : (pollStep s).cause = s.cause := rfl
@[simp] theorem pollStep_tcs (s : State) : (pollStep s).tcs = s.tcs := rfl
@[simp] theorem pollStep_phase (s : State) : (pollStep s).phase = s.phase := rfl
@[simp] theorem pollStep_active (s : State) : (pollStep s).active = s.active := rfl
@[simp] theorem pollStep_bufRd (s : State) : (pollStep s).bufRd = false := rfl
@[simp] theorem pollStep_bufWr (s : State) : (pollStep s).bufWr = false := rfl
@[simp] theorem pollStep_bufIdx (s : State) : (pollStep s).bufIdx = s.bufIdx := rfl
@[simp] theorem pollStep_bufWdata (s : State) : (pollStep s).bufWdata = s.bufWdata := rfl
@[simp] theorem pollStep_trace (s : State) : (pollStep s).trace = s.trace ++ [.dy 1] := rfl
@[simp] theorem pollStep_nowUs (s : State) : (pollStep s).nowUs = s.nowUs + 1 := rfl
@[simp] theorem pollStep_buf (s : State) : (pollStep s).buf = s.buf := rfl
@[simp] theorem pollStep_bufLen (s : State) : (pollStep s).bufLen = s.bufLen := rfl
@[simp] theorem pollStep_port (s : State) : (pollStep s).port = s.port := rfl
@[simp] theorem pollStep_rstIn (s : State) : (pollStep s).rstIn = s.rstIn := rfl
@[simp] theorem pollStep_hostWrites (s : State) : (pollStep s).hostWrites = s.hostWrites := rfl
@[simp] theorem pollStep_misanswers (s : State) : (pollStep s).misanswers = s.misanswers := rfl
@[simp] theorem pollStep_extSda (s : State) : (pollStep s).extSda = s.extSda := rfl
@[simp] theorem pollStep_extScl (s : State) : (pollStep s).extScl = s.extScl := rfl
@[simp] theorem pollStep_uop (s : State) : (pollStep s).uop = s.uop := rfl
@[simp] theorem pollStep_uopByte (s : State) : (pollStep s).uopByte = s.uopByte := rfl
@[simp] theorem pollStep_uopPoll (s : State) : (pollStep s).uopPoll = s.uopPoll := rfl
@[simp] theorem pollStep_uopResult (s : State) : (pollStep s).uopResult = s.uopResult := rfl
@[simp] theorem pollStep_uopData (s : State) : (pollStep s).uopData = s.uopData := rfl
@[simp] theorem pollStep_freeCtr (s : State) : (pollStep s).freeCtr = s.freeCtr := rfl

/-! ### raise -/

@[simp] theorem raise_params (c : Cause) (s : State) : (raise c s).params = s.params := rfl
@[simp] theorem raise_sdaDrv (c : Cause) (s : State) : (raise c s).sdaDrv = s.sdaDrv := rfl
@[simp] theorem raise_sclDrv (c : Cause) (s : State) : (raise c s).sclDrv = s.sclDrv := rfl
@[simp] theorem raise_delayUs (c : Cause) (s : State) : (raise c s).delayUs = s.delayUs := rfl
@[simp] theorem raise_arbLost (c : Cause) (s : State) : (raise c s).arbLost = s.arbLost := rfl
@[simp] theorem raise_rspResult (c : Cause) (s : State) : (raise c s).rspResult = s.rspResult := rfl
@[simp] theorem raise_rspErr (c : Cause) (s : State) : (raise c s).rspErr = s.rspErr := rfl
@[simp] theorem raise_rspArb (c : Cause) (s : State) : (raise c s).rspArb = s.rspArb := rfl
@[simp] theorem raise_rspValid (c : Cause) (s : State) : (raise c s).rspValid = s.rspValid := rfl
@[simp] theorem raise_tAddr (c : Cause) (s : State) : (raise c s).tAddr = s.tAddr := rfl
@[simp] theorem raise_tRw (c : Cause) (s : State) : (raise c s).tRw = s.tRw := rfl
@[simp] theorem raise_tLen (c : Cause) (s : State) : (raise c s).tLen = s.tLen := rfl
@[simp] theorem raise_byteIdx (c : Cause) (s : State) : (raise c s).byteIdx = s.byteIdx := rfl
@[simp] theorem raise_txByte (c : Cause) (s : State) : (raise c s).txByte = s.txByte := rfl
@[simp] theorem raise_bitCnt (c : Cause) (s : State) : (raise c s).bitCnt = s.bitCnt := rfl
@[simp] theorem raise_curBit (c : Cause) (s : State) : (raise c s).curBit = s.curBit := rfl
@[simp] theorem raise_rxAcc (c : Cause) (s : State) : (raise c s).rxAcc = s.rxAcc := rfl
@[simp] theorem raise_ack (c : Cause) (s : State) : (raise c s).ack = s.ack := rfl
@[simp] theorem raise_waitElapsed (c : Cause) (s : State) : (raise c s).waitElapsed = s.waitElapsed := rfl
@[simp] theorem raise_delayCnt (c : Cause) (s : State) : (raise c s).delayCnt = s.delayCnt := rfl
@[simp] theorem raise_cause (c : Cause) (s : State) : (raise c s).cause = firstCause s.cause c := rfl
@[simp] theorem raise_tcs (c : Cause) (s : State) : (raise c s).tcs = s.tcs := rfl
@[simp] theorem raise_phase (c : Cause) (s : State) : (raise c s).phase = s.phase := rfl
@[simp] theorem raise_active (c : Cause) (s : State) : (raise c s).active = s.active := rfl
@[simp] theorem raise_bufRd (c : Cause) (s : State) : (raise c s).bufRd = s.bufRd := rfl
@[simp] theorem raise_bufWr (c : Cause) (s : State) : (raise c s).bufWr = s.bufWr := rfl
@[simp] theorem raise_bufIdx (c : Cause) (s : State) : (raise c s).bufIdx = s.bufIdx := rfl
@[simp] theorem raise_bufWdata (c : Cause) (s : State) : (raise c s).bufWdata = s.bufWdata := rfl
@[simp] theorem raise_trace (c : Cause) (s : State) : (raise c s).trace = s.trace := rfl
@[simp] theorem raise_nowUs (c : Cause) (s : State) : (raise c s).nowUs = s.nowUs := rfl
@[simp] theorem raise_buf (c : Cause) (s : State) : (raise c s).buf = s.buf := rfl
@[simp] theorem raise_bufLen (c : Cause) (s : State) : (raise c s).bufLen = s.bufLen := rfl
@[simp] theorem raise_port (c : Cause) (s : State) : (raise c s).port = s.port := rfl
@[simp] theorem raise_rstIn (c : Cause) (s : State) : (raise c s).rstIn = s.rstIn := rfl
@[simp] theorem raise_hostWrites (c : Cause) (s : State) : (raise c s).hostWrites = s.hostWrites := rfl
@[simp] theorem raise_misanswers (c : Cause) (s : State) : (raise c s).misanswers = s.misanswers := rfl
@[simp] theorem raise_extSda (c : Cause) (s : State) : (raise c s).extSda = s.extSda := rfl
@[simp] theorem raise_extScl (c : Cause) (s : State) : (raise c s).extScl = s.extScl := rfl
@[simp] theorem raise_uop (c : Cause) (s : State) : (raise c s).uop = s.uop := rfl
@[simp] theorem raise_uopByte (c : Cause) (s : State) : (raise c s).uopByte = s.uopByte := rfl
@[simp] theorem raise_uopPoll (c : Cause) (s : State) : (raise c s).uopPoll = s.uopPoll := rfl
@[simp] theorem raise_uopResult (c : Cause) (s : State) : (raise c s).uopResult = s.uopResult := rfl
@[simp] theorem raise_uopData (c : Cause) (s : State) : (raise c s).uopData = s.uopData := rfl
@[simp] theorem raise_freeCtr (c : Cause) (s : State) : (raise c s).freeCtr = s.freeCtr := rfl

/-! ### accept -/

@[simp] theorem accept_params (s : State) : (accept s).params = s.params := rfl
@[simp] theorem accept_sdaDrv (s : State) : (accept s).sdaDrv = s.sdaDrv := rfl
@[simp] theorem accept_sclDrv (s : State) : (accept s).sclDrv = s.sclDrv := rfl
@[simp] theorem accept_delayUs (s : State) : (accept s).delayUs = s.delayUs := rfl
@[simp] theorem accept_arbLost (s : State) : (accept s).arbLost = s.arbLost := rfl
@[simp] theorem accept_rspResult (s : State) : (accept s).rspResult = s.rspResult := rfl
@[simp] theorem accept_rspErr (s : State) : (accept s).rspErr = s.rspErr := rfl
@[simp] theorem accept_rspArb (s : State) : (accept s).rspArb = s.rspArb := rfl
@[simp] theorem accept_rspValid (s : State) : (accept s).rspValid = false := rfl
@[simp] theorem accept_tAddr (s : State) : (accept s).tAddr = s.tAddr := rfl
@[simp] theorem accept_tRw (s : State) : (accept s).tRw = s.tRw := rfl
@[simp] theorem accept_tLen (s : State) : (accept s).tLen = s.tLen := rfl
@[simp] theorem accept_byteIdx (s : State) : (accept s).byteIdx = s.byteIdx := rfl
@[simp] theorem accept_txByte (s : State) : (accept s).txByte = s.txByte := rfl
@[simp] theorem accept_bitCnt (s : State) : (accept s).bitCnt = s.bitCnt := rfl
@[simp] theorem accept_curBit (s : State) : (accept s).curBit = s.curBit := rfl
@[simp] theorem accept_rxAcc (s : State) : (accept s).rxAcc = s.rxAcc := rfl
@[simp] theorem accept_ack (s : State) : (accept s).ack = s.ack := rfl
@[simp] theorem accept_waitElapsed (s : State) : (accept s).waitElapsed = s.waitElapsed := rfl
@[simp] theorem accept_delayCnt (s : State) : (accept s).delayCnt = s.delayCnt := rfl
@[simp] theorem accept_cause (s : State) : (accept s).cause = codeOk := rfl
@[simp] theorem accept_tcs (s : State) : (accept s).tcs = s.tcs := rfl
@[simp] theorem accept_phase (s : State) : (accept s).phase = s.phase := rfl
@[simp] theorem accept_active (s : State) : (accept s).active = true := rfl
@[simp] theorem accept_bufRd (s : State) : (accept s).bufRd = s.bufRd := rfl
@[simp] theorem accept_bufWr (s : State) : (accept s).bufWr = s.bufWr := rfl
@[simp] theorem accept_bufIdx (s : State) : (accept s).bufIdx = s.bufIdx := rfl
@[simp] theorem accept_bufWdata (s : State) : (accept s).bufWdata = s.bufWdata := rfl
@[simp] theorem accept_trace (s : State) : (accept s).trace = s.trace := rfl
@[simp] theorem accept_nowUs (s : State) : (accept s).nowUs = s.nowUs := rfl
@[simp] theorem accept_buf (s : State) : (accept s).buf = s.buf := rfl
@[simp] theorem accept_bufLen (s : State) : (accept s).bufLen = s.bufLen := rfl
@[simp] theorem accept_port (s : State) : (accept s).port = s.port := rfl
@[simp] theorem accept_rstIn (s : State) : (accept s).rstIn = s.rstIn := rfl
@[simp] theorem accept_hostWrites (s : State) : (accept s).hostWrites = s.hostWrites := rfl
@[simp] theorem accept_misanswers (s : State) : (accept s).misanswers = s.misanswers := rfl
@[simp] theorem accept_extSda (s : State) : (accept s).extSda = s.extSda := rfl
@[simp] theorem accept_extScl (s : State) : (accept s).extScl = s.extScl := rfl
@[simp] theorem accept_uop (s : State) : (accept s).uop = s.uop := rfl
@[simp] theorem accept_uopByte (s : State) : (accept s).uopByte = s.uopByte := rfl
@[simp] theorem accept_uopPoll (s : State) : (accept s).uopPoll = s.uopPoll := rfl
@[simp] theorem accept_uopResult (s : State) : (accept s).uopResult = s.uopResult := rfl
@[simp] theorem accept_uopData (s : State) : (accept s).uopData = s.uopData := rfl
@[simp] theorem accept_freeCtr (s : State) : (accept s).freeCtr = s.freeCtr := rfl

/-! ### respond -/

@[simp] theorem respond_params (r : Bool) (s : State) : (respond r s).params = s.params := rfl
@[simp] theorem respond_sdaDrv (r : Bool) (s : State) : (respond r s).sdaDrv = s.sdaDrv := rfl
@[simp] theorem respond_sclDrv (r : Bool) (s : State) : (respond r s).sclDrv = s.sclDrv := rfl
@[simp] theorem respond_delayUs (r : Bool) (s : State) : (respond r s).delayUs = s.delayUs := rfl
@[simp] theorem respond_arbLost (r : Bool) (s : State) : (respond r s).arbLost = s.arbLost := rfl
@[simp] theorem respond_rspResult (r : Bool) (s : State) : (respond r s).rspResult = r := rfl
@[simp] theorem respond_rspErr (r : Bool) (s : State) : (respond r s).rspErr = s.cause := rfl
@[simp] theorem respond_rspArb (r : Bool) (s : State) : (respond r s).rspArb = s.arbLost := rfl
@[simp] theorem respond_rspValid (r : Bool) (s : State) : (respond r s).rspValid = true := rfl
@[simp] theorem respond_tAddr (r : Bool) (s : State) : (respond r s).tAddr = s.tAddr := rfl
@[simp] theorem respond_tRw (r : Bool) (s : State) : (respond r s).tRw = s.tRw := rfl
@[simp] theorem respond_tLen (r : Bool) (s : State) : (respond r s).tLen = s.tLen := rfl
@[simp] theorem respond_byteIdx (r : Bool) (s : State) : (respond r s).byteIdx = s.byteIdx := rfl
@[simp] theorem respond_txByte (r : Bool) (s : State) : (respond r s).txByte = s.txByte := rfl
@[simp] theorem respond_bitCnt (r : Bool) (s : State) : (respond r s).bitCnt = s.bitCnt := rfl
@[simp] theorem respond_curBit (r : Bool) (s : State) : (respond r s).curBit = s.curBit := rfl
@[simp] theorem respond_rxAcc (r : Bool) (s : State) : (respond r s).rxAcc = s.rxAcc := rfl
@[simp] theorem respond_ack (r : Bool) (s : State) : (respond r s).ack = s.ack := rfl
@[simp] theorem respond_waitElapsed (r : Bool) (s : State) : (respond r s).waitElapsed = s.waitElapsed := rfl
@[simp] theorem respond_delayCnt (r : Bool) (s : State) : (respond r s).delayCnt = s.delayCnt := rfl
@[simp] theorem respond_cause (r : Bool) (s : State) : (respond r s).cause = s.cause := rfl
@[simp] theorem respond_tcs (r : Bool) (s : State) : (respond r s).tcs = s.tcs := rfl
@[simp] theorem respond_phase (r : Bool) (s : State) : (respond r s).phase = s.phase := rfl
@[simp] theorem respond_active (r : Bool) (s : State) : (respond r s).active = false := rfl
@[simp] theorem respond_bufRd (r : Bool) (s : State) : (respond r s).bufRd = false := rfl
@[simp] theorem respond_bufWr (r : Bool) (s : State) : (respond r s).bufWr = false := rfl
@[simp] theorem respond_bufIdx (r : Bool) (s : State) : (respond r s).bufIdx = s.bufIdx := rfl
@[simp] theorem respond_bufWdata (r : Bool) (s : State) : (respond r s).bufWdata = s.bufWdata := rfl
@[simp] theorem respond_trace (r : Bool) (s : State) : (respond r s).trace = s.trace ++ [.rsp r s.cause s.arbLost] := rfl
@[simp] theorem respond_nowUs (r : Bool) (s : State) : (respond r s).nowUs = s.nowUs := rfl
@[simp] theorem respond_buf (r : Bool) (s : State) : (respond r s).buf = s.buf := rfl
@[simp] theorem respond_bufLen (r : Bool) (s : State) : (respond r s).bufLen = s.bufLen := rfl
@[simp] theorem respond_port (r : Bool) (s : State) : (respond r s).port = s.port := rfl
@[simp] theorem respond_rstIn (r : Bool) (s : State) : (respond r s).rstIn = s.rstIn := rfl
@[simp] theorem respond_hostWrites (r : Bool) (s : State) : (respond r s).hostWrites = s.hostWrites := rfl
@[simp] theorem respond_misanswers (r : Bool) (s : State) : (respond r s).misanswers = s.misanswers := rfl
@[simp] theorem respond_extSda (r : Bool) (s : State) : (respond r s).extSda = s.extSda := rfl
@[simp] theorem respond_extScl (r : Bool) (s : State) : (respond r s).extScl = s.extScl := rfl
@[simp] theorem respond_uop (r : Bool) (s : State) : (respond r s).uop = s.uop := rfl
@[simp] theorem respond_uopByte (r : Bool) (s : State) : (respond r s).uopByte = s.uopByte := rfl
@[simp] theorem respond_uopPoll (r : Bool) (s : State) : (respond r s).uopPoll = s.uopPoll := rfl
@[simp] theorem respond_uopResult (r : Bool) (s : State) : (respond r s).uopResult = s.uopResult := rfl
@[simp] theorem respond_uopData (r : Bool) (s : State) : (respond r s).uopData = s.uopData := rfl
@[simp] theorem respond_freeCtr (r : Bool) (s : State) : (respond r s).freeCtr = s.freeCtr := rfl

/-! ### landHostWrites -/

@[simp] theorem landHostWrites_params (s : State) : (landHostWrites s).params = s.params := rfl
@[simp] theorem landHostWrites_sdaDrv (s : State) : (landHostWrites s).sdaDrv = s.sdaDrv := rfl
@[simp] theorem landHostWrites_sclDrv (s : State) : (landHostWrites s).sclDrv = s.sclDrv := rfl
@[simp] theorem landHostWrites_delayUs (s : State) : (landHostWrites s).delayUs = s.delayUs := rfl
@[simp] theorem landHostWrites_arbLost (s : State) : (landHostWrites s).arbLost = s.arbLost := rfl
@[simp] theorem landHostWrites_rspResult (s : State) : (landHostWrites s).rspResult = s.rspResult := rfl
@[simp] theorem landHostWrites_rspErr (s : State) : (landHostWrites s).rspErr = s.rspErr := rfl
@[simp] theorem landHostWrites_rspArb (s : State) : (landHostWrites s).rspArb = s.rspArb := rfl
@[simp] theorem landHostWrites_rspValid (s : State) : (landHostWrites s).rspValid = s.rspValid := rfl
@[simp] theorem landHostWrites_tAddr (s : State) : (landHostWrites s).tAddr = s.tAddr := rfl
@[simp] theorem landHostWrites_tRw (s : State) : (landHostWrites s).tRw = s.tRw := rfl
@[simp] theorem landHostWrites_tLen (s : State) : (landHostWrites s).tLen = s.tLen := rfl
@[simp] theorem landHostWrites_byteIdx (s : State) : (landHostWrites s).byteIdx = s.byteIdx := rfl
@[simp] theorem landHostWrites_txByte (s : State) : (landHostWrites s).txByte = s.txByte := rfl
@[simp] theorem landHostWrites_bitCnt (s : State) : (landHostWrites s).bitCnt = s.bitCnt := rfl
@[simp] theorem landHostWrites_curBit (s : State) : (landHostWrites s).curBit = s.curBit := rfl
@[simp] theorem landHostWrites_rxAcc (s : State) : (landHostWrites s).rxAcc = s.rxAcc := rfl
@[simp] theorem landHostWrites_ack (s : State) : (landHostWrites s).ack = s.ack := rfl
@[simp] theorem landHostWrites_waitElapsed (s : State) : (landHostWrites s).waitElapsed = s.waitElapsed := rfl
@[simp] theorem landHostWrites_delayCnt (s : State) : (landHostWrites s).delayCnt = s.delayCnt := rfl
@[simp] theorem landHostWrites_cause (s : State) : (landHostWrites s).cause = s.cause := rfl
@[simp] theorem landHostWrites_tcs (s : State) : (landHostWrites s).tcs = s.tcs := rfl
@[simp] theorem landHostWrites_phase (s : State) : (landHostWrites s).phase = s.phase := rfl
@[simp] theorem landHostWrites_active (s : State) : (landHostWrites s).active = s.active := rfl
@[simp] theorem landHostWrites_bufRd (s : State) : (landHostWrites s).bufRd = s.bufRd := rfl
@[simp] theorem landHostWrites_bufWr (s : State) : (landHostWrites s).bufWr = s.bufWr := rfl
@[simp] theorem landHostWrites_bufIdx (s : State) : (landHostWrites s).bufIdx = s.bufIdx := rfl
@[simp] theorem landHostWrites_bufWdata (s : State) : (landHostWrites s).bufWdata = s.bufWdata := rfl
@[simp] theorem landHostWrites_trace (s : State) : (landHostWrites s).trace = s.trace := rfl
@[simp] theorem landHostWrites_nowUs (s : State) : (landHostWrites s).nowUs = s.nowUs := rfl
@[simp] theorem landHostWrites_buf (s : State) : (landHostWrites s).buf = s.hostWrites.foldl (fun m c => Memory.write m c.1.toNat c.2) s.buf := rfl
@[simp] theorem landHostWrites_bufLen (s : State) : (landHostWrites s).bufLen = s.bufLen := rfl
@[simp] theorem landHostWrites_port (s : State) : (landHostWrites s).port = s.port := rfl
@[simp] theorem landHostWrites_rstIn (s : State) : (landHostWrites s).rstIn = s.rstIn := rfl
@[simp] theorem landHostWrites_hostWrites (s : State) : (landHostWrites s).hostWrites = [] := rfl
@[simp] theorem landHostWrites_misanswers (s : State) : (landHostWrites s).misanswers = [] := rfl
@[simp] theorem landHostWrites_extSda (s : State) : (landHostWrites s).extSda = s.extSda := rfl
@[simp] theorem landHostWrites_extScl (s : State) : (landHostWrites s).extScl = s.extScl := rfl
@[simp] theorem landHostWrites_uop (s : State) : (landHostWrites s).uop = s.uop := rfl
@[simp] theorem landHostWrites_uopByte (s : State) : (landHostWrites s).uopByte = s.uopByte := rfl
@[simp] theorem landHostWrites_uopPoll (s : State) : (landHostWrites s).uopPoll = s.uopPoll := rfl
@[simp] theorem landHostWrites_uopResult (s : State) : (landHostWrites s).uopResult = s.uopResult := rfl
@[simp] theorem landHostWrites_uopData (s : State) : (landHostWrites s).uopData = s.uopData := rfl
@[simp] theorem landHostWrites_freeCtr (s : State) : (landHostWrites s).freeCtr = s.freeCtr := rfl

end Sys2Proof.Machine
end

