-- ==== Sys2Proof/Laws/Trace.lean ====
section
/-! SUPPORT. The readings of a trace distribute over a trace cut in two. -/

namespace Sys2Proof.Machine

@[simp] theorem elapsed_nil : elapsed [] = 0 := rfl

@[simp] theorem elapsed_cons (e : Event) (es : List Event) : elapsed (e :: es) = eventTime e + elapsed es := by
  simp [elapsed]

@[simp] theorem elapsed_append (es fs : List Event) : elapsed (es ++ fs) = elapsed es + elapsed fs := by
  simp [elapsed]

@[simp] theorem linesAfter_nil (l : Line) (b : Bool) : linesAfter l b [] = b := rfl

@[simp] theorem linesAfter_cons (l : Line) (b : Bool) (e : Event) (es : List Event) :
    linesAfter l b (e :: es) = linesAfter l (lineAfter l b e) es := rfl

@[simp] theorem linesAfter_append (l : Line) (b : Bool) (es fs : List Event) :
    linesAfter l b (es ++ fs) = linesAfter l (linesAfter l b es) fs := by
  simp [linesAfter]

theorem sentBits_cons (low : Bool) (e : Event) (es : List Event) :
    sentBits low (e :: es) =
      (if e = .rl .scl then [!low] else []) ++ sentBits (lineAfter .sda low e) es := by
  rcases e with (l | l | ⟨l, v⟩ | _ | _ | _ | _ | _ | _ | _) <;> first | (cases l <;> simp [sentBits, lineAfter]) | simp [sentBits, lineAfter]

theorem sentBits_append (low : Bool) (es fs : List Event) :
    sentBits low (es ++ fs) = sentBits low es ++ sentBits (linesAfter .sda low es) fs := by
  induction es generalizing low with
  | nil => simp [sentBits]
  | cons e es ih => simp [sentBits_cons, ih]

@[simp] theorem sdaSamples_append (es fs : List Event) : sdaSamples (es ++ fs) = sdaSamples es ++ sdaSamples fs := by
  simp [sdaSamples]

@[simp] theorem bufReads_append (es fs : List Event) : bufReads (es ++ fs) = bufReads es ++ bufReads fs := by
  simp [bufReads]

@[simp] theorem bufWrites_append (es fs : List Event) : bufWrites (es ++ fs) = bufWrites es ++ bufWrites fs := by
  simp [bufWrites]

@[simp] theorem responses_append (es fs : List Event) : responses (es ++ fs) = responses es ++ responses fs := by
  simp [responses]

theorem samplesReleased_append (a b : Bool) (es fs : List Event) :
    samplesReleased a b (es ++ fs) =
      (samplesReleased a b es && samplesReleased (linesAfter .sda a es) (linesAfter .scl b es) fs) := by
  induction es generalizing a b with
  | nil => simp [samplesReleased]
  | cons e es ih => simp [samplesReleased, ih, Bool.and_assoc]

theorem sdaSetOnlyWhileSclLow_append (b : Bool) (es fs : List Event) :
    sdaSetOnlyWhileSclLow b (es ++ fs) =
      (sdaSetOnlyWhileSclLow b es && sdaSetOnlyWhileSclLow (linesAfter .scl b es) fs) := by
  induction es generalizing b with
  | nil => simp [sdaSetOnlyWhileSclLow]
  | cons e es ih => simp [sdaSetOnlyWhileSclLow, ih, Bool.and_assoc]

/-- An event that neither opens nor closes a byte section. -/
def plainEvent (e : Event) : Bool := e != .ta && e != .tr

theorem sectionsFrom_plain (cur : Option (List Event)) (es fs : List Event) (h : es.all plainEvent = true) :
    sectionsFrom cur (es ++ fs) = sectionsFrom (cur.map (· ++ es)) fs := by
  induction es generalizing cur with
  | nil => cases cur <;> simp
  | cons e es ih =>
    simp only [List.all_cons, Bool.and_eq_true] at h
    have step : sectionsFrom cur (e :: (es ++ fs)) = sectionsFrom (cur.map (· ++ [e])) (es ++ fs) := by
      have hp := h.1
      cases e <;> first | rfl | simp [plainEvent] at hp
    rw [List.cons_append, step, ih _ h.2]
    cases cur <;> simp

/-- One whole byte section stands alone. -/
theorem byteSections_section (es fs : List Event) (h : es.all plainEvent = true) :
    byteSections (.ta :: es ++ .tr :: fs) = es :: byteSections fs := by
  have := sectionsFrom_plain (some []) es (.tr :: fs) h
  simpa [byteSections, sectionsFrom] using this

/-- Events outside the byte sections add none. -/
theorem byteSections_plain (es fs : List Event) (h : es.all plainEvent = true) :
    byteSections (es ++ fs) = byteSections fs := by
  simpa [byteSections] using sectionsFrom_plain none es fs h

/-- Events that neither acquire nor release the timing-critical section keep it as it is. -/
theorem tcsPairs_plain (held : Bool) (es fs : List Event) (h : es.all plainEvent = true) :
    tcsPairs held (es ++ fs) = tcsPairs held fs := by
  induction es with
  | nil => rfl
  | cons e es ih =>
    simp only [List.all_cons, Bool.and_eq_true] at h
    have step : tcsPairs held (e :: (es ++ fs)) = tcsPairs held (es ++ fs) := by
      have hp := h.1
      cases e <;> first | rfl | simp [plainEvent] at hp
    rw [List.cons_append, step, ih h.2]

/-- One whole byte section is a pair. -/
theorem tcsPairs_section (es fs : List Event) (h : es.all plainEvent = true) :
    tcsPairs false (.ta :: es ++ .tr :: fs) = tcsPairs false fs := by
  simpa [tcsPairs] using tcsPairs_plain true es (.tr :: fs) h

theorem newEvents_eq {s t : State} {es : List Event} (h : t.trace = s.trace ++ es) : newEvents s t = es := by
  simp [newEvents, h]

end Sys2Proof.Machine
end

