-- ==== Sys2Proof/Laws/Bus.lean ====
section
/-! SUPPORT. What every operation of the sub-blocks does (`BusRun`): the events it appends, the lines and the time that
follow from them, and the registers it may write. One lemma per operation; callers cite it. -/

namespace Sys2Proof.Machine

/-- An event of the bus: neither a buffer access nor a response. -/
def busEvent : Event → Bool
  | .br _ _ => false
  | .bw _ _ => false
  | .rsp _ _ _ => false
  | _ => true

/-- `t` comes from `s` by operations of the sub-blocks that append the events `es`. -/
structure BusRun (s t : State) (es : List Event) : Prop where
  trace : t.trace = s.trace ++ es
  time : t.nowUs = s.nowUs + elapsed es
  sda : t.sdaDrv = linesAfter .sda s.sdaDrv es
  scl : t.sclDrv = linesAfter .scl s.sclDrv es
  delayCnt : s.delayCnt = 0#31 → t.delayCnt = 0#31
  bus : es.all busEvent = true
  strobes : t.rspValid = (s.rspValid && es.isEmpty) ∧ t.bufRd = (s.bufRd && es.isEmpty) ∧
    t.bufWr = (s.bufWr && es.isEmpty)
  frame : t = { s with
    sdaDrv := t.sdaDrv, sclDrv := t.sclDrv, arbLost := t.arbLost, rspValid := t.rspValid, txByte := t.txByte,
    bitCnt := t.bitCnt, curBit := t.curBit, rxAcc := t.rxAcc, ack := t.ack, waitElapsed := t.waitElapsed,
    delayCnt := t.delayCnt, cause := t.cause, tcs := t.tcs, bufRd := t.bufRd, bufWr := t.bufWr, trace := t.trace,
    nowUs := t.nowUs, extSda := t.extSda, extScl := t.extScl, freeCtr := t.freeCtr }

theorem BusRun.refl (s : State) : BusRun s s [] := ⟨by simp, by simp, rfl, rfl, id, rfl, by simp, rfl⟩

theorem BusRun.trans {s t u : State} {es fs : List Event} (h : BusRun s t es) (k : BusRun t u fs) :
    BusRun s u (es ++ fs) where
  trace := by rw [k.trace, h.trace, List.append_assoc]
  time := by rw [k.time, h.time, elapsed_append, Nat.add_assoc]
  sda := by rw [k.sda, h.sda, linesAfter_append]
  scl := by rw [k.scl, h.scl, linesAfter_append]
  delayCnt := fun d => k.delayCnt (h.delayCnt d)
  bus := by rw [List.all_append, h.bus, k.bus]; rfl
  strobes := by
    obtain ⟨h1, h2, h3⟩ := h.strobes
    obtain ⟨k1, k2, k3⟩ := k.strobes
    rw [k1, k2, k3, h1, h2, h3]
    cases es <;> cases fs <;> simp
  frame := by
    have hk := k.frame
    rw [h.frame] at hk
    exact hk

/-- The pulse outputs are over after the first atomic step of a run (10_state.md R20, R21). -/
theorem BusRun.off {s t : State} {es : List Event} (h : BusRun s t es) (hn : es ≠ []) :
    t.rspValid = false ∧ t.bufRd = false ∧ t.bufWr = false := by
  obtain ⟨h1, h2, h3⟩ := h.strobes
  cases es with
  | nil => exact absurd rfl hn
  | cons e es => exact ⟨h1.trans (Bool.and_false _), h2.trans (Bool.and_false _), h3.trans (Bool.and_false _)⟩

/-- Register writes between two atomic steps append no event. -/
theorem BusRun.regs {s t : State} (h : t = { s with
    arbLost := t.arbLost, txByte := t.txByte, bitCnt := t.bitCnt, curBit := t.curBit, rxAcc := t.rxAcc, ack := t.ack,
    waitElapsed := t.waitElapsed, cause := t.cause, tcs := t.tcs }) : BusRun s t [] where
  trace := by rw [h]; simp
  time := by rw [h]; simp
  sda := by rw [h]; rfl
  scl := by rw [h]; rfl
  delayCnt := by rw [h]; exact id
  bus := rfl
  strobes := by rw [h]; simp
  frame := by rw [h]

/-- The environment's draw touches the scripted answers and the free values only. -/
theorem drawExt_frame (l : Line) (s : State) : (drawExt l s).2 = { s with
    extSda := (drawExt l s).2.extSda, extScl := (drawExt l s).2.extScl, freeCtr := (drawExt l s).2.freeCtr } := by
  unfold drawExt
  split
  · cases l <;> rfl
  · rfl

theorem driveLow_run (l : Line) (s : State) : BusRun s (driveLow l s) [.dl l] := by
  cases l <;> exact ⟨rfl, rfl, rfl, rfl, id, rfl, by simp, rfl⟩

theorem release_run (l : Line) (s : State) : BusRun s (release l s) [.rl l] := by
  cases l <;> exact ⟨rfl, rfl, rfl, rfl, id, rfl, by simp, rfl⟩

theorem setLine_run (l : Line) (b : Bool) (s : State) :
    BusRun s (setLine l b s) [if b then .rl l else .dl l] := by
  cases b
  · exact driveLow_run l s
  · exact release_run l s

theorem sample_run (l : Line) (s : State) : BusRun s (sample l s).2 [.sm l (sample l s).1] := by
  have h := drawExt_frame l s
  unfold sample emit
  dsimp only
  rw [h]
  exact ⟨rfl, rfl, rfl, rfl, id, rfl, by simp, rfl⟩

/-- A sample reads the wired-AND of the controller's driver and the environment's draw. -/
theorem sample_level (l : Line) (s : State) : (sample l s).1 = level (s.drv l) (drawExt l s).1 := rfl

theorem sample2_run (s : State) : BusRun s (sample2 s).2 [.sm2 (sample2 s).1.1 (sample2 s).1.2] := by
  have h := drawExt_frame .sda s
  have k := drawExt_frame .scl (drawExt .sda s).2
  unfold sample2 emit
  dsimp only
  rw [k, h]
  exact ⟨rfl, rfl, rfl, rfl, id, rfl, by simp, rfl⟩

theorem delay_run (n : Nat) (s : State) : BusRun s (delay n s) [.dy n] :=
  ⟨rfl, by simp [eventTime], rfl, rfl, fun _ => rfl, rfl, by simp, rfl⟩

theorem delayStep_run (s : State) : BusRun s (delayStep s) [.dy s.delayUs.toNat] := delay_run _ s

theorem raise_run (c : Cause) (s : State) : BusRun s (raise c s) [] := .regs rfl

theorem pollStep_run (s : State) : BusRun s (pollStep s) [.dy 1] := (delay_run 1 s).trans (.regs rfl)

theorem emit_run (e : Event) (s : State) (he : eventTime e = 0) (hb : busEvent e = true)
    (hl : ∀ l b, lineAfter l b e = b) : BusRun s (emit e s) [e] :=
  ⟨rfl, by simp [he], (hl .sda _).symm, (hl .scl _).symm, id, by simp [hb], by simp, rfl⟩

theorem acquireTcs_run (s : State) : BusRun s (acquireTcs s) [.ta] :=
  BusRun.trans (es := []) (.regs rfl : BusRun s (setTcs true s) []) (emit_run .ta _ rfl rfl fun _ _ => rfl)

theorem releaseTcs_run (s : State) : BusRun s (releaseTcs s) [.tr] :=
  BusRun.trans (es := []) (.regs rfl : BusRun s (setTcs false s) []) (emit_run .tr _ rfl rfl fun _ _ => rfl)

/-! ### The bounded waits -/

/-- What a wait leaves alone besides what every bus operation leaves alone: the lines, the flag, the byte engine's
registers and `tcs`. -/
def WaitFrame (s t : State) : Prop := t = { s with
  rspValid := t.rspValid, waitElapsed := t.waitElapsed, delayCnt := t.delayCnt, cause := t.cause, bufRd := t.bufRd,
  bufWr := t.bufWr, trace := t.trace, nowUs := t.nowUs, extSda := t.extSda, extScl := t.extScl, freeCtr := t.freeCtr }

theorem WaitFrame.trans {s t u : State} (h : WaitFrame s t) (k : WaitFrame t u) : WaitFrame s u := by
  have hk := k
  unfold WaitFrame at h hk ⊢
  rw [h] at hk
  exact hk

theorem sample_wait (l : Line) (s : State) : WaitFrame s (sample l s).2 := by
  have h := drawExt_frame l s
  unfold sample emit WaitFrame
  dsimp only
  rw [h]

theorem sample2_wait (s : State) : WaitFrame s (sample2 s).2 := by
  have h := drawExt_frame .sda s
  have k := drawExt_frame .scl (drawExt .sda s).2
  unfold sample2 emit WaitFrame
  dsimp only
  rw [k, h]

theorem pollStep_wait (s : State) : WaitFrame s (pollStep s) := rfl

theorem WaitFrame.lines {s t : State} (h : WaitFrame s t) : t.sdaDrv = s.sdaDrv ∧ t.sclDrv = s.sclDrv := by
  rw [h]
  exact ⟨rfl, rfl⟩

/-- What a sample leaves alone besides: the wait counter and the cause. -/
theorem sample_regs (l : Line) (s : State) :
    (sample l s).2.waitElapsed = s.waitElapsed ∧ (sample l s).2.cause = s.cause := by
  have h := drawExt_frame l s
  unfold sample emit
  dsimp only
  rw [h]
  exact ⟨rfl, rfl⟩

theorem sample2_regs (s : State) :
    (sample2 s).2.waitElapsed = s.waitElapsed ∧ (sample2 s).2.cause = s.cause := by
  have h := drawExt_frame .sda s
  have k := drawExt_frame .scl (drawExt .sda s).2
  unfold sample2 emit
  dsimp only
  rw [k, h]
  exact ⟨rfl, rfl⟩

/-- How a bounded wait with timeout `n` ends: after `k` failed samples with their poll steps (`polls`) comes the last
sample (`last`), which succeeds, or fails when the timeout has elapsed. -/
structure WaitEnd (n : Nat) (c : Cause) (s : State) (r : Bool × State) (k : Nat) (polls : List Event) (last : Event) :
    Prop where
  bound : k ≤ n
  run : BusRun s r.2 (polls ++ [last])
  wait : WaitFrame s r.2
  failed : r.1 = false → k = n
  counter : r.2.waitElapsed = s.waitElapsed + k
  cause : r.2.cause = if r.1 then s.cause else firstCause s.cause c

/-- One failed sample more at the front of a wait. -/
theorem WaitEnd.poll {n k : Nat} {c : Cause} {s t : State} {r : Bool × State} {e : Event} {polls : List Event}
    {last : Event} (hr : BusRun s t [e]) (hw : WaitFrame s t) (he : t.waitElapsed = s.waitElapsed)
    (hc : t.cause = s.cause) (h : WaitEnd n c (pollStep t) r k polls last) :
    WaitEnd (n + 1) c s r (k + 1) (e :: .dy 1 :: polls) last where
  bound := by have := h.bound; omega
  run := hr.trans ((pollStep_run t).trans h.run)
  wait := hw.trans ((pollStep_wait t).trans h.wait)
  failed := fun f => by rw [h.failed f]
  counter := by
    have := h.counter
    simp only [pollStep, setWaitElapsed_waitElapsed, Config.pollStepUs] at this
    omega
  cause := by
    rw [h.cause, show (pollStep t).cause = t.cause from rfl, hc]

theorem sclHighLoop_end (n : Nat) (s : State) : ∃ k,
    WaitEnd n .clockStretchTimeout s (sclHighLoop n s) k (sclPolls k) (.sm .scl (sclHighLoop n s).1) := by
  induction n generalizing s with
  | zero =>
    refine ⟨0, ?_⟩
    have hr := sample_run .scl s
    obtain ⟨he, hc⟩ := sample_regs .scl s
    unfold sclHighLoop
    dsimp only
    split
    · rename_i h
      rw [h] at hr
      exact ⟨Nat.le_refl 0, hr, sample_wait .scl s, fun _ => rfl, he, hc⟩
    · rename_i h
      rw [Bool.not_eq_true] at h
      rw [h] at hr
      exact ⟨Nat.le_refl 0, hr.trans (raise_run _ _), (sample_wait .scl s).trans rfl, fun _ => rfl, he,
        by simp [hc]⟩
  | succ n ih =>
    have hr := sample_run .scl s
    obtain ⟨he, hc⟩ := sample_regs .scl s
    unfold sclHighLoop
    dsimp only
    split
    · rename_i h
      rw [h] at hr
      exact ⟨0, Nat.zero_le _, hr, sample_wait .scl s, (fun f => nomatch f), he, hc⟩
    · rename_i h
      rw [Bool.not_eq_true] at h
      rw [h] at hr
      obtain ⟨k, hk⟩ := ih (pollStep (sample .scl s).2)
      exact ⟨k + 1, WaitEnd.poll hr (sample_wait .scl s) he hc hk⟩

theorem busIdleLoop_end (n : Nat) (s : State) : ∃ lows : List (Bool × Bool), ∃ last : Bool × Bool,
    (∀ p ∈ lows, (p.1 && p.2) = false) ∧ (last.1 && last.2) = (busIdleLoop n s).1 ∧
    WaitEnd n .busBusyTimeout s (busIdleLoop n s) lows.length (idlePolls lows) (.sm2 last.1 last.2) := by
  induction n generalizing s with
  | zero =>
    refine ⟨[], (sample2 s).1, by simp, ?_⟩
    have hr := sample2_run s
    obtain ⟨he, hc⟩ := sample2_regs s
    unfold busIdleLoop
    dsimp only
    split
    · rename_i h
      exact ⟨h, Nat.le_refl 0, hr, sample2_wait s, fun _ => rfl, he, hc⟩
    · rename_i h
      rw [Bool.not_eq_true] at h
      exact ⟨h, Nat.le_refl 0, hr.trans (raise_run _ _), (sample2_wait s).trans rfl, fun _ => rfl, he, by simp [hc]⟩
  | succ n ih =>
    have hr := sample2_run s
    obtain ⟨he, hc⟩ := sample2_regs s
    unfold busIdleLoop
    dsimp only
    split
    · rename_i h
      exact ⟨[], (sample2 s).1, by simp, h, Nat.zero_le _, hr, sample2_wait s, (fun f => nomatch f), he, hc⟩
    · rename_i h
      rw [Bool.not_eq_true] at h
      obtain ⟨lows, last, hl, hlast, hk⟩ := ih (pollStep (sample2 s).2)
      refine ⟨(sample2 s).1 :: lows, last, ?_, hlast, WaitEnd.poll hr (sample2_wait s) he hc hk⟩
      intro p hp
      rcases List.mem_cons.1 hp with rfl | hp
      · exact h
      · exact hl p hp

/-- WAIT_SCL_HIGH. -/
theorem waitSclHigh_end (s : State) : ∃ k,
    WaitEnd s.params.sclStretchTimeoutUs .clockStretchTimeout (setWaitElapsed 0 s) (waitSclHigh s) k (sclPolls k)
      (.sm .scl (waitSclHigh s).1) :=
  sclHighLoop_end _ _

theorem waitSclHigh_run (s : State) : ∃ k, k ≤ s.params.sclStretchTimeoutUs ∧
    BusRun s (waitSclHigh s).2 (sclPolls k ++ [.sm .scl (waitSclHigh s).1]) := by
  obtain ⟨k, h⟩ := waitSclHigh_end s
  exact ⟨k, h.bound, BusRun.trans (es := []) (.regs rfl) h.run⟩

/-- WAIT_BUS_IDLE after its two releases. -/
theorem waitBusIdle_end (s : State) : ∃ lows : List (Bool × Bool), ∃ last : Bool × Bool,
    (∀ p ∈ lows, (p.1 && p.2) = false) ∧ (last.1 && last.2) = (waitBusIdle s).1 ∧
    WaitEnd s.params.busIdleTimeoutUs .busBusyTimeout (setWaitElapsed 0 (release .scl (release .sda s)))
      (waitBusIdle s) lows.length (idlePolls lows) (.sm2 last.1 last.2) :=
  busIdleLoop_end _ _

@[simp] theorem sclPolls_lines (l : Line) (b : Bool) (k : Nat) : linesAfter l b (sclPolls k) = b := by
  induction k with
  | zero => rfl
  | succ k ih => simpa [sclPolls, lineAfter] using ih

@[simp] theorem idlePolls_lines (l : Line) (b : Bool) (lows : List (Bool × Bool)) :
    linesAfter l b (idlePolls lows) = b := by
  induction lows with
  | nil => rfl
  | cons p lows ih => simpa [idlePolls, lineAfter] using ih

@[simp] theorem elapsed_sclPolls (k : Nat) : elapsed (sclPolls k) = k := by
  induction k with
  | zero => rfl
  | succ k ih =>
    simp only [sclPolls, elapsed_cons, eventTime, ih]
    omega

@[simp] theorem elapsed_idlePolls (lows : List (Bool × Bool)) : elapsed (idlePolls lows) = lows.length := by
  induction lows with
  | nil => rfl
  | cons p lows ih =>
    simp only [idlePolls, elapsed_cons, eventTime, ih, List.length_cons]
    omega

end Sys2Proof.Machine
end

