-- ==== Sys2Proof/Laws/Memory.lean ====
section
/-! SUPPORT. The basic laws of the host's byte buffer: reading after a write, and the canonical form. -/

namespace Sys2Proof.Machine

theorem Memory.wfFrom_mono {lo lo' : Nat} (h : lo ≤ lo') (m : Memory) (hm : Memory.wfFrom lo' m = true) :
    Memory.wfFrom lo m = true := by
  cases m with
  | nil => rfl
  | cons c m =>
    simp only [Memory.wfFrom, Bool.and_eq_true, decide_eq_true_eq] at hm ⊢
    exact ⟨⟨⟨by omega, hm.1.1.2⟩, hm.1.2⟩, hm.2⟩

/-- Below the first index of a canonical memory nothing is listed. -/
theorem Memory.read_below {lo i : Nat} (h : i < lo) (m : Memory) (hm : Memory.wfFrom lo m = true) :
    Memory.read m i = Config.bufFill := by
  induction m generalizing lo with
  | nil => rfl
  | cons c m ih =>
    obtain ⟨j, w⟩ := c
    simp only [Memory.wfFrom, Bool.and_eq_true, decide_eq_true_eq] at hm
    rw [Memory.read, if_neg (by omega)]
    exact ih (lo := j + 1) (by omega) hm.2

theorem Memory.write_wfFrom {lo i : Nat} (v : Byte) (hlo : lo ≤ i) (hi : i < Config.bufIndices) (m : Memory)
    (hm : Memory.wfFrom lo m = true) : Memory.wfFrom lo (Memory.write m i v) = true := by
  induction m generalizing lo with
  | nil => by_cases hv : v = Config.bufFill <;> simp [Memory.write, hv, Memory.wfFrom, hlo, hi]
  | cons c m ih =>
    obtain ⟨j, w⟩ := c
    have hm' := hm
    simp only [Memory.wfFrom, Bool.and_eq_true, decide_eq_true_eq] at hm
    obtain ⟨⟨⟨h1, h2⟩, h3⟩, h4⟩ := hm
    rw [Memory.write]
    split
    · split
      · exact hm'
      · rename_i hij hv
        simp [Memory.wfFrom, hlo, hi, hv, h2, h3, h4, Nat.succ_le_of_lt hij]
    · split
      · rename_i _ hij
        subst hij
        split
        · exact Memory.wfFrom_mono (by omega) m h4
        · rename_i hv
          simp [Memory.wfFrom, hlo, hi, hv, h4]
      · rename_i h5 h6
        simp only [Memory.wfFrom, h1, h2, h3, decide_true, ne_eq, not_false_eq_true, Bool.true_and]
        exact ih (by omega) h4

/-- A write keeps the canonical form. -/
theorem Memory.write_wf {i : Nat} (v : Byte) (hi : i < Config.bufIndices) (m : Memory) (hm : m.wf = true) :
    (Memory.write m i v).wf = true :=
  Memory.write_wfFrom v (Nat.zero_le i) hi m hm

theorem Memory.read_write_from {lo : Nat} (i j : Nat) (v : Byte) (m : Memory) (hm : Memory.wfFrom lo m = true) :
    Memory.read (Memory.write m i v) j = if j = i then v else Memory.read m j := by
  induction m generalizing lo with
  | nil =>
    by_cases hv : v = Config.bufFill <;> by_cases hj : j = i <;> simp [Memory.write, Memory.read, hv, hj]
  | cons c m ih =>
    obtain ⟨k, w⟩ := c
    simp only [Memory.wfFrom, Bool.and_eq_true, decide_eq_true_eq] at hm
    have below : ∀ x, x ≤ k → Memory.read m x = Config.bufFill := fun x hx =>
      Memory.read_below (lo := k + 1) (by omega) m hm.2
    rw [Memory.write]
    split
    · rename_i hik
      split
      · rename_i hv
        split
        · rename_i hj
          subst hj
          rw [Memory.read, if_neg (by omega), below _ (by omega), hv]
        · rfl
      · rw [Memory.read]
    · split
      · rename_i _ hik
        subst hik
        split
        · rename_i hv
          split
          · rename_i hj
            subst hj
            rw [below _ (Nat.le_refl _), hv]
          · rename_i hj
            rw [Memory.read, if_neg hj]
        · rw [Memory.read]
          split
          · rfl
          · rename_i hj
            rw [Memory.read, if_neg hj]
      · rw [Memory.read, ih hm.2]
        by_cases hj : j = k
        · subst hj
          rw [if_pos rfl, if_neg (by omega), Memory.read, if_pos rfl]
        · rw [if_neg hj, Memory.read, if_neg hj]

/-- A read after a write gives the value written at that index and leaves every other index alone. -/
theorem Memory.read_write (i j : Nat) (v : Byte) (m : Memory) (hm : m.wf = true) :
    Memory.read (Memory.write m i v) j = if j = i then v else Memory.read m j :=
  Memory.read_write_from (lo := 0) i j v m hm

theorem Memory.foldl_write_wf (l : List (BitVec 16 × Byte)) (m : Memory) (hm : m.wf = true) :
    Memory.wf (l.foldl (fun m c => Memory.write m c.1.toNat c.2) m) = true := by
  induction l generalizing m with
  | nil => exact hm
  | cons c l ih =>
    exact ih _ (Memory.write_wf _ (by simpa [Config.bufIndices] using c.1.isLt) m hm)

/-- The operations on the buffer keep the canonical form. -/
theorem landHostWrites_wf (s : State) (h : s.buf.wf = true) : (landHostWrites s).buf.wf = true :=
  Memory.foldl_write_wf _ _ h

theorem storeByte_wf (i : BitVec 16) (v : Byte) (s : State) (h : s.buf.wf = true) :
    (storeByte i v s).buf.wf = true := by
  have hi : i.toNat < Config.bufIndices := by simpa [Config.bufIndices] using i.isLt
  unfold storeByte
  split <;> exact Memory.write_wf _ hi _ h

end Sys2Proof.Machine
end

