-- ==== Sys2Proof/Laws/Buffer.lean ====
section
/-! SUPPORT. What the buffer accesses of a message do (20_memory.md R29, R33; 44_i2c_master.md R91), and the runs of a
data phase (`DataRun`). -/

namespace Sys2Proof.Machine

/-- An event of a message before its response. -/
def messageEvent : Event → Bool
  | .rsp _ _ _ => false
  | _ => true

/-- `t` comes from `s` by bus operations and buffer accesses that append the events `es`. -/
structure DataRun (s t : State) (es : List Event) : Prop where
  trace : t.trace = s.trace ++ es
  time : t.nowUs = s.nowUs + elapsed es
  sda : t.sdaDrv = linesAfter .sda s.sdaDrv es
  scl : t.sclDrv = linesAfter .scl s.sclDrv es
  delayCnt : s.delayCnt = 0#31 → t.delayCnt = 0#31
  noRsp : es.all messageEvent = true
  bufWf : s.buf.wf = true → t.buf.wf = true
  frame : t = { s with
    sdaDrv := t.sdaDrv, sclDrv := t.sclDrv, arbLost := t.arbLost, rspValid := t.rspValid, byteIdx := t.byteIdx,
    txByte := t.txByte, bitCnt := t.bitCnt, curBit := t.curBit, rxAcc := t.rxAcc, ack := t.ack,
    waitElapsed := t.waitElapsed, delayCnt := t.delayCnt, cause := t.cause, tcs := t.tcs, bufRd := t.bufRd,
    bufWr := t.bufWr, bufIdx := t.bufIdx, bufWdata := t.bufWdata, trace := t.trace, nowUs := t.nowUs, buf := t.buf,
    hostWrites := t.hostWrites, extSda := t.extSda, extScl := t.extScl, freeCtr := t.freeCtr }

theorem busEvent_message {es : List Event} (h : es.all busEvent = true) : es.all messageEvent = true := by
  rw [List.all_eq_true] at h ⊢
  intro e he
  have := h e he
  cases e <;> first | rfl | exact absurd this (by simp [busEvent])

theorem BusRun.data {s t : State} {es : List Event} (h : BusRun s t es) : DataRun s t es where
  trace := h.trace
  time := h.time
  sda := h.sda
  scl := h.scl
  delayCnt := h.delayCnt
  noRsp := busEvent_message h.bus
  bufWf := by rw [h.frame]; exact id
  frame := by
    have := h.frame
    rw [this]

theorem DataRun.refl (s : State) : DataRun s s [] := (BusRun.refl s).data

theorem DataRun.trans {s t u : State} {es fs : List Event} (h : DataRun s t es) (k : DataRun t u fs) :
    DataRun s u (es ++ fs) where
  trace := by rw [k.trace, h.trace, List.append_assoc]
  time := by rw [k.time, h.time, elapsed_append, Nat.add_assoc]
  sda := by rw [k.sda, h.sda, linesAfter_append]
  scl := by rw [k.scl, h.scl, linesAfter_append]
  delayCnt := fun d => k.delayCnt (h.delayCnt d)
  noRsp := by rw [List.all_append, h.noRsp, k.noRsp]; rfl
  bufWf := fun w => k.bufWf (h.bufWf w)
  frame := by
    have hk := k.frame
    rw [h.frame] at hk
    exact hk

theorem DataRun.delayUs {s t : State} {es : List Event} (h : DataRun s t es) : t.delayUs = s.delayUs := by rw [h.frame]
theorem DataRun.params {s t : State} {es : List Event} (h : DataRun s t es) : t.params = s.params := by rw [h.frame]
theorem DataRun.bufLen {s t : State} {es : List Event} (h : DataRun s t es) : t.bufLen = s.bufLen := by rw [h.frame]
theorem DataRun.tLen {s t : State} {es : List Event} (h : DataRun s t es) : t.tLen = s.tLen := by rw [h.frame]
theorem DataRun.misanswers {s t : State} {es : List Event} (h : DataRun s t es) : t.misanswers = s.misanswers := by
  rw [h.frame]

theorem BusRun.buffer {s t : State} {es : List Event} (h : BusRun s t es) :
    t.buf = s.buf ∧ t.hostWrites = s.hostWrites ∧ t.misanswers = s.misanswers ∧ t.bufLen = s.bufLen ∧
    t.byteIdx = s.byteIdx := by
  rw [h.frame]
  exact ⟨rfl, rfl, rfl, rfl, rfl⟩

/-! ### The draws of a host race -/

/-- A race is between the block's value and the host's. -/
theorem pickByte_mem (ctr : Nat) (v : Byte) (ws : List Byte) : pickByte ctr v ws = v ∨ pickByte ctr v ws ∈ ws := by
  have h : Config.freeChoice ctr % (ws.length + 1) < (v :: ws).length := by
    simpa using Nat.mod_lt _ (Nat.succ_pos ws.length)
  unfold pickByte
  rw [List.getElem?_eq_getElem h, Option.getD_some]
  exact List.mem_cons.1 (List.getElem_mem h)

/-- The values a buffer read of index `i` can give (R91). -/
def Answers (s : State) (i : BitVec 16) (v : Byte) : Prop :=
  i ∉ s.misanswers → v = s.buf.read i.toNat ∨ v ∈ s.hostBytes i

theorem answerRead_mem (i : BitVec 16) (s : State) : Answers s i (answerRead i s).1 := by
  intro h
  unfold answerRead
  rw [if_neg (by simpa using h)]
  split
  · exact .inl rfl
  · rename_i w ws hw
    rw [hw]
    exact pickByte_mem _ _ _

theorem answerRead_frame (i : BitVec 16) (s : State) :
    (answerRead i s).2 = { s with freeCtr := (answerRead i s).2.freeCtr } := by
  unfold answerRead
  split
  · rfl
  · split <;> rfl

/-- What a buffer read does. -/
structure MemReadSpec (i : BitVec 16) (s : State) (m : Byte × State) : Prop where
  inside : i.toNat < s.bufLen
  answer : Answers s i m.1
  run : DataRun s m.2 [.br i m.1]
  frame : m.2 = { s with
    rspValid := false, bufRd := true, bufWr := false, bufIdx := i, trace := m.2.trace, freeCtr := m.2.freeCtr }

theorem memRead_spec {i : BitVec 16} {s : State} {m : Byte × State} (h : memRead i s = some m) :
    MemReadSpec i s m := by
  unfold memRead at h
  split at h
  · rename_i hi
    have hm : m = ((answerRead i s).1, strobeRead i (emit (.br i (answerRead i s).1) (answerRead i s).2)) := by
      simpa using h.symm
    subst hm
    have hf := answerRead_frame i s
    refine ⟨hi, answerRead_mem i s, ⟨?_, ?_, ?_, ?_, ?_, rfl, ?_, ?_⟩, ?_⟩ <;> rw [hf] <;> first | rfl | exact id
  · exact nomatch h

theorem memRead_none {i : BitVec 16} {s : State} : memRead i s = none ↔ ¬ i.toNat < s.bufLen := by
  unfold memRead
  split <;> simp_all

/-! ### Storing -/

/-- What the block's write of `v` to index `i` leaves in the buffer and of the host's own writes. -/
structure StoreSpec (i : BitVec 16) (v : Byte) (s t : State) : Prop where
  here : s.buf.wf = true → t.buf.read i.toNat = v ∨ t.buf.read i.toNat ∈ s.hostBytes i
  hereHost : t.hostBytes i = []
  there : s.buf.wf = true → ∀ j : BitVec 16, j ≠ i → t.buf.read j.toNat = s.buf.read j.toNat
  thereHost : ∀ j : BitVec 16, j ≠ i → t.hostBytes j = s.hostBytes j
  noHost : s.hostWrites = [] → t.hostWrites = [] ∧ t.buf = s.buf.write i.toNat v

theorem hostBytes_nil {s : State} (h : s.hostWrites = []) (i : BitVec 16) : s.hostBytes i = [] := by
  simp [State.hostBytes, h]

theorem hostBytes_drop (i j : BitVec 16) (s : State) :
    (dropHostBytes i s).hostBytes j = if j = i then [] else s.hostBytes j := by
  unfold State.hostBytes
  rw [dropHostBytes_hostWrites, List.filter_filter]
  split
  · rename_i h
    subst h
    rw [List.map_eq_nil_iff, List.filter_eq_nil_iff]
    intro c _
    by_cases hc : c.1 = j <;> simp [hc]
  · rename_i h
    congr 1
    apply List.filter_congr
    intro c _
    by_cases hc : c.1 = j <;> simp [hc, h]

theorem storeByte_spec (i : BitVec 16) (v : Byte) (s : State) : StoreSpec i v s (storeByte i v s) := by
  have hne : ∀ j : BitVec 16, j ≠ i → j.toNat ≠ i.toNat := fun j h e => h (BitVec.eq_of_toNat_eq e)
  unfold storeByte
  split
  · rename_i h
    exact {
      here := fun w => .inl (by simp [Memory.read_write _ _ _ _ w])
      hereHost := h
      there := fun w j hj => by simp [Memory.read_write _ _ _ _ w, hne j hj]
      thereHost := fun j _ => rfl
      noHost := fun h => ⟨h, rfl⟩ }
  · rename_i w ws h
    exact {
      here := fun wf => by
        simp only [countFree_buf, dropHostBytes_buf, setBuf_buf, Memory.read_write _ _ _ _ wf, if_pos]
        rw [h]
        exact pickByte_mem _ _ _
      hereHost := (hostBytes_drop i i _).trans (if_pos rfl)
      there := fun wf j hj => by simp [Memory.read_write _ _ _ _ wf, hne j hj]
      thereHost := fun j hj => (hostBytes_drop i j _).trans (if_neg hj)
      noHost := fun hn => by rw [hostBytes_nil hn] at h; exact nomatch h }

theorem storeByte_frame (i : BitVec 16) (v : Byte) (s : State) : storeByte i v s = { s with
    buf := (storeByte i v s).buf, hostWrites := (storeByte i v s).hostWrites, freeCtr := (storeByte i v s).freeCtr } := by
  unfold storeByte
  split <;> rfl

/-- What a buffer write does. -/
structure MemWriteSpec (i : BitVec 16) (v : Byte) (s t : State) : Prop where
  inside : i.toNat < s.bufLen
  store : StoreSpec i v s t
  run : DataRun s t [.bw i v]
  frame : t = { s with
    rspValid := false, bufRd := false, bufWr := true, bufIdx := i, bufWdata := v, trace := t.trace, buf := t.buf,
    hostWrites := t.hostWrites, freeCtr := t.freeCtr }

theorem memWrite_spec {i : BitVec 16} {v : Byte} {s t : State} (h : memWrite i v s = some t) :
    MemWriteSpec i v s t := by
  unfold memWrite at h
  split at h
  · rename_i hi
    have ht : t = strobeWrite i v (emit (.bw i v) (storeByte i v s)) := by simpa using h.symm
    have hs := storeByte_spec i v s
    have hwf := storeByte_wf i v s
    have hf := storeByte_frame i v s
    have hb : t.buf = (storeByte i v s).buf := by rw [ht]; rfl
    have hw : t.hostWrites = (storeByte i v s).hostWrites := by rw [ht]; rfl
    have hh : ∀ j, t.hostBytes j = (storeByte i v s).hostBytes j := fun j => by unfold State.hostBytes; rw [hw]
    have hfr : t = { s with
        rspValid := false, bufRd := false, bufWr := true, bufIdx := i, bufWdata := v, trace := s.trace ++ [.bw i v], buf := t.buf,
        hostWrites := t.hostWrites, freeCtr := t.freeCtr } := by
      rw [ht, hf]
      rfl
    have htr : t.trace = s.trace ++ [.bw i v] := by rw [hfr]
    refine ⟨hi, ?_, ?_, ?_⟩
    · exact ⟨by rw [hb]; exact hs.here, (hh i).trans hs.hereHost, by rw [hb]; exact hs.there,
        fun j hj => (hh j).trans (hs.thereHost j hj), by rw [hw, hb]; exact hs.noHost⟩
    · exact {
        trace := htr
        time := by rw [hfr]; rfl
        sda := by rw [hfr]; rfl
        scl := by rw [hfr]; rfl
        delayCnt := by rw [hfr]; exact id
        noRsp := rfl
        bufWf := by rw [hb]; exact hwf
        frame := by rw [hfr] }
    · rw [htr]; exact hfr
  · exact nomatch h

theorem memWrite_none {i : BitVec 16} {v : Byte} {s : State} : memWrite i v s = none ↔ ¬ i.toNat < s.bufLen := by
  unfold memWrite
  split <;> simp_all

end Sys2Proof.Machine
end

