-- ==== Sys2Proof/Laws/Conditions.lean ====
section
/-! SUPPORT. What START and STOP do (42_bus_conditions.md R61, R62). -/

namespace Sys2Proof.Machine

/-- The registers START and STOP leave alone besides what every bus operation leaves alone. -/
def CondFrame (s t : State) : Prop :=
  t.txByte = s.txByte ∧ t.bitCnt = s.bitCnt ∧ t.curBit = s.curBit ∧ t.rxAcc = s.rxAcc ∧ t.ack = s.ack ∧ t.tcs = s.tcs

theorem WaitFrame.cond {s t : State} (h : WaitFrame s t) : CondFrame s t := by
  rw [h]
  exact ⟨rfl, rfl, rfl, rfl, rfl, rfl⟩

theorem WaitFrame.arbLost {s t : State} (h : WaitFrame s t) : t.arbLost = s.arbLost := by rw [h]

theorem WaitFrame.delayUs {s t : State} (h : WaitFrame s t) : t.delayUs = s.delayUs := by rw [h]

theorem BusRun.delayUs {s t : State} {es : List Event} (h : BusRun s t es) : t.delayUs = s.delayUs := by
  rw [h.frame]

theorem BusRun.params {s t : State} {es : List Event} (h : BusRun s t es) : t.params = s.params := by
  rw [h.frame]

/-- The events of START: the idle wait, and the START condition when the bus was seen idle. -/
def startEvents (d : Nat) (lows : List (Bool × Bool)) (last : Bool × Bool) : List Event :=
  [.rl .sda, .rl .scl] ++ (idlePolls lows ++ [.sm2 last.1 last.2]) ++
    (if last.1 && last.2 then [.dl .sda, .dy d, .dl .scl] else [])

/-- How START ends. -/
structure StartEnd (s : State) (r : Bool × State) (lows : List (Bool × Bool)) (last : Bool × Bool) : Prop where
  low : ∀ p ∈ lows, (p.1 && p.2) = false
  result : (last.1 && last.2) = r.1
  bound : lows.length ≤ s.params.busIdleTimeoutUs
  failed : r.1 = false → lows.length = s.params.busIdleTimeoutUs
  run : BusRun s r.2 (startEvents s.delayUs.toNat lows last)
  regs : CondFrame s r.2
  arbLost : r.2.arbLost = false
  counter : r.2.waitElapsed = lows.length
  cause : r.2.cause = if r.1 then s.cause else firstCause s.cause .busBusyTimeout

theorem startCondition_end (s : State) : ∃ lows last, StartEnd s (startCondition s) lows last := by
  obtain ⟨lows, last, hl, hlast, h⟩ := waitBusIdle_end (setArbLost false s)
  refine ⟨lows, last, ?_⟩
  have hrun : BusRun s (waitBusIdle (setArbLost false s)).2
      ([.rl .sda, .rl .scl] ++ (idlePolls lows ++ [.sm2 last.1 last.2])) := by
    have r0 : BusRun s (setArbLost false s) [] := .regs rfl
    have r1 := r0.trans ((release_run .sda _).trans (release_run .scl _))
    have r2 := r1.trans (BusRun.trans (es := []) (.regs rfl) h.run)
    simpa using r2
  have hd : (waitBusIdle (setArbLost false s)).2.delayUs = s.delayUs := hrun.delayUs
  unfold startCondition
  dsimp only
  split
  · rename_i hw
    rw [hw] at hlast
    have r3 := hrun.trans ((driveLow_run .sda _).trans ((delayStep_run _).trans (driveLow_run .scl _)))
    exact {
      low := hl, result := hlast, bound := h.bound, failed := fun f => nomatch f
      run := by
        simpa [startEvents, hlast, driveLow, setDrv_delayUs, hd] using r3
      regs := h.wait.cond
      arbLost := h.wait.arbLost
      counter := by simpa [driveLow, delayStep, delay] using h.counter
      cause := by
        have := h.cause
        rw [hw] at this
        exact this }
  · rename_i hw
    rw [Bool.not_eq_true] at hw
    rw [hw] at hlast
    exact {
      low := hl, result := hlast, bound := h.bound, failed := fun _ => h.failed hw
      run := by simpa [startEvents, hlast] using hrun
      regs := h.wait.cond
      arbLost := h.wait.arbLost
      counter := by simpa using h.counter
      cause := by
        have := h.cause
        rw [hw] at this
        exact this }

/-- The events of STOP: `none` is the release-only branch, `some (k, v)` the driving branch with `k` polls of SCL before
the last sample `v` (42_bus_conditions.md R62). -/
def stopEvents (d : Nat) : Option (Nat × Bool) → List Event
  | none => [.rl .sda, .rl .scl]
  | some (k, v) =>
    [.dl .sda, .rl .scl] ++ (sclPolls k ++ [.sm .scl v]) ++ (if v then [.dy d] else []) ++ [.rl .sda]

/-- How STOP ends. -/
structure StopEnd (s t : State) (b : Option (Nat × Bool)) : Prop where
  branch : b.isNone = s.arbLost
  bound : ∀ k v, b = some (k, v) → k ≤ s.params.sclStretchTimeoutUs ∧ (v = false → k = s.params.sclStretchTimeoutUs)
  run : BusRun s t (stopEvents s.delayUs.toNat b)
  regs : CondFrame s t
  arbLost : t.arbLost = s.arbLost
  cause : t.cause = s.cause
  counter : s.waitElapsed ≤ max s.params.busIdleTimeoutUs s.params.sclStretchTimeoutUs →
    t.waitElapsed ≤ max s.params.busIdleTimeoutUs s.params.sclStretchTimeoutUs

theorem stopCondition_end (s : State) : ∃ b, StopEnd s (stopCondition s) b := by
  unfold stopCondition
  split
  · rename_i ha
    refine ⟨none, ?_⟩
    exact {
      branch := by simp [ha]
      bound := fun _ _ h => nomatch h
      run := (release_run .sda s).trans (release_run .scl _)
      regs := ⟨rfl, rfl, rfl, rfl, rfl, rfl⟩
      arbLost := rfl
      cause := rfl
      counter := id }
  · rename_i ha
    rw [Bool.not_eq_true] at ha
    obtain ⟨k, h⟩ := waitSclHigh_end (release .scl (driveLow .sda s))
    have hrun : BusRun s (waitSclHigh (release .scl (driveLow .sda s))).2
        ([.dl .sda, .rl .scl] ++ (sclPolls k ++ [.sm .scl (waitSclHigh (release .scl (driveLow .sda s))).1])) := by
      have r1 := (driveLow_run .sda s).trans (release_run .scl _)
      simpa using r1.trans (BusRun.trans (es := []) (.regs rfl) h.run)
    have hd : (waitSclHigh (release .scl (driveLow .sda s))).2.delayUs = s.delayUs := hrun.delayUs
    have hk : k ≤ max s.params.busIdleTimeoutUs s.params.sclStretchTimeoutUs :=
      Nat.le_trans h.bound (Nat.le_max_right ..)
    have hcount : (waitSclHigh (release .scl (driveLow .sda s))).2.waitElapsed = k := by
      simpa using h.counter
    unfold stopDriving
    dsimp only
    generalize waitSclHigh (release .scl (driveLow .sda s)) = w at *
    split
    · rename_i hw
      refine ⟨some (k, true), ?_⟩
      have r3 := hrun.trans ((delayStep_run _).trans (release_run .sda _))
      exact {
        branch := by simp [ha]
        bound := by
          rintro k' v' ⟨⟩
          exact ⟨h.bound, fun f => nomatch f⟩
        run := by simpa [stopEvents, hw, hd] using r3
        regs := h.wait.cond
        arbLost := h.wait.arbLost
        cause := by
          have := h.cause
          rw [hw] at this
          simpa using this
        counter := fun _ => Nat.le_trans (Nat.le_of_eq hcount) hk }
    · rename_i hw
      rw [Bool.not_eq_true] at hw
      refine ⟨some (k, false), ?_⟩
      have r2 : BusRun w.2
          (setCause s.cause w.2) [] := .regs rfl
      have r3 := hrun.trans (r2.trans (release_run .sda _))
      exact {
        branch := by simp [ha]
        bound := by
          rintro k' v' ⟨⟩
          exact ⟨h.bound, fun _ => h.failed hw⟩
        run := by simpa [stopEvents, hw] using r3
        regs := h.wait.cond
        arbLost := h.wait.arbLost
        cause := rfl
        counter := fun _ => Nat.le_trans (Nat.le_of_eq hcount) hk }

/-- STOP leaves both lines released on every branch (42_bus_conditions.md R63). -/
theorem stopCondition_released (s : State) : (stopCondition s).released := by
  obtain ⟨b, h⟩ := stopCondition_end s
  unfold State.released
  rw [h.run.sda, h.run.scl]
  cases b with
  | none => exact ⟨rfl, rfl⟩
  | some p =>
    obtain ⟨k, v⟩ := p
    cases v <;> simp [stopEvents, lineAfter]

end Sys2Proof.Machine
end

