-- ==== Sys2Proof/Laws/Bytes.lean ====
section
/-! SUPPORT. What WRITE_BYTE and READ_BYTE do (43_byte_transfer_engine.md R72, R76): their events, and the registers they
leave. -/

namespace Sys2Proof.Machine

/-! ### WRITE_BYTE -/

/-- The events of a data bit cell of WRITE_BYTE up to the last sample of its wait, with `k` failed samples. -/
def writeCellHead (d : Nat) (b : Bool) (k : Nat) : List Event :=
  [.dl .scl, if b then .rl .sda else .dl .sda, .dy d, .rl .scl] ++ sclPolls k

/-- The events of a data bit cell of WRITE_BYTE for bit `b`. -/
def writeCellEvents (d : Nat) (b : Bool) (k : Nat) : CellEnd → List Event
  | .done => writeCellHead d b k ++ [.sm .scl true, .dy d] ++ (if b then [.sm .sda true] else []) ++ [.dl .scl]
  | .timeout => writeCellHead d b k ++ [.sm .scl false]
  | .lost => writeCellHead d b k ++ [.sm .scl true, .dy d, .sm .sda false]

/-- How a data bit cell of WRITE_BYTE ends. -/
structure WriteCellEnd (s : State) (c : CellEnd × State) (k : Nat) : Prop where
  bound : k ≤ s.params.sclStretchTimeoutUs
  timeout : c.1 = .timeout → k = s.params.sclStretchTimeoutUs
  lost : c.1 = .lost → wireBit s.txByte s.bitCnt = true
  run : BusRun s c.2 (writeCellEvents s.delayUs.toNat (wireBit s.txByte s.bitCnt) k c.1)
  txByte : c.2.txByte = s.txByte
  bitCnt : c.2.bitCnt = if c.1 = .done then s.bitCnt + 1 else s.bitCnt
  curBit : c.2.curBit = wireBit s.txByte s.bitCnt
  rxAcc : c.2.rxAcc = s.rxAcc
  ack : c.2.ack = s.ack
  tcs : c.2.tcs = s.tcs
  arbLost : c.2.arbLost = if c.1 = .lost then true else s.arbLost
  cause : c.2.cause = if c.1 = .timeout then firstCause s.cause .clockStretchTimeout else s.cause
  counter : c.2.waitElapsed = k

/-- Steps 1 to 4 of a data bit cell of WRITE_BYTE, with its wait. -/
theorem writeCell_wait (s : State) : ∃ k, k ≤ s.params.sclStretchTimeoutUs ∧
    let b := wireBit s.txByte s.bitCnt
    let w := waitSclHigh (release .scl (delayStep (setLine .sda b (driveLow .scl (setCurBit b s)))))
    (w.1 = false → k = s.params.sclStretchTimeoutUs) ∧
    BusRun s w.2 (writeCellHead s.delayUs.toNat (wireBit s.txByte s.bitCnt) k ++ [.sm .scl w.1]) ∧
    w.2.txByte = s.txByte ∧ w.2.bitCnt = s.bitCnt ∧ w.2.curBit = wireBit s.txByte s.bitCnt ∧ w.2.rxAcc = s.rxAcc ∧
    w.2.ack = s.ack ∧ w.2.tcs = s.tcs ∧ w.2.arbLost = s.arbLost ∧
    w.2.cause = (if w.1 then s.cause else firstCause s.cause .clockStretchTimeout) ∧ w.2.waitElapsed = k := by
  have r0 : BusRun s (setCurBit (wireBit s.txByte s.bitCnt) s) [] := .regs rfl
  generalize hb : wireBit s.txByte s.bitCnt = b at r0 ⊢
  have r1 := r0.trans ((driveLow_run .scl _).trans ((setLine_run .sda b _).trans ((delayStep_run _).trans (release_run .scl _))))
  obtain ⟨k, h⟩ := waitSclHigh_end (release .scl (delayStep (setLine .sda b (driveLow .scl (setCurBit b s)))))
  have r2 := r1.trans (BusRun.trans (es := []) (.regs rfl) h.run)
  have hw := h.wait
  have hk : k ≤ s.params.sclStretchTimeoutUs := by
    have := h.bound
    rwa [r1.params] at this
  refine ⟨k, hk, ?_⟩
  dsimp only
  refine ⟨fun f => ?_, ?_, ?_⟩
  · have := h.failed f
    rwa [r1.params] at this
  · cases b <;> simpa [writeCellHead, setLine, driveLow, release] using r2
  · have hc := h.cause
    have ht := h.counter
    cases b <;> exact ⟨by rw [hw]; rfl, by rw [hw]; rfl, by rw [hw]; rfl, by rw [hw]; rfl, by rw [hw]; rfl, by rw [hw]; rfl,
      by rw [hw]; rfl, hc, by simpa using ht⟩

theorem writeCell_end (s : State) : ∃ k, WriteCellEnd s (writeCell s) k := by
  obtain ⟨k, hk, hf, hr, h1, h2, h3, h4, h5, h6, h7, h8, h9⟩ := writeCell_wait s
  refine ⟨k, ?_⟩
  have hd := hr.delayUs
  unfold writeCell
  dsimp only at *
  generalize hww : waitSclHigh (release .scl (delayStep (setLine .sda (wireBit s.txByte s.bitCnt)
    (driveLow .scl (setCurBit (wireBit s.txByte s.bitCnt) s))))) = w at *
  split
  · rename_i hw
    rw [hw] at hr h8
    have r1 := hr.trans (delayStep_run w.2)
    rw [hd] at r1
    unfold arbitrate
    rw [show (delayStep w.2).curBit = w.2.curBit from rfl, h3]
    split
    · rename_i hb
      have r2 := r1.trans (sample_run .sda (delayStep w.2))
      have hs := sample_wait .sda (delayStep w.2)
      have hq := sample_regs .sda (delayStep w.2)
      rw [hb]
      dsimp only
      split
      · rename_i hl
        have hv : (sample .sda (delayStep w.2)).1 = false := by simpa [lostArbitration, hb] using hl
        rw [hv] at r2
        exact {
          bound := hk, timeout := (fun f => nomatch f), lost := fun _ => hb
          run := by simpa [writeCellEvents, hb] using r2.trans (BusRun.regs (t :=
            setArbLost true (sample .sda (delayStep w.2)).2) rfl)
          txByte := (by rw [hs]; rfl : (sample .sda (delayStep w.2)).2.txByte = w.2.txByte).trans h1
          bitCnt := (by rw [hs]; rfl : (sample .sda (delayStep w.2)).2.bitCnt = w.2.bitCnt).trans h2
          curBit := (by rw [hs]; rfl : (sample .sda (delayStep w.2)).2.curBit = w.2.curBit).trans h3
          rxAcc := (by rw [hs]; rfl : (sample .sda (delayStep w.2)).2.rxAcc = w.2.rxAcc).trans h4
          ack := (by rw [hs]; rfl : (sample .sda (delayStep w.2)).2.ack = w.2.ack).trans h5
          tcs := (by rw [hs]; rfl : (sample .sda (delayStep w.2)).2.tcs = w.2.tcs).trans h6
          arbLost := rfl
          cause := hq.2.trans h8
          counter := hq.1.trans h9 }
      · rename_i hl
        have hv : (sample .sda (delayStep w.2)).1 = true := by simpa [lostArbitration, hb] using hl
        rw [hv] at r2
        have r3 := r2.trans (driveLow_run .scl (sample .sda (delayStep w.2)).2)
        exact {
          bound := hk, timeout := (fun f => nomatch f), lost := (fun f => nomatch f)
          run := by simpa [writeCellEvents, hb] using r3.trans (BusRun.regs (t := endCell (sample .sda (delayStep w.2)).2) rfl)
          txByte := (by rw [hs]; rfl : (sample .sda (delayStep w.2)).2.txByte = w.2.txByte).trans h1
          bitCnt := by
            have : (sample .sda (delayStep w.2)).2.bitCnt = s.bitCnt := (by rw [hs]; rfl :
              (sample .sda (delayStep w.2)).2.bitCnt = w.2.bitCnt).trans h2
            simp [endCell, driveLow, this]
          curBit := (by rw [hs]; rfl : (sample .sda (delayStep w.2)).2.curBit = w.2.curBit).trans h3
          rxAcc := (by rw [hs]; rfl : (sample .sda (delayStep w.2)).2.rxAcc = w.2.rxAcc).trans h4
          ack := (by rw [hs]; rfl : (sample .sda (delayStep w.2)).2.ack = w.2.ack).trans h5
          tcs := (by rw [hs]; rfl : (sample .sda (delayStep w.2)).2.tcs = w.2.tcs).trans h6
          arbLost := (by rw [hs]; rfl : (sample .sda (delayStep w.2)).2.arbLost = w.2.arbLost).trans h7
          cause := hq.2.trans h8
          counter := hq.1.trans h9 }
    · rename_i hb
      rw [Bool.not_eq_true] at hb
      have r3 := r1.trans (driveLow_run .scl (delayStep w.2))
      exact {
        bound := hk, timeout := (fun f => nomatch f), lost := (fun f => nomatch f)
        run := by simpa [writeCellEvents, hb] using r3.trans (BusRun.regs (t := endCell (delayStep w.2)) rfl)
        txByte := h1
        bitCnt := by simp [endCell, driveLow, delayStep, delay, h2]
        curBit := h3, rxAcc := h4, ack := h5, tcs := h6, arbLost := h7, cause := h8, counter := h9 }
  · rename_i hw
    rw [Bool.not_eq_true] at hw
    rw [hw] at hr h8
    exact {
      bound := hk, timeout := fun _ => hf hw, lost := (fun f => nomatch f)
      run := hr, txByte := h1, bitCnt := h2, curBit := h3, rxAcc := h4, ack := h5, tcs := h6, arbLost := h7, cause := h8
      counter := h9 }

/-- The events of clocked data bit cells of WRITE_BYTE from bit number `i` on, one for each number of polls. -/
def writeCellsEvents (d : Nat) (v : Byte) : Nat → List Nat → List Event
  | _, [] => []
  | i, k :: ks => writeCellEvents d (wireBit v i) k .done ++ writeCellsEvents d v (i + 1) ks

/-- How a run of data bit cells of WRITE_BYTE ends: `ks` are the polls of the clocked cells, `k` those of the cell that
did not end well. -/
structure WriteCellsEnd (n : Nat) (s : State) (c : CellEnd × State) (ks : List Nat) (k : Nat) : Prop where
  bounds : ∀ j ∈ ks, j ≤ s.params.sclStretchTimeoutUs
  bound : k ≤ s.params.sclStretchTimeoutUs
  count : if c.1 = .done then ks.length = n else ks.length < n
  timeout : c.1 = .timeout → k = s.params.sclStretchTimeoutUs
  lost : c.1 = .lost → wireBit s.txByte (s.bitCnt + ks.length) = true
  run : BusRun s c.2 (writeCellsEvents s.delayUs.toNat s.txByte s.bitCnt ks ++
    if c.1 = .done then [] else writeCellEvents s.delayUs.toNat (wireBit s.txByte (s.bitCnt + ks.length)) k c.1)
  txByte : c.2.txByte = s.txByte
  bitCnt : c.2.bitCnt = s.bitCnt + ks.length
  curBit : c.1 ≠ .done → c.2.curBit = wireBit s.txByte (s.bitCnt + ks.length)
  rxAcc : c.2.rxAcc = s.rxAcc
  ack : c.2.ack = s.ack
  tcs : c.2.tcs = s.tcs
  arbLost : c.2.arbLost = if c.1 = .lost then true else s.arbLost
  cause : c.2.cause = if c.1 = .timeout then firstCause s.cause .clockStretchTimeout else s.cause
  counter : 0 < n ∨ s.waitElapsed ≤ s.params.sclStretchTimeoutUs → c.2.waitElapsed ≤ s.params.sclStretchTimeoutUs

theorem writeCells_end (n : Nat) (s : State) : ∃ ks k, WriteCellsEnd n s (writeCells n s) ks k := by
  induction n generalizing s with
  | zero =>
    refine ⟨[], 0, ?_⟩
    exact {
      bounds := by simp, bound := Nat.zero_le _, count := by simp [writeCells], timeout := (fun f => nomatch f)
      lost := (fun f => nomatch f), run := by simpa [writeCells, writeCellsEvents] using BusRun.refl s, txByte := rfl
      bitCnt := rfl, curBit := fun f => absurd rfl f, rxAcc := rfl, ack := rfl, tcs := rfl, arbLost := rfl, cause := rfl
      counter := fun h => h.resolve_left (Nat.lt_irrefl 0) }
  | succ n ih =>
    obtain ⟨k, h⟩ := writeCell_end s
    unfold writeCells
    dsimp only
    split
    · rename_i hc
      have hrun := h.run
      have hbit := h.bitCnt
      have harb := h.arbLost
      have hcause := h.cause
      rw [hc] at hrun
      rw [if_pos hc] at hbit
      rw [if_neg (by rw [hc]; decide)] at harb hcause
      obtain ⟨ks, k', g⟩ := ih (writeCell s).2
      have hp := hrun.params
      have hd := hrun.delayUs
      refine ⟨k :: ks, k', ?_⟩
      have shift : s.bitCnt + 1 + ks.length = s.bitCnt + (k :: ks).length := by simp; omega
      exact {
        bounds := by
          intro j hj
          rcases List.mem_cons.1 hj with rfl | hj
          · exact h.bound
          · exact hp ▸ g.bounds j hj
        bound := hp ▸ g.bound
        count := by
          have := g.count
          split at this <;> simp_all
        timeout := fun f => hp ▸ g.timeout f
        lost := fun f => by
          have := g.lost f
          rwa [h.txByte, hbit, shift] at this
        run := by
          have := hrun.trans g.run
          rw [h.txByte, hbit, hd, shift] at this
          simpa [writeCellsEvents] using this
        txByte := g.txByte.trans h.txByte
        bitCnt := by rw [g.bitCnt, hbit, shift]
        curBit := fun f => by
          have := g.curBit f
          rwa [h.txByte, hbit, shift] at this
        rxAcc := g.rxAcc.trans h.rxAcc
        ack := g.ack.trans h.ack
        tcs := g.tcs.trans h.tcs
        arbLost := by rw [g.arbLost, harb]
        cause := by rw [g.cause, hcause]
        counter := fun _ => hp ▸ g.counter (.inr (by rw [hp, h.counter]; exact h.bound)) }
    · rename_i hc
      refine ⟨[], k, ?_⟩
      exact {
        bounds := by simp
        bound := h.bound
        count := by rw [if_neg hc]; exact Nat.succ_pos n
        timeout := h.timeout
        lost := h.lost
        run := by simpa [writeCellsEvents, hc] using h.run
        txByte := h.txByte
        bitCnt := by rw [h.bitCnt, if_neg hc]; rfl
        curBit := fun _ => h.curBit
        rxAcc := h.rxAcc, ack := h.ack, tcs := h.tcs, arbLost := h.arbLost, cause := h.cause
        counter := fun _ => by rw [h.counter]; exact h.bound }

/-- The events of the ACK bit of WRITE_BYTE up to the last sample of its wait. -/
def ackHead (k : Nat) : List Event := [.rl .sda, .rl .scl] ++ sclPolls k

/-- How WRITE_BYTE ends. -/
inductive WriteEnd where
  /-- All nine bits were clocked and the ACK sample read `sda`. -/
  | full (ks : List Nat) (k : Nat) (sda : Bool)
  /-- The wait of the ACK bit timed out. -/
  | ackTimeout (ks : List Nat) (k : Nat)
  /-- The wait of data bit `ks.length` timed out. -/
  | cellTimeout (ks : List Nat) (k : Nat)
  /-- Arbitration was lost at data bit `ks.length`. -/
  | cellLost (ks : List Nat) (k : Nat)

/-- The events of WRITE_BYTE(v) between its `TA` and its `TR`. -/
def writeEvents (d : Nat) (v : Byte) : WriteEnd → List Event
  | .full ks k sda =>
    writeCellsEvents d v 0 ks ++ ackHead k ++ [.sm .scl true, .dy d, .sm .sda sda, .dl .scl, .rl .sda]
  | .ackTimeout ks k => writeCellsEvents d v 0 ks ++ ackHead k ++ [.sm .scl false]
  | .cellTimeout ks k => writeCellsEvents d v 0 ks ++ writeCellEvents d (wireBit v ks.length) k .timeout
  | .cellLost ks k => writeCellsEvents d v 0 ks ++ writeCellEvents d (wireBit v ks.length) k .lost

/-- The bounds on the polls of WRITE_BYTE with stretch timeout `T`, and the bit an ending belongs to. -/
def WriteEnd.Ok (T : Nat) (v : Byte) : WriteEnd → Prop
  | .full ks k _ => (∀ j ∈ ks, j ≤ T) ∧ ks.length = 8 ∧ k ≤ T
  | .ackTimeout ks k => (∀ j ∈ ks, j ≤ T) ∧ ks.length = 8 ∧ k = T
  | .cellTimeout ks k => (∀ j ∈ ks, j ≤ T) ∧ ks.length < 8 ∧ k = T
  | .cellLost ks k => (∀ j ∈ ks, j ≤ T) ∧ ks.length < 8 ∧ k ≤ T ∧ wireBit v ks.length = true

/-- The result of WRITE_BYTE: true exactly on an ACK with no arbitration loss (R70, R72). -/
def WriteEnd.result (lost : Bool) : WriteEnd → Bool
  | .full _ _ sda => !sda && !lost
  | .ackTimeout _ _ => false
  | .cellTimeout _ _ => false
  | .cellLost _ _ => false

/-- The cause register after WRITE_BYTE (R70, R110). -/
def WriteEnd.causeAfter (c : BitVec 3) : WriteEnd → BitVec 3
  | .full _ _ sda => if sda then firstCause c .nack else c
  | .ackTimeout _ _ => firstCause c .clockStretchTimeout
  | .cellTimeout _ _ => firstCause c .clockStretchTimeout
  | .cellLost _ _ => firstCause c .arbitrationLost

/-- The arbitration flag after WRITE_BYTE (R73). -/
def WriteEnd.arbAfter (lost : Bool) : WriteEnd → Bool
  | .full _ _ _ => lost
  | .ackTimeout _ _ => lost
  | .cellTimeout _ _ => lost
  | .cellLost _ _ => true

/-- `bit_cnt` after WRITE_BYTE (R12). -/
def WriteEnd.bits : WriteEnd → Nat
  | .full ks _ _ => ks.length
  | .ackTimeout ks _ => ks.length
  | .cellTimeout ks _ => ks.length
  | .cellLost ks _ => ks.length

/-- The ACK flag after WRITE_BYTE: the ACK sample, when it was made (R74). -/
def WriteEnd.AckIs (ack : Bool) : WriteEnd → Prop
  | .full _ _ sda => ack = !sda
  | .ackTimeout _ _ => True
  | .cellTimeout _ _ => True
  | .cellLost _ _ => True

/-- `cur_bit` after a WRITE_BYTE(v) that ended in a data bit (R12). -/
def WriteEnd.CurBitIs (v : Byte) (b : Bool) : WriteEnd → Prop
  | .full _ _ _ => True
  | .ackTimeout _ _ => True
  | .cellTimeout ks _ => b = wireBit v ks.length
  | .cellLost ks _ => b = wireBit v ks.length

/-- What WRITE_BYTE(v) leaves. -/
structure WriteSpec (v : Byte) (s : State) (r : Bool × State) (e : WriteEnd) : Prop where
  ok : e.Ok s.params.sclStretchTimeoutUs v
  run : BusRun s r.2 ([.ta] ++ writeEvents s.delayUs.toNat v e ++ [.tr])
  result : r.1 = e.result s.arbLost
  txByte : r.2.txByte = v
  bitCnt : r.2.bitCnt = e.bits
  rxAcc : r.2.rxAcc = s.rxAcc
  tcs : r.2.tcs = false
  arbLost : r.2.arbLost = e.arbAfter s.arbLost
  cause : r.2.cause = e.causeAfter s.cause
  ack : e.AckIs r.2.ack
  curBit : e.CurBitIs v r.2.curBit
  counter : r.2.waitElapsed ≤ s.params.sclStretchTimeoutUs

theorem receiveAck_end (s : State) : ∃ k, k ≤ s.params.sclStretchTimeoutUs ∧
    ((receiveAck s).1 = false → k = s.params.sclStretchTimeoutUs) ∧
    ∃ sda : Bool,
    BusRun s (receiveAck s).2 (ackHead k ++ if (receiveAck s).1
      then [.sm .scl true, .dy s.delayUs.toNat, .sm .sda sda, .dl .scl, .rl .sda] else [.sm .scl false]) ∧
    ((receiveAck s).1 = true → (receiveAck s).2.ack = !sda) ∧
    (receiveAck s).2.txByte = s.txByte ∧ (receiveAck s).2.bitCnt = s.bitCnt ∧ (receiveAck s).2.rxAcc = s.rxAcc ∧
    (receiveAck s).2.tcs = s.tcs ∧ (receiveAck s).2.arbLost = s.arbLost ∧
    (receiveAck s).2.cause = (if (receiveAck s).1 then s.cause else firstCause s.cause .clockStretchTimeout) ∧
    (receiveAck s).2.waitElapsed = k := by
  have r1 := (release_run .sda s).trans (release_run .scl _)
  obtain ⟨k, h⟩ := waitSclHigh_end (release .scl (release .sda s))
  have r2 := r1.trans (BusRun.trans (es := []) (.regs rfl) h.run)
  have hw := h.wait
  have hd := r2.delayUs
  have hcount := h.counter
  have hcause := h.cause
  have hfail := h.failed
  refine ⟨k, h.bound, ?_⟩
  unfold receiveAck
  dsimp only
  generalize waitSclHigh (release .scl (release .sda s)) = w at *
  split
  · rename_i hw1
    rw [hw1] at r2 hcause
    refine ⟨fun f => (nomatch f), (sample .sda (delayStep w.2)).1, ?_⟩
    have r3 := r2.trans ((delayStep_run w.2).trans (sample_run .sda (delayStep w.2)))
    have r4 := r3.trans (BusRun.regs (t := setAck (ackFlag (sample .sda (delayStep w.2)).1) (sample .sda (delayStep w.2)).2) rfl)
    have r5 := r4.trans ((driveLow_run .scl _).trans (release_run .sda _))
    have hs := sample_wait .sda (delayStep w.2)
    have hq := sample_regs .sda (delayStep w.2)
    refine ⟨by simpa [ackHead, hd] using r5, fun _ => rfl, ?_, ?_, ?_, ?_, ?_, hq.2.trans hcause, hq.1.trans (by
      simpa [delayStep, delay] using hcount)⟩
    · exact (by rw [hs, hw]; rfl : (sample .sda (delayStep w.2)).2.txByte = s.txByte)
    · exact (by rw [hs, hw]; rfl : (sample .sda (delayStep w.2)).2.bitCnt = s.bitCnt)
    · exact (by rw [hs, hw]; rfl : (sample .sda (delayStep w.2)).2.rxAcc = s.rxAcc)
    · exact (by rw [hs, hw]; rfl : (sample .sda (delayStep w.2)).2.tcs = s.tcs)
    · exact (by rw [hs, hw]; rfl : (sample .sda (delayStep w.2)).2.arbLost = s.arbLost)
  · rename_i hw1
    rw [Bool.not_eq_true] at hw1
    rw [hw1] at r2 hcause
    exact ⟨fun _ => hfail hw1, false, by simpa [ackHead] using r2, fun f => (nomatch f), by rw [hw]; rfl, by rw [hw]; rfl,
      by rw [hw]; rfl, by rw [hw]; rfl, by rw [hw]; rfl, hcause, by simpa using hcount⟩

theorem writeByte_spec (v : Byte) (s : State) : ∃ e, WriteSpec v s (writeByte v s) e := by
  have r0 := (acquireTcs_run s).trans (BusRun.regs (t := setBitCnt 0 (setTxByte v (acquireTcs s))) rfl)
  obtain ⟨ks, k, h⟩ := writeCells_end 8 (setBitCnt 0 (setTxByte v (acquireTcs s)))
  have r1 := r0.trans h.run
  have hd := r1.delayUs
  have hp := r1.params
  have htx := h.txByte
  have hbit := h.bitCnt
  have hcount := h.counter (.inl (by decide))
  have hcause := h.cause
  have harb := h.arbLost
  have hn := h.count
  have hcur := h.curBit
  have hlost := h.lost
  have htime := h.timeout
  have hrx := h.rxAcc
  unfold writeByte
  dsimp only
  generalize writeCells 8 (setBitCnt 0 (setTxByte v (acquireTcs s))) = c at *
  split
  · rename_i hc
    rw [hc] at r1 hn hcause harb
    refine ⟨.cellTimeout ks k, ?_⟩
    exact {
      ok := ⟨h.bounds, hn, htime hc⟩
      run := by simpa [writeEvents, acquireTcs] using r1.trans (releaseTcs_run c.2)
      result := rfl, txByte := htx, bitCnt := hbit.trans (Nat.zero_add _), rxAcc := hrx, tcs := rfl
      arbLost := harb, cause := hcause
      ack := trivial
      curBit := (hcur (by rw [hc]; decide)).trans (by simp)
      counter := hcount }
  · rename_i hc
    rw [hc] at r1 hn hcause harb
    refine ⟨.cellLost ks k, ?_⟩
    exact {
      ok := ⟨h.bounds, hn, h.bound, by simpa using hlost hc⟩
      run := by simpa [writeEvents, acquireTcs] using r1.trans ((releaseTcs_run c.2).trans (raise_run .arbitrationLost _))
      result := rfl, txByte := htx, bitCnt := hbit.trans (Nat.zero_add _), rxAcc := hrx, tcs := rfl
      arbLost := harb
      cause := by
        show firstCause c.2.cause .arbitrationLost = _
        rw [hcause]
        rfl
      ack := trivial
      curBit := (hcur (by rw [hc]; decide)).trans (by simp)
      counter := hcount }
  · rename_i hc
    rw [hc] at r1 hn hcause harb
    rw [if_pos rfl] at hn
    obtain ⟨k', hk', hf', sda, ra, hack, a1, a2, a3, a4, a5, a6, a7⟩ := receiveAck_end c.2
    have r2 := r1.trans (ra.trans (releaseTcs_run _))
    rw [hd] at r2
    rw [hp] at hk' hf'
    have hcn : (receiveAck c.2).2.waitElapsed ≤ s.params.sclStretchTimeoutUs := by rw [a7]; exact hk'
    generalize receiveAck c.2 = a at *
    split
    · rename_i ha
      rw [ha] at r2 a6
      refine ⟨.full ks k' sda, ?_⟩
      have hfull : BusRun s (releaseTcs a.2) ([.ta] ++ writeEvents s.delayUs.toNat v (.full ks k' sda) ++ [.tr]) := by
        simpa [writeEvents, acquireTcs] using r2
      have hacks : (releaseTcs a.2).ack = !sda := hack ha
      unfold writeResult
      rw [hacks]
      cases sda
      · exact {
          ok := ⟨h.bounds, hn, hk'⟩
          run := hfull
          result := by
            show (!a.2.arbLost) = _
            rw [a5, harb]
            simp [WriteEnd.result, acquireTcs]
          txByte := a1.trans htx, bitCnt := a2.trans (hbit.trans (Nat.zero_add _)), rxAcc := a3.trans hrx, tcs := rfl
          arbLost := a5.trans harb, cause := a6.trans hcause
          ack := hacks
          curBit := trivial
          counter := hcn }
      · exact {
          ok := ⟨h.bounds, hn, hk'⟩
          run := by simpa using hfull.trans (raise_run .nack _)
          result := rfl
          txByte := a1.trans htx, bitCnt := a2.trans (hbit.trans (Nat.zero_add _)), rxAcc := a3.trans hrx, tcs := rfl
          arbLost := a5.trans harb
          cause := by
            show firstCause a.2.cause .nack = _
            rw [a6, if_pos rfl, hcause]
            rfl
          ack := hacks
          curBit := trivial
          counter := hcn }
    · rename_i ha
      rw [Bool.not_eq_true] at ha
      rw [ha] at r2 a6
      refine ⟨.ackTimeout ks k', ?_⟩
      exact {
        ok := ⟨h.bounds, hn, hf' ha⟩
        run := by simpa [writeEvents, acquireTcs] using r2
        result := rfl
        txByte := a1.trans htx, bitCnt := a2.trans (hbit.trans (Nat.zero_add _)), rxAcc := a3.trans hrx, tcs := rfl
        arbLost := a5.trans harb
        cause := by
          rw [show (releaseTcs a.2).cause = a.2.cause from rfl, a6, hcause]
          rfl
        ack := trivial
        curBit := trivial
        counter := hcn }

end Sys2Proof.Machine
end

