-- ==== Sys2Proof/Laws/ReadByte.lean ====
section
/-! SUPPORT. What READ_BYTE does (43_byte_transfer_engine.md R76, R77, R78): its events, the byte it reads, and the
registers it leaves. -/

namespace Sys2Proof.Machine

/-- The registers READ_BYTE leaves alone besides what every bus operation leaves alone. -/
def ReadFrame (s t : State) : Prop :=
  t.txByte = s.txByte ∧ t.curBit = s.curBit ∧ t.ack = s.ack ∧ t.arbLost = s.arbLost

theorem ReadFrame.trans {s t u : State} (h : ReadFrame s t) (k : ReadFrame t u) : ReadFrame s u :=
  ⟨k.1.trans h.1, k.2.1.trans h.2.1, k.2.2.1.trans h.2.2.1, k.2.2.2.trans h.2.2.2⟩

/-- The events of a data bit cell of READ_BYTE up to the last sample of its wait, with `k` failed samples. -/
def readCellHead (d : Nat) (k : Nat) : List Event := [.dl .scl, .rl .sda, .dy d, .rl .scl] ++ sclPolls k

/-- The events of a clocked data bit cell of READ_BYTE that sampled `b`. -/
def readCellEvents (d : Nat) (k : Nat) (b : Bool) : List Event :=
  readCellHead d k ++ [.sm .scl true, .dy d, .sm .sda b, .dl .scl]

/-- How a data bit cell of READ_BYTE ends. -/
structure ReadCellEnd (s : State) (c : CellEnd × State) (k : Nat) (b : Bool) : Prop where
  bound : k ≤ s.params.sclStretchTimeoutUs
  timeout : c.1 ≠ .done → c.1 = .timeout ∧ k = s.params.sclStretchTimeoutUs
  run : BusRun s c.2 (if c.1 = .done then readCellEvents s.delayUs.toNat k b
    else readCellHead s.delayUs.toNat k ++ [.sm .scl false])
  rxAcc : c.2.rxAcc = if c.1 = .done then shiftIn s.rxAcc b else s.rxAcc
  bitCnt : c.2.bitCnt = if c.1 = .done then s.bitCnt + 1 else s.bitCnt
  regs : ReadFrame s c.2
  tcs : c.2.tcs = s.tcs
  cause : c.2.cause = if c.1 = .done then s.cause else firstCause s.cause .clockStretchTimeout
  counter : c.2.waitElapsed = k

theorem readCell_end (s : State) : ∃ k b, ReadCellEnd s (readCell s) k b := by
  have r1 := (driveLow_run .scl s).trans ((release_run .sda _).trans ((delayStep_run _).trans (release_run .scl _)))
  obtain ⟨k, h⟩ := waitSclHigh_end (release .scl (delayStep (release .sda (driveLow .scl s))))
  have r2 := r1.trans (BusRun.trans (es := []) (.regs rfl) h.run)
  have hd := r2.delayUs
  have hk := h.bound
  have hf := h.failed
  rw [r1.params] at hk hf
  have hw := h.wait
  have hcause := h.cause
  have hcount := h.counter
  unfold readCell
  dsimp only
  generalize waitSclHigh (release .scl (delayStep (release .sda (driveLow .scl s)))) = w at *
  have hcount' : w.2.waitElapsed = k := by simpa using hcount
  have hregs : ReadFrame s w.2 := by rw [hw]; exact ⟨rfl, rfl, rfl, rfl⟩
  have hrx : w.2.rxAcc = s.rxAcc := by rw [hw]; rfl
  have hbit : w.2.bitCnt = s.bitCnt := by rw [hw]; rfl
  have htcs : w.2.tcs = s.tcs := by rw [hw]; rfl
  split
  · rename_i hw1
    rw [hw1] at r2 hcause
    have r3 := r2.trans ((delayStep_run w.2).trans (sample_run .sda (delayStep w.2)))
    rw [hd] at r3
    have hs := sample_wait .sda (delayStep w.2)
    have hq := sample_regs .sda (delayStep w.2)
    have hrx' : (sample .sda (delayStep w.2)).2.rxAcc = s.rxAcc :=
      (by rw [hs]; rfl : (sample .sda (delayStep w.2)).2.rxAcc = w.2.rxAcc).trans hrx
    have hbit' : (sample .sda (delayStep w.2)).2.bitCnt = s.bitCnt :=
      (by rw [hs]; rfl : (sample .sda (delayStep w.2)).2.bitCnt = w.2.bitCnt).trans hbit
    have htcs' : (sample .sda (delayStep w.2)).2.tcs = s.tcs :=
      (by rw [hs]; rfl : (sample .sda (delayStep w.2)).2.tcs = w.2.tcs).trans htcs
    have hregs' : ReadFrame s (sample .sda (delayStep w.2)).2 :=
      hregs.trans (by rw [hs]; exact ⟨rfl, rfl, rfl, rfl⟩)
    have hc' := hq.2.trans hcause
    have he' := hq.1.trans hcount'
    generalize sample .sda (delayStep w.2) = r at *
    refine ⟨k, r.1, ?_⟩
    have r4 := r3.trans (BusRun.trans (es := []) (.regs rfl : BusRun r.2 (setRxAcc (shiftIn r.2.rxAcc r.1) r.2) [])
      ((driveLow_run .scl _).trans (.regs rfl : BusRun _ (endCell (setRxAcc (shiftIn r.2.rxAcc r.1) r.2)) [])))
    exact {
      bound := hk, timeout := fun f => absurd rfl f
      run := by simpa [readCellEvents, readCellHead, driveLow, release] using r4
      rxAcc := by rw [if_pos rfl, ← hrx']; rfl
      bitCnt := by rw [if_pos rfl, ← hbit']; rfl
      regs := hregs', tcs := htcs', cause := hc', counter := he' }
  · rename_i hw1
    rw [Bool.not_eq_true] at hw1
    rw [hw1] at r2 hcause
    refine ⟨k, false, ?_⟩
    exact {
      bound := hk, timeout := fun _ => ⟨rfl, hf hw1⟩
      run := by simpa [readCellHead, driveLow, release] using r2
      rxAcc := hrx, bitCnt := hbit, regs := hregs, tcs := htcs, cause := hcause, counter := hcount' }

/-- The events of clocked data bit cells of READ_BYTE, one for each number of polls and bit read. -/
def readCellsEvents (d : Nat) : List (Nat × Bool) → List Event
  | [] => []
  | c :: cs => readCellEvents d c.1 c.2 ++ readCellsEvents d cs

/-- How a run of data bit cells of READ_BYTE ends: `cs` are the polls and bits of the clocked cells, `k` the polls of the
cell whose wait failed. -/
structure ReadCellsEnd (n : Nat) (s : State) (c : CellEnd × State) (cs : List (Nat × Bool)) (k : Nat) : Prop where
  bounds : ∀ p ∈ cs, p.1 ≤ s.params.sclStretchTimeoutUs
  count : if c.1 = .done then cs.length = n else cs.length < n
  timeout : c.1 ≠ .done → k = s.params.sclStretchTimeoutUs
  run : BusRun s c.2 (readCellsEvents s.delayUs.toNat cs ++
    if c.1 = .done then [] else readCellHead s.delayUs.toNat k ++ [.sm .scl false])
  rxAcc : c.2.rxAcc = (cs.map (·.2)).foldl shiftIn s.rxAcc
  bitCnt : c.2.bitCnt = s.bitCnt + cs.length
  regs : ReadFrame s c.2
  tcs : c.2.tcs = s.tcs
  cause : c.2.cause = if c.1 = .done then s.cause else firstCause s.cause .clockStretchTimeout
  counter : 0 < n ∨ s.waitElapsed ≤ s.params.sclStretchTimeoutUs → c.2.waitElapsed ≤ s.params.sclStretchTimeoutUs

theorem readCells_end (n : Nat) (s : State) : ∃ cs k, ReadCellsEnd n s (readCells n s) cs k := by
  induction n generalizing s with
  | zero =>
    refine ⟨[], 0, ?_⟩
    exact {
      bounds := by simp, count := by simp [readCells], timeout := fun f => absurd rfl f
      run := by simpa [readCells, readCellsEvents] using BusRun.refl s, rxAcc := rfl, bitCnt := rfl
      regs := ⟨rfl, rfl, rfl, rfl⟩, tcs := rfl, cause := rfl
      counter := fun h => h.resolve_left (Nat.lt_irrefl 0) }
  | succ n ih =>
    obtain ⟨k, b, h⟩ := readCell_end s
    unfold readCells
    dsimp only
    split
    · rename_i hc
      have hrun := h.run
      have hbit := h.bitCnt
      have hrx := h.rxAcc
      have hcause := h.cause
      rw [if_pos hc] at hrun hbit hrx hcause
      obtain ⟨cs, k', g⟩ := ih (readCell s).2
      have hp := hrun.params
      have hd := hrun.delayUs
      refine ⟨(k, b) :: cs, k', ?_⟩
      exact {
        bounds := by
          intro j hj
          rcases List.mem_cons.1 hj with rfl | hj
          · exact h.bound
          · exact hp ▸ g.bounds j hj
        count := by
          have := g.count
          split at this <;> simp_all
        timeout := fun f => hp ▸ g.timeout f
        run := by
          have := hrun.trans g.run
          rw [hd] at this
          simpa [readCellsEvents] using this
        rxAcc := by rw [g.rxAcc, hrx]; rfl
        bitCnt := by rw [g.bitCnt, hbit, List.length_cons]; omega
        regs := h.regs.trans g.regs
        tcs := g.tcs.trans h.tcs
        cause := by rw [g.cause, hcause]
        counter := fun _ => hp ▸ g.counter (.inr (by rw [hp, h.counter]; exact h.bound)) }
    · rename_i hc
      refine ⟨[], k, ?_⟩
      exact {
        bounds := by simp
        count := by rw [if_neg hc]; exact Nat.succ_pos n
        timeout := fun f => (h.timeout f).2
        run := by simpa [readCellsEvents, hc] using h.run
        rxAcc := by rw [h.rxAcc, if_neg hc]; rfl
        bitCnt := by rw [h.bitCnt, if_neg hc]; rfl
        regs := h.regs, tcs := h.tcs, cause := h.cause
        counter := fun _ => by rw [h.counter]; exact h.bound }

/-- How READ_BYTE ends. -/
inductive ReadEnd where
  /-- All nine bits were clocked. -/
  | full (cs : List (Nat × Bool)) (k : Nat)
  /-- The wait of the ACK bit timed out. -/
  | ackTimeout (cs : List (Nat × Bool)) (k : Nat)
  /-- The wait of data bit `cs.length` timed out. -/
  | cellTimeout (cs : List (Nat × Bool)) (k : Nat)

/-- The events of the ACK bit of READ_BYTE up to the last sample of its wait. -/
def sendAckHead (ackreq : Bool) (k : Nat) : List Event :=
  [if ackreq then .dl .sda else .rl .sda, .rl .scl] ++ sclPolls k

/-- The events of READ_BYTE between its `TA` and its `TR`. -/
def readEvents (d : Nat) (ackreq : Bool) : ReadEnd → List Event
  | .full cs k => readCellsEvents d cs ++ sendAckHead ackreq k ++ [.sm .scl true, .dy d, .dl .scl, .rl .sda]
  | .ackTimeout cs k => readCellsEvents d cs ++ sendAckHead ackreq k ++ [.sm .scl false]
  | .cellTimeout cs k => readCellsEvents d cs ++ readCellHead d k ++ [.sm .scl false]

/-- The bounds on the polls of READ_BYTE with stretch timeout `T`. -/
def ReadEnd.Ok (T : Nat) : ReadEnd → Prop
  | .full cs k => (∀ p ∈ cs, p.1 ≤ T) ∧ cs.length = 8 ∧ k ≤ T
  | .ackTimeout cs k => (∀ p ∈ cs, p.1 ≤ T) ∧ cs.length = 8 ∧ k = T
  | .cellTimeout cs k => (∀ p ∈ cs, p.1 ≤ T) ∧ cs.length < 8 ∧ k = T

/-- The result of READ_BYTE (R78). -/
def ReadEnd.result : ReadEnd → Bool
  | .full _ _ => true
  | .ackTimeout _ _ => false
  | .cellTimeout _ _ => false

/-- The bits READ_BYTE sampled, in the order of the wire. -/
def ReadEnd.bits : ReadEnd → List Bool
  | .full cs _ => cs.map (·.2)
  | .ackTimeout cs _ => cs.map (·.2)
  | .cellTimeout cs _ => cs.map (·.2)

/-- What READ_BYTE leaves. -/
structure ReadSpec (ackreq : Bool) (s : State) (r : Bool × State) (e : ReadEnd) : Prop where
  ok : e.Ok s.params.sclStretchTimeoutUs
  run : BusRun s r.2 ([.ta] ++ readEvents s.delayUs.toNat ackreq e ++ [.tr])
  result : r.1 = e.result
  rxAcc : r.2.rxAcc = e.bits.foldl shiftIn 0#8
  bitCnt : r.2.bitCnt = e.bits.length
  regs : ReadFrame s r.2
  tcs : r.2.tcs = false
  cause : r.2.cause = if e.result then s.cause else firstCause s.cause .clockStretchTimeout
  counter : r.2.waitElapsed ≤ s.params.sclStretchTimeoutUs

theorem sendAck_end (q : Bool) (s : State) : ∃ k, k ≤ s.params.sclStretchTimeoutUs ∧
    ((sendAck q s).1 = false → k = s.params.sclStretchTimeoutUs) ∧
    BusRun s (sendAck q s).2 (sendAckHead q k ++ if (sendAck q s).1
      then [.sm .scl true, .dy s.delayUs.toNat, .dl .scl, .rl .sda] else [.sm .scl false]) ∧
    (sendAck q s).2.rxAcc = s.rxAcc ∧ (sendAck q s).2.bitCnt = s.bitCnt ∧ ReadFrame s (sendAck q s).2 ∧
    (sendAck q s).2.cause = (if (sendAck q s).1 then s.cause else firstCause s.cause .clockStretchTimeout) ∧
    (sendAck q s).2.waitElapsed = k := by
  have r1 := (setLine_run .sda (!q) s).trans (release_run .scl _)
  obtain ⟨k, h⟩ := waitSclHigh_end (release .scl (setLine .sda (!q) s))
  have r2 := r1.trans (BusRun.trans (es := []) (.regs rfl) h.run)
  have hw := h.wait
  have hd := r2.delayUs
  have hcount := h.counter
  have hcause := h.cause
  have hfail := h.failed
  have hk := h.bound
  rw [r1.params] at hk hfail
  refine ⟨k, hk, ?_⟩
  unfold sendAck
  dsimp only
  generalize waitSclHigh (release .scl (setLine .sda (!q) s)) = w at *
  have hcount' : w.2.waitElapsed = k := by simpa using hcount
  have hregs : ReadFrame s w.2 := by
    rw [hw]
    cases q <;> exact ⟨rfl, rfl, rfl, rfl⟩
  have hrx : w.2.rxAcc = s.rxAcc := by
    rw [hw]
    cases q <;> rfl
  have hbit : w.2.bitCnt = s.bitCnt := by
    rw [hw]
    cases q <;> rfl
  have hc0 : (setWaitElapsed 0 (release .scl (setLine .sda (!q) s))).cause = s.cause := by cases q <;> rfl
  rw [hc0] at hcause
  split
  · rename_i hw1
    rw [hw1] at r2 hcause
    have r3 := r2.trans ((delayStep_run w.2).trans ((driveLow_run .scl _).trans (release_run .sda _)))
    rw [hd] at r3
    exact ⟨fun f => (nomatch f), by cases q <;> simpa [sendAckHead] using r3, hrx, hbit, hregs, hcause, hcount'⟩
  · rename_i hw1
    rw [Bool.not_eq_true] at hw1
    rw [hw1] at r2 hcause
    exact ⟨fun _ => hfail hw1, by cases q <;> simpa [sendAckHead] using r2, hrx, hbit, hregs, hcause, hcount'⟩

theorem readByte_spec (q : Bool) (s : State) : ∃ e, ReadSpec q s (readByte q s) e := by
  have r0 := (acquireTcs_run s).trans (BusRun.regs (t := setBitCnt 0 (setRxAcc 0#8 (acquireTcs s))) rfl)
  obtain ⟨cs, k, h⟩ := readCells_end 8 (setBitCnt 0 (setRxAcc 0#8 (acquireTcs s)))
  have r1 := r0.trans h.run
  have hd := r1.delayUs
  have hp := r1.params
  have hn := h.count
  have hrx := h.rxAcc
  have hbit := h.bitCnt
  have hregs : ReadFrame s _ := ReadFrame.trans (t := setBitCnt 0 (setRxAcc 0#8 (acquireTcs s))) ⟨rfl, rfl, rfl, rfl⟩ h.regs
  have hcause := h.cause
  have hcount := h.counter (.inl (by decide))
  have htime := h.timeout
  unfold readByte
  dsimp only
  generalize readCells 8 (setBitCnt 0 (setRxAcc 0#8 (acquireTcs s))) = c at *
  split
  · rename_i hc
    rw [if_pos hc] at r1 hn hcause
    obtain ⟨k', hk', hf', ra, a1, a2, a3, a4, a5⟩ := sendAck_end q c.2
    have r2 := r1.trans (ra.trans (releaseTcs_run _))
    rw [hd] at r2
    rw [hp] at hk' hf'
    generalize sendAck q c.2 = a at *
    cases ha : a.1
    · rw [ha] at r2 a4
      refine ⟨.ackTimeout cs k', ?_⟩
      exact {
        ok := ⟨h.bounds, hn, hf' ha⟩
        run := by simpa [readEvents, acquireTcs] using r2
        result := rfl
        rxAcc := a1.trans hrx
        bitCnt := (a2.trans hbit).trans (by simp [ReadEnd.bits])
        regs := hregs.trans a3, tcs := rfl
        cause := by
          rw [show (releaseTcs a.2).cause = a.2.cause from rfl, a4, hcause]
          rfl
        counter := by
          show a.2.waitElapsed ≤ _
          rw [a5]
          exact hk' }
    · rw [ha] at r2 a4
      refine ⟨.full cs k', ?_⟩
      exact {
        ok := ⟨h.bounds, hn, hk'⟩
        run := by simpa [readEvents, acquireTcs] using r2
        result := rfl
        rxAcc := a1.trans hrx
        bitCnt := (a2.trans hbit).trans (by simp [ReadEnd.bits])
        regs := hregs.trans a3, tcs := rfl
        cause := by
          rw [show (releaseTcs a.2).cause = a.2.cause from rfl, a4, hcause]
          rfl
        counter := by
          show a.2.waitElapsed ≤ _
          rw [a5]
          exact hk' }
  · rename_i hc
    rw [if_neg hc] at r1 hn hcause
    refine ⟨.cellTimeout cs k, ?_⟩
    exact {
      ok := ⟨h.bounds, hn, htime hc⟩
      run := by simpa [readEvents, acquireTcs] using r1.trans (releaseTcs_run c.2)
      result := rfl
      rxAcc := hrx
      bitCnt := hbit.trans (by simp [ReadEnd.bits])
      regs := hregs, tcs := rfl, cause := hcause, counter := hcount }

/-- Eight bits shifted in from 0, most significant first, are the bits of the byte in the order of the wire (R66,
R76). -/
theorem wireBits_shiftIn (l : List Bool) (h : l.length = 8) : wireBits (l.foldl shiftIn 0#8) = l := by
  match l, h with
  | [a, b, c, d, e, f, g, i], _ =>
    revert a b c d e f g i
    decide

end Sys2Proof.Machine
end

