-- ==== Sys2Proof/Laws/Data.lean ====
section
/-! SUPPORT. What the data phases of WRITE_MESSAGE and READ_MESSAGE do (44_i2c_master.md R89, R90; 20_memory.md R33). -/

namespace Sys2Proof.Machine

/-! ### WRITE_MESSAGE -/

/-- The events of WRITE_BYTE(v). -/
def writeByteEvents (d : Nat) (v : Byte) (e : WriteEnd) : List Event := [.ta] ++ writeEvents d v e ++ [.tr]

/-- The events of data bytes of a WRITE_MESSAGE from index `i` on. -/
def writeDataEvents (d : Nat) : BitVec 16 → List (Byte × WriteEnd) → List Event
  | _, [] => []
  | i, b :: bs => [.br i b.1] ++ writeByteEvents d b.1 b.2 ++ writeDataEvents d (i + 1#16) bs

/-- A data byte that was sent and acknowledged. -/
def WriteEnd.Good (T : Nat) (v : Byte) (e : WriteEnd) : Prop := e.Ok T v ∧ e.result false = true

/-- The data phase of WRITE_MESSAGE: `bs` are the bytes sent and acknowledged, `last` the byte that failed. -/
structure WriteDataSpec (n : Nat) (s : State) (r : DataEnd × State) (bs : List (Byte × WriteEnd))
    (last : Option (Byte × WriteEnd)) : Prop where
  run : DataRun s r.2 (writeDataEvents s.delayUs.toNat s.byteIdx (bs ++ last.toList))
  good : ∀ b ∈ bs, b.2.Good s.params.sclStretchTimeoutUs b.1
  bad : ∀ b ∈ last, b.2.Ok s.params.sclStretchTimeoutUs b.1 ∧ b.2.result false = false
  how : match r.1 with
    | .done => bs.length = n ∧ last = none
    | .failed => bs.length < n ∧ last.isSome
    | .stuck => bs.length < n ∧ last = none ∧ ¬ (s.byteIdx + BitVec.ofNat 16 bs.length).toNat < s.bufLen
  byteIdx : r.2.byteIdx = s.byteIdx + BitVec.ofNat 16 bs.length
  arbLost : r.2.arbLost = last.any (·.2.arbAfter false)
  cause : r.2.cause = (last.map (·.2.causeAfter s.cause)).getD s.cause
  tcs : s.tcs = false → r.2.tcs = false
  bitCnt : s.bitCnt ≤ 8 → r.2.bitCnt ≤ 8
  counter : s.waitElapsed ≤ s.params.sclStretchTimeoutUs → r.2.waitElapsed ≤ s.params.sclStretchTimeoutUs
  buffer : r.2.buf = s.buf ∧ r.2.hostWrites = s.hostWrites
  answers : ∀ j b, (bs ++ last.toList)[j]? = some b → Answers s (s.byteIdx + BitVec.ofNat 16 j) b.1
  inside : ∀ j, j < (bs ++ last.toList).length → (s.byteIdx + BitVec.ofNat 16 j).toNat < s.bufLen

theorem WriteEnd.bits_le {T : Nat} {v : Byte} {e : WriteEnd} (h : e.Ok T v) : e.bits ≤ 8 := by
  cases e <;> simp only [WriteEnd.Ok] at h <;> simp only [WriteEnd.bits] <;> omega

theorem WriteEnd.good_cause {v : Byte} {e : WriteEnd} {T : Nat} (c : BitVec 3) (h : e.Good T v) :
    e.causeAfter c = c ∧ e.arbAfter false = false := by
  obtain ⟨_, h⟩ := h
  cases e with
  | full ks k sda => cases sda <;> first | exact ⟨rfl, rfl⟩ | exact nomatch h
  | ackTimeout => exact nomatch h
  | cellTimeout => exact nomatch h
  | cellLost => exact nomatch h

theorem bv16_shift (i : BitVec 16) (n : Nat) : i + 1#16 + BitVec.ofNat 16 n = i + BitVec.ofNat 16 (n + 1) := by
  rw [BitVec.add_assoc]
  congr 1
  apply BitVec.eq_of_toNat_eq
  simp [Nat.add_comm]

theorem writeData_spec (n : Nat) (s : State) (ha : s.arbLost = false) :
    ∃ bs last, WriteDataSpec n s (writeData n s) bs last := by
  induction n generalizing s with
  | zero =>
    refine ⟨[], none, ?_⟩
    exact {
      run := DataRun.refl s, good := by simp, bad := by simp, how := ⟨rfl, rfl⟩, byteIdx := by simp [writeData]
      arbLost := ha, cause := rfl, tcs := id, bitCnt := id, counter := id, buffer := ⟨rfl, rfl⟩
      answers := by simp, inside := by simp }
  | succ n ih =>
    unfold writeData
    cases hm : memRead s.byteIdx s with
    | none =>
      refine ⟨[], none, ?_⟩
      exact {
        run := DataRun.refl s, good := by simp, bad := by simp
        how := ⟨Nat.succ_pos n, rfl, by simpa using memRead_none.1 hm⟩
        byteIdx := by simp, arbLost := ha, cause := rfl, tcs := id, bitCnt := id, counter := id, buffer := ⟨rfl, rfl⟩
        answers := by simp, inside := by simp }
    | some m =>
      have hr := memRead_spec hm
      have hf := hr.frame
      dsimp only
      obtain ⟨e, h⟩ := writeByte_spec m.1 m.2
      have h1 := hr.run.trans h.run.data
      have hp := hr.run.params
      have hd := hr.run.delayUs
      have harb : m.2.arbLost = false := by rw [hf]; exact ha
      have hcause : m.2.cause = s.cause := by rw [hf]
      have hidx : m.2.byteIdx = s.byteIdx := by rw [hf]
      have hb0 : m.2.buf = s.buf ∧ m.2.hostWrites = s.hostWrites := by rw [hf]; exact ⟨rfl, rfl⟩
      obtain ⟨hb1, hb2, _, _, hb5⟩ := h.run.buffer
      have hok := h.ok
      have hres := h.result
      have harb2 := h.arbLost
      have hcause2 := h.cause
      have hcount := h.counter
      rw [hp] at hok hcount
      rw [harb] at hres harb2
      rw [hcause] at hcause2
      rw [hd] at h1
      split
      · rename_i hw
        have hgood : e.Good s.params.sclStretchTimeoutUs m.1 := ⟨hok, by rw [← hres]; exact hw⟩
        obtain ⟨gc, ga⟩ := WriteEnd.good_cause s.cause hgood
        obtain ⟨bs, last, g⟩ := ih (nextByte (writeByte m.1 m.2).2) (harb2.trans ga)
        generalize writeByte m.1 m.2 = w at *
        have hn : DataRun w.2 (nextByte w.2) [] := by
          exact ⟨by simp [nextByte], by simp [nextByte], rfl, rfl, id, rfl, id, rfl⟩
        have hi : (nextByte w.2).byteIdx = s.byteIdx + 1#16 := by
          show w.2.byteIdx + 1#16 = _
          rw [hb5, hidx]
        have hpar : (nextByte w.2).params = s.params := h1.params
        have hdel : (nextByte w.2).delayUs = s.delayUs := h1.delayUs
        have hlen : (nextByte w.2).bufLen = s.bufLen := h1.bufLen
        have hmis : (nextByte w.2).misanswers = s.misanswers := h1.misanswers
        have hbuf : (nextByte w.2).buf = s.buf := hb1.trans hb0.1
        have hhw : (nextByte w.2).hostWrites = s.hostWrites := hb2.trans hb0.2
        have hcau : (nextByte w.2).cause = s.cause := hcause2.trans gc
        refine ⟨(m.1, e) :: bs, last, ?_⟩
        exact {
          run := by
            have := h1.trans (hn.trans g.run)
            rw [hdel, hi] at this
            simpa [writeDataEvents, writeByteEvents] using this
          good := by
            intro b hb
            rcases List.mem_cons.1 hb with rfl | hb
            · exact hgood
            · exact hpar ▸ g.good b hb
          bad := fun b hb => hpar ▸ g.bad b hb
          how := by
            have := g.how
            rw [hi, hlen] at this
            split at this
            · exact ⟨by rw [List.length_cons, this.1], this.2⟩
            · exact ⟨by rw [List.length_cons]; omega, this.2⟩
            · refine ⟨by rw [List.length_cons]; omega, this.2.1, ?_⟩
              rw [List.length_cons, ← bv16_shift]
              exact this.2.2
          byteIdx := by rw [g.byteIdx, hi, List.length_cons, bv16_shift]
          arbLost := g.arbLost
          cause := by rw [g.cause, hcau]
          tcs := fun _ => g.tcs h.tcs
          bitCnt := fun _ => g.bitCnt (by
            show w.2.bitCnt ≤ 8
            rw [h.bitCnt]
            exact WriteEnd.bits_le hok)
          counter := fun _ => hpar ▸ g.counter (hpar ▸ hcount)
          buffer := ⟨g.buffer.1.trans hbuf, g.buffer.2.trans hhw⟩
          answers := by
            intro j b hj
            cases j with
            | zero =>
              have : b = (m.1, e) := by simpa using hj.symm
              subst this
              simpa using hr.answer
            | succ j =>
              have := g.answers j b (by simpa using hj)
              rw [hi, bv16_shift] at this
              unfold Answers State.hostBytes at *
              rwa [hmis, hbuf, hhw] at this
          inside := by
            intro j hj
            cases j with
            | zero => simpa using hr.inside
            | succ j =>
              have := g.inside j (by simpa using hj)
              rwa [hi, bv16_shift, hlen] at this }
      · rename_i hw
        rw [Bool.not_eq_true] at hw
        refine ⟨[], some (m.1, e), ?_⟩
        exact {
          run := by simpa [writeDataEvents, writeByteEvents] using h1
          good := by simp
          bad := by
            intro b hb
            have : b = (m.1, e) := by simpa using hb.symm
            subst this
            exact ⟨hok, by rw [← hres]; exact hw⟩
          how := ⟨Nat.succ_pos n, rfl⟩
          byteIdx := by simpa using hb5.trans hidx
          arbLost := by simpa using harb2
          cause := hcause2
          tcs := fun _ => h.tcs
          bitCnt := fun _ => by rw [h.bitCnt]; exact WriteEnd.bits_le hok
          counter := fun _ => hcount
          buffer := ⟨hb1.trans hb0.1, hb2.trans hb0.2⟩
          answers := by
            intro j b hj
            cases j with
            | zero =>
              have : b = (m.1, e) := by simpa using hj.symm
              subst this
              simpa using hr.answer
            | succ j => simp at hj
          inside := by
            intro j hj
            cases j with
            | zero => simpa using hr.inside
            | succ j => simp at hj }

/-! ### READ_MESSAGE -/

/-- The byte READ_BYTE assembles from its samples (43_byte_transfer_engine.md R76). -/
def ReadEnd.data (e : ReadEnd) : Byte := e.bits.foldl shiftIn 0#8

/-- The events of READ_BYTE(ackreq). -/
def readByteEvents (d : Nat) (ackreq : Bool) (e : ReadEnd) : List Event := [.ta] ++ readEvents d ackreq e ++ [.tr]

/-- The events of data bytes of a READ_MESSAGE of `len` bytes from index `i` on, each read and stored. -/
def readDataEvents (d : Nat) (len : BitVec 16) : BitVec 16 → List ReadEnd → List Event
  | _, [] => []
  | i, e :: es =>
    readByteEvents d (ackRequest i len) e ++ [.bw i e.data] ++ readDataEvents d len (i + 1#16) es

/-- The events of a data byte that was not stored. -/
def readLastEvents (d : Nat) (len : BitVec 16) (i : BitVec 16) : Option ReadEnd → List Event
  | none => []
  | some e => readByteEvents d (ackRequest i len) e

/-- The data phase of READ_MESSAGE: `es` are the bytes read and stored, `last` a byte that failed (or, of a stuck block,
that could not be stored). -/
structure ReadDataSpec (n : Nat) (s : State) (r : DataEnd × State) (es : List ReadEnd) (last : Option ReadEnd) :
    Prop where
  run : DataRun s r.2 (readDataEvents s.delayUs.toNat s.tLen s.byteIdx es ++
    readLastEvents s.delayUs.toNat s.tLen (s.byteIdx + BitVec.ofNat 16 es.length) last)
  good : ∀ e ∈ es, e.Ok s.params.sclStretchTimeoutUs ∧ e.result = true
  bad : ∀ e ∈ last, e.Ok s.params.sclStretchTimeoutUs
  how : match r.1 with
    | .done => es.length = n ∧ last = none
    | .failed => es.length < n ∧ ∃ e, last = some e ∧ e.result = false
    | .stuck => es.length < n ∧ (∃ e, last = some e ∧ e.result = true) ∧
        ¬ (s.byteIdx + BitVec.ofNat 16 es.length).toNat < s.bufLen
  byteIdx : r.2.byteIdx = s.byteIdx + BitVec.ofNat 16 es.length
  arbLost : r.2.arbLost = s.arbLost
  cause : r.2.cause = if r.1 = .failed then firstCause s.cause .clockStretchTimeout else s.cause
  tcs : s.tcs = false → r.2.tcs = false
  bitCnt : s.bitCnt ≤ 8 → r.2.bitCnt ≤ 8
  counter : s.waitElapsed ≤ s.params.sclStretchTimeoutUs → r.2.waitElapsed ≤ s.params.sclStretchTimeoutUs
  stored : s.buf.wf = true → ∀ j e, es[j]? = some e →
    r.2.buf.read (s.byteIdx.toNat + j) = e.data ∨
    r.2.buf.read (s.byteIdx.toNat + j) ∈ s.hostBytes (s.byteIdx + BitVec.ofNat 16 j)
  rest : ∀ j : BitVec 16, j.toNat < s.byteIdx.toNat ∨ s.byteIdx.toNat + es.length ≤ j.toNat →
    (s.buf.wf = true → r.2.buf.read j.toNat = s.buf.read j.toNat) ∧ r.2.hostBytes j = s.hostBytes j
  storedHost : ∀ j : BitVec 16, s.byteIdx.toNat ≤ j.toNat → j.toNat < s.byteIdx.toNat + es.length →
    r.2.hostBytes j = []
  noHost : s.hostWrites = [] → r.2.hostWrites = []
  inside : ∀ j, j < es.length → s.byteIdx.toNat + j < s.bufLen

theorem ReadEnd.bits_le {T : Nat} {e : ReadEnd} (h : e.Ok T) : e.bits.length ≤ 8 := by
  cases e <;> simp only [ReadEnd.Ok] at h <;> simp only [ReadEnd.bits, List.length_map] <;> omega

theorem readData_spec (n : Nat) (s : State) (hn : s.byteIdx.toNat + n ≤ 65535) :
    ∃ es last, ReadDataSpec n s (readData n s) es last := by
  induction n generalizing s with
  | zero =>
    refine ⟨[], none, ?_⟩
    exact {
      run := DataRun.refl s, good := by simp, bad := by simp, how := ⟨rfl, rfl⟩, byteIdx := by simp [readData]
      arbLost := rfl, cause := rfl, tcs := id, bitCnt := id, counter := id, stored := by simp
      rest := fun _ _ => ⟨fun _ => rfl, rfl⟩, storedHost := fun _ h k => absurd k (by simpa using h), noHost := id
      inside := by simp }
  | succ n ih =>
    obtain ⟨e, h⟩ := readByte_spec (ackRequest s.byteIdx s.tLen) s
    obtain ⟨hb1, hb2, hb3, hb4, hb5⟩ := h.run.buffer
    have hbits : (readByte (ackRequest s.byteIdx s.tLen) s).2.bitCnt ≤ 8 := by
      rw [h.bitCnt]
      exact ReadEnd.bits_le h.ok
    have hcau := h.cause
    have hhb : ∀ j, (readByte (ackRequest s.byteIdx s.tLen) s).2.hostBytes j = s.hostBytes j := fun j => by
      unfold State.hostBytes
      rw [hb2]
    unfold readData
    dsimp only
    generalize readByte (ackRequest s.byteIdx s.tLen) s = w at *
    split
    · rename_i hw
      have hres : e.result = true := h.result.symm.trans hw
      rw [hres, if_pos rfl] at hcau
      cases hm : memWrite w.2.byteIdx w.2.rxAcc w.2 with
      | none =>
        refine ⟨[], some e, ?_⟩
        exact {
          run := by simpa [readDataEvents, readLastEvents, readByteEvents] using h.run.data
          good := by simp
          bad := by
            intro b hb
            have : b = e := by simpa using hb.symm
            subst this
            exact h.ok
          how := ⟨Nat.succ_pos n, ⟨e, rfl, hres⟩, by
            have := memWrite_none.1 hm
            rw [hb5, hb4] at this
            simpa using this⟩
          byteIdx := by simpa using hb5
          arbLost := h.regs.2.2.2
          cause := by simpa using hcau
          tcs := fun _ => h.tcs
          bitCnt := fun _ => hbits
          counter := fun _ => h.counter
          stored := by simp
          rest := fun j _ => ⟨fun _ => by rw [hb1], hhb j⟩
          storedHost := fun _ h k => absurd k (by simpa using h)
          noHost := fun h => hb2.trans h
          inside := by simp }
      | some t =>
        have hs := memWrite_spec hm
        rw [hb5, h.rxAcc] at hs
        have hst := hs.store
        have hf := hs.frame
        have hin := hs.inside
        have h1 := h.run.data.trans hs.run
        have hi : (nextByte t).byteIdx = s.byteIdx + 1#16 := by
          show t.byteIdx + 1#16 = _
          rw [hf]
          show w.2.byteIdx + 1#16 = _
          rw [hb5]
        have hlt : s.byteIdx.toNat + 1 < 65536 := by omega
        have hin' : (nextByte t).byteIdx.toNat = s.byteIdx.toNat + 1 := by
          rw [hi, BitVec.toNat_add]
          exact Nat.mod_eq_of_lt hlt
        obtain ⟨es, last, g⟩ := ih (nextByte t) (by rw [hin']; omega)
        have hn : DataRun t (nextByte t) [] :=
          ⟨by simp [nextByte], by simp [nextByte], rfl, rfl, id, rfl, id, rfl⟩
        have hpar : (nextByte t).params = s.params := h1.params
        have hdel : (nextByte t).delayUs = s.delayUs := h1.delayUs
        have hlen : (nextByte t).bufLen = s.bufLen := h1.bufLen
        have htl : (nextByte t).tLen = s.tLen := h1.tLen
        have hca : (nextByte t).cause = s.cause := by
          show t.cause = _
          rw [hf]
          exact hcau
        have hwe : (nextByte t).waitElapsed = w.2.waitElapsed := by
          show t.waitElapsed = _
          rw [hf]
        have hwf : s.buf.wf = true → t.buf.wf = true := fun hb => h1.bufWf hb
        have hshift : ∀ j, s.byteIdx.toNat + 1 + j = s.byteIdx.toNat + (j + 1) := fun j => by omega
        have hne : ∀ j, 0 < j → s.byteIdx.toNat + j < 65536 →
            s.byteIdx + BitVec.ofNat 16 j ≠ s.byteIdx ∧ (s.byteIdx + BitVec.ofNat 16 j).toNat = s.byteIdx.toNat + j := by
          intro j h0 h1
          have h2 : (s.byteIdx + BitVec.ofNat 16 j).toNat = s.byteIdx.toNat + j := by
            rw [BitVec.toNat_add, BitVec.toNat_ofNat, Nat.mod_eq_of_lt (by omega : j < 2 ^ 16)]
            exact Nat.mod_eq_of_lt h1
          exact ⟨fun e => by rw [e] at h2; omega, h2⟩
        have hesn : es.length ≤ n := by
          have := g.how
          split at this <;> omega
        refine ⟨e :: es, last, ?_⟩
        show ReadDataSpec (n + 1) s (readData n (nextByte t)) (e :: es) last
        exact {
          run := by
            have := h1.trans (hn.trans g.run)
            rw [hdel, hi, htl, bv16_shift] at this
            simpa [readDataEvents, readByteEvents, ReadEnd.data] using this
          good := by
            intro b hb
            rcases List.mem_cons.1 hb with rfl | hb
            · exact ⟨h.ok, hres⟩
            · exact hpar ▸ g.good b hb
          bad := fun b hb => hpar ▸ g.bad b hb
          how := by
            have := g.how
            rw [hi, hlen] at this
            split at this
            · exact ⟨by rw [List.length_cons, this.1], this.2⟩
            · exact ⟨by rw [List.length_cons]; omega, this.2⟩
            · refine ⟨by rw [List.length_cons]; omega, this.2.1, ?_⟩
              rw [List.length_cons, ← bv16_shift]
              exact this.2.2
          byteIdx := by rw [g.byteIdx, hi, List.length_cons, bv16_shift]
          arbLost := g.arbLost.trans (by
            show t.arbLost = _
            rw [hf]
            exact h.regs.2.2.2)
          cause := by rw [g.cause, hca]
          tcs := fun _ => g.tcs (by
            show t.tcs = false
            rw [hf]
            exact h.tcs)
          bitCnt := fun _ => g.bitCnt (by
            show t.bitCnt ≤ 8
            rw [hf]
            exact hbits)
          counter := fun _ => hpar ▸ g.counter (by
            rw [hpar, hwe]
            exact h.counter)
          stored := by
            intro wf j b hj
            cases j with
            | zero =>
              have : b = e := by simpa using hj.symm
              subst this
              have hkeep := (g.rest s.byteIdx (.inl (by rw [hin']; omega))).1 (hwf wf)
              have := hst.here (by rw [hb1]; exact wf)
              rw [hhb] at this
              simp only [Nat.add_zero, BitVec.add_zero]
              rw [hkeep]
              exact this
            | succ j =>
              have hj' : es[j]? = some b := by simpa using hj
              have hjl : j < es.length := (List.getElem?_eq_some_iff.1 hj').1
              have := g.stored (hwf wf) j b hj'
              rw [hin', hshift, hi, bv16_shift] at this
              have hb : (nextByte t).hostBytes (s.byteIdx + BitVec.ofNat 16 (j + 1)) =
                  s.hostBytes (s.byteIdx + BitVec.ofNat 16 (j + 1)) :=
                (hst.thereHost _ (hne (j + 1) (by omega) (by omega)).1).trans (hhb _)
              rwa [hb] at this
          rest := by
            intro j hj
            rw [List.length_cons] at hj
            have hji : j ≠ s.byteIdx := fun e => by rw [e] at hj; omega
            obtain ⟨g1, g2⟩ := g.rest j (by rw [hin']; omega)
            refine ⟨fun wf => ?_, ?_⟩
            · rw [g1 (hwf wf)]
              exact (hst.there (by rw [hb1]; exact wf) j hji).trans (by rw [hb1])
            · rw [g2]
              exact (hst.thereHost j hji).trans (hhb j)
          storedHost := by
            intro j h1 h2
            rw [List.length_cons] at h2
            by_cases hj : j = s.byteIdx
            · subst hj
              exact (g.rest s.byteIdx (.inl (by rw [hin']; omega))).2.trans hst.hereHost
            · have : j.toNat ≠ s.byteIdx.toNat := fun e => hj (BitVec.eq_of_toNat_eq e)
              exact g.storedHost j (by rw [hin']; omega) (by rw [hin']; omega)
          noHost := fun hh => g.noHost (hst.noHost (hb2.trans hh)).1
          inside := by
            intro j hj
            cases j with
            | zero => simpa [hb4] using hin
            | succ j =>
              have := g.inside j (by simpa using hj)
              rwa [hin', hshift, hlen] at this }
    · rename_i hw
      rw [Bool.not_eq_true] at hw
      have hres : e.result = false := h.result.symm.trans hw
      rw [hres] at hcau
      refine ⟨[], some e, ?_⟩
      exact {
        run := by simpa [readDataEvents, readLastEvents, readByteEvents] using h.run.data
        good := by simp
        bad := by
          intro b hb
          have : b = e := by simpa using hb.symm
          subst this
          exact h.ok
        how := ⟨Nat.succ_pos n, e, rfl, hres⟩
        byteIdx := by simpa using hb5
        arbLost := h.regs.2.2.2
        cause := by simpa using hcau
        tcs := fun _ => h.tcs
        bitCnt := fun _ => hbits
        counter := fun _ => h.counter
        stored := by simp
        rest := fun j _ => ⟨fun _ => by rw [hb1], hhb j⟩
        storedHost := fun _ h k => absurd k (by simpa using h)
        noHost := fun h => hb2.trans h
        inside := by simp }

end Sys2Proof.Machine
end

