-- ==== Sys2Proof/Laws/Encoding.lean ====
section
/-! SUPPORT. The fields of the command word (30_encoding.md R36): what the decoder takes out is what the encoder put in,
and what each field is as a number. -/

namespace Sys2Proof

theorem cmdOp_toNat (w : Word) : (cmdOp w).toNat = w.toNat % 16 := by
  simp [cmdOp]

theorem cmdAddr_toNat (w : Word) : (cmdAddr w).toNat = w.toNat / 16 % 128 := by
  simp [cmdAddr, Nat.shiftRight_eq_div_pow]

theorem cmdLen_toNat (w : Word) : (cmdLen w).toNat = w.toNat / 65536 := by
  simp only [cmdLen, BitVec.extractLsb'_toNat, Nat.shiftRight_eq_div_pow]
  have := w.isLt
  omega

theorem cmdWord_toNat (op : BitVec 4) (addr : BitVec 7) (len : BitVec 16) :
    (cmdWord op addr len).toNat = len.toNat * 65536 + addr.toNat * 16 + op.toNat := by
  have h1 := op.isLt
  have h2 := addr.isLt
  simp only [cmdWord, BitVec.toNat_append]
  rw [← Nat.shiftLeft_add_eq_or_of_lt (by omega), ← Nat.shiftLeft_add_eq_or_of_lt (by omega),
    ← Nat.shiftLeft_add_eq_or_of_lt (by simp)]
  simp only [Nat.shiftLeft_eq, BitVec.toNat_ofNat]
  omega

@[simp] theorem cmdOp_cmdWord (op : BitVec 4) (addr : BitVec 7) (len : BitVec 16) : cmdOp (cmdWord op addr len) = op := by
  apply BitVec.eq_of_toNat_eq
  have := op.isLt
  rw [cmdOp_toNat, cmdWord_toNat]
  omega

@[simp] theorem cmdAddr_cmdWord (op : BitVec 4) (addr : BitVec 7) (len : BitVec 16) :
    cmdAddr (cmdWord op addr len) = addr := by
  apply BitVec.eq_of_toNat_eq
  have := op.isLt
  have := addr.isLt
  rw [cmdAddr_toNat, cmdWord_toNat]
  omega

@[simp] theorem cmdLen_cmdWord (op : BitVec 4) (addr : BitVec 7) (len : BitVec 16) :
    cmdLen (cmdWord op addr len) = len := by
  apply BitVec.eq_of_toNat_eq
  have := op.isLt
  have := addr.isLt
  rw [cmdLen_toNat, cmdWord_toNat]
  omega

/-- Two's complement: a value of the argument's range comes back (R37). -/
theorem argument_roundtrip {us : Int} (h1 : -2147483648 ≤ us) (h2 : us ≤ 2147483647) :
    (BitVec.ofInt 32 us).toInt = us := by
  rw [BitVec.toInt_ofInt]
  apply Int.bmod_eq_of_le <;> omega

/-- The fields that a command reads decide it (44_i2c_master.md R83). -/
theorem decodeCmd_congr {w w' a a' : Word} (h1 : cmdOp w = cmdOp w') (h2 : cmdOp w = 0x1#4 → a = a')
    (h3 : cmdOp w = 0x4#4 ∨ cmdOp w = 0x5#4 → cmdAddr w = cmdAddr w' ∧ cmdLen w = cmdLen w') :
    decodeCmd w a = decodeCmd w' a' := by
  unfold decodeCmd
  rw [← h1]
  have e (n : Nat) (hn : n < 16) (h : (cmdOp w).toNat = n) : cmdOp w = BitVec.ofNat 4 n :=
    BitVec.eq_of_toNat_eq (by rw [h]; simp; omega)
  split <;> try rfl
  · rename_i h
    rw [h2 (e 1 (by omega) h)]
  · rename_i h
    obtain ⟨ha, hl⟩ := h3 (.inl (e 4 (by omega) h))
    rw [ha, hl]
  · rename_i h
    obtain ⟨ha, hl⟩ := h3 (.inr (e 5 (by omega) h))
    rw [ha, hl]

end Sys2Proof
end

