-- ==== Sys2Proof/Laws/Messages.lean ====
section
/-! SUPPORT. What a message command does from acceptance to its end (44_i2c_master.md R84, R85, R89, R90; 60_exceptions.md
R105). -/

namespace Sys2Proof.Machine

/-- `t` comes from `s` by operations of a message command that append the events `es`. -/
structure Run (s t : State) (es : List Event) : Prop where
  trace : t.trace = s.trace ++ es
  time : t.nowUs = s.nowUs + elapsed es
  sda : t.sdaDrv = linesAfter .sda s.sdaDrv es
  scl : t.sclDrv = linesAfter .scl s.sclDrv es
  delayCnt : s.delayCnt = 0#31 → t.delayCnt = 0#31
  bufWf : s.buf.wf = true → t.buf.wf = true
  kept : Kept s t

theorem Kept.trans {s t u : State} (h : Kept s t) (k : Kept t u) : Kept s u where
  params := k.params.trans h.params
  delayUs := k.delayUs.trans h.delayUs
  port := k.port.trans h.port
  rstIn := k.rstIn.trans h.rstIn
  bufLen := k.bufLen.trans h.bufLen
  uop := k.uop.trans h.uop
  uopByte := k.uopByte.trans h.uopByte
  uopPoll := k.uopPoll.trans h.uopPoll
  uopResult := k.uopResult.trans h.uopResult
  uopData := k.uopData.trans h.uopData

theorem Run.trans {s t u : State} {es fs : List Event} (h : Run s t es) (k : Run t u fs) : Run s u (es ++ fs) where
  trace := by rw [k.trace, h.trace, List.append_assoc]
  time := by rw [k.time, h.time, elapsed_append, Nat.add_assoc]
  sda := by rw [k.sda, h.sda, linesAfter_append]
  scl := by rw [k.scl, h.scl, linesAfter_append]
  delayCnt := fun d => k.delayCnt (h.delayCnt d)
  bufWf := fun w => k.bufWf (h.bufWf w)
  kept := h.kept.trans k.kept

theorem DataRun.run {s t : State} {es : List Event} (h : DataRun s t es) : Run s t es where
  trace := h.trace
  time := h.time
  sda := h.sda
  scl := h.scl
  delayCnt := h.delayCnt
  bufWf := h.bufWf
  kept := by
    rw [h.frame]
    exact ⟨rfl, rfl, rfl, rfl, rfl, rfl, rfl, rfl, rfl, rfl⟩

theorem BusRun.run {s t : State} {es : List Event} (h : BusRun s t es) : Run s t es := h.data.run

/-- Register writes between two atomic steps. -/
theorem Run.regs {s t : State} (h1 : t.trace = s.trace) (h2 : t.nowUs = s.nowUs) (h3 : t.sdaDrv = s.sdaDrv)
    (h4 : t.sclDrv = s.sclDrv) (h5 : t.delayCnt = s.delayCnt) (h6 : s.buf.wf = true → t.buf.wf = true)
    (h7 : Kept s t) : Run s t [] where
  trace := by rw [h1, List.append_nil]
  time := h2
  sda := h3
  scl := h4
  delayCnt := fun d => h5.trans d
  bufWf := h6
  kept := h7

theorem Kept.refl (s : State) : Kept s s := ⟨rfl, rfl, rfl, rfl, rfl, rfl, rfl, rfl, rfl, rfl⟩

theorem openTransaction_run (rw : Bool) (addr : BitVec 7) (len : BitVec 16) (s : State) :
    Run s (openTransaction rw addr len s) [] :=
  .regs rfl rfl rfl rfl rfl id ⟨rfl, rfl, rfl, rfl, rfl, rfl, rfl, rfl, rfl, rfl⟩

theorem setPhase_run (p : Phase) (s : State) : Run s (setPhase p s) [] :=
  .regs rfl rfl rfl rfl rfl id ⟨rfl, rfl, rfl, rfl, rfl, rfl, rfl, rfl, rfl, rfl⟩

theorem setByteIdx_run (i : BitVec 16) (s : State) : Run s (setByteIdx i s) [] :=
  .regs rfl rfl rfl rfl rfl id ⟨rfl, rfl, rfl, rfl, rfl, rfl, rfl, rfl, rfl, rfl⟩

theorem landHostWrites_run (s : State) : Run s (landHostWrites s) [] :=
  .regs rfl rfl rfl rfl rfl (landHostWrites_wf s) ⟨rfl, rfl, rfl, rfl, rfl, rfl, rfl, rfl, rfl, rfl⟩

theorem respond_run (r : Bool) (s : State) : Run s (respond r s) [.rsp r s.cause s.arbLost] :=
  ⟨rfl, rfl, rfl, rfl, id, id, ⟨rfl, rfl, rfl, rfl, rfl, rfl, rfl, rfl, rfl, rfl⟩⟩

/-! ### The end of a message -/

/-- What a command that has responded leaves, from the cause and the flag before the response (R85, R106). -/
structure Responded (c : BitVec 3) (a : Bool) (r : Bool) (t : State) : Prop where
  rspResult : t.rspResult = r
  rspErr : t.rspErr = c
  rspArb : t.rspArb = a
  rspValid : t.rspValid = true
  strobes : t.bufRd = false ∧ t.bufWr = false
  active : t.active = false
  cause : t.cause = c
  arbLost : t.arbLost = a

theorem respond_responded (r : Bool) (s : State) : Responded s.cause s.arbLost r (respond r s) :=
  ⟨rfl, rfl, rfl, rfl, ⟨rfl, rfl⟩, rfl, rfl, rfl⟩

/-- The registers of a transaction that its end leaves alone (10_state.md R10, R11). -/
def EndFrame (s t : State) : Prop :=
  t.tAddr = s.tAddr ∧ t.tRw = s.tRw ∧ t.tLen = s.tLen ∧ t.byteIdx = s.byteIdx ∧ t.txByte = s.txByte ∧
  t.bitCnt = s.bitCnt ∧ t.curBit = s.curBit ∧ t.rxAcc = s.rxAcc ∧ t.ack = s.ack ∧ t.tcs = s.tcs

/-- What the end of a message does: STOP with branch `b`, the host's own writes, and the response. -/
structure StopSpec (r : Bool) (s t : State) (b : Option (Nat × Bool)) : Prop where
  branch : b.isNone = s.arbLost
  bound : ∀ k v, b = some (k, v) → k ≤ s.params.sclStretchTimeoutUs ∧ (v = false → k = s.params.sclStretchTimeoutUs)
  run : Run s t (stopEvents s.delayUs.toNat b ++ [.rsp r s.cause s.arbLost])
  responded : Responded s.cause s.arbLost r t
  phase : t.phase = .idle
  frame : EndFrame s t
  counter : s.waitElapsed ≤ max s.params.busIdleTimeoutUs s.params.sclStretchTimeoutUs →
    t.waitElapsed ≤ max s.params.busIdleTimeoutUs s.params.sclStretchTimeoutUs
  released : t.released
  buf : t.buf = (landHostWrites s).buf
  host : t.hostWrites = [] ∧ t.misanswers = []

theorem endWithStop_spec (r : Bool) (s : State) : ∃ b, StopSpec r s (endWithStop r s) b := by
  obtain ⟨b, h⟩ := stopCondition_end (setPhase .stop s)
  have hrel := stopCondition_released (setPhase .stop s)
  obtain ⟨hb1, hb2, hb3, _, hb5⟩ := h.run.buffer
  have hrun := h.run
  have hcause := h.cause
  have harb := h.arbLost
  have hregs := h.regs
  have hcount := h.counter
  have hfr : (stopCondition (setPhase .stop s)).tAddr = s.tAddr ∧ (stopCondition (setPhase .stop s)).tRw = s.tRw ∧
      (stopCondition (setPhase .stop s)).tLen = s.tLen := by
    rw [hrun.frame]
    exact ⟨rfl, rfl, rfl⟩
  unfold endWithStop
  generalize stopCondition (setPhase .stop s) = u at *
  have hr := (setPhase_run .stop s).trans (hrun.run.trans ((setPhase_run .idle u).trans
    ((landHostWrites_run _).trans (respond_run r (landHostWrites (setPhase .idle u))))))
  have hce : (landHostWrites (setPhase .idle u)).cause = s.cause := hcause
  have hae : (landHostWrites (setPhase .idle u)).arbLost = s.arbLost := harb
  rw [hce, hae] at hr
  have hresp := respond_responded r (landHostWrites (setPhase .idle u))
  rw [hce, hae] at hresp
  refine ⟨b, ?_⟩
  exact {
    branch := h.branch
    bound := h.bound
    run := by simpa using hr
    responded := hresp
    phase := rfl
    frame := ⟨hfr.1, hfr.2.1, hfr.2.2, hb5, hregs.1, hregs.2.1, hregs.2.2.1, hregs.2.2.2.1, hregs.2.2.2.2.1,
      hregs.2.2.2.2.2⟩
    counter := hcount
    released := hrel
    buf := by
      show (landHostWrites (setPhase .idle u)).buf = _
      simp only [landHostWrites_buf, setPhase_hostWrites, setPhase_buf, hb1, hb2]
    host := ⟨rfl, rfl⟩ }

/-- The abort path (60_exceptions.md R105). -/
theorem abortMessage_spec (s : State) : ∃ b, StopSpec false s (abortMessage s) b := by
  obtain ⟨b, h⟩ := endWithStop_spec false (setPhase .aborted s)
  exact ⟨b, { h with run := (setPhase_run .aborted s).trans h.run }⟩

/-! ### The message -/

/-- A state inside a transaction, after its START and its address byte, which was sent as `e` says. -/
structure Addressed (rw : Bool) (addr : BitVec 7) (len : BitVec 16) (s u : State) (lows : List (Bool × Bool))
    (e : WriteEnd) : Prop where
  low : ∀ p ∈ lows, (p.1 && p.2) = false
  bound : lows.length ≤ s.params.busIdleTimeoutUs
  ok : e.Ok s.params.sclStretchTimeoutUs (addressByte addr rw)
  run : Run s u (startEvents s.delayUs.toNat lows (true, true) ++
    writeByteEvents s.delayUs.toNat (addressByte addr rw) e)
  latch : u.tAddr = addr ∧ u.tRw = rw ∧ u.tLen = len
  arbLost : u.arbLost = e.arbAfter false
  cause : u.cause = e.causeAfter codeOk
  tcs : u.tcs = false
  bitCnt : u.bitCnt ≤ 8
  counter : u.waitElapsed ≤ s.params.sclStretchTimeoutUs
  buffer : u.buf = s.buf ∧ u.hostWrites = s.hostWrites ∧ u.misanswers = s.misanswers
  active : u.active = true
  rsp : u.rspResult = s.rspResult ∧ u.rspErr = s.rspErr ∧ u.rspArb = s.rspArb

/-- The data phase of a message. -/
def DataSpec (rw : Bool) (n : Nat) (u : State) (r : DataEnd × State) : Prop :=
  if rw then ∃ es last, ReadDataSpec n u r es last else ∃ bs last, WriteDataSpec n u r bs last

/-- A message whose START failed. -/
structure MsgBusy (rw : Bool) (addr : BitVec 7) (len : BitVec 16) (s t : State) (lows : List (Bool × Bool))
    (last : Bool × Bool) : Prop where
  low : ∀ p ∈ lows, (p.1 && p.2) = false
  lastLow : (last.1 && last.2) = false
  count : lows.length = s.params.busIdleTimeoutUs
  run : Run s t (startEvents s.delayUs.toNat lows last ++ [.rsp false Cause.busBusyTimeout.code false])
  responded : Responded Cause.busBusyTimeout.code false false t
  phase : t.phase = .idle
  latch : t.tAddr = addr ∧ t.tRw = rw ∧ t.tLen = len
  engine : t.tcs = s.tcs ∧ t.bitCnt = s.bitCnt
  counter : t.waitElapsed ≤ max s.params.busIdleTimeoutUs s.params.sclStretchTimeoutUs
  released : t.released
  buf : t.buf = (landHostWrites s).buf
  host : t.hostWrites = [] ∧ t.misanswers = []

/-- How a message command goes from `s` to `t`. -/
inductive MsgCase (rw : Bool) (addr : BitVec 7) (len : BitVec 16) (s t : State) : Prop where
  /-- START failed. -/
  | busy (lows : List (Bool × Bool)) (last : Bool × Bool) (h : MsgBusy rw addr len s t lows last)
  /-- The address byte failed. -/
  | address (u : State) (lows : List (Bool × Bool)) (e : WriteEnd) (b : Option (Nat × Bool))
      (h : Addressed rw addr len s u lows e) (bad : e.result false = false) (stop : StopSpec false u t b)
  /-- The data phase ran. -/
  | data (u : State) (lows : List (Bool × Bool)) (e : WriteEnd) (r : DataEnd × State)
      (h : Addressed rw addr len s u lows e) (good : e.result false = true) (idx : u.byteIdx = 0#16)
      (phase : u.phase = .data) (data : DataSpec rw len.toNat u r)
      (tail : match r.1 with
        | .done => ∃ b, StopSpec true r.2 t b
        | .failed => ∃ b, StopSpec false r.2 t b
        | .stuck => t = r.2)

theorem endAtStart_spec (s : State) : Run s (endAtStart s) [.rsp false s.cause s.arbLost] ∧
    Responded s.cause s.arbLost false (endAtStart s) ∧ EndFrame s (endAtStart s) ∧
    (endAtStart s).waitElapsed = s.waitElapsed ∧ (endAtStart s).buf = (landHostWrites s).buf :=
  ⟨(setPhase_run .idle s).trans ((landHostWrites_run _).trans (respond_run false _)), respond_responded false (landHostWrites (setPhase .idle s)),
    ⟨rfl, rfl, rfl, rfl, rfl, rfl, rfl, rfl, rfl, rfl⟩, rfl, rfl⟩

theorem dataPhase_spec (rw : Bool) (s : State) (ha : s.arbLost = false) :
    DataSpec rw s.tLen.toNat (setByteIdx 0#16 (setPhase .data s)) (dataPhase rw s) := by
  have hl : (0#16).toNat + s.tLen.toNat ≤ 65535 := by
    have := s.tLen.isLt
    simp only [BitVec.toNat_ofNat, Nat.zero_mod]
    omega
  cases rw
  · exact writeData_spec s.tLen.toNat (setByteIdx 0#16 (setPhase .data s)) ha
  · exact readData_spec s.tLen.toNat (setByteIdx 0#16 (setPhase .data s)) hl

theorem runMessage_case (rw : Bool) (addr : BitVec 7) (len : BitVec 16) (s : State) :
    MsgCase rw addr len s (runMessage rw addr len s) := by
  obtain ⟨lows, last, h⟩ := startCondition_end (openTransaction rw addr len s)
  have h0 := openTransaction_run rw addr len s
  obtain ⟨hb1, hb2, hb3, _, hb5⟩ := h.run.buffer
  have hlatch : (startCondition (openTransaction rw addr len s)).2.tAddr = addr ∧
      (startCondition (openTransaction rw addr len s)).2.tRw = rw ∧
      (startCondition (openTransaction rw addr len s)).2.tLen = len ∧
      (startCondition (openTransaction rw addr len s)).2.active = true ∧
      (startCondition (openTransaction rw addr len s)).2.rspResult = s.rspResult ∧
      (startCondition (openTransaction rw addr len s)).2.rspErr = s.rspErr ∧
      (startCondition (openTransaction rw addr len s)).2.rspArb = s.rspArb := by
    rw [h.run.frame]
    exact ⟨rfl, rfl, rfl, rfl, rfl, rfl, rfl⟩
  obtain ⟨l1, l2, l3, l4, l5⟩ := hlatch
  have hr := h0.trans h.run.run
  rw [show (openTransaction rw addr len s).delayUs = s.delayUs from rfl] at hr
  have hres := h.result
  have harb := h.arbLost
  have hcause := h.cause
  have hfail := h.failed
  have hcount := h.counter
  have hbound := h.bound
  have hregs := h.regs
  unfold runMessage
  dsimp only
  generalize startCondition (openTransaction rw addr len s) = a at *
  have hmax : a.2.waitElapsed ≤ max s.params.busIdleTimeoutUs s.params.sclStretchTimeoutUs := by
    rw [hcount]
    exact Nat.le_trans hbound (Nat.le_max_left ..)
  split
  · rename_i ha
    rw [ha] at hres hcause
    have hlast : last = (true, true) := by
      obtain ⟨x, y⟩ := last
      simpa using hres
    subst hlast
    obtain ⟨e, g⟩ := writeByte_spec (addressByte a.2.tAddr a.2.tRw) (setPhase .address a.2)
    rw [l1, l2] at g ⊢
    have hp : (setPhase .address a.2).params = s.params := hr.kept.params
    have hd : (setPhase .address a.2).delayUs = s.delayUs := hr.kept.delayUs
    have hok := g.ok
    have hrun := g.run
    have hresult := g.result
    have harb2 := g.arbLost
    have hcause2 := g.cause
    have hcount2 := g.counter
    rw [hp] at hok hcount2
    rw [hd] at hrun
    rw [show (setPhase .address a.2).arbLost = false from harb] at hresult harb2
    rw [show (setPhase .address a.2).cause = codeOk from hcause] at hcause2
    obtain ⟨gb1, gb2, gb3, _, gb5⟩ := hrun.buffer
    have glatch : (writeByte (addressByte addr rw) (setPhase .address a.2)).2.tAddr = a.2.tAddr ∧
        (writeByte (addressByte addr rw) (setPhase .address a.2)).2.tRw = a.2.tRw ∧
        (writeByte (addressByte addr rw) (setPhase .address a.2)).2.tLen = a.2.tLen ∧
        (writeByte (addressByte addr rw) (setPhase .address a.2)).2.active = a.2.active ∧
        (writeByte (addressByte addr rw) (setPhase .address a.2)).2.rspResult = a.2.rspResult ∧
        (writeByte (addressByte addr rw) (setPhase .address a.2)).2.rspErr = a.2.rspErr ∧
        (writeByte (addressByte addr rw) (setPhase .address a.2)).2.rspArb = a.2.rspArb := by
      rw [hrun.frame]
      exact ⟨rfl, rfl, rfl, rfl, rfl, rfl, rfl⟩
    have hadd : Addressed rw addr len s (writeByte (addressByte addr rw) (setPhase .address a.2)).2 lows e := {
      low := h.low
      bound := hbound
      ok := hok
      run := by simpa [writeByteEvents] using hr.trans ((setPhase_run .address a.2).trans hrun.run)
      latch := ⟨glatch.1.trans l1, glatch.2.1.trans l2, glatch.2.2.1.trans l3⟩
      arbLost := harb2
      cause := hcause2
      tcs := g.tcs
      bitCnt := by
        rw [g.bitCnt]
        exact WriteEnd.bits_le hok
      counter := hcount2
      buffer := ⟨gb1.trans hb1, gb2.trans hb2, gb3.trans hb3⟩
      active := glatch.2.2.2.1.trans l4
      rsp := ⟨glatch.2.2.2.2.1.trans l5.1, glatch.2.2.2.2.2.1.trans l5.2.1, glatch.2.2.2.2.2.2.trans l5.2.2⟩ }
    generalize writeByte (addressByte addr rw) (setPhase .address a.2) = w at *
    split
    · rename_i hw
      have hgood : e.result false = true := hresult.symm.trans hw
      have hgd := WriteEnd.good_cause codeOk ⟨hok, hgood⟩
      have hdata := dataPhase_spec rw w.2 (harb2.trans hgd.2)
      rw [hadd.latch.2.2] at hdata
      have hadd' : Addressed rw addr len s (setByteIdx 0#16 (setPhase .data w.2)) lows e := { hadd with
        run := by simpa using hadd.run.trans ((setPhase_run .data w.2).trans (setByteIdx_run 0#16 _)) }
      generalize dataPhase rw w.2 = r at *
      refine .data (setByteIdx 0#16 (setPhase .data w.2)) lows e r hadd' hgood rfl rfl hdata ?_
      obtain ⟨d, v⟩ := r
      cases d
      · exact endWithStop_spec true v
      · exact abortMessage_spec v
      · rfl
    · rename_i hw
      rw [Bool.not_eq_true] at hw
      obtain ⟨b, hb⟩ := abortMessage_spec w.2
      exact .address w.2 lows e b hadd (hresult.symm.trans hw) hb
  · rename_i ha
    rw [Bool.not_eq_true] at ha
    rw [ha] at hres hcause
    obtain ⟨k1, k2, k3, k4, k5⟩ := endAtStart_spec a.2
    rw [show a.2.cause = Cause.busBusyTimeout.code from hcause, harb] at k1 k2
    have hrun := hr.trans k1
    refine .busy lows last ?_
    exact {
      low := h.low
      lastLow := hres
      count := hfail ha
      run := by simpa using hrun
      responded := k2
      phase := rfl
      latch := ⟨k3.1.trans l1, k3.2.1.trans l2, k3.2.2.1.trans l3⟩
      engine := ⟨k3.2.2.2.2.2.2.2.2.2.trans hregs.2.2.2.2.2, k3.2.2.2.2.2.1.trans hregs.2.1⟩
      counter := by
        rw [k4]
        exact hmax
      released := by
        unfold State.released
        rw [hrun.sda, hrun.scl]
        simp only [startEvents, hres]
        constructor <;> simp [lineAfter]
      buf := by
        rw [k5]
        simp only [landHostWrites_buf, hb1, hb2]
        rfl
      host := ⟨rfl, rfl⟩ }

end Sys2Proof.Machine
end

