-- ==== Sys2Proof/Laws/Exec.lean ====
section
/-! SUPPORT. What `exec` answers for the operations with a specification of their own: the next state, and what it holds.
Callers cite these and never unfold the operations. -/

namespace Sys2Proof.Machine

theorem exec_waitSclHigh (s : State) : ∃ r k, exec .waitSclHigh s = .next (setUopResult r.1 r.2) ∧
    WaitEnd s.params.sclStretchTimeoutUs .clockStretchTimeout (setWaitElapsed 0 s) r k (sclPolls k) (.sm .scl r.1) := by
  obtain ⟨k, h⟩ := waitSclHigh_end s
  exact ⟨waitSclHigh s, k, rfl, h⟩

theorem exec_waitBusIdle (s : State) : ∃ (r : Bool × State) (lows : List (Bool × Bool)) (last : Bool × Bool),
    exec .waitBusIdle s = .next (setUopResult r.1 r.2) ∧
    (∀ p ∈ lows, (p.1 && p.2) = false) ∧ (last.1 && last.2) = r.1 ∧
    WaitEnd s.params.busIdleTimeoutUs .busBusyTimeout (setWaitElapsed 0 (release .scl (release .sda s))) r lows.length
      (idlePolls lows) (.sm2 last.1 last.2) := by
  obtain ⟨lows, last, h1, h2, h3⟩ := waitBusIdle_end s
  exact ⟨waitBusIdle s, lows, last, rfl, h1, h2, h3⟩

theorem exec_start (s : State) : ∃ r lows last, exec .start s = .next (setUopResult r.1 r.2) ∧
    StartEnd s r lows last := by
  obtain ⟨lows, last, h⟩ := startCondition_end s
  exact ⟨startCondition s, lows, last, rfl, h⟩

theorem exec_stop (s : State) : ∃ t b, exec .stop s = .next t ∧ StopEnd s t b ∧ t.released := by
  obtain ⟨b, h⟩ := stopCondition_end s
  exact ⟨stopCondition s, b, rfl, h, stopCondition_released s⟩

theorem exec_writeByte (s : State) : ∃ r e, exec .writeByte s = .next (setUopResult r.1 r.2) ∧
    WriteSpec s.uopByte s r e := by
  obtain ⟨e, h⟩ := writeByte_spec s.uopByte s
  exact ⟨writeByte s.uopByte s, e, rfl, h⟩

/-- After a failure the data handed back are any byte (R76). -/
theorem exec_readByte (ackreq : Bool) (s : State) : ∃ r e d, exec (.readByte ackreq) s =
      .next (setUopResult r.1 (setUopData d (if r.1 then r.2 else countFree r.2))) ∧
    ReadSpec ackreq s r e ∧ (r.1 = true → d = r.2.rxAcc) := by
  obtain ⟨e, h⟩ := readByte_spec ackreq s
  cases hr : (readByte ackreq s).1
  · refine ⟨readByte ackreq s, e, Config.freeByte (readByte ackreq s).2.freeCtr, ?_, h, fun f => ?_⟩
    · simp only [exec, execReadByte, hr]
      rfl
    · rw [hr] at f
      exact nomatch f
  · refine ⟨readByte ackreq s, e, (readByte ackreq s).2.rxAcc, ?_, h, fun _ => rfl⟩
    simp only [exec, execReadByte, hr]
    rfl

theorem exec_writeMessage (addr len : Nat) (s : State) : ∃ t, exec (.writeMessage addr len) s = .next t ∧
    MsgCase false (BitVec.ofNat 7 addr) (BitVec.ofNat 16 len) s t :=
  ⟨_, rfl, runMessage_case _ _ _ _⟩

theorem exec_readMessage (addr len : Nat) (s : State) : ∃ t, exec (.readMessage addr len) s = .next t ∧
    MsgCase true (BitVec.ofNat 7 addr) (BitVec.ofNat 16 len) s t :=
  ⟨_, rfl, runMessage_case _ _ _ _⟩

end Sys2Proof.Machine
end

