-- ==== Sys2Proof/Laws/PerInstr.lean ====
section
/-! SUPPORT. A law of the encoding, one lemma for each instruction: an instruction whose operands are in range has an
encoding, in its own format, and the decoder reads some instruction from it (30_encoding.md R36, R37, R38, R135, R136). -/

namespace Sys2Proof.Laws.EncodesInRange

/-- A host command or reserved opcode, as against an internal operation (30_encoding.md §1). -/
def isCommand : Instr → Bool
  | .setDelay _ => true
  | .getArbLost => true
  | .clearArb => true
  | .writeMessage _ _ => true
  | .readMessage _ _ => true
  | .reservedOp0 => true
  | .reservedOp6 => true
  | .reservedOp7 => true
  | .reservedOp8 => true
  | .reservedOp9 => true
  | .reservedOpA => true
  | .reservedOpB => true
  | .reservedOpC => true
  | .reservedOpD => true
  | .reservedOpE => true
  | .reservedOpF => true
  | .driveLow _ => false
  | .release _ => false
  | .readLevel _ => false
  | .delay => false
  | .waitBusIdle => false
  | .waitSclHigh => false
  | .start => false
  | .stop => false
  | .writeByte => false
  | .readByte _ => false

/-- The words are a command word with its argument, as against a micro-operation code. -/
def isCmd : Raw → Bool
  | .cmd _ _ => true
  | .uop _ => false

/-- The instruction is encoded, in its own format, and the decoder accepts the encoding. -/
def Statement (i : Instr) : Prop :=
  i.wellFormed = true → ∃ raw, encode i = some raw ∧ isCmd raw = isCommand i ∧ (decode raw).toOption.isSome = true

/-- A well-formed instruction's encoding is its words. -/
theorem encode_wellFormed {i : Instr} (h : i.wellFormed = true) : encode i = some (encodeWords i) := if_pos h

theorem setDelay (us : Int) : Statement (.setDelay us) := fun h => ⟨_, encode_wellFormed h, rfl, rfl⟩
theorem getArbLost : Statement .getArbLost := fun h => ⟨_, encode_wellFormed h, rfl, rfl⟩
theorem clearArb : Statement .clearArb := fun h => ⟨_, encode_wellFormed h, rfl, rfl⟩
theorem writeMessage (addr len : Nat) : Statement (.writeMessage addr len) :=
  fun h => ⟨_, encode_wellFormed h, rfl, rfl⟩
theorem readMessage (addr len : Nat) : Statement (.readMessage addr len) :=
  fun h => ⟨_, encode_wellFormed h, rfl, rfl⟩
theorem reservedOp0 : Statement .reservedOp0 := fun h => ⟨_, encode_wellFormed h, rfl, rfl⟩
theorem reservedOp6 : Statement .reservedOp6 := fun h => ⟨_, encode_wellFormed h, rfl, rfl⟩
theorem reservedOp7 : Statement .reservedOp7 := fun h => ⟨_, encode_wellFormed h, rfl, rfl⟩
theorem reservedOp8 : Statement .reservedOp8 := fun h => ⟨_, encode_wellFormed h, rfl, rfl⟩
theorem reservedOp9 : Statement .reservedOp9 := fun h => ⟨_, encode_wellFormed h, rfl, rfl⟩
theorem reservedOpA : Statement .reservedOpA := fun h => ⟨_, encode_wellFormed h, rfl, rfl⟩
theorem reservedOpB : Statement .reservedOpB := fun h => ⟨_, encode_wellFormed h, rfl, rfl⟩
theorem reservedOpC : Statement .reservedOpC := fun h => ⟨_, encode_wellFormed h, rfl, rfl⟩
theorem reservedOpD : Statement .reservedOpD := fun h => ⟨_, encode_wellFormed h, rfl, rfl⟩
theorem reservedOpE : Statement .reservedOpE := fun h => ⟨_, encode_wellFormed h, rfl, rfl⟩
theorem reservedOpF : Statement .reservedOpF := fun h => ⟨_, encode_wellFormed h, rfl, rfl⟩
theorem driveLow (line : Line) : Statement (.driveLow line) :=
  fun h => ⟨_, encode_wellFormed h, rfl, by cases line <;> rfl⟩
theorem release (line : Line) : Statement (.release line) :=
  fun h => ⟨_, encode_wellFormed h, rfl, by cases line <;> rfl⟩
theorem readLevel (line : Line) : Statement (.readLevel line) :=
  fun h => ⟨_, encode_wellFormed h, rfl, by cases line <;> rfl⟩
theorem delay : Statement .delay := fun h => ⟨_, encode_wellFormed h, rfl, rfl⟩
theorem waitBusIdle : Statement .waitBusIdle := fun h => ⟨_, encode_wellFormed h, rfl, rfl⟩
theorem waitSclHigh : Statement .waitSclHigh := fun h => ⟨_, encode_wellFormed h, rfl, rfl⟩
theorem start : Statement .start := fun h => ⟨_, encode_wellFormed h, rfl, rfl⟩
theorem stop : Statement .stop := fun h => ⟨_, encode_wellFormed h, rfl, rfl⟩
theorem writeByte : Statement .writeByte := fun h => ⟨_, encode_wellFormed h, rfl, rfl⟩
theorem readByte (ackreq : Bool) : Statement (.readByte ackreq) :=
  fun h => ⟨_, encode_wellFormed h, rfl, by cases ackreq <;> rfl⟩

end Sys2Proof.Laws.EncodesInRange
end

