-- ==== Sys2Proof/Laws/Readings.lean ====
section
/-! SUPPORT. What the readings of a trace (bits sent, samples, clock pulses, lines, time) give on the events of the
operations. -/

namespace Sys2Proof.Machine

theorem sdaSamples_cons (e : Event) (es : List Event) :
    sdaSamples (e :: es) = (sdaSample e).toList ++ sdaSamples es := by
  unfold sdaSamples
  rw [List.filterMap_cons]
  cases sdaSample e <;> rfl

@[simp] theorem sdaSamples_nil : sdaSamples [] = [] := rfl

theorem sclEdges_cons (e : Event) (es : List Event) :
    (e :: es).filterMap sclEdge = (sclEdge e).toList ++ es.filterMap sclEdge := by
  rw [List.filterMap_cons]
  cases sclEdge e <;> rfl

/-! ### Poll steps -/

@[simp] theorem sentBits_sclPolls (low : Bool) (k : Nat) : sentBits low (sclPolls k) = [] := by
  induction k with
  | zero => rfl
  | succ k ih => simpa [sclPolls, sentBits, lineAfter] using ih

@[simp] theorem sdaSamples_sclPolls (k : Nat) : sdaSamples (sclPolls k) = [] := by
  induction k with
  | zero => rfl
  | succ k ih => simpa [sclPolls, sdaSamples_cons, sdaSample] using ih

@[simp] theorem sclEdges_sclPolls (k : Nat) : (sclPolls k).filterMap sclEdge = [] := by
  induction k with
  | zero => rfl
  | succ k ih => simpa [sclPolls, sclEdges_cons, sclEdge] using ih

@[simp] theorem plain_sclPolls (k : Nat) : (sclPolls k).all plainEvent = true := by
  induction k with
  | zero => rfl
  | succ k ih => rw [sclPolls, List.all_cons, List.all_cons, ih]; rfl

@[simp] theorem samplesReleased_sclPolls (a : Bool) (k : Nat) : samplesReleased a false (sclPolls k) = true := by
  induction k with
  | zero => rfl
  | succ k ih => simpa [sclPolls, samplesReleased, lineAfter] using ih

@[simp] theorem sdaSetOnly_sclPolls (b : Bool) (k : Nat) : sdaSetOnlyWhileSclLow b (sclPolls k) = true := by
  induction k with
  | zero => rfl
  | succ k ih => simpa [sclPolls, sdaSetOnlyWhileSclLow, lineAfter] using ih

theorem sclPolls_noFailed {k : Nat} (h : (sclPolls k).all (fun e => !failedWaitSample e) = true) : k = 0 := by
  cases k with
  | zero => rfl
  | succ k => simp [sclPolls, failedWaitSample] at h

@[simp] theorem sclEdges_idlePolls (lows : List (Bool × Bool)) : (idlePolls lows).filterMap sclEdge = [] := by
  induction lows with
  | nil => rfl
  | cons p lows ih => simpa [idlePolls, sclEdges_cons, sclEdge] using ih

@[simp] theorem plain_idlePolls (lows : List (Bool × Bool)) : (idlePolls lows).all plainEvent = true := by
  induction lows with
  | nil => rfl
  | cons p lows ih => rw [idlePolls, List.all_cons, List.all_cons, ih]; rfl

@[simp] theorem samplesReleased_idlePolls (lows : List (Bool × Bool)) :
    samplesReleased false false (idlePolls lows) = true := by
  induction lows with
  | nil => rfl
  | cons p lows ih => simpa [idlePolls, samplesReleased, lineAfter] using ih

theorem idlePolls_noFailed {lows : List (Bool × Bool)} (hl : ∀ p ∈ lows, (p.1 && p.2) = false)
    (h : (idlePolls lows).all (fun e => !failedWaitSample e) = true) : lows = [] := by
  cases lows with
  | nil => rfl
  | cons p lows =>
    have := hl p (List.mem_cons_self ..)
    simp [idlePolls, failedWaitSample, this] at h

/-! ### Bus events -/

theorem busEvents_buffer {es : List Event} (h : es.all busEvent = true) :
    bufReads es = [] ∧ bufWrites es = [] ∧ responses es = [] := by
  induction es with
  | nil => exact ⟨rfl, rfl, rfl⟩
  | cons e es ih =>
    rw [List.all_cons, Bool.and_eq_true] at h
    obtain ⟨h1, h2, h3⟩ := ih h.2
    cases e <;> first | exact ⟨h1, h2, h3⟩ | exact nomatch h.1

theorem messageEvents_responses {es : List Event} (h : es.all messageEvent = true) : responses es = [] := by
  induction es with
  | nil => rfl
  | cons e es ih =>
    rw [List.all_cons, Bool.and_eq_true] at h
    have := ih h.2
    cases e <;> first | exact this | exact nomatch h.1

/-! ### WRITE_BYTE -/

theorem sentBits_writeCellHead (low : Bool) (d : Nat) (b : Bool) (k : Nat) :
    sentBits low (writeCellHead d b k) = [b] := by
  cases b <;> simp [writeCellHead, sentBits, lineAfter]

@[simp] theorem sentBits_writeCell (low : Bool) (d : Nat) (b : Bool) (k : Nat) (c : CellEnd) :
    sentBits low (writeCellEvents d b k c) = [b] := by
  cases c <;> cases b <;> simp [writeCellEvents, sentBits_append, sentBits_writeCellHead, sentBits]

theorem sentBits_writeCells (low : Bool) (d : Nat) (v : Byte) (i : Nat) (ks : List Nat) :
    sentBits low (writeCellsEvents d v i ks) = (List.range' i ks.length).map (wireBit v) := by
  induction ks generalizing i low with
  | nil => rfl
  | cons k ks ih => simp [writeCellsEvents, sentBits_append, ih, List.range'_succ]

/-- The first `n` bits of a byte in the order of the wire. -/
theorem wireBits_take (v : Byte) {n : Nat} (h : n ≤ 8) : (List.range' 0 n).map (wireBit v) = (wireBits v).take n := by
  obtain ⟨m, hm⟩ := Nat.exists_eq_add_of_le h
  have whole : wireBits v = (List.range' 0 (n + m)).map (wireBit v) := hm ▸ rfl
  rw [whole, ← List.range'_append_1, List.map_append, List.take_left' (by simp)]

theorem wireBits_take_succ (v : Byte) {n : Nat} (h : n < 8) :
    (wireBits v).take n ++ [wireBit v n] = (wireBits v).take (n + 1) := by
  rw [← wireBits_take v (Nat.le_of_lt h), ← wireBits_take v h, List.range'_concat, List.map_append]
  simp

theorem sentBits_writeEvents {T : Nat} (low : Bool) (d : Nat) (v : Byte) (e : WriteEnd) (h : e.Ok T v) :
    sentBits low (writeEvents d v e) = (wireBits v ++ [true]).take (e.bits + 1) := by
  have h8 : (wireBits v).length = 8 := rfl
  cases e with
  | full ks k sda =>
    have hl : ks.length = 8 := h.2.1
    simp [writeEvents, WriteEnd.bits, sentBits_append, sentBits_writeCells, ackHead, sentBits, lineAfter, hl, wireBits_take]
    exact (List.take_of_length_le (by simp [h8])).symm
  | ackTimeout ks k =>
    have hl : ks.length = 8 := h.2.1
    simp [writeEvents, WriteEnd.bits, sentBits_append, sentBits_writeCells, ackHead, sentBits, lineAfter, hl, wireBits_take]
    exact (List.take_of_length_le (by simp [h8])).symm
  | cellTimeout ks k =>
    have hl : ks.length < 8 := h.2.1
    simp only [writeEvents, WriteEnd.bits, sentBits_append, sentBits_writeCells, sentBits_writeCell,
      wireBits_take v (Nat.le_of_lt hl), wireBits_take_succ v hl]
    rw [List.take_append_of_le_length (by rw [h8]; omega)]
  | cellLost ks k =>
    have hl : ks.length < 8 := h.2.1
    simp only [writeEvents, WriteEnd.bits, sentBits_append, sentBits_writeCells, sentBits_writeCell,
      wireBits_take v (Nat.le_of_lt hl), wireBits_take_succ v hl]
    rw [List.take_append_of_le_length (by rw [h8]; omega)]

theorem sdaSamples_writeCell (d : Nat) (b : Bool) (k : Nat) :
    sdaSamples (writeCellEvents d b k .done) = if b then [true] else [] := by
  cases b <;> simp [writeCellEvents, writeCellHead, sdaSamples_cons, sdaSample]

theorem sdaSamples_writeCells (d : Nat) (v : Byte) (i : Nat) (ks : List Nat) :
    sdaSamples (writeCellsEvents d v i ks) =
      List.replicate (((List.range' i ks.length).map (wireBit v)).count true) true := by
  induction ks generalizing i with
  | nil => rfl
  | cons k ks ih =>
    simp only [writeCellsEvents, sdaSamples_append, sdaSamples_writeCell, ih, List.length_cons, List.range'_succ,
      List.map_cons]
    cases wireBit v i <;> simp [List.replicate_succ]

@[simp] theorem sdaSamples_writeCellHead (d : Nat) (b : Bool) (k : Nat) : sdaSamples (writeCellHead d b k) = [] := by
  cases b <;> simp [writeCellHead, sdaSamples_cons, sdaSample]

@[simp] theorem sdaSamples_ackHead (k : Nat) : sdaSamples (ackHead k) = [] := by
  simp [ackHead, sdaSamples_cons, sdaSample]

/-! ### Clock pulses -/

/-- The clock pulses of a list of events that comes after a DriveLow(SCL). -/
def pulsesAfterLow (es : List Event) : Nat := pulsesOf (true :: es.filterMap sclEdge)

/-- The pulses of a cell: SCL is driven low, released, and driven low. -/
theorem pulses_cell (rest : List Bool) : pulsesOf (true :: true :: false :: true :: rest) = 1 + pulsesOf (true :: rest) := by
  cases rest with
  | nil => rfl
  | cons a rest => cases rest <;> simp [pulsesOf]

/-- The pulse of an ACK bit: SCL is released and driven low. -/
theorem pulses_ack (rest : List Bool) : pulsesOf (true :: false :: true :: rest) = 1 + pulsesOf (true :: rest) := by
  cases rest with
  | nil => rfl
  | cons a rest => cases rest <;> simp [pulsesOf]

theorem pulsesAfterLow_writeCells (d : Nat) (v : Byte) (i : Nat) (ks : List Nat) (es : List Event) :
    pulsesAfterLow (writeCellsEvents d v i ks ++ es) = ks.length + pulsesAfterLow es := by
  induction ks generalizing i with
  | nil => simp [writeCellsEvents]
  | cons k ks ih =>
    have hcell : (writeCellEvents d (wireBit v i) k .done).filterMap sclEdge = [true, false, true] := by
      cases wireBit v i <;> simp [writeCellEvents, writeCellHead, sclEdges_cons, sclEdge]
    have := ih (i + 1)
    unfold pulsesAfterLow at this ⊢
    rw [writeCellsEvents, List.append_assoc, List.filterMap_append, hcell]
    simp only [List.cons_append, List.nil_append]
    rw [pulses_cell, this, List.length_cons]
    omega

theorem pulsesAfterLow_full {T : Nat} (d : Nat) (v : Byte) (ks : List Nat) (k : Nat) (sda : Bool) (es : List Event)
    (h : (WriteEnd.full ks k sda).Ok T v) :
    pulsesAfterLow (writeByteEvents d v (.full ks k sda) ++ es) = 9 + pulsesAfterLow es := by
  have hl : ks.length = 8 := h.2.1
  have hedges : ∀ fs : List Event, pulsesAfterLow (ackHead k ++ [.sm .scl true, .dy d, .sm .sda sda, .dl .scl, .rl .sda] ++
      fs) = 1 + pulsesAfterLow fs := by
    intro fs
    have : (ackHead k ++ [Event.sm .scl true, .dy d, .sm .sda sda, .dl .scl, .rl .sda] ++ fs).filterMap sclEdge =
        [false, true] ++ fs.filterMap sclEdge := by simp [ackHead, sclEdges_cons, sclEdge]
    unfold pulsesAfterLow
    rw [this]
    exact pulses_ack _
  have hta : ∀ fs, pulsesAfterLow (.ta :: fs) = pulsesAfterLow fs := fun fs => rfl
  have htr : ∀ fs, pulsesAfterLow (.tr :: fs) = pulsesAfterLow fs := fun fs => rfl
  have : writeByteEvents d v (.full ks k sda) ++ es = .ta :: (writeCellsEvents d v 0 ks ++
      (ackHead k ++ [.sm .scl true, .dy d, .sm .sda sda, .dl .scl, .rl .sda] ++ (.tr :: es))) := by
    simp [writeByteEvents, writeEvents]
  rw [this, hta, pulsesAfterLow_writeCells, hedges, htr, hl]
  omega

/-! ### READ_BYTE -/

theorem sentBits_readCell (low : Bool) (d k : Nat) (b : Bool) : sentBits low (readCellEvents d k b) = [true] := by
  simp [readCellEvents, readCellHead, sentBits, sentBits_append, lineAfter]

theorem sentBits_readCells (low : Bool) (d : Nat) (cs : List (Nat × Bool)) :
    sentBits low (readCellsEvents d cs) = List.replicate cs.length true := by
  induction cs generalizing low with
  | nil => rfl
  | cons c cs ih => simp [readCellsEvents, sentBits_append, sentBits_readCell, ih, List.replicate_succ]

theorem sdaSamples_readCells (d : Nat) (cs : List (Nat × Bool)) :
    sdaSamples (readCellsEvents d cs) = cs.map (·.2) := by
  induction cs with
  | nil => rfl
  | cons c cs ih =>
    have : sdaSamples (readCellEvents d c.1 c.2) = [c.2] := by
      simp [readCellEvents, readCellHead, sdaSamples_cons, sdaSample]
    simp [readCellsEvents, this, ih]

theorem pulsesAfterLow_readCells (d : Nat) (cs : List (Nat × Bool)) (es : List Event) :
    pulsesAfterLow (readCellsEvents d cs ++ es) = cs.length + pulsesAfterLow es := by
  induction cs with
  | nil => simp [readCellsEvents]
  | cons c cs ih =>
    have hcell : (readCellEvents d c.1 c.2).filterMap sclEdge = [true, false, true] := by
      simp [readCellEvents, readCellHead, sclEdges_cons, sclEdge]
    unfold pulsesAfterLow at ih ⊢
    rw [readCellsEvents, List.append_assoc, List.filterMap_append, hcell]
    simp only [List.cons_append, List.nil_append]
    rw [pulses_cell, ih, List.length_cons]
    omega

theorem pulsesAfterLow_readFull {T : Nat} (d : Nat) (q : Bool) (cs : List (Nat × Bool)) (k : Nat) (es : List Event)
    (h : (ReadEnd.full cs k).Ok T) :
    pulsesAfterLow (readByteEvents d q (.full cs k) ++ es) = 9 + pulsesAfterLow es := by
  have hl : cs.length = 8 := h.2.1
  have hedges : ∀ fs : List Event, pulsesAfterLow (sendAckHead q k ++ [.sm .scl true, .dy d, .dl .scl, .rl .sda] ++
      fs) = 1 + pulsesAfterLow fs := by
    intro fs
    have : (sendAckHead q k ++ [Event.sm .scl true, .dy d, .dl .scl, .rl .sda] ++ fs).filterMap sclEdge =
        [false, true] ++ fs.filterMap sclEdge := by cases q <;> simp [sendAckHead, sclEdges_cons, sclEdge]
    unfold pulsesAfterLow
    rw [this]
    exact pulses_ack _
  have hta : ∀ fs, pulsesAfterLow (.ta :: fs) = pulsesAfterLow fs := fun fs => rfl
  have htr : ∀ fs, pulsesAfterLow (.tr :: fs) = pulsesAfterLow fs := fun fs => rfl
  have : readByteEvents d q (.full cs k) ++ es = .ta :: (readCellsEvents d cs ++
      (sendAckHead q k ++ [.sm .scl true, .dy d, .dl .scl, .rl .sda] ++ (.tr :: es))) := by
    simp [readByteEvents, readEvents]
  rw [this, hta, pulsesAfterLow_readCells, hedges, htr, hl]
  omega

end Sys2Proof.Machine
end

