-- ==== Sys2Proof/Laws/Step.lean ====
section
/-! SUPPORT. What a step does (10_state.md R21; 70_reset_and_hazards.md R117, R118), said once for each case. -/

namespace Sys2Proof.Machine

/-- A step in the reset cycle. -/
theorem step_reset {s : State} (h : s.rstIn = some 0) : step s = .next (hardReset s) := by
  unfold step
  rw [if_pos h]

/-- A step of a ready block with a command at the port. -/
theorem step_command {s : State} {word arg : Word} {rest : List (Word × Word)} (hr : s.rstIn ≠ some 0)
    (hu : s.uop = none) (hb : s.busy = false) (hp : s.port = (word, arg) :: rest) :
    step s = underReset (setPort rest s) (exec (decodeCmd word arg) (setPort rest s)) := by
  have hf : fetch s = some (.cmd word arg, (setPort rest s)) := by
    unfold fetch
    simp only [hu, hb, hp]
    rfl
  unfold step
  rw [if_neg hr, hf]
  rfl

/-- A step with a micro-operation loaded. -/
theorem step_uop {s : State} {code : Byte} {i : Instr} (hr : s.rstIn ≠ some 0) (hu : s.uop = some code)
    (hd : decode (.uop code) = .ok i) : step s = underReset (setUop none s) (exec i (setUop none s)) := by
  have hf : fetch s = some (.uop code, (setUop none s)) := by
    unfold fetch
    simp only [hu]
  unfold step
  rw [if_neg hr, hf]
  simp only [hd]

/-- A step with nothing to run. -/
theorem step_wait {s : State} (hr : s.rstIn ≠ some 0) (hu : s.uop = none) (hn : s.busy = true ∨ s.port = []) :
    step s = waitStep s := by
  have hf : fetch s = none := by
    unfold fetch
    simp only [hu]
    rcases hn with hn | hn
    · rw [if_pos hn]
    · rw [hn]
      split <;> rfl
  unfold step
  rw [if_neg hr, hf]

/-- How a reset that may come meets a command that ends in `t`. -/
theorem underReset_next {s t : State} {k : Nat} (h : s.rstIn = some k) :
    underReset s (.next t) =
      .next (if k < stepsMade s t then abandon (k - 1) s t else setRstIn (some (k - stepsMade s t)) t) := by
  unfold underReset
  simp only [h]
  split <;> rfl

theorem underReset_none {s : State} {o : Host.Outcome State Fault Refusal} (h : s.rstIn = none) :
    underReset s o = o := by
  unfold underReset
  simp only [h]

theorem replayEvent_params (s : State) (e : Event) : (replayEvent s e).params = s.params := by
  have hd : ∀ (l : Line) (s : State), (drawExt l s).2.params = s.params := by
    intro l s
    unfold drawExt
    split
    · cases l <;> rfl
    · rfl
  have hs : ∀ i v, (storeByte i v s).params = s.params := by
    intro i v
    unfold storeByte
    split <;> rfl
  cases e <;> first | rfl | exact hd _ _ | exact (hd _ _).trans (hd _ _) | exact hs _ _

theorem replayEvent_wf (s : State) (e : Event) (h : s.buf.wf = true) : (replayEvent s e).buf.wf = true := by
  have hd : ∀ (l : Line) (s : State), (drawExt l s).2.buf = s.buf := by
    intro l s
    unfold drawExt
    split
    · cases l <;> rfl
    · rfl
  cases e
  case bw i v => exact storeByte_wf i v s h
  case sm l v =>
    show (drawExt l s).2.buf.wf = true
    rw [hd]
    exact h
  case sm2 a b =>
    show (drawExt .scl (drawExt .sda s).2).2.buf.wf = true
    rw [hd, hd]
    exact h
  all_goals exact h

theorem replay_params (es : List Event) (s : State) : (es.foldl replayEvent s).params = s.params := by
  induction es generalizing s with
  | nil => rfl
  | cons e es ih => exact (ih _).trans (replayEvent_params s e)

theorem replay_wf (es : List Event) (s : State) (h : s.buf.wf = true) : (es.foldl replayEvent s).buf.wf = true := by
  induction es generalizing s with
  | nil => exact h
  | cons e es ih => exact ih _ (replayEvent_wf s e h)

theorem hardReset_wf (s : State) (h : s.buf.wf = true) : (hardReset s).buf.wf = true := landHostWrites_wf s h

/-- Every step that answers a state is one of these. -/
inductive StepCase (s t : State) : Prop where
  /-- A reset: at once, of a stuck block, or in the middle of a command. -/
  | reset (r : State) (eq : t = hardReset r) (params : r.params = s.params)
      (wf : s.buf.wf = true → r.buf.wf = true)
  /-- A waiting cycle of an idle block. -/
  | wait (idle : s.busy = false) (eq : t = idleCycle s)
  /-- A command from the port. -/
  | command (word arg : Word) (rest : List (Word × Word)) (v : State) (r : Option Nat) (uop : s.uop = none)
      (idle : s.busy = false) (port : s.port = (word, arg) :: rest)
      (run : exec (decodeCmd word arg) (setPort rest s) = .next v) (eq : t = setRstIn r v)
  /-- A loaded micro-operation. -/
  | micro (code : Byte) (i : Instr) (v : State) (r : Option Nat) (uop : s.uop = some code)
      (dec : decode (.uop code) = .ok i) (run : exec i (setUop none s) = .next v) (eq : t = setRstIn r v)

/-- An instruction under a reset that may come: it runs, or it is abandoned. -/
theorem underReset_case {s t : State} {o : Host.Outcome State Fault Refusal} (h : underReset s o = .next t) :
    ∃ v, o = .next v ∧ ((∃ r, t = setRstIn r v) ∨
      ∃ r : State, t = hardReset r ∧ r.params = s.params ∧ (s.buf.wf = true → r.buf.wf = true)) := by
  cases hr : s.rstIn with
  | none =>
    rw [underReset_none hr] at h
    exact ⟨t, h, .inl ⟨t.rstIn, rfl⟩⟩
  | some k =>
    cases o with
    | next v =>
      rw [underReset_next hr] at h
      refine ⟨v, rfl, ?_⟩
      split at h <;> (injection h with h; subst h)
      · exact .inr ⟨_, rfl, replay_params _ _, fun w => replay_wf _ _ w⟩
      · exact .inl ⟨_, rfl⟩
    | fault f =>
      unfold underReset at h
      simp only [hr] at h
      exact nomatch h
    | refused f =>
      unfold underReset at h
      simp only [hr] at h
      exact nomatch h

theorem step_case {s t : State} (h : step s = .next t) : StepCase s t := by
  by_cases hr : s.rstIn = some 0
  · rw [step_reset hr] at h
    injection h with h
    exact .reset s h.symm rfl id
  · cases hu : s.uop with
    | some code =>
      cases hd : decode (.uop code) with
      | ok i =>
        rw [step_uop hr hu hd] at h
        obtain ⟨v, hv, ⟨r, e⟩ | ⟨r, e, hp, hw⟩⟩ := underReset_case h
        · exact .micro code i v r hu hd hv e
        · exact .reset r e hp hw
      | error e =>
        unfold step at h
        rw [if_neg hr] at h
        simp only [fetch, hu, hd] at h
        exact nomatch h
    | none =>
      have hwait : step s = waitStep s → StepCase s t := by
        intro he
        rw [he] at h
        unfold waitStep at h
        split at h
        · split at h
          · injection h with h
            exact .reset s h.symm rfl id
          · exact nomatch h
        · rename_i hb
          injection h with h
          exact .wait (by simpa using hb) h.symm
      cases hb : s.busy with
      | true => exact hwait (step_wait hr hu (.inl hb))
      | false =>
        cases hp : s.port with
        | nil => exact hwait (step_wait hr hu (.inr hp))
        | cons c rest =>
          rw [step_command hr hu hb hp] at h
          obtain ⟨v, hv, ⟨r, e⟩ | ⟨r, e, hpar, hw⟩⟩ := underReset_case h
          · exact .command c.1 c.2 rest v r hu hb hp hv e
          · exact .reset r e hpar hw

end Sys2Proof.Machine
end

