-- ==== Sys2Proof/Tests/Slice0.lean ====
section
/-! SUPPORT. Tests: the refusals of `wellFormed`, decodings of words written out from the spec's encodings, one-step tests
whose expected results are vectors of spec/95_test_vectors.md, and a witness for the hypotheses of each statement of
Certificates/Slice0/Obligations.lean. -/

namespace Sys2Proof.Tests

open Sys2Proof.Machine

set_option Elab.async false

/-! ### Helpers -/

/-- The test configuration at the end of a reset (95_test_vectors.md §0). -/
def base : State := { State.reset with params := ⟨1#31, 3, 3, 0⟩, delayUs := 1#31 }

/-- The environment's answers in the vectors' notation: 1 when no other device pulls the line low (§0). -/
def withAnswers (sda scl : List Nat) (s : State) : State :=
  { s with extSda := sda.map (· == 0), extScl := scl.map (· == 0) }

/-- `n` answers 1. -/
def ones (n : Nat) : List Nat := List.replicate n 1

/-- `n` answers 0. -/
def zeros (n : Nat) : List Nat := List.replicate n 0

/-- The outcome is a next state with a property. -/
def answered (o : Host.Outcome State Fault Refusal) (p : State → Bool) : Bool :=
  match o with
  | .next t => p t
  | .fault _ => false
  | .refused _ => false

theorem answered_next {P : State → Prop} [DecidablePred P] {o : Host.Outcome State Fault Refusal}
    (h : answered o (fun t => decide (P t)) = true) : ∃ t, o = .next t ∧ P t := by
  cases o with
  | next t => exact ⟨t, rfl, of_decide_eq_true h⟩
  | fault f => exact nomatch h
  | refused r => exact nomatch h

/-- Both lines as START leaves them (§2.6). -/
def lowLines (s : State) : State := { s with sdaDrv := true, sclDrv := true }

/-- The lines as a byte leaves them (§2.5, §2.7). -/
def afterByte (s : State) : State := { s with sclDrv := true }

/-- V-WB-1: a byte that is acknowledged. -/
def sentByte : State := withAnswers [1, 1, 1, 0] (ones 9) (lowLines { base with uopByte := 0xD0#8 })

/-- V-WB-6: arbitration is lost at bit 4. -/
def lostByte : State := withAnswers [1, 1, 0] (ones 4) (lowLines { base with uopByte := 0xD0#8 })

/-- V-WB-7: SCL is held low for ever. -/
def stretchedByte : State := withAnswers [] (zeros 4) (lowLines { base with uopByte := 0xD0#8 })

/-- V-RB-1: the slave sends 0xA5. -/
def receivedByte : State := withAnswers [1, 0, 1, 0, 0, 1, 0, 1] (ones 9) (afterByte base)

/-- Program P1's message: every byte is acknowledged. -/
def p1 : State := withAnswers [1, 1, 1, 1, 0, 1, 1, 1, 1, 1, 0, 0] (ones 29) { base with buf := [(0, 0x6B#8)] }

/-- Program P2's message: the slave sends 0xA5 and 0x3C. -/
def p2 : State :=
  withAnswers [1, 1, 1, 1, 1, 0, 1, 0, 1, 0, 0, 1, 0, 1, 0, 0, 1, 1, 1, 1, 0, 0] (ones 29)
    { base with buf := [(0, 0x11#8), (1, 0x22#8)] }

/-- Program P3's message: arbitration is lost at the first bit. -/
def p3 : State := withAnswers [1, 0] (ones 2) { base with delayUs := 2#31, buf := [(0, 0x55#8)] }

/-- Program P4: no device answers the address. -/
def p4 : State := withAnswers (ones 5) (ones 11) { base with buf := [(0, 0x6B#8)] }

/-- Program P5: a stuck slave holds SDA low. -/
def p5 : State := withAnswers (zeros 4) (ones 4) { base with buf := [(0, 0x6B#8)] }

/-- Program P6a: SCL is held low from the first bit of the first data byte. -/
def p6a : State := withAnswers [1, 1, 1, 1, 0] (ones 10 ++ zeros 8) { base with buf := [(0, 0x6B#8)] }

/-- V-RM-2: SCL is held low from the first bit of the second data byte. -/
def rm2 : State :=
  withAnswers [1, 1, 1, 1, 1, 0, 1, 0, 1, 0, 0, 1, 0, 1] (ones 19 ++ zeros 8)
    { base with buf := [(0, 0x11#8), (1, 0x22#8)] }

/-- V-RM-1: the slave sends 0x5A. -/
def rm1 : State := withAnswers [1, 1, 1, 1, 1, 0, 0, 1, 0, 1, 1, 0, 1, 0] (ones 20) base

/-- A read of length 0: the address 0xD1 alone is acknowledged (44_i2c_master.md R90). -/
def rm0 : State := withAnswers [1, 1, 1, 1, 1, 0] (ones 11) base

/-- V-WM-1: the address alone is acknowledged. -/
def wm1 : State := withAnswers [1, 1, 1, 1, 0] (ones 11) base

/-- P2's message at the port, and a reset after its acceptance and 150 of its atomic steps. -/
def pending : State := { p2 with port := [(0x00020685#32, 0#32)], rstIn := some 151 }

/-! ### Well-formedness (30_encoding.md R136) -/

theorem test_wellFormed_addr :
    (Instr.writeMessage 0x80 0).wellFormed = false ∧ (Instr.readMessage 0x80 0).wellFormed = false ∧
    (Instr.writeMessage 0x7F 0).wellFormed = true ∧ (Instr.readMessage 0x7F 0).wellFormed = true := by decide

theorem test_wellFormed_len :
    (Instr.writeMessage 0 65536).wellFormed = false ∧ (Instr.readMessage 0 65536).wellFormed = false ∧
    (Instr.writeMessage 0 65535).wellFormed = true ∧ (Instr.readMessage 0 65535).wellFormed = true := by decide

theorem test_wellFormed_delay :
    (Instr.setDelay 2147483648).wellFormed = false ∧ (Instr.setDelay (-2147483649)).wellFormed = false ∧
    (Instr.setDelay 2147483647).wellFormed = true ∧ (Instr.setDelay (-2147483648)).wellFormed = true :=
  by decide

theorem test_not_encoded :
    encode (.writeMessage 0x80 0) = none ∧ encode (.readMessage 0 65536) = none ∧ encode (.setDelay 2147483648) = none :=
  by decide

/-! ### Decoding of words written out from the encodings (30_encoding.md R36, R37, R38, R135; 95 §2.8) -/

/-- V-ENC-1, V-ENC-5, V-CMD-10: `LEN`, five reserved bits, `ADDR`, `OP`. -/
theorem test_decode_write_message :
    decodeTableWord 32 0b0000000000000010_00000_1101000_0100 = some (.writeMessage 0x68 2) ∧
    decodeTableWord 32 0xFFFF07F4 = some (.writeMessage 0x7F 65535) ∧
    decodeTableWord 32 0b0000000000000000_11111_0001000_0100 = some (.writeMessage 0x08 0) := by decide

/-- V-ENC-2, V-ENC-6. -/
theorem test_decode_read_message :
    decodeTableWord 32 0b0000000000000010_00000_1101000_0101 = some (.readMessage 0x68 2) ∧
    decodeTableWord 32 0x00010005 = some (.readMessage 0x00 1) := by decide

/-- The argument word is bits 63..32, in two's complement (R37). -/
theorem test_decode_set_delay :
    decodeTableWord 64 0xFFFFFFFB_00000001 = some (.setDelay (-5)) ∧
    decodeTableWord 64 0x80000000_FFFFF801 = some (.setDelay (-2147483648)) ∧
    decodeTableWord 32 0b0000000000000000_00000_0000000_0001 = some (.setDelay 0) := by decide

theorem test_decode_flag_commands :
    decodeTableWord 32 0b0000000000000000_00000_0000000_0010 = some .getArbLost ∧
    decodeTableWord 32 0b0000000000000000_00000_0000000_0011 = some .clearArb ∧
    decodeTableWord 32 0b1111111111111111_11111_1111111_0010 = some .getArbLost := by decide

/-- The eleven reserved opcodes (R38; 44_i2c_master.md R82), and V-CMD-7. -/
theorem test_decode_reserved :
    decodeTableWord 32 0b0000000000000000_00000_0000000_0000 = some .reservedOp0 ∧
    decodeTableWord 32 0b0000000000000000_00000_0000000_0110 = some .reservedOp6 ∧
    decodeTableWord 32 0b0000000000000000_00000_0000000_0111 = some .reservedOp7 ∧
    decodeTableWord 32 0b0000000000000000_00000_0000000_1000 = some .reservedOp8 ∧
    decodeTableWord 32 0b0000000000000000_00000_0000000_1001 = some .reservedOp9 ∧
    decodeTableWord 32 0b0000000000000000_00000_0000000_1010 = some .reservedOpA ∧
    decodeTableWord 32 0b0000000000000000_00000_0000000_1011 = some .reservedOpB ∧
    decodeTableWord 32 0b0000000000000000_00000_0000000_1100 = some .reservedOpC ∧
    decodeTableWord 32 0b0000000000000000_00000_0000000_1101 = some .reservedOpD ∧
    decodeTableWord 32 0b0000000000000000_00000_0000000_1110 = some .reservedOpE ∧
    decodeTableWord 32 0b0000000000000000_00000_0000000_1111 = some .reservedOpF ∧
    decodeTableWord 32 0x00020686 = some .reservedOp6 := by decide

theorem test_decode_lines :
    decodeTableWord 8 0b000_0_0001 = some (.driveLow .sda) ∧
    decodeTableWord 8 0b000_1_0001 = some (.driveLow .scl) ∧
    decodeTableWord 8 0b000_0_0010 = some (.release .sda) ∧
    decodeTableWord 8 0b000_1_0010 = some (.release .scl) ∧
    decodeTableWord 8 0b000_0_0011 = some (.readLevel .sda) ∧
    decodeTableWord 8 0b000_1_0011 = some (.readLevel .scl) := by decide

theorem test_decode_sequencer :
    decodeTableWord 8 0b000_0_0100 = some .delay ∧
    decodeTableWord 8 0b000_0_0101 = some .waitBusIdle ∧
    decodeTableWord 8 0b000_0_0110 = some .waitSclHigh ∧
    decodeTableWord 8 0b000_0_0111 = some .start ∧
    decodeTableWord 8 0b000_0_1000 = some .stop ∧
    decodeTableWord 8 0b000_0_1001 = some .writeByte ∧
    decodeTableWord 8 0b000_0_1010 = some (.readByte false) ∧
    decodeTableWord 8 0b000_1_1010 = some (.readByte true) := by decide

/-- Codes 0x0 and 0xB to 0xF name no operation, and bits `[7:5]` are 0 (R135). -/
theorem test_decode_refused :
    decodeTableWord 8 0x00 = none ∧
    decodeTableWord 8 0x0B = none ∧
    decodeTableWord 8 0x0C = none ∧
    decodeTableWord 8 0x0D = none ∧
    decodeTableWord 8 0x0E = none ∧
    decodeTableWord 8 0x0F = none ∧
    decodeTableWord 8 0x14 = none ∧
    decodeTableWord 8 0x18 = none ∧
    decodeTableWord 8 0x21 = none ∧
    decodeTableWord 8 0x8A = none := by decide

theorem test_refused_by_name :
    decode (.uop 0x0B#8) = .error .noSuchCode ∧ decode (.uop 0x00#8) = .error .noSuchCode ∧
    decode (.uop 0x14#8) = .error .reservedBits ∧ decode (.uop 0x21#8) = .error .reservedBits :=
  ⟨rfl, rfl, rfl, rfl⟩

/-! ### Every row of the opcode table runs as the first instruction after reset -/

/-- The match values of the rows of spec/opcode_table.json. -/
def tableRows : List (Nat × Nat) :=
  [(32, 0x1), (32, 0x2), (32, 0x3), (32, 0x4), (32, 0x5), (32, 0x0)] ++
  [(32, 0x6), (32, 0x7), (32, 0x8), (32, 0x9), (32, 0xA), (32, 0xB), (32, 0xC), (32, 0xD), (32, 0xE), (32, 0xF)] ++
  [(8, 0x01), (8, 0x02), (8, 0x03), (8, 0x04), (8, 0x05), (8, 0x06), (8, 0x07), (8, 0x08), (8, 0x09), (8, 0x0A)]

theorem test_every_row_runs :
    tableRows.all (fun r => answered (step (State.reset.withFetchWord r.1 r.2)) (fun _ => true)) = true := by decide

theorem test_no_row_runs_as_nothing :
    (step (State.reset.withFetchWord 8 0x0B)) = .refused .noSuchOperation := rfl

theorem test_reset_buffer_wf :
    State.reset.buf.wf = true := by decide

/-! ### One step: host commands -/

/-- V-CLAMP-2, V-CLAMP-8. -/
theorem test_set_delay_clamp :
    answered (exec (.setDelay (-5)) base)
      (fun t => decide (t.delayUs = 1#31 ∧ t.trace = [.rsp true 0#3 false])) = true ∧
    answered (exec (.setDelay 2147483647) base)
      (fun t => decide (t.delayUs = 2147483647#31)) = true := by decide +kernel

/-- §2.2: the flag is unchanged. -/
theorem test_set_delay_with_flag :
    answered (exec (.setDelay 7) { base with arbLost := true })
      (fun t => decide (t.delayUs = 7#31 ∧ t.trace = [.rsp true 0#3 true] ∧ t.arbLost = true)) = true :=
  by decide +kernel

/-- V-CMD-2. -/
theorem test_get_arb_lost :
    answered (exec .getArbLost { base with arbLost := true })
      (fun t => decide (t.trace = [.rsp true 0#3 true] ∧ t.arbLost = true)) = true := by decide +kernel

/-- V-CMD-1. -/
theorem test_get_arb_lost_clear :
    answered (exec .getArbLost base)
      (fun t => decide (t.trace = [.rsp false 0#3 false])) = true := by decide +kernel

/-- V-CMD-3. -/
theorem test_clear_arb :
    answered (exec .clearArb { base with arbLost := true })
      (fun t => decide (t.trace = [.rsp true 0#3 false] ∧ t.arbLost = false)) = true := by decide +kernel

/-- V-CMD-5 to V-CMD-8. -/
theorem test_reserved_with_flag :
    [Instr.reservedOp0, .reservedOp6, .reservedOp7, .reservedOp8, .reservedOp9, .reservedOpA, .reservedOpB, .reservedOpC,
      .reservedOpD, .reservedOpE, .reservedOpF].all (fun i => answered (exec i { base with arbLost := true })
      (fun t => decide (t.trace = [.rsp false 7#3 true] ∧ t.arbLost = true))) = true := by decide +kernel

/-- P1: 3 bytes, 27 clock pulses, 53 microseconds. -/
theorem test_write_message :
    answered (exec (.writeMessage 0x68 2) p1)
      (fun t => decide (t.rspResult = true ∧ t.rspErr = 0#3 ∧ t.nowUs = 53)) = true ∧
    answered (exec (.writeMessage 0x68 2) p1)
      (fun t => decide (bufReads t.trace = [(0#16, 0x6B#8), (1#16, 0x00#8)] ∧ clockPulses t.trace = 27)) = true :=
  by decide +kernel

/-- P3, the whole trace. -/
theorem test_write_message_lost :
    answered (exec (.writeMessage 0x68 1) p3)
      (fun t => decide (t.trace = [.rl .sda, .rl .scl, .sm2 true true, .dl .sda, .dy 2, .dl .scl, .ta, .dl .scl, .rl .sda, .dy 2,
        .rl .scl, .sm .scl true, .dy 2, .sm .sda false, .tr, .rl .sda, .rl .scl, .rsp false 4#3 true] ∧ t.nowUs = 6)) = true :=
  by decide +kernel

/-- P2. -/
theorem test_read_message :
    answered (exec (.readMessage 0x68 2) p2)
      (fun t => decide (t.buf = [(0, 0xA5#8), (1, 0x3C#8)] ∧ t.rspResult = true ∧ t.nowUs = 53)) = true :=
  by decide +kernel

/-- V-RM-2: a failed byte is not written. -/
theorem test_read_message_failed :
    answered (exec (.readMessage 0x68 2) rm2)
      (fun t => decide (t.buf = [(0, 0xA5#8), (1, 0x22#8)] ∧ t.rspErr = 2#3 ∧ t.nowUs = 42)) = true :=
  by decide +kernel

/-! ### One step: internal operations -/

/-- V-LINE-1. -/
theorem test_drive_low :
    answered (exec (.driveLow .sda) base)
      (fun t => decide (t.sdaDrv = true ∧ t.oe .sda = true ∧ t.pu .sda = false ∧ t.trace = [.dl .sda])) = true :=
  by decide +kernel

/-- V-LINE-3. -/
theorem test_release :
    answered (exec (.release .scl) (afterByte base))
      (fun t => decide (t.sclDrv = false ∧ t.pu .scl = true ∧ t.trace = [.rl .scl])) = true := by decide +kernel

/-- V-LINE-6. -/
theorem test_read_level :
    answered (exec (.readLevel .sda) (withAnswers [0] [] base))
      (fun t => decide (t.uopResult = false ∧ t.trace = [.sm .sda false] ∧ t.sdaDrv = false)) = true :=
  by decide +kernel

/-- V-LINE-7: the wired-AND. -/
theorem test_read_level_own_drive :
    answered (exec (.readLevel .scl) (withAnswers [] [1] (afterByte base)))
      (fun t => decide (t.uopResult = false ∧ t.trace = [.sm .scl false] ∧ t.sclDrv = true)) = true :=
  by decide +kernel

/-- V-DY-1. -/
theorem test_delay :
    answered (exec .delay { base with delayUs := 7#31, nowUs := 40 })
      (fun t => decide (t.nowUs = 47 ∧ t.trace = [.dy 7])) = true := by decide +kernel

/-- V-WBI-3. -/
theorem test_wait_bus_idle_timeout :
    answered (exec .waitBusIdle (withAnswers (zeros 4) (ones 4) base))
      (fun t => decide (t.trace = [.rl .sda, .rl .scl, .sm2 false true, .dy 1, .sm2 false true, .dy 1, .sm2 false true, .dy 1,
        .sm2 false true] ∧ t.uopResult = false ∧ t.cause = 1#3 ∧ t.nowUs = 3)) = true := by decide +kernel

/-- V-WBI-4: exactly one sample. -/
theorem test_wait_bus_idle_zero :
    answered (exec .waitBusIdle (withAnswers [1] [0] { base with params := ⟨1#31, 0, 3, 0⟩ }))
      (fun t => decide (t.trace = [.rl .sda, .rl .scl, .sm2 true false] ∧ t.uopResult = false ∧ t.nowUs = 0)) = true :=
  by decide +kernel

/-- V-WSH-2. -/
theorem test_wait_scl_high :
    answered (exec .waitSclHigh (withAnswers [] [0, 0, 1] base))
      (fun t => decide (t.trace = [.sm .scl false, .dy 1, .sm .scl false, .dy 1, .sm .scl true] ∧ t.uopResult = true)) = true :=
  by decide +kernel

/-- V-WSH-4: the first cause stays. -/
theorem test_wait_scl_high_first_cause :
    answered (exec .waitSclHigh (withAnswers [] (zeros 4) { base with cause := 3#3 }))
      (fun t => decide (t.cause = 3#3 ∧ t.uopResult = false ∧ t.nowUs = 3)) = true := by decide +kernel

/-- V-START-1. -/
theorem test_start :
    answered (exec .start (withAnswers [1] [1] base))
      (fun t => decide (t.trace = [.rl .sda, .rl .scl, .sm2 true true, .dl .sda, .dy 1, .dl .scl] ∧ t.sdaDrv = true ∧ t.sclDrv = true)) = true :=
  by decide +kernel

/-- V-START-4: the flag is cleared first. -/
theorem test_start_failed :
    answered (exec .start (withAnswers (zeros 4) (ones 4) { base with arbLost := true }))
      (fun t => decide (t.arbLost = false ∧ t.uopResult = false ∧ t.sdaDrv = false)) = true := by decide +kernel

/-- V-STOP-2. -/
theorem test_stop_released :
    answered (exec .stop (afterByte { base with arbLost := true }))
      (fun t => decide (t.trace = [.rl .sda, .rl .scl] ∧ t.nowUs = 0)) = true := by decide +kernel

/-- V-STOP-4: the timeout is absorbed. -/
theorem test_stop_timeout :
    answered (exec .stop (withAnswers [] (zeros 4) (afterByte { base with cause := 3#3 })))
      (fun t => decide (t.cause = 3#3 ∧ t.sdaDrv = false ∧ t.sclDrv = false ∧ t.nowUs = 3)) = true :=
  by decide +kernel

/-- V-WB-6: lost at bit 4. -/
theorem test_write_byte_lost :
    answered (exec .writeByte lostByte)
      (fun t => decide (t.arbLost = true ∧ t.cause = 4#3 ∧ t.nowUs = 8 ∧ t.bitCnt = 3)) = true :=
  by decide +kernel

/-- V-WB-2: no data bit is checked. -/
theorem test_write_byte_zero :
    answered (exec .writeByte (withAnswers [0] (ones 9) (lowLines { base with uopByte := 0x00#8 })))
      (fun t => decide (t.uopResult = true ∧ sdaSamples t.trace = [false] ∧ t.nowUs = 17)) = true :=
  by decide +kernel

/-- V-RB-1. -/
theorem test_read_byte :
    answered (exec (.readByte true) receivedByte)
      (fun t => decide (t.uopData = 0xA5#8 ∧ t.uopResult = true ∧ t.nowUs = 17)) = true := by decide +kernel

/-- V-RB-5. -/
theorem test_read_byte_ack_timeout :
    answered (exec (.readByte true) (withAnswers [1, 0, 1, 0, 0, 1, 0, 1] (ones 8 ++ zeros 4) (afterByte base)))
      (fun t => decide (t.sdaDrv = true ∧ t.sclDrv = false ∧ t.cause = 2#3 ∧ t.nowUs = 19)) = true :=
  by decide +kernel

/-! ### Reset and the host's buffer -/

/-- V-RST-1: the reset comes after the address byte's `TA`, the seventh event. -/
theorem test_reset_in_message :
    answered (step { wm1 with port := [(0x00000684#32, 0#32)], rstIn := some 8 })
      (fun t => decide (t.trace = [] ∧ t.sdaDrv = false ∧ t.sclDrv = false ∧ t.rspValid = false ∧ t.busy = false)) = true :=
  by decide +kernel

/-- R118 and log 9: an accessor is abandoned right after its acceptance, and a reset that comes first leaves it at the port. -/
theorem test_reset_after_acceptance :
    answered (step { base with arbLost := true, port := [(0x00000002#32, 0#32)], rstIn := some 1 })
      (fun t => decide (t.trace = [] ∧ t.rspValid = false ∧ t.port = [] ∧ t.arbLost = false)) = true ∧
    answered (step { base with arbLost := true, port := [(0x00000002#32, 0#32)], rstIn := some 0 })
      (fun t => decide (t.trace = [] ∧ t.port = [(0x00000002#32, 0#32)])) = true := by decide +kernel

/-- 44_i2c_master.md R91: no step, no response. -/
theorem test_short_buffer_is_stuck :
    answered (exec (.writeMessage 0x68 1) { wm1 with bufLen := 0 })
      (fun t => decide (t.busy = true ∧ t.phase = .data ∧ responses t.trace = [])) = true := by decide +kernel

/-! ### Witnesses: a concrete case that meets the hypotheses of each statement -/

theorem test_witness_DecodeEncodeRoundTrip :
    (Instr.writeMessage 0x7F 65535).wellFormed = true ∧ (Instr.setDelay (-2147483648)).wellFormed = true ∧
    decode (.uop 0x1A#8) = .ok (.readByte true) ∧ decode (.cmd 0xFFFF07F4#32 0#32) = .ok (.writeMessage 0x7F 65535) :=
  ⟨rfl, rfl, rfl, rfl⟩

theorem test_witness_EncodedExactlyWhenInRange :
    (∀ us, Instr.start ≠ .setDelay us) ∧ (∀ a l, Instr.start ≠ .writeMessage a l) ∧ (∀ a l, Instr.start ≠ .readMessage a l) :=
  by simp

theorem test_witness_CommandFieldsAndOpcodeMap :
    ∀ n < 16, (BitVec.ofNat 32 (0xFFFFFFF0 + n)).toNat % 16 = n ∧ (BitVec.ofNat 32 n).toNat % 16 = n := by decide

theorem test_witness_UnreadFieldsHaveNoEffect :
    base.uop = none ∧ base.busy = false ∧ base.rstIn ≠ some 0 ∧
    (0x0002F684#32).toNat % 16 = (0x00020684#32).toNat % 16 ∧ (0x0002F684#32).toNat % 16 = 0x4 ∧
    (0x0002FE84#32).toNat / 16 % 128 = (0x00020684#32).toNat / 16 % 128 ∧
    (0x0002FE84#32).toNat / 65536 = (0x00020684#32).toNat / 65536 := by decide

/-- The clause without a reset. -/
theorem test_witness_StepRunsTheCommandAtThePort :
    pending.uop = none ∧ pending.busy = false ∧ pending.port = (0x00020685#32, 0#32) :: [] ∧
    ({ pending with rstIn := none } : State).rstIn = none := by decide

/-- The clause with a reset, at its bound: the last atomic step comes before the reset. -/
theorem test_witness_StepRunsTheCommandAtThePort_reset :
    ∃ t, exec .getArbLost { base with rstIn := some (1 + 1) } = .next t ∧ (newEvents base t).length ≤ 1 :=
  answered_next (by decide +kernel)

theorem test_witness_StepRunsTheLoadedMicroOperation :
    decode (.uop 0x07#8) = .ok .start ∧ (decode (.uop 0x0B#8)).toOption = none ∧ (State.reset.withFetchWord 8 7).uop = some 0x07#8 ∧
    (State.reset.withFetchWord 8 7).rstIn = none := ⟨rfl, rfl, rfl, rfl⟩

theorem test_witness_BlockWithNothingToRunWaitsOrIsStuck :
    (base.uop = none ∧ base.busy = false ∧ base.port = [] ∧ base.rstIn ≠ some 0) ∧
    ({ base with phase := .data, active := true } : State).busy = true ∧
    ({ base with active := true, rstIn := some 0 } : State).busy = true := by decide

theorem test_witness_ResetSetsTheBlock :
    ({ p1 with rstIn := some 0 } : State).rstIn = some 0 := by decide

/-- After 150 atomic steps `buf[0]` has been written and `buf[1]` has not. -/
theorem test_witness_ResetMidCommandAbandonsIt :
    pending.uop = none ∧ pending.busy = false ∧ pending.port = (0x00020685#32, 0#32) :: [] ∧ pending.rstIn = some (150 + 1) ∧
    decode (.cmd 0x00020685#32 0#32) = .ok (.readMessage 0x68 2) ∧ pending.hostWrites = [] ∧ pending.buf.wf = true ∧
    ∃ t, exec (.readMessage 0x68 2) { pending with port := [] } = .next t ∧ 150 < (newEvents pending t).length :=
  ⟨rfl, by decide, rfl, rfl, rfl, rfl, by decide, answered_next (by decide +kernel)⟩

/-- An accessor, abandoned after no atomic step. -/
theorem test_witness_ResetMidCommandAbandonsIt_accessor :
    decode (.cmd 0x00000002#32 0#32) = .ok .getArbLost ∧
    ∃ t, exec .getArbLost { base with rstIn := some (0 + 1) } = .next t ∧ 0 < (newEvents base t).length :=
  ⟨rfl, answered_next (by decide +kernel)⟩

theorem test_witness_SetDelayStoresTheClampedArgument :
    (Instr.setDelay (-2147483648)).wellFormed = true ∧ (Instr.setDelay 0).wellFormed = true ∧
    (Instr.setDelay 1).wellFormed = true ∧ (Instr.setDelay 2147483647).wellFormed = true := by decide

theorem test_witness_ReservedOpcodesAreRejected :
    Instr.reservedOpF ∈ [Instr.reservedOp0, .reservedOp6, .reservedOp7, .reservedOp8, .reservedOp9, .reservedOpA, .reservedOpB,
      .reservedOpC, .reservedOpD, .reservedOpE, .reservedOpF] := by decide

theorem test_witness_ReleaseReleasesTheLine :
    (withAnswers [0] [1] base).ext .sda = [true] ∧ (withAnswers [0] [1] base).ext .scl = [false] := by decide

theorem test_witness_ReadLevelReadsTheWiredAnd :
    (withAnswers [0] [1] base).ext .sda = true :: [] ∧ base.ext .scl = [] := by decide

/-- At the bound: the third poll step is the last. -/
theorem test_witness_WaitSclHighFollowsTheLine :
    (withAnswers [] [0, 0, 0, 1] base).sclDrv = false ∧ 3 ≤ (withAnswers [] [0, 0, 0, 1] base).params.sclStretchTimeoutUs ∧
    (withAnswers [] [0, 0, 0, 1] base).extScl = List.replicate 3 true ++ false :: [] ∧
    (withAnswers [] (zeros 4) base).extScl = List.replicate (base.params.sclStretchTimeoutUs + 1) true ++ [] :=
  by decide

theorem test_witness_WaitBusIdleFollowsTheLines :
    (∀ p ∈ [(true, false), (false, true), (true, true)], (p.1 || p.2) = true) ∧
    (withAnswers [0, 1, 0, 1] [1, 0, 0, 1] base).extSda = [(true, false), (false, true), (true, true)].map (·.1) ++ false :: [] ∧
    (withAnswers [0, 1, 0, 1] [1, 0, 0, 1] base).extScl = [(true, false), (false, true), (true, true)].map (·.2) ++ false :: [] ∧
    (withAnswers (zeros 4) (ones 4) base).extSda = (List.replicate 4 (true, false)).map (·.1) ++ [] ∧
    (withAnswers (zeros 4) (ones 4) base).extScl = (List.replicate 4 (true, false)).map (·.2) ++ [] ∧
    (List.replicate 4 (true, false)).length = base.params.busIdleTimeoutUs + 1 := by decide

theorem test_witness_WriteByteSendsMostSignificantBitFirst :
    ∃ t, exec .writeByte sentByte = .next t ∧
    (t.sclDrv = true ∧ (newEvents sentByte t).all (fun e => !failedWaitSample e) = true) :=
  answered_next (by decide +kernel)

theorem test_witness_WriteByteChecksEachOneBit_lost :
    ∃ t, exec .writeByte lostByte = .next t ∧ t.arbLost = true := answered_next (by decide +kernel)

theorem test_witness_WriteByteChecksEachOneBit_kept :
    ∃ t, exec .writeByte sentByte = .next t ∧ (t.arbLost = false ∧ t.sclDrv = true) :=
  answered_next (by decide +kernel)

theorem test_witness_ReadByteReadsMostSignificantBitFirst :
    ∃ t, exec (.readByte true) receivedByte = .next t ∧
    (t.uopResult = true ∧ (newEvents receivedByte t).all (fun e => !failedWaitSample e) = true) :=
  answered_next (by decide +kernel)

theorem test_witness_StretchTimeoutEndsTheByteAtOnce :
    ∃ t, exec .writeByte stretchedByte = .next t ∧ (base.cause = 0#3 ∧ t.cause = 2#3) :=
  answered_next (by decide +kernel)

theorem test_witness_StretchTimeoutEndsTheByteAtOnce_read :
    ∃ t, exec (.readByte true) (withAnswers [] (zeros 4) (afterByte base)) = .next t ∧ t.cause = 2#3 :=
  answered_next (by decide +kernel)

theorem test_witness_SdaIsSetOnlyWhileSclIsLow :
    ∃ t, exec (.readByte false) receivedByte = .next t ∧ t.sclDrv = true := answered_next (by decide +kernel)

theorem test_witness_TimingCriticalSectionSpansEachByte :
    (∃ t, exec .writeByte sentByte = .next t ∧ t.tcs = false) ∧ (∃ t, exec .start (withAnswers [1] [1] base) = .next t ∧ t.tcs = false) :=
  ⟨answered_next (by decide +kernel), answered_next (by decide +kernel)⟩

theorem test_witness_TimingCriticalSectionSpansEachByte_message :
    (∃ t, exec (.writeMessage 0x68 2) p1 = .next t ∧ .ta ∈ newEvents p1 t) ∧
    (∃ t, exec (.writeMessage 0x68 2) p5 = .next t ∧ .ta ∉ newEvents p5 t) :=
  ⟨answered_next (by decide +kernel), answered_next (by decide +kernel)⟩

theorem test_witness_MessageCommandsEndIdleReleasedAndAnswered :
    (Instr.writeMessage 0x68 2).wellFormed = true ∧ (Instr.readMessage 0x7F 65535).wellFormed = true ∧ 65535 ≤ base.bufLen :=
  by decide

theorem test_witness_ShortBufferBlocksTheMessage :
    (Instr.writeMessage 0x68 1).wellFormed = true ∧ ({ wm1 with bufLen := 0 } : State).bufLen < 1 ∧
    ∃ t, exec (.writeMessage 0x68 1) { wm1 with bufLen := 0 } = .next t ∧ (t.busy = true ∧ wm1.uop = none ∧ wm1.rstIn = none) :=
  ⟨by decide, by decide, answered_next (by decide +kernel)⟩

theorem test_witness_ShortBufferBlocksTheMessage_failed :
    ∃ t, exec (.writeMessage 0x68 1) { p4 with bufLen := 0 } = .next t ∧ (t.busy = false ∧ t.rspErr = 3#3) :=
  answered_next (by decide +kernel)

theorem test_witness_BusBusyEndsWithoutStop :
    ∃ t, exec (.writeMessage 0x68 2) p5 = .next t ∧ (t.busy = false ∧ t.rspErr = 1#3) :=
  answered_next (by decide +kernel)

theorem test_witness_StretchTimeoutEndsTheMessageWithStop :
    ∃ t, exec (.writeMessage 0x68 2) p6a = .next t ∧ (t.busy = false ∧ t.rspErr = 2#3) :=
  answered_next (by decide +kernel)

theorem test_witness_NackEndsTheMessageWithStop :
    ∃ t, exec (.writeMessage 0x68 2) p4 = .next t ∧ (t.busy = false ∧ t.rspErr = 3#3) :=
  answered_next (by decide +kernel)

theorem test_witness_ArbitrationLossOnlyReleasesTheLines :
    ∃ t, exec (.writeMessage 0x68 1) p3 = .next t ∧ (t.busy = false ∧ t.rspErr = 4#3) :=
  answered_next (by decide +kernel)

theorem test_witness_SuccessfulWriteSentEveryByte :
    ∃ t, exec (.writeMessage 0x68 2) p1 = .next t ∧ (t.busy = false ∧ t.rspResult = true ∧ p1.hostWrites = [] ∧ p1.misanswers = []) :=
  answered_next (by decide +kernel)

theorem test_witness_SuccessfulWriteSentEveryByte_empty :
    ∃ t, exec (.writeMessage 0x68 0) wm1 = .next t ∧ (t.busy = false ∧ t.rspResult = true) :=
  answered_next (by decide +kernel)

theorem test_witness_FailedWriteStopsAtTheFailingByte :
    ∃ t, exec (.writeMessage 0x68 2) p6a = .next t ∧ (t.busy = false ∧ t.rspResult = false ∧ t.rspErr ≠ 1#3) :=
  answered_next (by decide +kernel)

theorem test_witness_FailedWriteStopsAtTheFailingByte_address :
    ∃ t, exec (.writeMessage 0x68 1) p3 = .next t ∧ (t.busy = false ∧ t.rspResult = false ∧ t.rspErr ≠ 1#3) :=
  answered_next (by decide +kernel)

theorem test_witness_WriteMessageReadsTheBufferInOrder :
    ∃ t, exec (.writeMessage 0x68 2) p1 = .next t ∧ (bufReads (newEvents p1 t)).length = 2 :=
  answered_next (by decide +kernel)

/-- The first and the last read. -/
theorem test_witness_WriteMessageReadsTheBufferInOrder_split :
    ∃ t, exec (.writeMessage 0x68 2) p1 = .next t ∧
    (.br 0#16 0x6B#8 ∈ newEvents p1 t ∧ .br 1#16 0x00#8 ∈ newEvents p1 t) := answered_next (by decide +kernel)

/-- A write before another byte, and the last write. -/
theorem test_witness_ReadMessageWritesTheBufferInOrder_split :
    ∃ t, exec (.readMessage 0x68 2) p2 = .next t ∧
    (.bw 0#16 0xA5#8 ∈ newEvents p2 t ∧ .bw 1#16 0x3C#8 ∈ newEvents p2 t) := answered_next (by decide +kernel)

theorem test_witness_ReadMessageWritesTheBufferInOrder :
    ∃ t, exec (.readMessage 0x68 2) p2 = .next t ∧ (t.busy = false ∧ p2.buf.wf = true ∧ p2.hostWrites = [] ∧ (bufWrites (newEvents p2 t)).length = 2) :=
  answered_next (by decide +kernel)

theorem test_witness_ReadMessageWritesTheBufferInOrder_failed :
    ∃ t, exec (.readMessage 0x68 2) rm2 = .next t ∧ (t.busy = false ∧ (bufWrites (newEvents rm2 t)).length = 1) :=
  answered_next (by decide +kernel)

theorem test_witness_SuccessfulReadStoredEveryByte :
    ∃ t, exec (.readMessage 0x68 2) p2 = .next t ∧ (t.busy = false ∧ t.rspResult = true ∧ p2.buf.wf = true ∧ p2.hostWrites = []) :=
  answered_next (by decide +kernel)

theorem test_witness_SuccessfulReadStoredEveryByte_empty :
    ∃ t, exec (.readMessage 0x68 0) rm0 = .next t ∧ (t.busy = false ∧ t.rspResult = true) :=
  answered_next (by decide +kernel)

theorem test_witness_SuccessfulReadStoredEveryByte_one :
    ∃ t, exec (.readMessage 0x68 1) rm1 = .next t ∧ (t.busy = false ∧ t.rspResult = true ∧ t.buf = [(0, 0x5A#8)]) :=
  answered_next (by decide +kernel)

theorem test_witness_AcknowledgedWriteSucceeds :
    2 ≤ p1.bufLen ∧ p1.hostWrites = [] ∧ p1.misanswers = [] ∧
    p1.extSda = false :: ((BitVec.ofNat 8 (2 * 0x68) :: (List.range 2).map p1.buf.read).flatMap fun v =>
      List.replicate ((wireBits v).count true) false ++ [true]) ++ [] ∧
    p1.extScl = List.replicate (9 * (2 + 1) + 2) false ++ [] := by decide +kernel

theorem test_witness_AcknowledgedReadStoresTheBytes :
    2 ≤ p2.bufLen ∧ p2.hostWrites = [] ∧ p2.buf.wf = true ∧
    p2.extSda = false ::
      (List.replicate ((wireBits (BitVec.ofNat 8 (2 * 0x68 + 1))).count true) false ++ [true] ++
        [0xA5#8, 0x3C#8].flatMap fun v => (wireBits v).map (!·)) ++ [] ∧
    p2.extScl = List.replicate (9 * ([0xA5#8, 0x3C#8].length + 1) + 2) false ++ [] := by decide +kernel

theorem test_witness_HostRacesGiveOneOfTheirValues :
    ∃ t, exec (.writeMessage 0x68 2) { p1 with misanswers := [7#16] } = .next t ∧ (bufReads (newEvents p1 t)).map (·.1) = [0#16, 1#16] :=
  answered_next (by decide +kernel)

theorem test_witness_HostRacesGiveOneOfTheirValues_read :
    ∃ t, exec (.readMessage 0x68 2) { p2 with hostWrites := [(1#16, 0x77#8)] } = .next t ∧
    (p2.buf.wf = true ∧ (bufWrites (newEvents p2 t)).map (·.1) = [0#16, 1#16]) :=
  answered_next (by decide +kernel)

theorem test_witness_SuccessfulMessageMakesNinePulsesPerByte :
    ∃ t, exec (.readMessage 0x68 2) p2 = .next t ∧ (t.busy = false ∧ t.rspResult = true) :=
  answered_next (by decide +kernel)

theorem test_witness_SuccessfulMessageDuration :
    ∃ t, exec (.writeMessage 0x68 2) p1 = .next t ∧
    (t.busy = false ∧ t.rspResult = true ∧ (newEvents p1 t).all (fun e => !failedWaitSample e) = true) :=
  answered_next (by decide +kernel)

/-- P6a. -/
theorem test_witness_MessageTimeIsBounded :
    ∃ t, exec (.writeMessage 0x68 2) p6a = .next t ∧ t.nowUs = 25 := answered_next (by decide +kernel)

theorem test_witness_EverySampleIsOfAReleasedLine :
    decode (.cmd 0x00020684#32 0#32) = .ok (.writeMessage 0x68 2) ∧ ∃ t, exec (.writeMessage 0x68 2) p1 = .next t ∧ t.busy = false :=
  ⟨rfl, answered_next (by decide +kernel)⟩

theorem p1_supplies (addr len : Nat)
    (h : Instr.writeMessage 0x68 2 = .writeMessage addr len ∨ Instr.writeMessage 0x68 2 = .readMessage addr len) :
    len ≤ p1.bufLen := by
  rcases h with h | h
  · injection h with _ h
    subst h
    decide
  · exact nomatch h

theorem test_witness_EachCommandRespondsOnceAtItsEnd :
    decode (.cmd 0x00020684#32 0#32) = .ok (.writeMessage 0x68 2) ∧ 2 ≤ p1.bufLen ∧
    (∀ addr len, Instr.writeMessage 0x68 2 = .writeMessage addr len ∨ Instr.writeMessage 0x68 2 = .readMessage addr len → len ≤ p1.bufLen) ∧
    ∃ t, exec (.writeMessage 0x68 2) p1 = .next t ∧ t.rspResult = true :=
  ⟨rfl, by decide, p1_supplies, answered_next (by decide +kernel)⟩

theorem test_witness_OnlyDelaysAdvanceTime :
    ∃ t, exec .delay { base with delayUs := 7#31 } = .next t ∧ t.nowUs = 7 := answered_next (by decide +kernel)

theorem test_witness_LinesFollowTheTrace :
    ∃ t, exec .start (withAnswers [1] [1] base) = .next t ∧ t.drv .scl = true := answered_next (by decide +kernel)

theorem test_witness_OnlySetDelayWritesTheDelay :
    (∃ t, exec .clearArb base = .next t ∧ t.delayUs = 1#31) ∧ ∀ us, Instr.clearArb ≠ .setDelay us :=
  ⟨answered_next (by decide +kernel), by simp⟩

theorem test_witness_WhoWritesTheArbitrationFlag :
    (∃ t, exec .writeByte lostByte = .next t ∧ t.arbLost = true) ∧
    (∃ t, exec .clearArb { base with arbLost := true } = .next t ∧ t.arbLost = false) :=
  ⟨answered_next (by decide +kernel), answered_next (by decide +kernel)⟩

/-- The invariant holds in a state of a run, with a message at the port and a reset coming in the middle of it. -/
theorem test_witness_EveryStepKeepsTheInvariant :
    ({ p1 with port := [(0x00020684#32, 0#32)], rstIn := some 100 } : State).Inv ∧
    ∃ t, step { p1 with port := [(0x00020684#32, 0#32)], rstIn := some 100 } = .next t ∧ t.trace = [] :=
  ⟨⟨rfl, by decide, by decide, fun _ => ⟨rfl, rfl⟩, .inl ⟨rfl, rfl⟩, rfl, by decide, by decide, by decide, by decide, rfl,
    by decide⟩, answered_next (by decide +kernel)⟩

/-- The invariant holds in a stuck block too, and a step of it that a reset frees answers a state. -/
theorem test_witness_EveryStepKeepsTheInvariant_stuck :
    ({ base with sdaDrv := true, phase := .data, active := true, rstIn := some 5 } : State).Inv ∧
    ∃ t, step { base with sdaDrv := true, phase := .data, active := true, rstIn := some 5 } = .next t ∧ t.busy = false :=
  ⟨⟨rfl, by decide, by decide, (fun h => nomatch h), .inr ⟨rfl, rfl⟩, rfl, by decide, by decide, by decide, by decide, rfl,
    by decide⟩, answered_next (by decide +kernel)⟩

end Sys2Proof.Tests
end

/-! PROOFS. The statements about the state (10_state.md): what every instruction appends to the trace and leaves alone, who
writes the arbitration flag, how a message command ends, what a step takes from the port, and the invariant of the block. -/

namespace Sys2Proof.Machine

open Sys2Proof.Laws.EncodesInRange (isCommand)

/-! ### No event of a byte or of a condition is a response -/

@[simp] theorem messageEvent_sclPolls (k : Nat) : (sclPolls k).all messageEvent = true := by
  induction k with
  | zero => rfl
  | succ k ih => simp only [sclPolls, List.all_cons, messageEvent, ih, Bool.and_self]

@[simp] theorem messageEvent_idlePolls (lows : List (Bool × Bool)) : (idlePolls lows).all messageEvent = true := by
  induction lows with
  | nil => rfl
  | cons p lows ih => simp only [idlePolls, List.all_cons, messageEvent, ih, Bool.and_self]

@[simp] theorem messageEvent_startEvents (d : Nat) (lows : List (Bool × Bool)) (last : Bool × Bool) :
    (startEvents d lows last).all messageEvent = true := by
  unfold startEvents
  split <;> simp [messageEvent]

@[simp] theorem messageEvent_stopEvents (d : Nat) (b : Option (Nat × Bool)) :
    (stopEvents d b).all messageEvent = true := by
  rcases b with _ | ⟨k, _ | _⟩ <;> simp [stopEvents, messageEvent]

@[simp] theorem messageEvent_writeCellEvents (d : Nat) (b : Bool) (k : Nat) (c : CellEnd) :
    (writeCellEvents d b k c).all messageEvent = true := by
  cases c <;> cases b <;> simp [writeCellEvents, writeCellHead, messageEvent]

@[simp] theorem messageEvent_writeCellsEvents (d : Nat) (v : Byte) (i : Nat) (ks : List Nat) :
    (writeCellsEvents d v i ks).all messageEvent = true := by
  induction ks generalizing i with
  | nil => rfl
  | cons k ks ih => simp [writeCellsEvents, ih]

@[simp] theorem messageEvent_writeByteEvents (d : Nat) (v : Byte) (e : WriteEnd) :
    (writeByteEvents d v e).all messageEvent = true := by
  cases e <;> simp [writeByteEvents, writeEvents, ackHead, messageEvent]

/-! ### The arbitration flag and the code -/

/-- The last events of a byte that lost arbitration: the detector saw SDA low (43_byte_transfer_engine.md R73). -/
def arbitrationLoss : List Event := [.sm .sda false, .tr]

/-- WRITE_BYTE leaves the flag alone, or the detector sets it. -/
theorem WriteEnd.arbAfter_cases (d : Nat) (v : Byte) (e : WriteEnd) (a : Bool) :
    e.arbAfter a = a ∨ e.arbAfter a = true ∧ arbitrationLoss <:+: writeByteEvents d v e := by
  cases e with
  | full => exact .inl rfl
  | ackTimeout => exact .inl rfl
  | cellTimeout => exact .inl rfl
  | cellLost ks k =>
    refine .inr ⟨rfl, [.ta] ++ writeCellsEvents d v 0 ks ++ writeCellHead d (wireBit v ks.length) k ++
      [.sm .scl true, .dy d], [], ?_⟩
    simp [arbitrationLoss, writeByteEvents, writeEvents, writeCellEvents]

theorem WriteEnd.loss_of_arbAfter {d : Nat} {v : Byte} {e : WriteEnd} (h : e.arbAfter false = true) :
    arbitrationLoss <:+: writeByteEvents d v e := by
  rcases WriteEnd.arbAfter_cases d v e false with hk | ⟨_, hl⟩
  · exact absurd (h.symm.trans hk) (by decide)
  · exact hl

/-- `c` is a code a message ends with, and it is ARBITRATION_LOST exactly when the flag is set. -/
def CodeFits (c : BitVec 3) (arb : Bool) : Prop := c ∈ [0#3, 1#3, 2#3, 3#3, 4#3] ∧ (arb = true ↔ c = 4#3)

theorem CodeFits.not_reserved {c : BitVec 3} {arb : Bool} (h : CodeFits c arb) : c ≠ 5#3 ∧ c ≠ 6#3 := by
  constructor <;> rintro rfl <;> exact absurd h.1 (by decide)

theorem CodeFits.ok : CodeFits codeOk false := ⟨by decide, by decide⟩

theorem CodeFits.ofCause (c : Cause) (h : c ≠ .rejected) : CodeFits c.code (decide (c = .arbitrationLost)) := by
  cases c with
  | rejected => exact absurd rfl h
  | busBusyTimeout | clockStretchTimeout | nack | arbitrationLost => exact ⟨by decide, by decide⟩

theorem Cause.code_ne_ok (c : Cause) : c.code ≠ codeOk := by cases c <;> decide

theorem WriteEnd.codeFits (e : WriteEnd) : CodeFits (e.causeAfter codeOk) (e.arbAfter false) := by
  cases e with
  | full ks k sda =>
    cases sda
    · exact .ok
    · exact .ofCause .nack (by decide)
  | ackTimeout => exact .ofCause .clockStretchTimeout (by decide)
  | cellTimeout => exact .ofCause .clockStretchTimeout (by decide)
  | cellLost => exact .ofCause .arbitrationLost (by decide)

/-- A byte that failed has left a cause. -/
theorem WriteEnd.causeAfter_ne_ok {e : WriteEnd} (h : e.result false = false) : e.causeAfter codeOk ≠ codeOk := by
  cases e with
  | full ks k sda =>
    cases sda
    · exact nomatch h
    · exact Cause.code_ne_ok .nack
  | ackTimeout => exact Cause.code_ne_ok .clockStretchTimeout
  | cellTimeout => exact Cause.code_ne_ok .clockStretchTimeout
  | cellLost => exact Cause.code_ne_ok .arbitrationLost

/-! ### The data phase of a message -/

/-- What the data phase of a message does, whichever way the bytes go, from a state whose cause is OK and whose flag is
clear. -/
structure DataEffect (n : Nat) (u : State) (r : DataEnd × State) (es : List Event) : Prop where
  run : DataRun u r.2 es
  loss : r.2.arbLost = true → arbitrationLoss <:+: es
  fits : CodeFits r.2.cause r.2.arbLost
  ok : r.2.cause = codeOk ↔ r.1 ≠ .failed
  tcs : u.tcs = false → r.2.tcs = false
  bitCnt : u.bitCnt ≤ 8 → r.2.bitCnt ≤ 8
  counter : u.waitElapsed ≤ u.params.sclStretchTimeoutUs → r.2.waitElapsed ≤ u.params.sclStretchTimeoutUs
  short : r.1 = .stuck → u.bufLen < n

theorem writeByteEvents_infix_writeDataEvents (d : Nat) (i : BitVec 16) (b : Byte × WriteEnd)
    (bs : List (Byte × WriteEnd)) (h : b ∈ bs) : writeByteEvents d b.1 b.2 <:+: writeDataEvents d i bs := by
  induction bs generalizing i with
  | nil => exact nomatch h
  | cons c bs ih =>
    rw [writeDataEvents]
    rcases List.mem_cons.1 h with rfl | h
    · exact List.infix_append ..
    · exact (ih (i + 1#16) h).trans (List.suffix_append ..).isInfix

/-- An access at index `k` of a transfer of `n` bytes that lies beyond the buffer's end. -/
theorem bufLen_lt_of_beyond {k n len : Nat} {i : BitVec 16} (hi : i = 0#16) (hn : n < 65536) (hk : k < n)
    (h : ¬ (i + BitVec.ofNat 16 k).toNat < len) : len < n := by
  subst hi
  rw [BitVec.zero_add, BitVec.toNat_ofNat, Nat.mod_eq_of_lt (by omega)] at h
  omega

section
variable {n : Nat} {u : State} {r : DataEnd × State}

theorem WriteDataSpec.effect {bs : List (Byte × WriteEnd)} {last : Option (Byte × WriteEnd)}
    (h : WriteDataSpec n u r bs last) (hn : n < 65536) (idx : u.byteIdx = 0#16) (hc : u.cause = codeOk) :
    DataEffect n u r (writeDataEvents u.delayUs.toNat u.byteIdx (bs ++ last.toList)) where
  run := h.run
  loss := fun f => by
    rw [h.arbLost] at f
    cases last with
    | none => exact nomatch f
    | some b =>
      exact (WriteEnd.loss_of_arbAfter f).trans (writeByteEvents_infix_writeDataEvents _ _ b _ (by simp))
  fits := by
    rw [h.cause, h.arbLost, hc]
    cases last with
    | none => exact .ok
    | some b => exact b.2.codeFits
  ok := by
    have how := h.how
    rw [h.cause, hc]
    obtain ⟨d, v⟩ := r
    cases d with
    | done => simp [how.2]
    | stuck => simp [how.2.1]
    | failed =>
      obtain ⟨b, rfl⟩ := Option.isSome_iff_exists.1 how.2
      simp [WriteEnd.causeAfter_ne_ok (h.bad b rfl).2]
  tcs := h.tcs
  bitCnt := h.bitCnt
  counter := h.counter
  short := fun f => by
    have how := h.how
    rw [f] at how
    exact bufLen_lt_of_beyond idx hn how.1 how.2.2

theorem ReadDataSpec.effect {es : List ReadEnd} {last : Option ReadEnd} (h : ReadDataSpec n u r es last)
    (hn : n < 65536) (idx : u.byteIdx = 0#16) (hc : u.cause = codeOk) (ha : u.arbLost = false) :
    DataEffect n u r (readDataEvents u.delayUs.toNat u.tLen u.byteIdx es ++
      readLastEvents u.delayUs.toNat u.tLen (u.byteIdx + BitVec.ofNat 16 es.length) last) where
  run := h.run
  loss := fun f => absurd (f.symm.trans (h.arbLost.trans ha)) (by decide)
  fits := by
    rw [h.cause, h.arbLost, hc, ha]
    split
    · exact .ofCause .clockStretchTimeout (by decide)
    · exact .ok
  ok := by
    rw [h.cause, hc]
    split <;> rename_i hf <;> simp [hf, firstCause, codeOk, Cause.code]
  tcs := h.tcs
  bitCnt := h.bitCnt
  counter := h.counter
  short := fun f => by
    have how := h.how
    rw [f] at how
    exact bufLen_lt_of_beyond idx hn how.1 how.2.2

theorem DataSpec.effect {rw : Bool} (h : DataSpec rw n u r) (hn : n < 65536) (idx : u.byteIdx = 0#16)
    (hc : u.cause = codeOk) (ha : u.arbLost = false) : ∃ es, DataEffect n u r es := by
  cases rw with
  | false =>
    obtain ⟨bs, last, hw⟩ := h
    exact ⟨_, hw.effect hn idx hc⟩
  | true =>
    obtain ⟨es, last, hr⟩ := h
    exact ⟨_, hr.effect hn idx hc ha⟩

end

/-! ### How a message command ends -/

section
variable {rw : Bool} {addr : BitVec 7} {len : BitVec 16} {s u t : State} {es : List Event}

/-- A state between two bytes of a message command accepted in `s`, after the events `es`. -/
structure Transacting (rw : Bool) (addr : BitVec 7) (len : BitVec 16) (s u : State) (es : List Event) : Prop where
  run : Run s u es
  noRsp : es.all messageEvent = true
  latch : u.tAddr = addr ∧ u.tRw = rw ∧ u.tLen = len
  fits : CodeFits u.cause u.arbLost
  loss : u.arbLost = true → arbitrationLoss <:+: es
  tcs : u.tcs = false
  bitCnt : u.bitCnt ≤ 8
  counter : u.waitElapsed ≤ s.params.sclStretchTimeoutUs
  active : u.active = true
  rspErr : u.rspErr = s.rspErr

theorem Addressed.transacting {lows : List (Bool × Bool)} {e : WriteEnd} (h : Addressed rw addr len s u lows e) :
    Transacting rw addr len s u (startEvents s.delayUs.toNat lows (true, true) ++
      writeByteEvents s.delayUs.toNat (addressByte addr rw) e) where
  run := h.run
  noRsp := by rw [List.all_append, messageEvent_startEvents, messageEvent_writeByteEvents]; rfl
  latch := h.latch
  fits := by rw [h.cause, h.arbLost]; exact e.codeFits
  loss := fun f => (WriteEnd.loss_of_arbAfter (h.arbLost.symm.trans f)).trans (List.suffix_append ..).isInfix
  tcs := h.tcs
  bitCnt := h.bitCnt
  counter := h.counter
  active := h.active
  rspErr := h.rsp.2.1

/-- The data phase goes on with the transaction. -/
theorem Transacting.data {n : Nat} {r : DataEnd × State} {fs : List Event} (h : Transacting rw addr len s u es)
    (g : DataEffect n u r fs) : Transacting rw addr len s r.2 (es ++ fs) where
  run := h.run.trans g.run.run
  noRsp := by rw [List.all_append, h.noRsp, g.run.noRsp]; rfl
  latch := by rw [g.run.frame]; exact h.latch
  fits := g.fits
  loss := fun f => (g.loss f).trans (List.suffix_append ..).isInfix
  tcs := g.tcs h.tcs
  bitCnt := g.bitCnt h.bitCnt
  counter := by
    have hg := g.counter
    rw [h.run.kept.params] at hg
    exact hg h.counter
  active := by rw [g.run.frame]; exact h.active
  rspErr := by rw [g.run.frame]; exact h.rspErr

/-- A message command accepted in `s` is over in `t`: after the events `es` it has made the response (`r`, `c`). -/
structure MsgEnd (rw : Bool) (addr : BitVec 7) (len : BitVec 16) (s t : State) (r : Bool) (c : BitVec 3)
    (es : List Event) : Prop where
  run : Run s t (es ++ [.rsp r c t.arbLost])
  noRsp : es.all messageEvent = true
  loss : t.arbLost = true → arbitrationLoss <:+: es
  responded : Responded c t.arbLost r t
  ok : r = true ↔ c = codeOk
  fits : CodeFits c t.arbLost
  phase : t.phase = .idle
  released : t.released
  latch : t.tAddr = addr ∧ t.tRw = rw ∧ t.tLen = len
  tcs : s.tcs = false → t.tcs = false
  bitCnt : s.bitCnt ≤ 8 → t.bitCnt ≤ 8
  counter : t.waitElapsed ≤ max s.params.busIdleTimeoutUs s.params.sclStretchTimeoutUs

theorem MsgBusy.msgEnd {lows : List (Bool × Bool)} {last : Bool × Bool} (h : MsgBusy rw addr len s t lows last) :
    MsgEnd rw addr len s t false Cause.busBusyTimeout.code (startEvents s.delayUs.toNat lows last) := by
  have ha : t.arbLost = false := h.responded.arbLost
  exact {
    run := by rw [ha]; exact h.run
    noRsp := messageEvent_startEvents ..
    loss := fun f => absurd (f.symm.trans ha) (by decide)
    responded := by rw [ha]; exact h.responded
    ok := by decide
    fits := by rw [ha]; exact .ofCause .busBusyTimeout (by decide)
    phase := h.phase
    released := h.released
    latch := h.latch
    tcs := fun f => h.engine.1.trans f
    bitCnt := fun f => Nat.le_trans (Nat.le_of_eq h.engine.2) f
    counter := h.counter }

/-- STOP and the response end a transaction. -/
theorem Transacting.msgEnd {r : Bool} {b : Option (Nat × Bool)} (h : Transacting rw addr len s u es)
    (stop : StopSpec r u t b) (ok : r = true ↔ u.cause = codeOk) :
    MsgEnd rw addr len s t r u.cause (es ++ stopEvents u.delayUs.toNat b) := by
  have ha : t.arbLost = u.arbLost := stop.responded.arbLost
  obtain ⟨lAddr, lRw, lLen⟩ := h.latch
  obtain ⟨hAddr, hRw, hLen, _, _, hBit, _, _, _, hTcs⟩ := stop.frame
  exact {
    run := by rw [ha, List.append_assoc]; exact h.run.trans stop.run
    noRsp := by rw [List.all_append, h.noRsp, messageEvent_stopEvents]; rfl
    loss := fun f => (h.loss (ha.symm.trans f)).trans (List.prefix_append ..).isInfix
    responded := by rw [ha]; exact stop.responded
    ok := ok
    fits := by rw [ha]; exact h.fits
    phase := stop.phase
    released := stop.released
    latch := ⟨hAddr.trans lAddr, hRw.trans lRw, hLen.trans lLen⟩
    tcs := fun _ => hTcs.trans h.tcs
    bitCnt := fun _ => Nat.le_trans (Nat.le_of_eq hBit) h.bitCnt
    counter := by
      have hc := stop.counter
      rw [h.run.kept.params] at hc
      exact hc (Nat.le_trans h.counter (Nat.le_max_right ..)) }

/-- A message command ends with a response, or it is stuck in its data phase at the end of too short a buffer. -/
inductive MsgOutcome (rw : Bool) (addr : BitVec 7) (len : BitVec 16) (s t : State) : Prop where
  | ended (r : Bool) (c : BitVec 3) (es : List Event) (h : MsgEnd rw addr len s t r c es)
  | stuck (es : List Event) (h : Transacting rw addr len s t es) (phase : t.phase = .data)
      (short : s.bufLen < len.toNat)

theorem MsgCase.outcome (h : MsgCase rw addr len s t) : MsgOutcome rw addr len s t := by
  cases h with
  | busy lows last h => exact .ended _ _ _ h.msgEnd
  | address u lows e b h bad stop =>
    have hc : u.cause ≠ codeOk := by rw [h.cause]; exact WriteEnd.causeAfter_ne_ok bad
    exact .ended _ _ _ (h.transacting.msgEnd stop ⟨fun f => (nomatch f), fun f => absurd f hc⟩)
  | data u lows e r h good idx phase data tail =>
    obtain ⟨gc, ga⟩ := WriteEnd.good_cause codeOk ⟨h.ok, good⟩
    obtain ⟨fs, g⟩ := data.effect len.isLt idx (h.cause.trans gc) (h.arbLost.trans ga)
    have tr := h.transacting.data g
    have hok := g.ok
    have hshort := g.short
    have hphase : r.2.phase = u.phase := by rw [g.run.frame]
    obtain ⟨d, v⟩ := r
    cases d with
    | done =>
      obtain ⟨b, stop⟩ := tail
      exact .ended _ _ _ (tr.msgEnd stop ⟨fun _ => hok.2 (by simp), fun _ => rfl⟩)
    | failed =>
      obtain ⟨b, stop⟩ := tail
      exact .ended _ _ _ (tr.msgEnd stop ⟨fun f => (nomatch f), fun f => absurd rfl (hok.1 f)⟩)
    | stuck =>
      obtain rfl : t = v := tail
      exact .stuck _ tr (hphase.trans phase) (h.run.kept.bufLen ▸ hshort rfl)

/-- The events of a message command, up to its response or to where it is stuck. -/
theorem MsgOutcome.run (h : MsgOutcome rw addr len s t) :
    ∃ es, Run s t es ∧ (t.arbLost = true → arbitrationLoss <:+: es) := by
  cases h with
  | ended r c es h => exact ⟨_, h.run, fun f => (h.loss f).trans (List.prefix_append ..).isInfix⟩
  | stuck es h => exact ⟨_, h.run, h.loss⟩

end

/-! ### What an instruction can do -/

/-- `t` comes from `s` by appending the events `es`: time and lines follow them, and the parameters stay. -/
structure Follows (s t : State) (es : List Event) : Prop where
  trace : t.trace = s.trace ++ es
  time : t.nowUs = s.nowUs + elapsed es
  lines : ∀ l, t.drv l = linesAfter l (s.drv l) es
  params : t.params = s.params

theorem Run.follows {s t : State} {es : List Event} (h : Run s t es) : Follows s t es where
  trace := h.trace
  time := h.time
  lines := fun
    | .sda => h.sda
    | .scl => h.scl
  params := h.kept.params

/-- What instruction `i` can do from `s` to `t`. -/
inductive ExecCase (i : Instr) (s t : State) : Prop where
  /-- An accessor or a reserved opcode: the response after at most one register write. -/
  | accessor (r : Bool) (d : BitVec 31) (a : Bool) (c : BitVec 3)
      (eq : t = respond r (setCause c (setArbLost a (setDelayUs d (accept s)))))
      (delay : d = s.delayUs ∨ ∃ us, i = .setDelay us ∧ d = clamp (argWord us))
      (flag : a = s.arbLost ∨ i = .clearArb ∧ a = false) (code : c = codeOk ∨ c = Cause.rejected.code)
  /-- A message command. -/
  | message (rw : Bool) (addr len : Nat) (op : i = if rw then .readMessage addr len else .writeMessage addr len)
      (outcome : MsgOutcome rw (BitVec.ofNat 7 addr) (BitVec.ofNat 16 len) s t)
  /-- An internal operation. -/
  | internal (es : List Event) (op : isCommand i = false) (follows : Follows s t es) (delay : t.delayUs = s.delayUs)
      (flag : t.arbLost = s.arbLost ∨ i = .start ∧ t.arbLost = false ∨
        i = .writeByte ∧ t.arbLost = true ∧ arbitrationLoss <:+: es)

/-- An internal operation that hands back to its caller what its run on the bus ended with. -/
theorem ExecCase.ofBusRun {i : Instr} {s u t : State} {es : List Event} (op : isCommand i = false) (run : BusRun s u es)
    (eq : t = { u with uopResult := t.uopResult, uopData := t.uopData, freeCtr := t.freeCtr })
    (flag : u.arbLost = s.arbLost ∨ i = .start ∧ u.arbLost = false ∨
      i = .writeByte ∧ u.arbLost = true ∧ arbitrationLoss <:+: es) : ExecCase i s t := by
  have follows : Follows s t es := by
    rw [eq]
    exact {
      trace := run.trace
      time := run.time
      lines := fun
        | .sda => run.sda
        | .scl => run.scl
      params := run.params }
  have hdelay := run.delayUs
  have hflag : t.arbLost = u.arbLost := by rw [eq]
  exact .internal es op follows (by rw [eq]; exact hdelay) (by rw [hflag]; exact flag)

theorem exec_case (i : Instr) (s : State) : ∃ t, exec i s = .next t ∧ ExecCase i s t := by
  cases i with
  | setDelay us => exact ⟨_, rfl, .accessor _ _ s.arbLost codeOk rfl (.inr ⟨us, rfl, rfl⟩) (.inl rfl) (.inl rfl)⟩
  | getArbLost => exact ⟨_, rfl, .accessor _ s.delayUs s.arbLost codeOk rfl (.inl rfl) (.inl rfl) (.inl rfl)⟩
  | clearArb => exact ⟨_, rfl, .accessor _ s.delayUs false codeOk rfl (.inl rfl) (.inr ⟨rfl, rfl⟩) (.inl rfl)⟩
  | reservedOp0 | reservedOp6 | reservedOp7 | reservedOp8 | reservedOp9 | reservedOpA | reservedOpB | reservedOpC
  | reservedOpD | reservedOpE | reservedOpF =>
    exact ⟨rejectCommand s, rfl, .accessor false s.delayUs s.arbLost Cause.rejected.code rfl (.inl rfl) (.inl rfl) (.inr rfl)⟩
  | writeMessage addr len =>
    obtain ⟨t, ht, h⟩ := exec_writeMessage addr len s
    exact ⟨t, ht, .message false addr len rfl h.outcome⟩
  | readMessage addr len =>
    obtain ⟨t, ht, h⟩ := exec_readMessage addr len s
    exact ⟨t, ht, .message true addr len rfl h.outcome⟩
  | driveLow l => exact ⟨_, rfl, .ofBusRun rfl (driveLow_run l s) rfl (.inl (by cases l <;> rfl))⟩
  | release l => exact ⟨_, rfl, .ofBusRun rfl (release_run l s) rfl (.inl (by cases l <;> rfl))⟩
  | readLevel l => exact ⟨_, rfl, .ofBusRun rfl (sample_run l s) rfl (.inl (sample_wait l s).arbLost)⟩
  | delay =>
    refine ⟨_, rfl, ?_⟩
    split
    · exact .ofBusRun rfl (delay_run _ s) rfl (.inl rfl)
    · exact .ofBusRun rfl (delayStep_run s) rfl (.inl rfl)
  | waitBusIdle =>
    obtain ⟨r, lows, last, ht, _, _, h⟩ := exec_waitBusIdle s
    have hrun := ((release_run .sda s).trans (release_run .scl _)).trans (BusRun.trans (es := []) (.regs rfl) h.run)
    exact ⟨_, ht, .ofBusRun rfl hrun rfl (.inl h.wait.arbLost)⟩
  | waitSclHigh =>
    obtain ⟨r, k, ht, h⟩ := exec_waitSclHigh s
    exact ⟨_, ht, .ofBusRun rfl (BusRun.trans (es := []) (.regs rfl) h.run) rfl (.inl h.wait.arbLost)⟩
  | start =>
    obtain ⟨r, lows, last, ht, h⟩ := exec_start s
    exact ⟨_, ht, .ofBusRun rfl h.run rfl (.inr (.inl ⟨rfl, h.arbLost⟩))⟩
  | stop =>
    obtain ⟨t, b, ht, h, _⟩ := exec_stop s
    exact ⟨t, ht, .ofBusRun rfl h.run rfl (.inl h.arbLost)⟩
  | writeByte =>
    obtain ⟨r, e, ht, h⟩ := exec_writeByte s
    refine ⟨_, ht, .ofBusRun rfl h.run rfl ?_⟩
    rw [h.arbLost]
    exact (WriteEnd.arbAfter_cases _ _ e s.arbLost).imp id fun hl => .inr ⟨rfl, hl⟩
  | readByte q =>
    obtain ⟨r, e, d, ht, h, _⟩ := exec_readByte q s
    obtain ⟨_, _, _, harb⟩ := h.regs
    refine ⟨_, ht, ?_⟩
    split <;> exact .ofBusRun rfl h.run rfl (.inl harb)

theorem execCase_of_exec {i : Instr} {s t : State} (h : exec i s = .next t) : ExecCase i s t := by
  obtain ⟨u, hu, hc⟩ := exec_case i s
  obtain rfl := Host.Outcome.next.inj (hu.symm.trans h)
  exact hc

/-- Every instruction appends events, which time and lines follow. -/
theorem exec_follows {i : Instr} {s t : State} (h : exec i s = .next t) : Follows s t (newEvents s t) := by
  have hf : ∃ es, Follows s t es := by
    cases execCase_of_exec h with
    | accessor r d a c eq =>
      subst eq
      exact ⟨[.rsp r c a], rfl, rfl, fun l => by cases l <;> rfl, rfl⟩
    | message rw addr len op outcome =>
      obtain ⟨es, hr, _⟩ := outcome.run
      exact ⟨es, hr.follows⟩
    | internal es op follows => exact ⟨es, follows⟩
  obtain ⟨es, hes⟩ := hf
  rwa [newEvents_eq hes.trace]

/-- Settles O55: two clauses of what every instruction follows. -/
theorem onlyDelaysAdvanceTime : Obligations.OnlyDelaysAdvanceTime :=
  fun _ _ _ h => ⟨(exec_follows h).trace, (exec_follows h).time⟩

/-- Settles O56: a clause of what every instruction follows. -/
theorem linesFollowTheTrace : Obligations.LinesFollowTheTrace := fun _ _ _ h => (exec_follows h).lines

/-- Settles O57: of the three kinds of instruction only an accessor can write `delay_us`. -/
theorem onlySetDelayWritesTheDelay : Obligations.OnlySetDelayWritesTheDelay := by
  intro i s t h
  refine ⟨(exec_follows h).params, fun hi => ?_⟩
  cases execCase_of_exec h with
  | accessor r d a c eq delay =>
    rcases delay with hd | ⟨us, hus, _⟩
    · rw [eq]; exact hd
    · exact absurd hus (hi us)
  | message rw addr len op outcome =>
    obtain ⟨es, hr, _⟩ := outcome.run
    exact hr.kept.delayUs
  | internal es op follows delay => exact delay

/-- Settles O58: an accessor can only clear the flag, a message sets it by its detector, and of the internal operations START
clears it and the detector of WRITE_BYTE sets it. -/
theorem whoWritesTheArbitrationFlag : Obligations.WhoWritesTheArbitrationFlag := by
  intro i s t h
  have detected : ∀ {es}, t.trace = s.trace ++ es → arbitrationLoss <:+: es →
      ∃ fs gs, newEvents s t = fs ++ [.sm .sda false, .tr] ++ gs := by
    rintro es htr ⟨fs, gs, hes⟩
    exact ⟨fs, gs, (newEvents_eq htr).trans hes.symm⟩
  cases execCase_of_exec h with
  | accessor r d a c eq _ flag =>
    subst eq
    rcases flag with rfl | ⟨rfl, rfl⟩
    · exact ⟨fun h0 h1 => absurd (h0.symm.trans h1) (by decide), fun h1 h0 => absurd (h0.symm.trans h1) (by decide)⟩
    · exact ⟨fun _ h1 => (nomatch h1), fun _ _ => .inr (.inl rfl)⟩
  | message rw addr len op outcome =>
    obtain ⟨es, hr, hl⟩ := outcome.run
    have hop : (∃ a n, i = .writeMessage a n) ∨ ∃ a n, i = .readMessage a n := by
      cases rw
      · exact .inl ⟨addr, len, op⟩
      · exact .inr ⟨addr, len, op⟩
    refine ⟨fun _ h1 => ?_, fun _ _ => .inr (.inr hop)⟩
    obtain ⟨fs, gs, hes⟩ := detected hr.trace (hl h1)
    exact ⟨fs, gs, hes, .inr hop⟩
  | internal es _ follows _ flag =>
    rcases flag with hk | ⟨hi, hc⟩ | ⟨hi, hs, hl⟩
    · rw [hk]
      exact ⟨fun h0 h1 => absurd (h0.symm.trans h1) (by decide), fun h1 h0 => absurd (h0.symm.trans h1) (by decide)⟩
    · exact ⟨fun _ h1 => absurd (hc.symm.trans h1) (by decide), fun _ _ => .inl hi⟩
    · obtain ⟨fs, gs, hes⟩ := detected follows.trace hl
      exact ⟨fun _ _ => ⟨fs, gs, hes, .inl hi⟩, fun _ h0 => absurd (h0.symm.trans hs) (by decide)⟩

/-! ### A message command with its buffer supplied -/

theorem busy_eq_false {s : State} : s.busy = false ↔ s.phase = .idle ∧ s.active = false := by
  simp [State.busy]

theorem exec_message {i : Instr} {addr len : Nat} (hi : i = .writeMessage addr len ∨ i = .readMessage addr len)
    (s : State) : ∃ t, exec i s = .next t ∧
      MsgCase (decide (i = .readMessage addr len)) (BitVec.ofNat 7 addr) (BitVec.ofNat 16 len) s t := by
  rcases hi with rfl | rfl
  · simpa using exec_writeMessage addr len s
  · simpa using exec_readMessage addr len s

/-- The operands of a well-formed message command are the numbers the latch holds. -/
theorem message_operands {i : Instr} {addr len : Nat} (hi : i = .writeMessage addr len ∨ i = .readMessage addr len)
    (hw : i.wellFormed = true) : (BitVec.ofNat 7 addr).toNat = addr ∧ (BitVec.ofNat 16 len).toNat = len := by
  have hr : addr ≤ 0x7F ∧ len ≤ 65535 := by
    rcases hi with rfl | rfl <;> simpa [Instr.wellFormed, Instr.addrOk, Instr.lenOk] using hw
  simp only [BitVec.toNat_ofNat]
  omega

/-- Settles O35: with the buffer supplied the message cannot be stuck, so it has ended. -/
theorem messageCommandsEndIdleReleasedAndAnswered : Obligations.MessageCommandsEndIdleReleasedAndAnswered := by
  intro i addr len s hi hw hbuf
  obtain ⟨haddr, hlen⟩ := message_operands hi hw
  obtain ⟨t, ht, hcase⟩ := exec_message hi s
  cases hcase.outcome with
  | stuck es h phase short => omega
  | ended r c es h =>
    obtain ⟨hA, hR, hL⟩ := h.latch
    have hp := h.responded
    have hnew := newEvents_eq h.run.trace
    refine ⟨t, r, c, ht, ⟨hp.rspResult, hp.rspErr, hp.rspArb, hp.rspValid, busy_eq_false.2 ⟨h.phase, hp.active⟩⟩, h.phase,
      h.released, h.ok, h.fits.1, h.fits.2, ?_, ?_, hR, ?_, ?_, hp.strobes.1, hp.strobes.2, h.run.kept⟩
    · rw [hA, haddr]
    · rw [hL, hlen]
    · rw [hnew]; exact h.run.trace
    · rw [hnew, responses_append, messageEvents_responses h.noRsp]; rfl

/-! ### What a step takes from the port -/

/-- Settles O7: the command counts its acceptance and its events towards the reset, so a reset after `k` events or more
finds it complete. -/
theorem stepRunsTheCommandAtThePort : Obligations.StepRunsTheCommandAtThePort := by
  intro s word arg rest hu hb hp
  refine ⟨decodeCmd word arg, rfl, fun hr => ?_, fun k t hr he hk => ?_⟩
  · rw [step_command (by simp [hr]) hu hb hp]
    exact underReset_none hr
  · rw [step_command (by simp [hr]) hu hb hp]
    have hn : stepsMade (setPort rest s) t = (newEvents s t).length + 1 := by
      simp [stepsMade, newEvents]
    rw [show exec (decodeCmd word arg) (setPort rest s) = .next t from he, 
      underReset_next (show (setPort rest s).rstIn = some (k + 1) from hr), hn, if_neg (by omega),
      Nat.add_sub_add_right]
    rfl

/-- Settles O9: the three clauses are the branches of a step with nothing to run. -/
theorem blockWithNothingToRunWaitsOrIsStuck : Obligations.BlockWithNothingToRunWaitsOrIsStuck := by
  intro s hu
  refine ⟨fun hb hp hr => ?_, fun hb hr => ?_, fun hb k hr => ⟨hardReset s, ?_, rfl, ⟨rfl, rfl⟩, rfl, rfl⟩⟩
  · rw [step_wait hr hu (.inr hp), waitStep, hb]
    rfl
  · rw [step_wait (by simp [hr]) hu (.inl hb), waitStep, hb, hr]
    rfl
  · by_cases h0 : s.rstIn = some 0
    · exact step_reset h0
    · rw [step_wait h0 hu (.inl hb), waitStep, hb, hr]
      rfl

/-! ### The invariant -/

/-- The clamp law never gives 0 (41_timing_and_timeout.md R53). -/
theorem clamp_ne_zero (a : Word) : clamp a ≠ 0#31 := by
  unfold clamp
  split
  · decide
  · rename_i hpos
    intro h
    have hlow : a.toNat % 2 ^ 31 = 0 := by simpa using congrArg BitVec.toNat h
    rw [BitVec.toInt_eq_toNat_cond] at hpos
    split at hpos <;> omega

/-- Each way a reset comes to the block leaves the invariant. -/
theorem hardReset_inv {s : State} (hd : s.params.defaultDelayUs ≠ 0#31) (hb : s.buf.wf = true) :
    (hardReset s).Inv where
  noUop := rfl
  defaultDelay := hd
  delay := hd
  idleReleased := fun _ => ⟨rfl, rfl⟩
  idleOrStuck := .inl ⟨rfl, rfl⟩
  noTcs := rfl
  rspErr := CodeFits.ok.not_reserved
  cause := CodeFits.ok.not_reserved
  bitCnt := Nat.zero_le _
  waitElapsed := Nat.zero_le _
  delayCnt := rfl
  bufWf := hardReset_wf s hb

theorem idleCycle_inv {s : State} (h : s.Inv) : (idleCycle s).Inv := { h with }

theorem setPort_inv {s : State} (p : List (Word × Word)) (h : s.Inv) : (setPort p s).Inv := { h with }

theorem setRstIn_inv {s : State} (r : Option Nat) (h : s.Inv) : (setRstIn r s).Inv := { h with }

section
variable {rw : Bool} {addr : BitVec 7} {len : BitVec 16} {s t : State}

theorem MsgEnd.inv {r : Bool} {c : BitVec 3} {es : List Event} (h : MsgEnd rw addr len s t r c es) (hs : s.Inv) :
    t.Inv where
  noUop := h.run.kept.uop.trans hs.noUop
  defaultDelay := by rw [h.run.kept.params]; exact hs.defaultDelay
  delay := by rw [h.run.kept.delayUs]; exact hs.delay
  idleReleased := fun _ => h.released
  idleOrStuck := .inl ⟨h.phase, h.responded.active⟩
  noTcs := h.tcs hs.noTcs
  rspErr := by rw [h.responded.rspErr]; exact h.fits.not_reserved
  cause := by rw [h.responded.cause]; exact h.fits.not_reserved
  bitCnt := h.bitCnt hs.bitCnt
  waitElapsed := by rw [h.run.kept.params]; exact h.counter
  delayCnt := h.run.delayCnt hs.delayCnt
  bufWf := h.run.bufWf hs.bufWf

theorem Transacting.inv {es : List Event} (h : Transacting rw addr len s t es) (phase : t.phase = .data) (hs : s.Inv) :
    t.Inv where
  noUop := h.run.kept.uop.trans hs.noUop
  defaultDelay := by rw [h.run.kept.params]; exact hs.defaultDelay
  delay := by rw [h.run.kept.delayUs]; exact hs.delay
  idleReleased := fun hi => absurd (phase.symm.trans hi) (by decide)
  idleOrStuck := .inr ⟨phase, h.active⟩
  noTcs := h.tcs
  rspErr := by rw [h.rspErr]; exact hs.rspErr
  cause := h.fits.not_reserved
  bitCnt := h.bitCnt
  waitElapsed := by rw [h.run.kept.params]; exact Nat.le_trans h.counter (Nat.le_max_right ..)
  delayCnt := h.run.delayCnt hs.delayCnt
  bufWf := h.run.bufWf hs.bufWf

/-- A host command of a ready block keeps the invariant. -/
theorem ExecCase.inv {i : Instr} (h : ExecCase i s t) (hi : isCommand i = true) (idle : s.busy = false) (hs : s.Inv) :
    t.Inv := by
  cases h with
  | accessor r d a c eq delay _ code =>
    have hphase : s.phase = .idle := (busy_eq_false.1 idle).1
    have hd : d ≠ 0#31 := by
      rcases delay with rfl | ⟨us, _, rfl⟩
      · exact hs.delay
      · exact clamp_ne_zero _
    have hc : c ≠ 5#3 ∧ c ≠ 6#3 := by rcases code with rfl | rfl <;> decide
    subst eq
    exact { hs with delay := hd, idleOrStuck := .inl ⟨hphase, rfl⟩, rspErr := hc, cause := hc }
  | message rw addr len op outcome =>
    cases outcome with
    | ended r c es h => exact h.inv hs
    | stuck es h phase => exact h.inv phase hs
  | internal es op => exact absurd (hi.symm.trans op) (by decide)

end

/-- The port carries host commands only. -/
theorem isCommand_decodeCmd (word arg : Word) : isCommand (decodeCmd word arg) = true := by
  unfold decodeCmd
  split <;> rfl

/-- Settles O59: a reset or a waiting cycle keeps the invariant, and so does the command at the port; no micro-operation is
loaded. -/
theorem everyStepKeepsTheInvariant : Obligations.EveryStepKeepsTheInvariant := by
  intro s t hs h
  cases step_case h with
  | reset r eq params wf =>
    rw [eq]
    exact hardReset_inv (by rw [params]; exact hs.defaultDelay) (wf hs.bufWf)
  | wait _ eq =>
    rw [eq]
    exact idleCycle_inv hs
  | command word arg rest v r _ idle _ run eq =>
    rw [eq]
    exact setRstIn_inv r ((execCase_of_exec run).inv (isCommand_decodeCmd word arg) idle (setPort_inv rest hs))
  | micro code i v r uop => exact absurd (hs.noUop.symm.trans uop) (by simp)

end Sys2Proof.Machine

/-! PROOFS. The statements about the host's byte buffer (20_memory.md): in what order and where between the bytes a message
command accesses it. -/

namespace Sys2Proof.Machine

/-! ### Lists cut at an event -/

section
variable {α : Type} {as bs pre post : List α} {x : α}

/-- An element that is not in the first part of a list lies in the second. -/
theorem split_skip_left (h : as ++ bs = pre ++ x :: post) (hx : x ∉ as) :
    ∃ p, pre = as ++ p ∧ bs = p ++ x :: post := by
  rcases List.append_eq_append_iff.1 h with ⟨p, hpre, hbs⟩ | ⟨q, has, hq⟩
  · exact ⟨p, hpre, hbs⟩
  · cases q with
    | nil => exact ⟨[], by simpa using has.symm, by simpa using hq.symm⟩
    | cons y q =>
      obtain ⟨rfl, _⟩ := List.cons.inj hq
      exact absurd (by simp [has]) hx

/-- An element that is not in the second part of a list lies in the first. -/
theorem split_skip_right (h : as ++ bs = pre ++ x :: post) (hx : x ∉ bs) :
    ∃ q, as = pre ++ x :: q ∧ post = q ++ bs := by
  rcases List.append_eq_append_iff.1 h with ⟨p, _, hbs⟩ | ⟨q, has, hq⟩
  · exact absurd (by simp [hbs]) hx
  · cases q with
    | nil => exact absurd (by simpa using congrArg (x ∈ ·) hq) hx
    | cons y q =>
      obtain ⟨rfl, hpost⟩ := List.cons.inj hq
      exact ⟨q, has, hpost⟩

end

/-! ### Events of the lines and of time -/

/-- An event of the lines or of time: it neither opens nor closes a byte section, accesses the buffer or responds. -/
def wireEvent (e : Event) : Bool := plainEvent e && busEvent e

theorem wireEvents_plain {es : List Event} (h : es.all wireEvent = true) : es.all plainEvent = true := by
  rw [List.all_eq_true] at h ⊢
  exact fun e he => (Bool.and_eq_true_iff.1 (h e he)).1

theorem wireEvents_bus {es : List Event} (h : es.all wireEvent = true) : es.all busEvent = true := by
  rw [List.all_eq_true] at h ⊢
  exact fun e he => (Bool.and_eq_true_iff.1 (h e he)).2

@[simp] theorem wire_sclPolls (k : Nat) : (sclPolls k).all wireEvent = true := by
  induction k with
  | zero => rfl
  | succ k ih => rw [sclPolls, List.all_cons, List.all_cons, ih]; rfl

@[simp] theorem wire_idlePolls (lows : List (Bool × Bool)) : (idlePolls lows).all wireEvent = true := by
  induction lows with
  | nil => rfl
  | cons p lows ih => rw [idlePolls, List.all_cons, List.all_cons, ih]; rfl

@[simp] theorem wire_startEvents (d : Nat) (lows : List (Bool × Bool)) (last : Bool × Bool) :
    (startEvents d lows last).all wireEvent = true := by
  unfold startEvents
  split <;> simp [wireEvent, plainEvent, busEvent]

@[simp] theorem wire_stopEvents (d : Nat) (b : Option (Nat × Bool)) : (stopEvents d b).all wireEvent = true := by
  rcases b with _ | ⟨k, _ | _⟩ <;> simp [stopEvents, wireEvent, plainEvent, busEvent]

@[simp] theorem wire_writeCellEvents (d : Nat) (b : Bool) (k : Nat) (c : CellEnd) :
    (writeCellEvents d b k c).all wireEvent = true := by
  cases c <;> cases b <;> simp [writeCellEvents, writeCellHead, wireEvent, plainEvent, busEvent]

@[simp] theorem wire_writeCellsEvents (d : Nat) (v : Byte) (i : Nat) (ks : List Nat) :
    (writeCellsEvents d v i ks).all wireEvent = true := by
  induction ks generalizing i with
  | nil => rfl
  | cons k ks ih => rw [writeCellsEvents, List.all_append, wire_writeCellEvents, ih]; rfl

@[simp] theorem wire_writeEvents (d : Nat) (v : Byte) (e : WriteEnd) : (writeEvents d v e).all wireEvent = true := by
  cases e <;> simp [writeEvents, ackHead, wireEvent, plainEvent, busEvent]

@[simp] theorem wire_readCellHead (d k : Nat) : (readCellHead d k).all wireEvent = true := by
  simp [readCellHead, wireEvent, plainEvent, busEvent]

@[simp] theorem wire_readCellsEvents (d : Nat) (cs : List (Nat × Bool)) :
    (readCellsEvents d cs).all wireEvent = true := by
  induction cs with
  | nil => rfl
  | cons c cs ih =>
    rw [readCellsEvents, readCellEvents, List.all_append, List.all_append, wire_readCellHead, ih]
    rfl

@[simp] theorem wire_readEvents (d : Nat) (q : Bool) (e : ReadEnd) : (readEvents d q e).all wireEvent = true := by
  cases e <;> cases q <;> simp [readEvents, sendAckHead, wireEvent, plainEvent, busEvent]

/-! ### Lists of events with no buffer access -/

/-- No event of the list accesses the host's buffer. -/
def NoAccess (es : List Event) : Prop := bufReads es = [] ∧ bufWrites es = []

theorem NoAccess.append {es fs : List Event} (h : NoAccess es) (k : NoAccess fs) : NoAccess (es ++ fs) :=
  ⟨by rw [bufReads_append, h.1, k.1]; rfl, by rw [bufWrites_append, h.2, k.2]; rfl⟩

theorem NoAccess.nil : NoAccess [] := ⟨rfl, rfl⟩

theorem NoAccess.rsp (r : Bool) (c : BitVec 3) (a : Bool) : NoAccess [.rsp r c a] := ⟨rfl, rfl⟩

theorem noAccess_of_wire {es : List Event} (h : es.all wireEvent = true) : NoAccess es := by
  obtain ⟨hr, hw, _⟩ := busEvents_buffer (wireEvents_bus h)
  exact ⟨hr, hw⟩

/-- A byte section makes no buffer access. -/
theorem noAccess_section {es : List Event} (h : es.all wireEvent = true) : NoAccess ([.ta] ++ es ++ [.tr]) :=
  .append (.append ⟨rfl, rfl⟩ (noAccess_of_wire h)) ⟨rfl, rfl⟩

theorem noAccess_writeByteEvents (d : Nat) (v : Byte) (e : WriteEnd) : NoAccess (writeByteEvents d v e) :=
  noAccess_section (wire_writeEvents d v e)

theorem noAccess_readByteEvents (d : Nat) (q : Bool) (e : ReadEnd) : NoAccess (readByteEvents d q e) :=
  noAccess_section (wire_readEvents d q e)

theorem noAccess_readLastEvents (d : Nat) (len i : BitVec 16) (last : Option ReadEnd) :
    NoAccess (readLastEvents d len i last) := by
  cases last with
  | none => exact .nil
  | some e => exact noAccess_readByteEvents ..

theorem NoAccess.br_not_mem {es : List Event} (h : NoAccess es) (i : BitVec 16) (v : Byte) : .br i v ∉ es := by
  intro hm
  have : (i, v) ∈ bufReads es := List.mem_filterMap.2 ⟨_, hm, rfl⟩
  rw [h.1] at this
  exact nomatch this

theorem NoAccess.bw_not_mem {es : List Event} (h : NoAccess es) (i : BitVec 16) (v : Byte) : .bw i v ∉ es := by
  intro hm
  have : (i, v) ∈ bufWrites es := List.mem_filterMap.2 ⟨_, hm, rfl⟩
  rw [h.2] at this
  exact nomatch this

/-! ### Where the accesses of a data phase stand -/

theorem byteSections_writeByteEvents (d : Nat) (v : Byte) (e : WriteEnd) (fs : List Event) :
    byteSections (writeByteEvents d v e ++ fs) = writeEvents d v e :: byteSections fs := by
  simpa [writeByteEvents] using byteSections_section _ fs (wireEvents_plain (wire_writeEvents d v e))

theorem byteSections_readByteEvents (d : Nat) (q : Bool) (e : ReadEnd) (fs : List Event) :
    byteSections (readByteEvents d q e ++ fs) = readEvents d q e :: byteSections fs := by
  simpa [readByteEvents] using byteSections_section _ fs (wireEvents_plain (wire_readEvents d q e))

/-- The byte sections of the data phase of a WRITE_MESSAGE. -/
theorem byteSections_writeDataEvents (d : Nat) (i : BitVec 16) (bs : List (Byte × WriteEnd)) (fs : List Event) :
    byteSections (writeDataEvents d i bs ++ fs) = bs.map (fun b => writeEvents d b.1 b.2) ++ byteSections fs := by
  induction bs generalizing i with
  | nil => rfl
  | cons b bs ih =>
    rw [writeDataEvents, List.append_assoc, List.append_assoc, byteSections_plain _ _ rfl, byteSections_writeByteEvents, ih]
    rfl

/-- The byte sections of the bytes that a READ_MESSAGE has stored. -/
theorem byteSections_readDataEvents (d : Nat) (len i : BitVec 16) (es : List ReadEnd) (fs : List Event) :
    byteSections (readDataEvents d len i es ++ fs) =
      es.mapIdx (fun j e => readEvents d (ackRequest (i + BitVec.ofNat 16 j) len) e) ++ byteSections fs := by
  induction es generalizing i with
  | nil => rfl
  | cons e es ih =>
    rw [readDataEvents, List.append_assoc, List.append_assoc, byteSections_readByteEvents, byteSections_plain _ _ rfl, ih]
    simp [List.mapIdx_cons, bv16_shift]

theorem bufReads_writeDataEvents (d : Nat) (i : BitVec 16) (bs : List (Byte × WriteEnd)) :
    bufReads (writeDataEvents d i bs) = bs.mapIdx fun j b => (i + BitVec.ofNat 16 j, b.1) := by
  induction bs generalizing i with
  | nil => rfl
  | cons b bs ih =>
    rw [writeDataEvents, bufReads_append, bufReads_append, (noAccess_writeByteEvents ..).1, ih, List.mapIdx_cons]
    simp [bufReads, bv16_shift]

theorem bufWrites_writeDataEvents (d : Nat) (i : BitVec 16) (bs : List (Byte × WriteEnd)) :
    bufWrites (writeDataEvents d i bs) = [] := by
  induction bs generalizing i with
  | nil => rfl
  | cons b bs ih =>
    rw [writeDataEvents, bufWrites_append, bufWrites_append, (noAccess_writeByteEvents ..).2, ih]
    rfl

theorem bufWrites_readDataEvents (d : Nat) (len i : BitVec 16) (es : List ReadEnd) :
    bufWrites (readDataEvents d len i es) = es.mapIdx fun j e => (i + BitVec.ofNat 16 j, e.data) := by
  induction es generalizing i with
  | nil => rfl
  | cons e es ih =>
    rw [readDataEvents, bufWrites_append, bufWrites_append, (noAccess_readByteEvents ..).2, ih, List.mapIdx_cons]
    simp [bufWrites, bv16_shift]

theorem bufReads_readDataEvents (d : Nat) (len i : BitVec 16) (es : List ReadEnd) :
    bufReads (readDataEvents d len i es) = [] := by
  induction es generalizing i with
  | nil => rfl
  | cons e es ih =>
    rw [readDataEvents, bufReads_append, bufReads_append, (noAccess_readByteEvents ..).1, ih]
    rfl

/-- Each buffer read of a data phase comes between the bytes before it and its own byte. -/
theorem writeDataEvents_split {d : Nat} {i j : BitVec 16} {v : Byte} {bs : List (Byte × WriteEnd)}
    {pre post : List Event} (h : writeDataEvents d i bs = pre ++ .br j v :: post) :
    ∃ before b after, bs = before ++ b :: after ∧ v = b.1 ∧ j = i + BitVec.ofNat 16 before.length ∧
      pre = writeDataEvents d i before ∧ post = writeByteEvents d b.1 b.2 ++ writeDataEvents d (j + 1#16) after := by
  induction bs generalizing i pre with
  | nil => simp [writeDataEvents] at h
  | cons b bs ih =>
    rw [writeDataEvents, List.append_assoc, List.singleton_append] at h
    cases pre with
    | nil =>
      obtain ⟨⟨⟩, rfl⟩ := List.cons.inj h
      exact ⟨[], b, bs, rfl, rfl, by simp, rfl, rfl⟩
    | cons e pre =>
      obtain ⟨rfl, hbyte⟩ := List.cons.inj h
      obtain ⟨p, rfl, hrest⟩ := split_skip_left hbyte ((noAccess_writeByteEvents d b.1 b.2).br_not_mem j v)
      obtain ⟨before, c, after, rfl, hv, hj, rfl, hpost⟩ := ih hrest
      exact ⟨b :: before, c, after, rfl, hv, by rw [hj, bv16_shift]; rfl, by simp [writeDataEvents], hpost⟩

/-- Each buffer write of a data phase comes between its own byte and the bytes after it. -/
theorem readDataEvents_split {d : Nat} {len i j : BitVec 16} {v : Byte} {es : List ReadEnd} {pre post : List Event}
    (h : readDataEvents d len i es = pre ++ .bw j v :: post) :
    ∃ before e after, es = before ++ e :: after ∧ v = e.data ∧ j = i + BitVec.ofNat 16 before.length ∧
      pre = readDataEvents d len i before ++ readByteEvents d (ackRequest j len) e ∧
      post = readDataEvents d len (j + 1#16) after := by
  induction es generalizing i pre with
  | nil => simp [readDataEvents] at h
  | cons e es ih =>
    rw [readDataEvents, List.append_assoc] at h
    obtain ⟨p, rfl, hstore⟩ := split_skip_left h ((noAccess_readByteEvents d _ e).bw_not_mem j v)
    cases p with
    | nil =>
      obtain ⟨⟨⟩, rfl⟩ := List.cons.inj hstore
      exact ⟨[], e, es, rfl, rfl, by simp, by simp [readDataEvents], rfl⟩
    | cons c p =>
      obtain ⟨rfl, hrest⟩ := List.cons.inj hstore
      obtain ⟨before, c, after, rfl, hv, hj, rfl, hpost⟩ := ih hrest
      exact ⟨e :: before, c, after, rfl, hv, by rw [hj, bv16_shift]; rfl, by simp [readDataEvents], hpost⟩

/-- A byte section ends with `TR`. -/
theorem getLast?_section (es fs : List Event) : (fs ++ ([Event.ta] ++ es ++ [Event.tr])).getLast? = some .tr := by
  rw [← List.append_assoc, List.getLast?_concat]

/-- Before each byte of a WRITE_MESSAGE's data phase another byte has ended. -/
theorem getLast?_writeDataEvents {head : List Event} (h : head.getLast? = some .tr) (d : Nat) (i : BitVec 16)
    (bs : List (Byte × WriteEnd)) : (head ++ writeDataEvents d i bs).getLast? = some .tr := by
  induction bs generalizing head i with
  | nil => simpa [writeDataEvents] using h
  | cons b bs ih =>
    rw [writeDataEvents, ← List.append_assoc, ← List.append_assoc]
    exact ih (getLast?_section ..) (i + 1#16)

/-- READ_BYTE samples SDA in its data bits only. -/
theorem sdaSamples_readEvents (d : Nat) (q : Bool) (e : ReadEnd) : sdaSamples (readEvents d q e) = e.bits := by
  cases e <;> cases q <;>
    simp [readEvents, ReadEnd.bits, sdaSamples_readCells, sendAckHead, readCellHead, sdaSamples_cons, sdaSample]

/-- The bits of the byte READ_BYTE gives are its samples. -/
theorem ReadEnd.wireBits_data {T : Nat} {e : ReadEnd} (h : e.Ok T) (hr : e.result = true) : wireBits e.data = e.bits := by
  cases e with
  | full cs k => exact wireBits_shiftIn _ (by simpa [ReadEnd.bits] using h.2.1)
  | ackTimeout => exact nomatch hr
  | cellTimeout => exact nomatch hr

/-! ### The phases of a message -/

/-- The events end with the first byte section. -/
def AfterAddress (es : List Event) : Prop :=
  es.getLast? = some .tr ∧ ∃ sec, ∀ fs, byteSections (es ++ fs) = sec :: byteSections fs

theorem afterAddress_start (d : Nat) (lows : List (Bool × Bool)) (last : Bool × Bool) (v : Byte) (e : WriteEnd) :
    AfterAddress (startEvents d lows last ++ writeByteEvents d v e) := by
  refine ⟨getLast?_section .., writeEvents d v e, fun fs => ?_⟩
  rw [List.append_assoc, byteSections_plain _ _ (wireEvents_plain (wire_startEvents ..)), byteSections_writeByteEvents]

/-- The data phase of a message accepted in `s` begins in `u` after the events `head`. -/
structure DataEntry (len : BitVec 16) (s u : State) (head : List Event) : Prop where
  noAccess : NoAccess head
  addressed : AfterAddress head
  byteIdx : u.byteIdx = 0#16
  tLen : u.tLen = len
  arbLost : u.arbLost = false
  kept : Kept s u
  buffer : u.buf = s.buf ∧ u.hostWrites = s.hostWrites ∧ u.misanswers = s.misanswers

/-- A data phase that ended as `r` says is followed by the events `tail`, up to the end of the command in `t`. -/
structure DataExit (r : DataEnd × State) (t : State) (tail : List Event) : Prop where
  run : Run r.2 t tail
  noAccess : NoAccess tail
  buf : r.2.hostWrites = [] → t.buf = r.2.buf
  stop : r.1 = .done → r.2.arbLost = false → tail.head? = some (.dl .sda)
  success : t.busy = false → t.rspResult = true → r.1 = .done

/-- What a message command does to the buffer, phase by phase. -/
inductive MsgPhases (rw : Bool) (len : BitVec 16) (s t : State) : Prop where
  /-- START or the address byte failed. -/
  | early (noAccess : NoAccess (newEvents s t)) (buf : s.hostWrites = [] → t.buf = s.buf) (failed : t.rspResult = false)
  /-- The data phase ran. -/
  | data (u : State) (head : List Event) (r : DataEnd × State) (tail : List Event) (entry : DataEntry len s u head)
      (data : DataSpec rw len.toNat u r) (exit : DataExit r t tail)
      (events : ∀ mid, DataRun u r.2 mid → newEvents s t = head ++ (mid ++ tail))

theorem DataSpec.phase {rw : Bool} {n : Nat} {u : State} {r : DataEnd × State} (h : DataSpec rw n u r) :
    r.2.phase = u.phase := by
  cases rw with
  | false =>
    obtain ⟨bs, last, hd⟩ := h
    rw [hd.run.frame]
  | true =>
    obtain ⟨es, last, hd⟩ := h
    rw [hd.run.frame]

theorem landHostWrites_noHost {s : State} (h : s.hostWrites = []) : (landHostWrites s).buf = s.buf := by
  rw [landHostWrites_buf, h]
  rfl

section
variable {rw : Bool} {addr : BitVec 7} {len : BitVec 16} {s u t : State}

theorem StopSpec.noAccess {r : Bool} {b : Option (Nat × Bool)} (_ : StopSpec r u t b) :
    NoAccess (stopEvents u.delayUs.toNat b ++ [.rsp r u.cause u.arbLost]) :=
  (noAccess_of_wire (wire_stopEvents ..)).append (.rsp ..)

theorem StopSpec.head {r : Bool} {b : Option (Nat × Bool)} (h : StopSpec r u t b) (ha : u.arbLost = false)
    (fs : List Event) : (stopEvents u.delayUs.toNat b ++ fs).head? = some (.dl .sda) := by
  have hb := h.branch
  rw [ha] at hb
  cases b with
  | none => exact nomatch hb
  | some p => rfl

theorem StopSpec.dataExit {r : Bool} {b : Option (Nat × Bool)} {d : DataEnd} (h : StopSpec r u t b)
    (hr : r = true → d = .done) :
    DataExit (d, u) t (stopEvents u.delayUs.toNat b ++ [.rsp r u.cause u.arbLost]) where
  run := h.run
  noAccess := h.noAccess
  buf := fun hh => h.buf.trans (landHostWrites_noHost hh)
  stop := fun _ ha => h.head ha _
  success := fun _ hres => hr (h.responded.rspResult.symm.trans hres)

theorem MsgCase.phases (h : MsgCase rw addr len s t) : MsgPhases rw len s t := by
  cases h with
  | busy lows last h =>
    refine .early ?_ (fun hh => h.buf.trans (landHostWrites_noHost hh)) h.responded.rspResult
    rw [newEvents_eq h.run.trace]
    exact (noAccess_of_wire (wire_startEvents ..)).append (.rsp ..)
  | address u lows e b h bad stop =>
    obtain ⟨hbuf, hhost, _⟩ := h.buffer
    refine .early ?_ (fun hh => ?_) stop.responded.rspResult
    · rw [newEvents_eq (h.run.trans stop.run).trace]
      exact ((noAccess_of_wire (wire_startEvents ..)).append (noAccess_writeByteEvents ..)).append stop.noAccess
    · rw [stop.buf, landHostWrites_noHost (hhost.trans hh), hbuf]
  | data u lows e r h good idx phase data tail =>
    obtain ⟨_, hflag⟩ := WriteEnd.good_cause codeOk ⟨h.ok, good⟩
    have entry : DataEntry len s u (startEvents s.delayUs.toNat lows (true, true) ++
        writeByteEvents s.delayUs.toNat (addressByte addr rw) e) := {
      noAccess := (noAccess_of_wire (wire_startEvents ..)).append (noAccess_writeByteEvents ..)
      addressed := afterAddress_start ..
      byteIdx := idx
      tLen := h.latch.2.2
      arbLost := h.arbLost.trans hflag
      kept := h.run.kept
      buffer := h.buffer }
    have hphase : r.2.phase = .data := data.phase.trans phase
    have ended : ∃ fs, DataExit r t fs := by
      obtain ⟨d, v⟩ := r
      cases d with
      | done =>
        obtain ⟨b, stop⟩ := tail
        exact ⟨_, stop.dataExit fun _ => rfl⟩
      | failed =>
        obtain ⟨b, stop⟩ := tail
        exact ⟨_, stop.dataExit fun f => nomatch f⟩
      | stuck =>
        obtain rfl : t = v := tail
        exact ⟨[], (DataRun.refl t).run, .nil, fun _ => rfl, fun f => (nomatch f), fun idle =>
          absurd (hphase.symm.trans (busy_eq_false.1 idle).1) (by decide)⟩
    obtain ⟨fs, exit⟩ := ended
    refine .data u _ r fs entry data exit fun mid hmid => ?_
    rw [newEvents_eq (h.run.trans (hmid.run.trans exit.run)).trace]

/-- The result of a message that has responded goes with its code (44_i2c_master.md R85). -/
theorem MsgOutcome.result_iff (h : MsgOutcome rw addr len s t) (idle : t.busy = false) :
    t.rspResult = true ↔ t.rspErr = codeOk := by
  cases h with
  | ended r c es h =>
    rw [h.responded.rspResult, h.responded.rspErr]
    exact h.ok
  | stuck es h phase => exact absurd (phase.symm.trans (busy_eq_false.1 idle).1) (by decide)

/-! ### WRITE_MESSAGE and the buffer -/

/-- The events of a WRITE_MESSAGE around its buffer reads: `bs` are the bytes read and sent, `head` the events before them
and `tail` those after. -/
structure WriteTrace (len : BitVec 16) (s t : State) (head : List Event) (bs : List (Byte × WriteEnd))
    (tail : List Event) : Prop where
  events : newEvents s t = head ++ (writeDataEvents s.delayUs.toNat 0#16 bs ++ tail)
  headNoAccess : NoAccess head
  tailNoAccess : NoAccess tail
  addressed : bs ≠ [] → AfterAddress head
  count : bs.length ≤ len.toNat
  inside : ∀ j, j < bs.length → j < s.bufLen
  ok : ∀ b ∈ bs, b.2.Ok s.params.sclStretchTimeoutUs b.1
  answers : ∀ j b, bs[j]? = some b → Answers s (BitVec.ofNat 16 j) b.1
  buf : s.hostWrites = [] → t.buf = s.buf

/-- A message of at most 65535 bytes uses each index for one byte. -/
theorem toNat_index {len : BitVec 16} {j n : Nat} (hn : n ≤ len.toNat) (hj : j < n) :
    (0#16 + BitVec.ofNat 16 j).toNat = j := by
  have := len.isLt
  rw [BitVec.zero_add, BitVec.toNat_ofNat]
  omega

theorem WriteDataSpec.count {n : Nat} {r : DataEnd × State} {bs : List (Byte × WriteEnd)}
    {last : Option (Byte × WriteEnd)} (h : WriteDataSpec n u r bs last) : (bs ++ last.toList).length ≤ n := by
  have how := h.how
  have hlast : last.toList.length ≤ 1 := Option.length_toList_le
  rw [List.length_append]
  split at how
  · obtain ⟨hl, rfl⟩ := how
    exact Nat.le_of_eq hl
  · omega
  · omega

theorem MsgCase.writeTrace (h : MsgCase false addr len s t) : ∃ head bs tail, WriteTrace len s t head bs tail := by
  cases h.phases with
  | early noAccess buf failed =>
    exact ⟨newEvents s t, [], [], {
      events := by simp [writeDataEvents]
      headNoAccess := noAccess, tailNoAccess := .nil, addressed := fun f => absurd rfl f, count := Nat.zero_le _
      inside := by simp, ok := by simp, answers := by simp, buf := buf }⟩
  | data u head r tail entry data exit events =>
    obtain ⟨bs, last, hd⟩ := data
    obtain ⟨hbuf, hhost, hmis⟩ := entry.buffer
    have hparams : u.params = s.params := entry.kept.params
    have hinside := hd.inside
    have hanswers := hd.answers
    have hevents := events _ hd.run
    rw [entry.byteIdx] at hinside hanswers hevents
    rw [entry.kept.delayUs] at hevents
    refine ⟨head, bs ++ last.toList, tail, {
      events := hevents
      headNoAccess := entry.noAccess, tailNoAccess := exit.noAccess, addressed := fun _ => entry.addressed
      count := hd.count
      inside := fun j hj => ?_
      ok := fun b hb => ?_
      answers := fun j b hj => ?_
      buf := fun hh => ?_ }⟩
    · have := hinside j hj
      rwa [toNat_index hd.count hj, entry.kept.bufLen] at this
    · rw [← hparams]
      rcases List.mem_append.1 hb with hb | hb
      · exact (hd.good b hb).1
      · exact (hd.bad b (by simpa using hb)).1
    · have := hanswers j b hj
      unfold Answers State.hostBytes at this ⊢
      rwa [hbuf, hhost, hmis, BitVec.zero_add] at this
    · rw [exit.buf (hd.buffer.2.trans (hhost.trans hh)), hd.buffer.1, hbuf]

section
variable {head tail : List Event} {bs : List (Byte × WriteEnd)}

theorem WriteTrace.reads (h : WriteTrace len s t head bs tail) :
    bufReads (newEvents s t) = bs.mapIdx fun j b => (BitVec.ofNat 16 j, b.1) := by
  rw [h.events, bufReads_append, bufReads_append, h.headNoAccess.1, h.tailNoAccess.1, bufReads_writeDataEvents]
  simp

theorem WriteTrace.writes (h : WriteTrace len s t head bs tail) : bufWrites (newEvents s t) = [] := by
  rw [h.events, bufWrites_append, bufWrites_append, h.headNoAccess.2, h.tailNoAccess.2, bufWrites_writeDataEvents]
  rfl

/-- Each buffer read comes right before the byte it is for, after the address byte and the bytes before. -/
theorem WriteTrace.placed (h : WriteTrace len s t head bs tail) {pre post : List Event} {j : BitVec 16} {v : Byte}
    (hs : newEvents s t = pre ++ .br j v :: post) :
    (byteSections pre).length = j.toNat + 1 ∧ pre.getLast? = some .tr ∧ post.head? = some .ta ∧
      ∃ sec rest, byteSections post = sec :: rest ∧ sentBits false sec <+: wireBits v ++ [true] := by
  rw [h.events] at hs
  obtain ⟨p, rfl, hfrom⟩ := split_skip_left hs (h.headNoAccess.br_not_mem j v)
  obtain ⟨q, hdata, rfl⟩ := split_skip_right hfrom (h.tailNoAccess.br_not_mem j v)
  obtain ⟨before, b, after, rfl, rfl, hj, rfl, rfl⟩ := writeDataEvents_split hdata
  obtain ⟨hlast, sec, hsec⟩ := h.addressed (by simp)
  have hidx : j.toNat = before.length := by
    rw [hj]
    exact toNat_index h.count (by simp)
  refine ⟨?_, getLast?_writeDataEvents hlast .., by simp [writeByteEvents], ?_⟩
  · have hd := byteSections_writeDataEvents s.delayUs.toNat 0#16 before []
    rw [List.append_nil] at hd
    rw [hsec, hd, hidx]
    simp [byteSections, sectionsFrom]
  · rw [List.append_assoc, byteSections_writeByteEvents]
    refine ⟨_, _, rfl, ?_⟩
    rw [sentBits_writeEvents false _ _ _ (h.ok b (by simp))]
    exact List.take_prefix _ _

end

/-! ### READ_MESSAGE and the buffer -/

/-- The events of a READ_MESSAGE around its buffer writes: `es` are the bytes read and stored, `head` the events before them
and `tail` those after. -/
structure ReadTrace (len : BitVec 16) (s t : State) (head : List Event) (es : List ReadEnd) (tail : List Event) :
    Prop where
  events : newEvents s t = head ++ (readDataEvents s.delayUs.toNat len 0#16 es ++ tail)
  headNoAccess : NoAccess head
  tailNoAccess : NoAccess tail
  addressed : es ≠ [] → AfterAddress head
  next : es ≠ [] → tail.head? = some (if es.length = len.toNat then .dl .sda else .ta)
  count : es.length ≤ len.toNat
  inside : ∀ j, j < es.length → j < s.bufLen
  bits : ∀ e ∈ es, wireBits e.data = e.bits
  stored : s.buf.wf = true → s.hostWrites = [] → ∀ (j : Nat) (e : ReadEnd), es[j]? = some e → t.buf.read j = e.data
  others : s.buf.wf = true → s.hostWrites = [] →
    ∀ j : BitVec 16, es.length ≤ j.toNat → t.buf.read j.toNat = s.buf.read j.toNat
  complete : t.busy = false → t.rspResult = true → es.length = len.toNat

theorem ReadDataSpec.count {n : Nat} {r : DataEnd × State} {es : List ReadEnd} {last : Option ReadEnd}
    (h : ReadDataSpec n u r es last) : es.length ≤ n := by
  have how := h.how
  split at how <;> omega

/-- After the last byte stored comes STOP when the data phase is done, and another byte when it is not. -/
theorem ReadDataSpec.next {n : Nat} {r : DataEnd × State} {es : List ReadEnd} {last : Option ReadEnd} {tail : List Event}
    (h : ReadDataSpec n u r es last) (exit : DataExit r t tail) (ha : u.arbLost = false) (d : Nat) (i : BitVec 16) :
    (readLastEvents d len i last ++ tail).head? = some (if es.length = n then .dl .sda else .ta) := by
  have how := h.how
  split at how
  · rename_i hr
    obtain ⟨hl, rfl⟩ := how
    rw [if_pos hl]
    exact exit.stop hr (h.arbLost.trans ha)
  · obtain ⟨hl, e, rfl, _⟩ := how
    rw [if_neg (by omega)]
    rfl
  · obtain ⟨hl, ⟨e, rfl, _⟩, _⟩ := how
    rw [if_neg (by omega)]
    rfl

theorem MsgCase.readTrace (h : MsgCase true addr len s t) : ∃ head es tail, ReadTrace len s t head es tail := by
  cases h.phases with
  | early noAccess buf failed =>
    exact ⟨newEvents s t, [], [], {
      events := by simp [readDataEvents]
      headNoAccess := noAccess, tailNoAccess := .nil, addressed := fun f => absurd rfl f, next := fun f => absurd rfl f
      count := Nat.zero_le _, inside := by simp, bits := by simp, stored := by simp
      others := fun _ hh j _ => by rw [buf hh]
      complete := fun _ f => absurd (f.symm.trans failed) (by decide) }⟩
  | data u head r tail entry data exit events =>
    obtain ⟨es, last, hd⟩ := data
    obtain ⟨hbuf, hhost, _⟩ := entry.buffer
    have hinside := hd.inside
    have hstored := hd.stored
    have hrest := hd.rest
    have hevents := events _ hd.run
    have hzero : (0#16).toNat = 0 := rfl
    simp only [entry.byteIdx, hzero, Nat.zero_add] at hinside hstored hrest
    rw [entry.byteIdx, entry.kept.delayUs, entry.tLen, List.append_assoc] at hevents
    have hexit : s.hostWrites = [] → t.buf = r.2.buf := fun hh => exit.buf (hd.noHost (hhost.trans hh))
    refine ⟨head, es, _, {
      events := hevents
      headNoAccess := entry.noAccess
      tailNoAccess := (noAccess_readLastEvents ..).append exit.noAccess
      addressed := fun _ => entry.addressed
      next := fun _ => hd.next exit entry.arbLost ..
      count := hd.count
      inside := fun j hj => entry.kept.bufLen ▸ hinside j hj
      bits := fun e he => ReadEnd.wireBits_data (hd.good e he).1 (hd.good e he).2
      stored := fun wf hh j e he => ?_
      others := fun wf hh j hj => ?_
      complete := fun idle ok => ?_ }⟩
    · have := hstored (hbuf ▸ wf) j e he
      rw [hostBytes_nil (hhost.trans hh)] at this
      rw [hexit hh]
      exact this.resolve_right (List.not_mem_nil)
    · rw [hexit hh, (hrest j (.inr hj)).1 (hbuf ▸ wf), hbuf]
    · have how := hd.how
      rw [exit.success idle ok] at how
      exact how.1

section
variable {head tail : List Event} {es : List ReadEnd}

theorem ReadTrace.reads (h : ReadTrace len s t head es tail) : bufReads (newEvents s t) = [] := by
  rw [h.events, bufReads_append, bufReads_append, h.headNoAccess.1, h.tailNoAccess.1, bufReads_readDataEvents]
  rfl

theorem ReadTrace.writes (h : ReadTrace len s t head es tail) :
    bufWrites (newEvents s t) = es.mapIdx fun j e => (BitVec.ofNat 16 j, e.data) := by
  rw [h.events, bufWrites_append, bufWrites_append, h.headNoAccess.2, h.tailNoAccess.2, bufWrites_readDataEvents]
  simp

/-- Each buffer write comes right after the byte it stores, before the next byte or STOP. -/
theorem ReadTrace.placed (h : ReadTrace len s t head es tail) {pre post : List Event} {j : BitVec 16} {v : Byte}
    (hs : newEvents s t = pre ++ .bw j v :: post) :
    (byteSections pre).length = j.toNat + 2 ∧ pre.getLast? = some .tr ∧
      (byteSections pre).getLast?.map sdaSamples = some (wireBits v) ∧
      post.head? = some (if j.toNat + 1 = len.toNat then .dl .sda else .ta) := by
  rw [h.events] at hs
  obtain ⟨p, rfl, hfrom⟩ := split_skip_left hs (h.headNoAccess.bw_not_mem j v)
  obtain ⟨q, hdata, rfl⟩ := split_skip_right hfrom (h.tailNoAccess.bw_not_mem j v)
  obtain ⟨before, e, after, rfl, rfl, hj, rfl, rfl⟩ := readDataEvents_split hdata
  obtain ⟨_, sec, hsec⟩ := h.addressed (by simp)
  have hidx : j.toNat = before.length := by
    rw [hj]
    exact toNat_index h.count (by simp)
  have hsections : byteSections (head ++ (readDataEvents s.delayUs.toNat len 0#16 before ++
      readByteEvents s.delayUs.toNat (ackRequest j len) e)) =
      sec :: (before.mapIdx (fun k e => readEvents s.delayUs.toNat (ackRequest (0#16 + BitVec.ofNat 16 k) len) e) ++
        [readEvents s.delayUs.toNat (ackRequest j len) e]) := by
    have hb := byteSections_readByteEvents s.delayUs.toNat (ackRequest j len) e []
    rw [List.append_nil] at hb
    rw [hsec, byteSections_readDataEvents, hb]
    rfl
  rw [hsections, hidx]
  refine ⟨by simp, by rw [← List.append_assoc]; exact getLast?_section .., ?_, ?_⟩
  · rw [← List.cons_append, List.getLast?_concat, Option.map_some, sdaSamples_readEvents, h.bits e (by simp)]
  · cases after with
    | nil =>
      have hnext := h.next (by simp)
      simpa [readDataEvents] using hnext
    | cons e' after =>
      have hc := h.count
      simp only [List.length_append, List.length_cons] at hc
      rw [if_neg (by omega)]
      rfl

end
end

/-! ### The order of the accesses -/

theorem writeMessage_trace {a n : Nat} {s t : State} (h : exec (.writeMessage a n) s = .next t) :
    ∃ head bs tail, WriteTrace (BitVec.ofNat 16 n) s t head bs tail := by
  obtain ⟨u, hu, hcase⟩ := exec_writeMessage a n s
  obtain rfl := Host.Outcome.next.inj (hu.symm.trans h)
  exact hcase.writeTrace

theorem readMessage_trace {a n : Nat} {s t : State} (h : exec (.readMessage a n) s = .next t) :
    (∃ head es tail, ReadTrace (BitVec.ofNat 16 n) s t head es tail) ∧
      (t.busy = false → (t.rspResult = true ↔ t.rspErr = codeOk)) := by
  obtain ⟨u, hu, hcase⟩ := exec_readMessage a n s
  obtain rfl := Host.Outcome.next.inj (hu.symm.trans h)
  exact ⟨hcase.readTrace, hcase.outcome.result_iff⟩

/-- Settles O43: the buffer reads stand at the front of the data bytes, one for each, and each gives an answer of the
host. -/
theorem writeMessageReadsTheBufferInOrder : Obligations.WriteMessageReadsTheBufferInOrder := by
  intro addr len s t hw h
  obtain ⟨_, hlen⟩ := message_operands (.inl rfl) hw
  obtain ⟨head, bs, tail, tr⟩ := writeMessage_trace h
  have hcount := tr.count
  rw [hlen] at hcount
  refine ⟨⟨bs.length, hcount, ?_, ?_⟩, tr.writes, fun pre j v post hs => tr.placed hs, fun hh hm => ⟨?_, tr.buf hh⟩⟩
  · exact Nat.le_of_not_lt fun hlt => Nat.lt_irrefl _ (tr.inside _ hlt)
  · rw [tr.reads]
    apply List.ext_getElem <;> simp
  · intro c hc
    rw [tr.reads] at hc
    obtain ⟨j, hj, rfl⟩ := List.mem_mapIdx.1 hc
    have hanswer := tr.answers j _ (List.getElem?_eq_getElem hj) (by simp [hm])
    rw [hostBytes_nil hh] at hanswer
    exact hanswer.resolve_right List.not_mem_nil

/-- Settles O44: the buffer writes stand at the end of the data bytes that were read in full, one for each, and the data
phase stores each byte at its index alone. -/
theorem readMessageWritesTheBufferInOrder : Obligations.ReadMessageWritesTheBufferInOrder := by
  intro addr len s t hw h wf hh
  obtain ⟨_, hlen⟩ := message_operands (.inr rfl) hw
  obtain ⟨⟨head, es, tail, tr⟩, hresult⟩ := readMessage_trace h
  have hcount := tr.count
  have hcomplete := tr.complete
  rw [hlen] at hcount hcomplete
  refine ⟨fun pre j v post hs => hlen ▸ tr.placed hs, es.map ReadEnd.data, by simpa using hcount, ?_, ?_, tr.reads, ?_, ?_,
    fun idle => ?_⟩
  · rw [List.length_map]
    exact Nat.le_of_not_lt fun hlt => Nat.lt_irrefl _ (tr.inside _ hlt)
  · rw [tr.writes]
    apply List.ext_getElem <;> simp
  · intro i v hi
    rw [List.getElem?_map, Option.map_eq_some_iff] at hi
    obtain ⟨e, he, rfl⟩ := hi
    exact tr.stored wf hh i e he
  · intro j hj
    exact tr.others wf hh j (by simpa using hj)
  · rw [List.length_map]
    exact ⟨fun hr => ⟨hcomplete idle hr, (hresult idle).1 hr⟩, fun hr => (hresult idle).2 hr.2⟩

end Sys2Proof.Machine

/-! PROOFS. The statements about the encoding (30_encoding.md): the ranges of the operands, the fields of a command word,
the micro-operation codes, and that the decoder and the encoder undo each other. -/

namespace Sys2Proof

open Sys2Proof.Laws.EncodesInRange (encode_wellFormed)
open Sys2Proof.Machine (message_operands)

/-! ### What is encoded (30_encoding.md R136) -/

theorem wellFormed_setDelay {us : Int} :
    (Instr.setDelay us).wellFormed = true ↔ -2147483648 ≤ us ∧ us ≤ 2147483647 := by
  simp [Instr.wellFormed, Instr.delayOk]

theorem wellFormed_writeMessage {addr len : Nat} :
    (Instr.writeMessage addr len).wellFormed = true ↔ addr ≤ 0x7F ∧ len ≤ 65535 := by
  simp [Instr.wellFormed, Instr.addrOk, Instr.lenOk]

theorem wellFormed_readMessage {addr len : Nat} :
    (Instr.readMessage addr len).wellFormed = true ↔ addr ≤ 0x7F ∧ len ≤ 65535 :=
  wellFormed_writeMessage

theorem encode_isSome (i : Instr) : (encode i).isSome = i.wellFormed := by
  cases h : i.wellFormed <;> simp [encode, h]

/-- Settles O2: only the operands of SET_DELAY and of the messages can keep an instruction from being encoded. -/
theorem encodedExactlyWhenInRange : Obligations.EncodedExactlyWhenInRange := by
  simp only [Obligations.EncodedExactlyWhenInRange, encode_isSome]
  refine ⟨fun _ => wellFormed_setDelay, fun _ _ => wellFormed_writeMessage, fun _ _ => wellFormed_readMessage,
    fun i hdelay hwrite hread => ?_⟩
  cases i with
  | setDelay us => exact absurd rfl (hdelay us)
  | writeMessage a l => exact absurd rfl (hwrite a l)
  | readMessage a l => exact absurd rfl (hread a l)
  | _ => rfl

/-! ### The command word (30_encoding.md R36, R37, R38) -/

/-- Settles O3: the decoder selects by the number of `OP`, and takes the operands from the numbers of the other
fields. -/
theorem commandFieldsAndOpcodeMap : Obligations.CommandFieldsAndOpcodeMap := by
  intro word arg
  have hdelay : arg.toInt =
      if arg.toNat < 2147483648 then (arg.toNat : Int) else (arg.toNat : Int) - 4294967296 := by
    rw [BitVec.toInt_eq_toNat_cond]
    split <;> split <;> omega
  simp only [decode, decodeCmd, cmdOp_toNat, cmdAddr_toNat, cmdLen_toNat, hdelay]
  refine ⟨?_, ?_, ?_, ?_, ?_, ?_, ?_, ?_, ?_, ?_, ?_, ?_, ?_, ?_, ?_, ?_⟩
  all_goals
    intro hop
    simp only [hop]

/-- Settles O5: each encoding is computed. -/
theorem workedEncodings : Obligations.WorkedEncodings :=
  ⟨rfl, rfl, rfl, rfl, rfl, rfl, rfl, rfl, rfl, rfl, rfl⟩

theorem decodeCmd_wellFormed (word arg : Word) : (decodeCmd word arg).wellFormed = true := by
  have haddr := (cmdAddr word).isLt
  have hlen := (cmdLen word).isLt
  unfold decodeCmd
  split
  case h_2 => exact wellFormed_setDelay.2 ⟨arg.le_toInt, Int.le_of_lt_add_one arg.toInt_lt⟩
  case h_5 => exact wellFormed_writeMessage.2 ⟨by omega, by omega⟩
  case h_6 => exact wellFormed_readMessage.2 ⟨by omega, by omega⟩
  all_goals rfl

/-! ### The micro-operation code (30_encoding.md R135) -/

theorem lineBit_lineOf (x : Bool) : lineBit (lineOf x) = x := by
  cases x <;> rfl

theorem noOperand_eq_ok {x : Bool} {i j : Instr} (h : noOperand x i = .ok j) : x = false ∧ i = j := by
  cases x with
  | false => exact ⟨rfl, Except.ok.inj h⟩
  | true => exact nomatch h

/-- A code is its three fields. -/
theorem uop_eq_uopCode {code : Byte} (hzero : code.extractLsb' 5 3 = 0#3) :
    Raw.uop code = uopCode (code.getLsbD 4) (code.extractLsb' 0 4) := by
  rw [uopCode, ← hzero]
  refine congrArg Raw.uop (BitVec.eq_of_getLsbD_eq (w := 3 + 1 + 4) fun k hk => ?_)
  simp only [BitVec.getLsbD_append, BitVec.getLsbD_extractLsb', BitVec.getLsbD_ofBool]
  split
  case isTrue hop => simp [hop]
  split
  · obtain rfl : k = 4 := by omega
    rfl
  · rw [show 5 + (k - 4 - 1) = k by omega, decide_eq_true (by omega), Bool.true_and]

/-- What a code decodes to is encoded by that code. -/
theorem encodeWords_of_decodeUop {code : Byte} {i : Instr} (h : decodeUop code = .ok i) :
    i.wellFormed = true ∧ encodeWords i = .uop code := by
  unfold decodeUop at h
  split at h
  · exact nomatch h
  next hzero =>
    rw [uop_eq_uopCode (Classical.not_not.1 hzero)]
    split at h
    case h_1 e | h_2 e | h_3 e | h_10 e =>
      obtain rfl := Except.ok.inj h
      rw [(BitVec.toNat_eq_nat.1 e).2]
      simp [Instr.wellFormed, encodeWords, lineBit_lineOf]
    case h_4 e | h_5 e | h_6 e | h_7 e | h_8 e | h_9 e =>
      obtain ⟨hx, rfl⟩ := noOperand_eq_ok h
      rw [(BitVec.toNat_eq_nat.1 e).2, hx]
      exact ⟨rfl, rfl⟩
    case h_11 => exact nomatch h

/-! ### The decoder and the encoder -/

theorem encode_of_decode_uop {code : Byte} {i : Instr} (h : decode (.uop code) = .ok i) :
    encode i = some (.uop code) := by
  obtain ⟨hw, he⟩ := encodeWords_of_decodeUop h
  rw [encode_wellFormed hw, he]

theorem decode_wellFormed {raw : Raw} {i : Instr} (h : decode raw = .ok i) : i.wellFormed = true := by
  cases raw with
  | cmd word arg =>
    obtain rfl := Except.ok.inj h
    exact decodeCmd_wellFormed word arg
  | uop code => exact (encodeWords_of_decodeUop h).1

/-- The operands of the commands come back because they are in range; every other encoding is a fixed word. -/
theorem decode_encodeWords {i : Instr} (hw : i.wellFormed = true) : decode (encodeWords i) = .ok i := by
  cases i with
  | setDelay us =>
    obtain ⟨hlo, hhi⟩ := wellFormed_setDelay.1 hw
    simp [encodeWords, decode, decodeCmd, argument_roundtrip hlo hhi]
  | writeMessage addr len =>
    obtain ⟨haddr, hlen⟩ := message_operands (.inl rfl) hw
    simp [encodeWords, decode, decodeCmd, haddr, hlen]
  | readMessage addr len =>
    obtain ⟨haddr, hlen⟩ := message_operands (.inr rfl) hw
    simp [encodeWords, decode, decodeCmd, haddr, hlen]
  | driveLow line => cases line <;> rfl
  | release line => cases line <;> rfl
  | readLevel line => cases line <;> rfl
  | readByte ackreq => cases ackreq <;> rfl
  | _ => rfl

/-- Settles O1: an encoding decodes to its instruction, and a code that decodes is the encoding of its instruction. -/
theorem decodeEncodeRoundTrip : Obligations.DecodeEncodeRoundTrip := by
  constructor
  · intro i hw
    exact ⟨encodeWords i, encode_wellFormed hw, decode_encodeWords hw⟩
  · intro raw i h
    refine ⟨decode_wellFormed h, ?_⟩
    rintro code rfl
    exact encode_of_decode_uop h

/-- Settles O4: a code that decodes is the encoding of its instruction, so it is one of the fourteen; each of the
fourteen decodes. -/
theorem microOperationCodes : Obligations.MicroOperationCodes := by
  intro code
  cases h : decode (.uop code) with
  | ok i =>
    obtain ⟨-, he⟩ := encodeWords_of_decodeUop h
    cases i
    case driveLow line | release line | readLevel line =>
      obtain rfl := Raw.uop.inj he
      cases line <;> rfl
    case readByte ackreq =>
      obtain rfl := Raw.uop.inj he
      cases ackreq <;> rfl
    case delay | waitBusIdle | waitSclHigh | start | stop | writeByte =>
      obtain rfl := Raw.uop.inj he
      rfl
    all_goals exact nomatch he
  | error err =>
    split
    case h_15 => rfl
    all_goals
      next e =>
        rw [(BitVec.toNat_eq_nat.1 e).2] at h
        exact nomatch h

end Sys2Proof

namespace Sys2Proof.Machine

/-! ### A loaded micro-operation -/

/-- A step with a code that names no operation. -/
theorem step_uop_error {s : State} {code : Byte} {e : DecodeError} (hr : s.rstIn ≠ some 0) (hu : s.uop = some code)
    (hd : decode (.uop code) = .error e) : step s = .refused .noSuchOperation := by
  unfold step
  simp only [if_neg hr, fetch, hu, hd]

/-- Settles O8: with no reset coming, the micro-operation runs to its end. -/
theorem stepRunsTheLoadedMicroOperation : Obligations.StepRunsTheLoadedMicroOperation := by
  intro s code hu hr
  have hnow : s.rstIn ≠ some 0 := by simp [hr]
  refine ⟨fun i hd => ?_, fun hnone => ?_⟩
  · rw [step_uop hnow hu hd]
    exact underReset_none hr
  · cases hd : decode (.uop code) with
    | ok i => simp [hd, Except.toOption] at hnone
    | error e => exact step_uop_error hnow hu hd

end Sys2Proof.Machine

/-! PROOFS. The statements about the open-drain driver (40_open_drain_driver.md): the three line primitives, the lines a host
command samples, and that every instruction completes. -/

namespace Sys2Proof.Machine

open Sys2Proof.Laws.EncodesInRange (isCommand)

/-! ### The line primitives -/

section
variable {l : Line} {s : State}

@[simp] theorem driveLow_drv (l : Line) (s : State) : (driveLow l s).drv l = true := by cases l <;> rfl

@[simp] theorem release_drv (l : Line) (s : State) : (release l s).drv l = false := by cases l <;> rfl

@[simp] theorem release_ext (l : Line) (s : State) : (release l s).ext l = s.ext l := by cases l <;> rfl

theorem drawExt_scripted {held : Bool} {rest : List Bool} (h : s.ext l = held :: rest) :
    drawExt l s = (held, setExt l rest s) := by
  simp only [drawExt, h]

theorem drawExt_free (h : s.ext l = []) :
    drawExt l s = (Config.extLow s.freeCtr s.trace s.nowUs l, countFree s) := by
  simp only [drawExt, h]

theorem exec_readLevel (l : Line) (s : State) :
    exec (.readLevel l) s = .next (setUopResult (sample l s).1 (sample l s).2) := rfl

/-- READ_LEVEL hands back the level of the line at its one draw (R45). -/
theorem readLevel_result (l : Line) (s : State) :
    ∃ u, exec (.readLevel l) s = .next u ∧ u.uopResult = level (s.drv l) (drawExt l s).1 :=
  ⟨_, exec_readLevel l s, sample_level l s⟩

end

/-- Settles O17: the controller's own drive decides the wired-AND. -/
theorem driveLowDrivesTheLine : Obligations.DriveLowDrivesTheLine := by
  intro l s
  obtain ⟨u, hu, hlevel⟩ := readLevel_result l (driveLow l s)
  refine ⟨driveLow l s, rfl, by cases l <;> rfl, u, hu, ?_⟩
  rw [hlevel, driveLow_drv]
  rfl

/-- Settles O18: with the controller's driver off, the other devices decide the wired-AND. -/
theorem releaseReleasesTheLine : Obligations.ReleaseReleasesTheLine := by
  intro l s
  refine ⟨release l s, rfl, by cases l <;> rfl, release_drv l s, congrArg not (release_drv l s), fun held rest h => ?_⟩
  obtain ⟨u, hu, hlevel⟩ := readLevel_result l (release l s)
  refine ⟨u, hu, ?_⟩
  rw [hlevel, release_drv, drawExt_scripted ((release_ext l s).trans h)]
  rfl

/-- Settles O19, by the two ways to draw the other devices' answer. -/
theorem readLevelReadsTheWiredAnd : Obligations.ReadLevelReadsTheWiredAnd := by
  intro l s
  refine ⟨fun held rest h => ?_, fun h => ⟨Config.extLow s.freeCtr s.trace s.nowUs l, ?_⟩⟩
  · rw [exec_readLevel, sample, drawExt_scripted h]
    cases l <;> rfl
  · rw [exec_readLevel, sample, drawExt_free h]
    rfl

/-- Settles O54: `exec_case` has a next state for every instruction, a message with a short buffer included. -/
theorem everyInstructionCompletes : Obligations.EveryInstructionCompletes := by
  intro i s
  obtain ⟨t, ht, _⟩ := exec_case i s
  exact ⟨t, ht⟩

/-! ### Events that sample released lines only -/

/-- Every sample in `es` is of a line that an earlier event of `es` has released, so `es` may start from any output states
of the lines. -/
def ReleasesFirst (es : List Event) : Prop := ∀ sda scl, samplesReleased sda scl es = true

theorem ReleasesFirst.append {es fs : List Event} (h : ReleasesFirst es) (k : ReleasesFirst fs) :
    ReleasesFirst (es ++ fs) := by
  intro sda scl
  rw [samplesReleased_append, h, k]
  rfl

theorem ReleasesFirst.nil : ReleasesFirst [] := fun _ _ => rfl

theorem ReleasesFirst.rsp (r : Bool) (c : BitVec 3) (a : Bool) : ReleasesFirst [.rsp r c a] := fun _ _ => rfl

theorem releasesFirst_startEvents (d : Nat) (lows : List (Bool × Bool)) (last : Bool × Bool) :
    ReleasesFirst (startEvents d lows last) := by
  intro sda scl
  unfold startEvents
  split <;> simp [samplesReleased_append, samplesReleased, lineAfter]

theorem releasesFirst_stopEvents (d : Nat) (b : Option (Nat × Bool)) : ReleasesFirst (stopEvents d b) := by
  intro sda scl
  rcases b with _ | ⟨k, _ | _⟩ <;> simp [stopEvents, samplesReleased_append, samplesReleased, lineAfter]

/-- A data bit cell of WRITE_BYTE samples SDA only when its bit is 1, for which it has released SDA
(43_byte_transfer_engine.md R68, R73). -/
theorem releasesFirst_writeCellEvents (d : Nat) (b : Bool) (k : Nat) (c : CellEnd) (h : c = .lost → b = true) :
    ReleasesFirst (writeCellEvents d b k c) := by
  intro sda scl
  cases c with
  | done => cases b <;> simp [writeCellEvents, writeCellHead, samplesReleased_append, samplesReleased, lineAfter]
  | timeout => cases b <;> simp [writeCellEvents, writeCellHead, samplesReleased_append, samplesReleased, lineAfter]
  | lost => simp [h rfl, writeCellEvents, writeCellHead, samplesReleased_append, samplesReleased, lineAfter]

theorem releasesFirst_writeCellsEvents (d : Nat) (v : Byte) (i : Nat) (ks : List Nat) :
    ReleasesFirst (writeCellsEvents d v i ks) := by
  induction ks generalizing i with
  | nil => exact .nil
  | cons k ks ih => exact (releasesFirst_writeCellEvents d _ k .done nofun).append (ih (i + 1))

/-- The ACK bit of WRITE_BYTE releases both lines before its wait; `fs` are the events from the wait's last sample on. -/
theorem releasesFirst_ackHead (k : Nat) {fs : List Event} (h : samplesReleased false false fs = true) :
    ReleasesFirst (ackHead k ++ fs) := by
  intro sda scl
  simp [ackHead, samplesReleased_append, samplesReleased, lineAfter, h]

theorem releasesFirst_writeByteEvents {T : Nat} (d : Nat) {v : Byte} {e : WriteEnd} (h : e.Ok T v) :
    ReleasesFirst (writeByteEvents d v e) := by
  have cells (ks : List Nat) := releasesFirst_writeCellsEvents d v 0 ks
  have body : ReleasesFirst (writeEvents d v e) := by
    cases e with
    | full ks k sda =>
      rw [writeEvents, List.append_assoc]
      exact (cells ks).append (releasesFirst_ackHead k rfl)
    | ackTimeout ks k =>
      rw [writeEvents, List.append_assoc]
      exact (cells ks).append (releasesFirst_ackHead k rfl)
    | cellTimeout ks k => exact (cells ks).append (releasesFirst_writeCellEvents d _ k .timeout nofun)
    | cellLost ks k =>
      obtain ⟨_, _, _, hbit⟩ := h
      exact (cells ks).append (releasesFirst_writeCellEvents d _ k .lost fun _ => hbit)
  exact (ReleasesFirst.append (fun _ _ => rfl) body).append fun _ _ => rfl

theorem releasesFirst_writeDataEvents {T : Nat} (d : Nat) (i : BitVec 16) {bs : List (Byte × WriteEnd)}
    (h : ∀ b ∈ bs, b.2.Ok T b.1) : ReleasesFirst (writeDataEvents d i bs) := by
  induction bs generalizing i with
  | nil => exact .nil
  | cons b bs ih =>
    obtain ⟨hb, hbs⟩ := List.forall_mem_cons.1 h
    exact (ReleasesFirst.append (fun _ _ => rfl) (releasesFirst_writeByteEvents d hb)).append (ih _ hbs)

/-- A data bit cell of READ_BYTE releases both lines before its wait. -/
theorem releasesFirst_readCellHead (d k : Nat) {fs : List Event} (h : samplesReleased false false fs = true) :
    ReleasesFirst (readCellHead d k ++ fs) := by
  intro sda scl
  simp [readCellHead, samplesReleased_append, samplesReleased, lineAfter, h]

theorem releasesFirst_readCellsEvents (d : Nat) (cs : List (Nat × Bool)) : ReleasesFirst (readCellsEvents d cs) := by
  induction cs with
  | nil => exact .nil
  | cons c cs ih => exact (releasesFirst_readCellHead d c.1 rfl).append ih

/-- The ACK bit of READ_BYTE may drive SDA low, and it samples SCL only (R77). -/
theorem releasesFirst_sendAckHead (q : Bool) (k : Nat) {fs : List Event}
    (h : ∀ sda, samplesReleased sda false fs = true) : ReleasesFirst (sendAckHead q k ++ fs) := by
  intro sda scl
  cases q <;> simp [sendAckHead, samplesReleased_append, samplesReleased, lineAfter, h]

theorem releasesFirst_readByteEvents (d : Nat) (q : Bool) (e : ReadEnd) : ReleasesFirst (readByteEvents d q e) := by
  have cells (cs : List (Nat × Bool)) := releasesFirst_readCellsEvents d cs
  have body : ReleasesFirst (readEvents d q e) := by
    cases e with
    | full cs k =>
      rw [readEvents, List.append_assoc]
      exact (cells cs).append (releasesFirst_sendAckHead q k fun _ => rfl)
    | ackTimeout cs k =>
      rw [readEvents, List.append_assoc]
      exact (cells cs).append (releasesFirst_sendAckHead q k fun _ => rfl)
    | cellTimeout cs k =>
      rw [readEvents, List.append_assoc]
      exact (cells cs).append (releasesFirst_readCellHead d k rfl)
  exact (ReleasesFirst.append (fun _ _ => rfl) body).append fun _ _ => rfl

theorem releasesFirst_readDataEvents (d : Nat) (len i : BitVec 16) (es : List ReadEnd) :
    ReleasesFirst (readDataEvents d len i es) := by
  induction es generalizing i with
  | nil => exact .nil
  | cons e es ih => exact ((releasesFirst_readByteEvents d _ e).append fun _ _ => rfl).append (ih _)

theorem releasesFirst_readLastEvents (d : Nat) (len i : BitVec 16) (last : Option ReadEnd) :
    ReleasesFirst (readLastEvents d len i last) := by
  cases last with
  | none => exact .nil
  | some e => exact releasesFirst_readByteEvents d _ e

/-! ### The samples of a message -/

section
variable {rw : Bool} {addr : BitVec 7} {len : BitVec 16} {s u t : State}

theorem DataSpec.releasesFirst {n : Nat} {r : DataEnd × State} (h : DataSpec rw n u r) :
    ∃ es, Run u r.2 es ∧ ReleasesFirst es := by
  cases rw with
  | false =>
    obtain ⟨bs, last, hd⟩ := h
    have ok : ∀ b ∈ bs ++ last.toList, b.2.Ok u.params.sclStretchTimeoutUs b.1 := by
      intro b hb
      rcases List.mem_append.1 hb with hb | hb
      · exact (hd.good b hb).1
      · exact (hd.bad b (Option.mem_toList.1 hb)).1
    exact ⟨_, hd.run.run, releasesFirst_writeDataEvents _ _ ok⟩
  | true =>
    obtain ⟨es, last, hd⟩ := h
    exact ⟨_, hd.run.run, (releasesFirst_readDataEvents _ _ _ es).append (releasesFirst_readLastEvents _ _ _ last)⟩

theorem Addressed.releasesFirst {lows : List (Bool × Bool)} {e : WriteEnd} (h : Addressed rw addr len s u lows e) :
    ∃ es, Run s u es ∧ ReleasesFirst es :=
  ⟨_, h.run, (releasesFirst_startEvents _ lows _).append (releasesFirst_writeByteEvents _ h.ok)⟩

theorem StopSpec.releasesFirst {r : Bool} {b : Option (Nat × Bool)} (h : StopSpec r u t b) :
    ∃ es, Run u t es ∧ ReleasesFirst es :=
  ⟨_, h.run, (releasesFirst_stopEvents _ b).append (.rsp r _ _)⟩

theorem MsgCase.releasesFirst (h : MsgCase rw addr len s t) : ∃ es, Run s t es ∧ ReleasesFirst es := by
  cases h with
  | busy lows last h => exact ⟨_, h.run, (releasesFirst_startEvents _ lows _).append (.rsp _ _ _)⟩
  | address u lows e b h _ stop =>
    obtain ⟨_, run, hes⟩ := h.releasesFirst
    obtain ⟨_, stopRun, hfs⟩ := stop.releasesFirst
    exact ⟨_, run.trans stopRun, hes.append hfs⟩
  | data u lows e r h _ _ _ data tail =>
    obtain ⟨_, run, hes⟩ := h.releasesFirst
    obtain ⟨_, dataRun, hfs⟩ := data.releasesFirst
    have ended : ∃ gs, Run r.2 t gs ∧ ReleasesFirst gs := by
      obtain ⟨d, v⟩ := r
      cases d with
      | done =>
        obtain ⟨b, stop⟩ := tail
        exact stop.releasesFirst
      | failed =>
        obtain ⟨b, stop⟩ := tail
        exact stop.releasesFirst
      | stuck =>
        obtain rfl : t = v := tail
        exact ⟨[], (DataRun.refl t).run, .nil⟩
    obtain ⟨_, tailRun, hgs⟩ := ended
    exact ⟨_, (run.trans dataRun).trans tailRun, (hes.append hfs).append hgs⟩

end

/-- A host command samples a line only after it has itself released it. -/
theorem command_releasesFirst {i : Instr} {s t : State} (hcmd : isCommand i = true) (h : exec i s = .next t) :
    ReleasesFirst (newEvents s t) := by
  cases execCase_of_exec h with
  | accessor r d a c eq =>
    rw [eq, newEvents_eq (es := [.rsp r c a]) rfl]
    exact .rsp r c a
  | message rw addr len op =>
    have hi : i = .writeMessage addr len ∨ i = .readMessage addr len := by
      cases rw
      · exact .inl op
      · exact .inr op
    obtain ⟨u, hu, hcase⟩ := exec_message hi s
    obtain rfl := Host.Outcome.next.inj (hu.symm.trans h)
    obtain ⟨_, run, hes⟩ := hcase.releasesFirst
    rwa [newEvents_eq run.trace]
  | internal es op => exact absurd (hcmd.symm.trans op) (by decide)

/-- Settles O52: the port carries host commands only, and each releases a line before it samples it. -/
theorem everySampleIsOfAReleasedLine : Obligations.EverySampleIsOfAReleasedLine := by
  intro word arg i s t hd h
  obtain rfl : decodeCmd word arg = i := Except.ok.inj hd
  exact command_releasesFirst (isCommand_decodeCmd word arg) h s.sdaDrv s.sclDrv

end Sys2Proof.Machine

/-! PROOFS. The statements about time (41_timing_and_timeout.md): the clamp of the delay, the delay, and the two bounded
waits, first for every environment and then for scripted lines. -/

namespace Sys2Proof.Machine

/-! ### The delay (R51, R52, R53) -/

/-- The clamp law as a number (R53): an argument above 0 is below 2^31, so its bits `[30:0]` are all of it. -/
theorem clamp_toNat (a : Word) : (clamp a).toNat = if a.toInt ≤ 0 then 1 else a.toInt.toNat := by
  unfold clamp
  split
  · rfl
  · rename_i hpos
    rw [BitVec.extractLsb'_toNat, Nat.shiftRight_zero]
    rw [BitVec.toInt_eq_toNat_cond] at hpos ⊢
    split at hpos <;> omega

/-- Settles O13: an argument in range comes back from two's complement, and is then clamped. -/
theorem setDelayStoresTheClampedArgument : Obligations.SetDelayStoresTheClampedArgument := by
  intro us s hwf
  obtain ⟨hlow, hhigh⟩ := wellFormed_setDelay.1 hwf
  have hint : (argWord us).toInt = us := argument_roundtrip hlow hhigh
  have hclamp := clamp_toNat (argWord us)
  rw [hint] at hclamp
  exact ⟨clamp (argWord us), hclamp, rfl⟩

/-- A DELAY is a poll step or a delay step (R52, R54). -/
theorem exec_delay (s : State) :
    exec .delay s = .next (delay (if s.uopPoll then 1 else s.delayUs.toNat) s) := by
  cases h : s.uopPoll <;> simp only [exec, execDelay, h] <;> rfl

/-- Settles O20: both lengths are lengths of one `delay`. -/
theorem delayAdvancesTime : Obligations.DelayAdvancesTime := fun s =>
  ⟨if s.uopPoll then 1 else s.delayUs.toNat, fun h => by rw [h, if_pos rfl],
    fun h => by rw [h, if_neg Bool.false_ne_true], exec_delay s⟩

/-! ### The bounds of a wait (R54, R56, R57) -/

section
variable {n k : Nat} {c : Cause} {s : State} {r : Bool × State} {polls : List Event} {last : Event}

/-- The cause after a wait: it changes only when the wait fails and no cause is recorded (60_exceptions.md R110). -/
theorem WaitEnd.cause_eq (h : WaitEnd n c s r k polls last) :
    r.2.cause = if r.1 = true ∨ s.cause ≠ 0#3 then s.cause else c.code := by
  rw [h.cause, firstCause, codeOk]
  cases r.1 <;> by_cases hc : s.cause = 0#3 <;> simp [hc]

/-- What a wait leaves alone. It makes one sample at least, so the pulse outputs are over after it. -/
theorem WaitEnd.frame (h : WaitEnd n c s r k polls last) : r.2 = { s with
    waitElapsed := r.2.waitElapsed, cause := r.2.cause, trace := r.2.trace, nowUs := r.2.nowUs,
    delayCnt := r.2.delayCnt, extSda := r.2.extSda, extScl := r.2.extScl, freeCtr := r.2.freeCtr,
    rspValid := false, bufRd := false, bufWr := false } := by
  obtain ⟨hvalid, hrd, hwr⟩ := h.run.off (by simp)
  have hwait := h.wait
  rw [WaitFrame, hvalid, hrd, hwr] at hwait
  exact hwait

end

/-- Settles O21, from the way the wait ends (`WaitEnd`). -/
theorem waitSclHighIsBounded : Obligations.WaitSclHighIsBounded := by
  intro s
  obtain ⟨r, k, hexec, h⟩ := exec_waitSclHigh s
  have htime := h.run.time
  rw [elapsed_append, elapsed_sclPolls] at htime
  have htrace := h.run.trace
  rw [← List.append_assoc] at htrace
  have hcounter : r.2.waitElapsed = k := h.counter.trans (Nat.zero_add k)
  exact ⟨setUopResult r.1 r.2, k, hexec, h.bound, h.failed, htrace, htime, hcounter, h.cause_eq,
    congrArg (setUopResult r.1) h.frame⟩

/-- Settles O23: the wait (`WaitEnd`) begins after the two releases and keeps the lines. -/
theorem waitBusIdleIsBounded : Obligations.WaitBusIdleIsBounded := by
  intro s
  obtain ⟨r, lows, last, hexec, hlows, hlast, h⟩ := exec_waitBusIdle s
  have htime := h.run.time
  rw [elapsed_append, elapsed_idlePolls] at htime
  have htrace := h.run.trace
  rw [← List.append_assoc] at htrace
  have hcounter : r.2.waitElapsed = lows.length := h.counter.trans (Nat.zero_add _)
  have hreleased : r.2.released := h.wait.lines
  refine ⟨setUopResult r.1 r.2, lows, last, hexec, hlows, hlast.symm, h.bound, h.failed, ?_, htime, hcounter,
    hreleased, h.cause_eq, congrArg (setUopResult r.1) h.frame⟩
  simpa using htrace

/-! ### The wait for SCL, of a scripted line (R57) -/

@[simp] theorem level_released (held : Bool) : level false held = !held := rfl

section
variable {s : State} {held : Bool} {rest : List Bool}

/-- A sample of the released SCL reads the script's next answer and uses it up. -/
theorem sample_scl_scripted (hrel : s.sclDrv = false) (hext : s.extScl = held :: rest) :
    (sample .scl s).1 = !held ∧ (sample .scl s).2.extScl = rest ∧ (sample .scl s).2.sclDrv = false := by
  have hdraw : drawExt .scl s = (held, setExt .scl rest s) := drawExt_scripted hext
  have hdrv : s.drv .scl = false := hrel
  simp [sample, hdraw, hdrv, hrel]

/-- A high sample ends the wait for SCL, whatever time is left. -/
theorem sclHighLoop_high (n : Nat) (h : (sample .scl s).1 = true) : sclHighLoop n s = (true, (sample .scl s).2) := by
  cases n <;> simp [sclHighLoop, h]

/-- A low sample costs a poll step. -/
theorem sclHighLoop_succ_low (n : Nat) (h : (sample .scl s).1 = false) :
    sclHighLoop (n + 1) s = sclHighLoop n (pollStep (sample .scl s).2) := by
  simp [sclHighLoop, h]

/-- A low sample with no time left fails the wait. -/
theorem sclHighLoop_zero_low (h : (sample .scl s).1 = false) :
    sclHighLoop 0 s = (false, raise .clockStretchTimeout (sample .scl s).2) := by
  simp [sclHighLoop, h]

/-- As long as time is left, each answer that holds SCL low takes one turn of the loop. -/
theorem sclHighLoop_skips_low (n k : Nat) (hrel : s.sclDrv = false)
    (hext : s.extScl = List.replicate k true ++ rest) :
    ∃ t, sclHighLoop (n + k) s = sclHighLoop n t ∧ t.sclDrv = false ∧ t.extScl = rest ∧
      t.waitElapsed = s.waitElapsed + k := by
  induction k generalizing s with
  | zero => exact ⟨s, rfl, hrel, hext, rfl⟩
  | succ k ih =>
    obtain ⟨hlow, hrest, hdrv⟩ := sample_scl_scripted hrel hext
    obtain ⟨t, hloop, hrel', hext', hwait⟩ := ih (s := pollStep (sample .scl s).2) hdrv hrest
    refine ⟨t, (sclHighLoop_succ_low (n + k) hlow).trans hloop, hrel', hext', ?_⟩
    rw [hwait, pollStep_waitElapsed, (sample_regs .scl s).1]
    omega

theorem sclHighLoop_succeeds {n k : Nat} (hk : k ≤ n) (hrel : s.sclDrv = false)
    (hext : s.extScl = List.replicate k true ++ false :: rest) :
    ∃ t, sclHighLoop n s = (true, t) ∧ t.waitElapsed = s.waitElapsed + k ∧ t.extScl = rest := by
  obtain ⟨m, rfl⟩ := Nat.exists_eq_add_of_le' hk
  obtain ⟨t, hloop, hrel', hext', hwait⟩ := sclHighLoop_skips_low m k hrel hext
  obtain ⟨hhigh, hrest, _⟩ := sample_scl_scripted hrel' hext'
  exact ⟨_, hloop.trans (sclHighLoop_high m hhigh), (sample_regs .scl t).1.trans hwait, hrest⟩

theorem sclHighLoop_fails {n : Nat} (hrel : s.sclDrv = false)
    (hext : s.extScl = List.replicate (n + 1) true ++ rest) :
    ∃ t, sclHighLoop n s = (false, t) ∧ t.waitElapsed = s.waitElapsed + n ∧ t.extScl = rest := by
  rw [List.replicate_succ', List.append_assoc] at hext
  obtain ⟨t, hloop, hrel', hext', hwait⟩ := sclHighLoop_skips_low 0 n hrel hext
  obtain ⟨hlow, hrest, _⟩ := sample_scl_scripted hrel' hext'
  rw [Nat.zero_add] at hloop
  exact ⟨_, hloop.trans (sclHighLoop_zero_low hlow), (sample_regs .scl t).1.trans hwait, hrest⟩

end

theorem exec_waitSclHigh_of_loop {s t : State} {r : Bool}
    (h : sclHighLoop s.params.sclStretchTimeoutUs (setWaitElapsed 0 s) = (r, t)) :
    exec .waitSclHigh s = .next (setUopResult r t) := by
  simp [exec, execWaitSclHigh, waitSclHigh, h]

/-- Settles O22: the answers that hold SCL low are skipped (`sclHighLoop_skips_low`), and the next sample decides. -/
theorem waitSclHighFollowsTheLine : Obligations.WaitSclHighFollowsTheLine := by
  intro s k rest hrel
  refine ⟨fun hk hext => ?_, fun hext => ?_⟩
  · obtain ⟨t, hloop, hwait, hrest⟩ := sclHighLoop_succeeds (s := setWaitElapsed 0 s) hk hrel hext
    exact ⟨_, exec_waitSclHigh_of_loop hloop, rfl, hwait.trans (Nat.zero_add k), hrest⟩
  · obtain ⟨t, hloop, hwait, hrest⟩ := sclHighLoop_fails (s := setWaitElapsed 0 s) hrel hext
    exact ⟨_, exec_waitSclHigh_of_loop hloop, rfl, hwait.trans (Nat.zero_add _), hrest⟩

/-! ### The wait for an idle bus, of scripted lines (R57) -/

/-- Both lines are released, and the other devices' coming answers are these. -/
structure ScriptedBus (s : State) (sda scl : List Bool) : Prop where
  released : s.released
  sda : s.extSda = sda
  scl : s.extScl = scl

section
variable {s : State} {p : Bool × Bool} {held : List (Bool × Bool)} {restSda restScl : List Bool}

/-- A two-line sample of the released lines is of an idle bus when no other device holds a line. -/
theorem ScriptedBus.after_sample2 (h : ScriptedBus s (p.1 :: restSda) (p.2 :: restScl)) :
    ((sample2 s).1.1 && (sample2 s).1.2) = !(p.1 || p.2) ∧
      ScriptedBus (sample2 s).2 restSda restScl := by
  obtain ⟨⟨hsda, hscl⟩, hextSda, hextScl⟩ := h
  have hdraw : drawExt .sda s = (p.1, setExt .sda restSda s) := drawExt_scripted hextSda
  have hdraw' : drawExt .scl (setExt .sda restSda s) = (p.2, setExt .scl restScl (setExt .sda restSda s)) :=
    drawExt_scripted hextScl
  rw [sample2, hdraw, hdraw', hsda, hscl]
  exact ⟨(Bool.not_or ..).symm, ⟨hsda, hscl⟩, rfl, rfl⟩

theorem ScriptedBus.after_pollStep (h : ScriptedBus s restSda restScl) : ScriptedBus (pollStep s) restSda restScl :=
  ⟨h.released, h.sda, h.scl⟩

theorem ScriptedBus.after_raise (c : Cause) (h : ScriptedBus s restSda restScl) :
    ScriptedBus (raise c s) restSda restScl :=
  ⟨h.released, h.sda, h.scl⟩

/-- An idle sample ends the wait, whatever time is left. -/
theorem busIdleLoop_idle (n : Nat) (h : ((sample2 s).1.1 && (sample2 s).1.2) = true) :
    busIdleLoop n s = (true, (sample2 s).2) := by
  cases n <;> rw [busIdleLoop, if_pos h]

/-- A busy sample costs a poll step. -/
theorem busIdleLoop_succ_busy (n : Nat) (h : ((sample2 s).1.1 && (sample2 s).1.2) = false) :
    busIdleLoop (n + 1) s = busIdleLoop n (pollStep (sample2 s).2) := by
  simp only [busIdleLoop, h, Bool.false_eq_true, if_false]

/-- A busy sample with no time left fails the wait. -/
theorem busIdleLoop_zero_busy (h : ((sample2 s).1.1 && (sample2 s).1.2) = false) :
    busIdleLoop 0 s = (false, raise .busBusyTimeout (sample2 s).2) := by
  simp only [busIdleLoop, h, Bool.false_eq_true, if_false]

/-- As long as time is left, each pair of answers that holds a line takes one turn of the loop. -/
theorem busIdleLoop_skips_busy (n : Nat) (hheld : ∀ p ∈ held, (p.1 || p.2) = true)
    (h : ScriptedBus s (held.map (·.1) ++ restSda) (held.map (·.2) ++ restScl)) :
    ∃ t, busIdleLoop (n + held.length) s = busIdleLoop n t ∧ ScriptedBus t restSda restScl ∧
      t.waitElapsed = s.waitElapsed + held.length := by
  induction held generalizing s with
  | nil => exact ⟨s, rfl, h, rfl⟩
  | cons p held ih =>
    obtain ⟨hp, hheld'⟩ := List.forall_mem_cons.1 hheld
    obtain ⟨hbusy, hnext⟩ := ScriptedBus.after_sample2 (p := p) h
    rw [hp] at hbusy
    obtain ⟨t, hloop, hbus, hwait⟩ := ih hheld' hnext.after_pollStep
    refine ⟨t, (busIdleLoop_succ_busy (n + held.length) hbusy).trans hloop, hbus, ?_⟩
    rw [hwait, pollStep_waitElapsed, (sample2_regs s).1, List.length_cons]
    omega

theorem busIdleLoop_succeeds {n : Nat} (hlen : held.length ≤ n) (hheld : ∀ p ∈ held, (p.1 || p.2) = true)
    (h : ScriptedBus s (held.map (·.1) ++ false :: restSda) (held.map (·.2) ++ false :: restScl)) :
    ∃ t, busIdleLoop n s = (true, t) ∧ ScriptedBus t restSda restScl ∧
      t.waitElapsed = s.waitElapsed + held.length := by
  obtain ⟨m, rfl⟩ := Nat.exists_eq_add_of_le' hlen
  obtain ⟨t, hloop, hbus, hwait⟩ := busIdleLoop_skips_busy m hheld h
  obtain ⟨hidle, hnext⟩ := ScriptedBus.after_sample2 (p := (false, false)) hbus
  exact ⟨_, hloop.trans (busIdleLoop_idle m hidle), hnext, (sample2_regs t).1.trans hwait⟩

/-- The last of the busy samples is the one with no time left. -/
theorem busIdleLoop_fails {n : Nat} (hlen : held.length = n + 1) (hheld : ∀ p ∈ held, (p.1 || p.2) = true)
    (h : ScriptedBus s (held.map (·.1) ++ restSda) (held.map (·.2) ++ restScl)) :
    ∃ t, busIdleLoop n s = (false, t) ∧ ScriptedBus t restSda restScl ∧ t.waitElapsed = s.waitElapsed + n := by
  obtain rfl | ⟨front, p, hconcat⟩ := held.eq_nil_or_concat
  · exact absurd hlen (Nat.succ_ne_zero n).symm
  · obtain rfl : held = front ++ [p] := hconcat.trans (List.concat_eq_append ..)
    obtain rfl : front.length = n := by simpa using hlen
    obtain ⟨hfront, hp⟩ := List.forall_mem_append.1 hheld
    have hbus : ScriptedBus s (front.map (·.1) ++ (p.1 :: restSda)) (front.map (·.2) ++ (p.2 :: restScl)) := by
      simpa using h
    obtain ⟨t, hloop, hbus', hwait⟩ := busIdleLoop_skips_busy 0 hfront hbus
    obtain ⟨hbusy, hnext⟩ := hbus'.after_sample2
    rw [hp p (List.mem_singleton_self p)] at hbusy
    rw [Nat.zero_add] at hloop
    exact ⟨_, hloop.trans (busIdleLoop_zero_busy hbusy), hnext.after_raise _, (sample2_regs t).1.trans hwait⟩

end

theorem exec_waitBusIdle_of_loop {s t : State} {r : Bool}
    (h : busIdleLoop s.params.busIdleTimeoutUs (setWaitElapsed 0 (release .scl (release .sda s))) = (r, t)) :
    exec .waitBusIdle s = .next (setUopResult r t) := by
  simp [exec, execWaitBusIdle, waitBusIdle, h]

/-- Settles O24: the answers that hold a line are skipped (`busIdleLoop_skips_busy`), and the next sample decides. -/
theorem waitBusIdleFollowsTheLines : Obligations.WaitBusIdleFollowsTheLines := by
  intro s held restSda restScl hheld
  refine ⟨fun hlen hsda hscl => ?_, fun hlen hsda hscl => ?_⟩
  · obtain ⟨t, hloop, hbus, hwait⟩ := busIdleLoop_succeeds
      (s := setWaitElapsed 0 (release .scl (release .sda s))) hlen hheld ⟨⟨rfl, rfl⟩, hsda, hscl⟩
    exact ⟨_, exec_waitBusIdle_of_loop hloop, rfl, hwait.trans (Nat.zero_add _), hbus.sda, hbus.scl⟩
  · obtain ⟨t, hloop, hbus, hwait⟩ := busIdleLoop_fails
      (s := setWaitElapsed 0 (release .scl (release .sda s))) hlen hheld ⟨⟨rfl, rfl⟩, hsda, hscl⟩
    exact ⟨_, exec_waitBusIdle_of_loop hloop, rfl, hwait.trans (Nat.zero_add _), hbus.sda, hbus.scl⟩

end Sys2Proof.Machine

/-! PROOFS. The statements about the bus conditions (42_bus_conditions.md): what START and STOP do, from the way each ends
(`StartEnd`, `StopEnd`). -/

namespace Sys2Proof.Machine

/-! ### What a bus condition leaves alone -/

/-- The frame of a run of bus operations that also leaves the byte engine's registers and `tcs` alone. A run with an event
ends the pulse outputs. -/
theorem CondFrame.frame {s t : State} {es : List Event} (hregs : CondFrame s t) (hrun : BusRun s t es) (hne : es ≠ []) :
    t = { s with
      sdaDrv := t.sdaDrv, sclDrv := t.sclDrv, arbLost := t.arbLost,
      waitElapsed := t.waitElapsed, cause := t.cause, trace := t.trace, nowUs := t.nowUs,
      delayCnt := t.delayCnt, extSda := t.extSda, extScl := t.extScl, freeCtr := t.freeCtr,
      rspValid := false, bufRd := false, bufWr := false } := by
  obtain ⟨htx, hcnt, hbit, hrx, hack, htcs⟩ := hregs
  obtain ⟨hvalid, hrd, hwr⟩ := hrun.off hne
  have hframe := hrun.frame
  rw [htx, hcnt, hbit, hrx, hack, htcs, hvalid, hrd, hwr] at hframe
  exact hframe

/-! ### START (R61) -/

section
variable (d : Nat) (lows : List (Bool × Bool)) (last : Bool × Bool)

theorem startEvents_ne_nil : startEvents d lows last ≠ [] := by simp [startEvents]

/-- START ends with both lines driven low when the bus was seen idle, and with both released when it was not. -/
theorem linesAfter_startEvents (l : Line) (low : Bool) :
    linesAfter l low (startEvents d lows last) = (last.1 && last.2) := by
  cases l <;> cases hidle : last.1 && last.2 <;> simp [startEvents, hidle, lineAfter]

theorem elapsed_startEvents :
    elapsed (startEvents d lows last) = lows.length + if last.1 && last.2 then d else 0 := by
  cases hidle : last.1 && last.2 <;> simp [startEvents, hidle, eventTime]

end

/-- A failure is recorded unless a cause already is (60_exceptions.md R110). -/
theorem ite_firstCause (r : Bool) (old : BitVec 3) (c : Cause) :
    (if r then old else firstCause old c) = if r = true ∨ old ≠ 0#3 then old else c.code := by
  rw [firstCause, codeOk]
  cases r <;> by_cases hc : old = 0#3 <;> simp [hc]

/-- Settles O25, from the way START ends (`StartEnd`): its lines and its time are those of its events. -/
theorem startConditionEffect : Obligations.StartConditionEffect := by
  intro s
  obtain ⟨r, lows, last, hexec, h⟩ := exec_start s
  have htrace := h.run.trace
  have htime := h.run.time
  have hsda := h.run.sda
  have hscl := h.run.scl
  have hframe := h.regs.frame h.run (startEvents_ne_nil _ _ _)
  rw [linesAfter_startEvents, h.result] at hsda hscl
  rw [elapsed_startEvents, h.result, ← Nat.add_assoc] at htime
  simp only [startEvents, h.result, ← List.append_assoc] at htrace
  rw [h.arbLost] at hframe
  exact ⟨setUopResult r.1 r.2, lows, last, hexec, h.low, h.result.symm, h.bound, h.failed, htrace, hsda, hscl,
    h.arbLost, htime, h.cause.trans (ite_firstCause ..), congrArg (setUopResult r.1) hframe⟩

/-! ### STOP (R62, R63) -/

theorem stopEvents_ne_nil (d : Nat) (b : Option (Nat × Bool)) : stopEvents d b ≠ [] := by
  rcases b with _ | ⟨k, v⟩ <;> simp [stopEvents]

/-- The branch STOP takes is one of the three of R62. -/
theorem StopEnd.isStop {s t : State} {b : Option (Nat × Bool)} (h : StopEnd s t b) :
    IsStop s.params.sclStretchTimeoutUs s.delayUs.toNat s.arbLost (stopEvents s.delayUs.toNat b) := by
  rw [← h.branch]
  rcases b with _ | ⟨k, v⟩
  · rfl
  · obtain ⟨hbound, hfailed⟩ := h.bound k v rfl
    cases v with
    | true => exact .inl ⟨k, hbound, by simp [stopEvents]⟩
    | false =>
      obtain rfl := hfailed rfl
      exact .inr (by simp [stopEvents])

/-- Settles O26, from the way STOP ends (`StopEnd`), which keeps `cause` and `arb_lost`. -/
theorem stopConditionEffect : Obligations.StopConditionEffect := by
  intro s
  obtain ⟨t, b, hexec, h, hsda, hscl⟩ := exec_stop s
  have hframe := h.regs.frame h.run (stopEvents_ne_nil _ _)
  rw [hsda, hscl, h.arbLost, h.cause] at hframe
  refine ⟨t, hexec, ?_⟩
  rw [newEvents_eq h.run.trace]
  exact ⟨h.isStop, h.run.trace, h.run.time, ⟨hsda, hscl⟩, hframe⟩

end Sys2Proof.Machine

/-! PROOFS. The statements about the byte transfer engine (43_byte_transfer_engine.md): the exits of WRITE_BYTE and
READ_BYTE, the bits and samples on SDA, the clock pulses, and the timing-critical section around each byte. -/

namespace Sys2Proof.Machine

/-! ### A byte operation run by itself -/

/-- What READ_BYTE hands back to the sequencer: its result and its data, after `drawn` free values (log 8). -/
def handBack (result : Bool) (data : Byte) (drawn : Nat) (t : State) : State :=
  { t with uopResult := result, uopData := data, freeCtr := drawn }

/-- READ_BYTE by its specification: the next state is the state it ends in, with what it hands back to the sequencer. -/
theorem exec_readByte_handsBack (q : Bool) (s : State) : ∃ r e d n,
    exec (.readByte q) s = .next (handBack r.1 d n r.2) ∧
    ReadSpec q s r e ∧ (r.1 = true → d = r.2.rxAcc) := by
  obtain ⟨r, e, d, hexec, h, hd⟩ := exec_readByte q s
  refine ⟨r, e, d, if r.1 then r.2.freeCtr else r.2.freeCtr + 1, ?_, h, hd⟩
  rw [hexec]
  split <;> rfl

/-- How WRITE_BYTE or READ_BYTE run by itself goes from `s` to `t`. -/
inductive ByteCase (s t : State) : Prop where
  | write (r : Bool × State) (e : WriteEnd) (eq : t = setUopResult r.1 r.2) (spec : WriteSpec s.uopByte s r e)
  | read (q : Bool) (r : Bool × State) (e : ReadEnd) (d : Byte) (n : Nat)
      (eq : t = handBack r.1 d n r.2) (spec : ReadSpec q s r e)

section
variable {s t : State}

theorem writeByte_of_exec (h : exec .writeByte s = .next t) :
    ∃ r e, t = setUopResult r.1 r.2 ∧ WriteSpec s.uopByte s r e := by
  obtain ⟨r, e, hexec, spec⟩ := exec_writeByte s
  exact ⟨r, e, Host.Outcome.next.inj (h.symm.trans hexec), spec⟩

theorem readByte_of_exec {q : Bool} (h : exec (.readByte q) s = .next t) :
    ∃ r e d n, t = handBack r.1 d n r.2 ∧ ReadSpec q s r e ∧
      (r.1 = true → d = r.2.rxAcc) := by
  obtain ⟨r, e, d, n, hexec, spec, hd⟩ := exec_readByte_handsBack q s
  exact ⟨r, e, d, n, Host.Outcome.next.inj (h.symm.trans hexec), spec, hd⟩

theorem byteCase_of_exec {i : Instr} (hi : i = .writeByte ∨ i = .readByte true ∨ i = .readByte false)
    (h : exec i s = .next t) : ByteCase s t := by
  have read {q : Bool} (h : exec (.readByte q) s = .next t) : ByteCase s t := by
    obtain ⟨r, e, d, n, eq, spec, _⟩ := readByte_of_exec h
    exact .read q r e d n eq spec
  rcases hi with rfl | rfl | rfl
  · obtain ⟨r, e, eq, spec⟩ := writeByte_of_exec h
    exact .write r e eq spec
  · exact read h
  · exact read h

end

/-! ### The lines after a byte (R79) -/

/-- A data bit cell of WRITE_BYTE that was clocked leaves SCL driven low; one that was not leaves it released. -/
theorem linesAfter_scl_writeCellEvents (low : Bool) (d : Nat) (b : Bool) (k : Nat) (c : CellEnd) :
    linesAfter .scl low (writeCellEvents d b k c) = decide (c = .done) := by
  cases c <;> cases b <;> simp [writeCellEvents, writeCellHead, lineAfter]

/-- A data bit cell of WRITE_BYTE leaves its bit on SDA. -/
theorem linesAfter_sda_writeCellEvents (low : Bool) (d : Nat) (b : Bool) (k : Nat) (c : CellEnd) :
    linesAfter .sda low (writeCellEvents d b k c) = !b := by
  cases c <;> cases b <;> simp [writeCellEvents, writeCellHead, lineAfter]

/-- SCL after WRITE_BYTE: driven low exactly when the ACK bit was clocked. -/
def WriteEnd.sclLow : WriteEnd → Bool
  | .full _ _ _ => true
  | .ackTimeout _ _ => false
  | .cellTimeout _ _ => false
  | .cellLost _ _ => false

/-- SDA after WRITE_BYTE(v): released, but for the bit whose wait timed out. -/
def WriteEnd.sdaLow (v : Byte) : WriteEnd → Bool
  | .full _ _ _ => false
  | .ackTimeout _ _ => false
  | .cellTimeout ks _ => !wireBit v ks.length
  | .cellLost ks _ => !wireBit v ks.length

theorem linesAfter_scl_writeByteEvents (low : Bool) (d : Nat) (v : Byte) (e : WriteEnd) :
    linesAfter .scl low (writeByteEvents d v e) = e.sclLow := by
  cases e <;>
    simp [writeByteEvents, writeEvents, ackHead, lineAfter, linesAfter_scl_writeCellEvents, WriteEnd.sclLow]

theorem linesAfter_sda_writeByteEvents (low : Bool) (d : Nat) (v : Byte) (e : WriteEnd) :
    linesAfter .sda low (writeByteEvents d v e) = e.sdaLow v := by
  cases e <;>
    simp [writeByteEvents, writeEvents, ackHead, lineAfter, linesAfter_sda_writeCellEvents, WriteEnd.sdaLow]

/-- SCL after READ_BYTE: driven low exactly when the ACK bit was clocked. -/
def ReadEnd.sclLow : ReadEnd → Bool
  | .full _ _ => true
  | .ackTimeout _ _ => false
  | .cellTimeout _ _ => false

/-- SDA after READ_BYTE(q): released, but for a requested ACK whose wait timed out. -/
def ReadEnd.sdaLow (q : Bool) : ReadEnd → Bool
  | .full _ _ => false
  | .ackTimeout _ _ => q
  | .cellTimeout _ _ => false

theorem linesAfter_scl_readByteEvents (low : Bool) (d : Nat) (q : Bool) (e : ReadEnd) :
    linesAfter .scl low (readByteEvents d q e) = e.sclLow := by
  cases e <;> cases q <;>
    simp [readByteEvents, readEvents, sendAckHead, readCellHead, lineAfter, ReadEnd.sclLow]

theorem linesAfter_sda_readByteEvents (low : Bool) (d : Nat) (q : Bool) (e : ReadEnd) :
    linesAfter .sda low (readByteEvents d q e) = e.sdaLow q := by
  cases e <;> cases q <;>
    simp [readByteEvents, readEvents, sendAckHead, readCellHead, lineAfter, ReadEnd.sdaLow]

/-! ### What a byte leaves -/

section
variable {v : Byte} {q : Bool} {s : State} {r : Bool × State}

theorem WriteSpec.sclDrv {e : WriteEnd} (h : WriteSpec v s r e) : r.2.sclDrv = e.sclLow :=
  h.run.scl.trans (linesAfter_scl_writeByteEvents ..)

theorem WriteSpec.sdaDrv {e : WriteEnd} (h : WriteSpec v s r e) : r.2.sdaDrv = e.sdaLow v :=
  h.run.sda.trans (linesAfter_sda_writeByteEvents ..)

/-- What WRITE_BYTE leaves alone. Its first event ends the pulse outputs. -/
theorem WriteSpec.frame {e : WriteEnd} (h : WriteSpec v s r e) : r.2 = { s with
    sdaDrv := r.2.sdaDrv, sclDrv := r.2.sclDrv, arbLost := r.2.arbLost, txByte := r.2.txByte, bitCnt := r.2.bitCnt,
    curBit := r.2.curBit, ack := r.2.ack, waitElapsed := r.2.waitElapsed, cause := r.2.cause, tcs := false,
    trace := r.2.trace, nowUs := r.2.nowUs, delayCnt := r.2.delayCnt,
    extSda := r.2.extSda, extScl := r.2.extScl, freeCtr := r.2.freeCtr,
    rspValid := false, bufRd := false, bufWr := false } := by
  obtain ⟨hvalid, hrd, hwr⟩ := h.run.off (by simp)
  have hframe := h.run.frame
  rw [h.rxAcc, h.tcs, hvalid, hrd, hwr] at hframe
  exact hframe

theorem ReadSpec.sclDrv {e : ReadEnd} (h : ReadSpec q s r e) : r.2.sclDrv = e.sclLow :=
  h.run.scl.trans (linesAfter_scl_readByteEvents ..)

theorem ReadSpec.sdaDrv {e : ReadEnd} (h : ReadSpec q s r e) : r.2.sdaDrv = e.sdaLow q :=
  h.run.sda.trans (linesAfter_sda_readByteEvents ..)

/-- What READ_BYTE leaves alone. Its first event ends the pulse outputs. -/
theorem ReadSpec.frame {e : ReadEnd} (h : ReadSpec q s r e) : r.2 = { s with
    sdaDrv := r.2.sdaDrv, sclDrv := r.2.sclDrv, rxAcc := r.2.rxAcc, bitCnt := r.2.bitCnt,
    waitElapsed := r.2.waitElapsed, cause := r.2.cause, tcs := false, trace := r.2.trace, nowUs := r.2.nowUs,
    delayCnt := r.2.delayCnt, extSda := r.2.extSda, extScl := r.2.extScl, freeCtr := r.2.freeCtr,
    rspValid := false, bufRd := false, bufWr := false } := by
  obtain ⟨hvalid, hrd, hwr⟩ := h.run.off (by simp)
  obtain ⟨htx, hcur, hack, harb⟩ := h.regs
  have hframe := h.run.frame
  rw [htx, hcur, hack, harb, h.tcs, hvalid, hrd, hwr] at hframe
  exact hframe

end

/-- A failure is recorded unless a cause already is (60_exceptions.md R110). -/
theorem firstCause_eq (old : BitVec 3) (c : Cause) : firstCause old c = if old ≠ 0#3 then old else c.code := by
  rw [firstCause, codeOk, ite_not]

/-- Settles O27: one exit for each way WRITE_BYTE ends (`WriteEnd`). -/
theorem writeByteExits : Obligations.WriteByteExits := by
  intro s
  obtain ⟨r, e, hexec, h⟩ := exec_writeByte s
  refine ⟨setUopResult r.1 r.2, hexec, ?_, h.txByte, h.tcs, congrArg (setUopResult r.1) h.frame⟩
  have hok := h.ok
  have hresult := h.result
  have hscl := h.sclDrv
  have hsda := h.sdaDrv
  have hbits := h.bitCnt
  have harb := h.arbLost
  have hcause := h.cause
  have hack := h.ack
  cases e with
  | full ks k sda =>
    obtain ⟨_, hlen, _⟩ := hok
    refine .inl ⟨!sda, hack, hresult, hscl, hsda, hbits.trans hlen, harb, hcause.trans ?_⟩
    exact Eq.trans (by cases sda <;> rfl) (ite_firstCause (!sda) s.cause .nack)
  | cellTimeout ks k =>
    obtain ⟨_, hlen, _⟩ := hok
    exact .inr (.inl ⟨ks.length, hlen, hresult, hscl, hsda, hbits, harb, hcause.trans (firstCause_eq ..)⟩)
  | ackTimeout ks k =>
    obtain ⟨_, hlen, _⟩ := hok
    exact .inr (.inr (.inl ⟨hresult, hscl, hsda, hbits.trans hlen, harb, hcause.trans (firstCause_eq ..)⟩))
  | cellLost ks k =>
    obtain ⟨_, hlen, _, hbit⟩ := hok
    have hreleased : r.2.sdaDrv = false := hsda.trans (congrArg not hbit)
    exact .inr (.inr (.inr ⟨ks.length, hlen, hbit, hresult, hscl, hreleased, hbits, harb,
      hcause.trans (firstCause_eq ..)⟩))

/-- Settles O30: one exit for each way READ_BYTE ends (`ReadEnd`). -/
theorem readByteExits : Obligations.ReadByteExits := by
  intro q s
  obtain ⟨r, e, d, n, hexec, h, hdata⟩ := exec_readByte_handsBack q s
  refine ⟨handBack r.1 d n r.2, hexec, ?_, h.tcs, congrArg (handBack r.1 d n) h.frame⟩
  have hok := h.ok
  have hresult := h.result
  have hscl := h.sclDrv
  have hsda := h.sdaDrv
  have hbits := h.bitCnt
  have hcause := h.cause
  cases e with
  | full cs k =>
    obtain ⟨_, hlen, _⟩ := hok
    exact .inl ⟨hresult, hscl, hsda, (hbits.trans (List.length_map ..)).trans hlen, hdata hresult, hcause⟩
  | cellTimeout cs k =>
    obtain ⟨_, hlen, _⟩ := hok
    exact .inr (.inl ⟨cs.length, hlen, hresult, hscl, hsda, hbits.trans (List.length_map ..),
      hcause.trans (firstCause_eq ..)⟩)
  | ackTimeout cs k =>
    obtain ⟨_, hlen, _⟩ := hok
    exact .inr (.inr ⟨hresult, hscl, hsda, (hbits.trans (List.length_map ..)).trans hlen,
      hcause.trans (firstCause_eq ..)⟩)

/-! ### The time of a byte (70_reset_and_hazards.md R129) -/

/-- The clocked data bits of WRITE_BYTE take two delay steps each, and the polls. -/
theorem elapsed_writeCellsEvents (d : Nat) (v : Byte) (i : Nat) (ks : List Nat) :
    elapsed (writeCellsEvents d v i ks) = ks.length * (2 * d) + ks.sum := by
  have cell (b : Bool) (k : Nat) : elapsed (writeCellEvents d b k .done) = 2 * d + k := by
    cases b <;> simp [writeCellEvents, writeCellHead, eventTime] <;> omega
  induction ks generalizing i with
  | nil => simp [writeCellsEvents]
  | cons k ks ih =>
    rw [writeCellsEvents, elapsed_append, cell, ih, List.length_cons, List.sum_cons,
      Nat.add_mul ks.length 1]
    omega

/-- The clocked data bits of READ_BYTE take two delay steps each, and the polls. -/
theorem elapsed_readCellsEvents (d : Nat) (cs : List (Nat × Bool)) :
    elapsed (readCellsEvents d cs) = cs.length * (2 * d) + (cs.map (·.1)).sum := by
  have cell (k : Nat) (b : Bool) : elapsed (readCellEvents d k b) = 2 * d + k := by
    simp [readCellEvents, readCellHead, eventTime]
    omega
  induction cs with
  | nil => simp [readCellsEvents]
  | cons c cs ih =>
    rw [readCellsEvents, elapsed_append, cell, ih, List.length_cons, List.map_cons, List.sum_cons,
      Nat.add_mul cs.length 1]
    omega

/-- No sample of a wait failed. -/
def Unstretched (es : List Event) : Prop := es.all (fun e => !failedWaitSample e) = true

theorem unstretched_append {es fs : List Event} : Unstretched (es ++ fs) ↔ Unstretched es ∧ Unstretched fs := by
  rw [Unstretched, List.all_append, Bool.and_eq_true]
  rfl

theorem unstretched_writeCells {d : Nat} {v : Byte} {i : Nat} {ks : List Nat}
    (h : Unstretched (writeCellsEvents d v i ks)) : ks.sum = 0 := by
  induction ks generalizing i with
  | nil => rfl
  | cons k ks ih =>
    simp only [writeCellsEvents, writeCellEvents, writeCellHead, unstretched_append] at h
    obtain ⟨⟨⟨⟨⟨_, hpolls⟩, _⟩, _⟩, _⟩, hrest⟩ := h
    rw [List.sum_cons, sclPolls_noFailed hpolls, ih hrest]

theorem unstretched_readCells {d : Nat} {cs : List (Nat × Bool)} (h : Unstretched (readCellsEvents d cs)) :
    (cs.map (·.1)).sum = 0 := by
  induction cs with
  | nil => rfl
  | cons c cs ih =>
    simp only [readCellsEvents, readCellEvents, readCellHead, unstretched_append] at h
    obtain ⟨⟨⟨_, hpolls⟩, _⟩, hrest⟩ := h
    rw [List.map_cons, List.sum_cons, sclPolls_noFailed hpolls, ih hrest]

/-- A WRITE_BYTE that clocked all its nine bits with no stretching takes 17 delay steps. -/
theorem elapsed_writeByteEvents_full {T d : Nat} {v : Byte} {ks : List Nat} {k : Nat} {sda : Bool}
    (hok : (WriteEnd.full ks k sda).Ok T v) (h : Unstretched (writeByteEvents d v (.full ks k sda))) :
    elapsed (writeByteEvents d v (.full ks k sda)) = 17 * d := by
  obtain ⟨_, hlen, _⟩ := hok
  simp only [writeByteEvents, writeEvents, ackHead, unstretched_append] at h
  obtain ⟨⟨_, ⟨hcells, _, hpolls⟩, _⟩, _⟩ := h
  obtain rfl := sclPolls_noFailed hpolls
  have hsum := unstretched_writeCells hcells
  have hbyte : elapsed (writeByteEvents d v (.full ks 0 sda)) = elapsed (writeCellsEvents d v 0 ks) + d := by
    simp [writeByteEvents, writeEvents, ackHead, eventTime]
  rw [hbyte, elapsed_writeCellsEvents, hlen, hsum]
  omega

/-- A READ_BYTE that clocked all its nine bits with no stretching takes 17 delay steps. -/
theorem elapsed_readByteEvents_full {T d : Nat} {q : Bool} {cs : List (Nat × Bool)} {k : Nat}
    (hok : (ReadEnd.full cs k).Ok T) (h : Unstretched (readByteEvents d q (.full cs k))) :
    elapsed (readByteEvents d q (.full cs k)) = 17 * d := by
  obtain ⟨_, hlen, _⟩ := hok
  simp only [readByteEvents, readEvents, sendAckHead, unstretched_append] at h
  obtain ⟨⟨_, ⟨hcells, _, hpolls⟩, _⟩, _⟩ := h
  obtain rfl := sclPolls_noFailed hpolls
  have hsum := unstretched_readCells hcells
  have hbyte : elapsed (readByteEvents d q (.full cs 0)) = elapsed (readCellsEvents d cs) + d := by
    cases q <;> simp [readByteEvents, readEvents, sendAckHead, eventTime]
  rw [hbyte, elapsed_readCellsEvents, hlen, hsum]
  omega

/-! ### The clock pulses of a byte -/

/-- A list of events whose first event of SCL drives it low has the pulses it would have after a DriveLow(SCL). -/
theorem clockPulses_eq_pulsesAfterLow {es : List Event} (h : (es.filterMap sclEdge).head? = some true) :
    clockPulses es = pulsesAfterLow es := by
  obtain ⟨rest, hes⟩ := List.head?_eq_some_iff.1 h
  rw [clockPulses, pulsesAfterLow, hes]
  cases rest <;> simp [pulsesOf]

theorem clockPulses_writeByteEvents_full {T : Nat} {d : Nat} {v : Byte} {ks : List Nat} {k : Nat} {sda : Bool}
    (hok : (WriteEnd.full ks k sda).Ok T v) : clockPulses (writeByteEvents d v (.full ks k sda)) = 9 := by
  have hpulses := pulsesAfterLow_full d v ks k sda [] hok
  obtain ⟨_, hlen, _⟩ := hok
  obtain ⟨k₀, ks, rfl⟩ := List.exists_cons_of_length_eq_add_one hlen
  rw [List.append_nil] at hpulses
  rw [clockPulses_eq_pulsesAfterLow, hpulses]
  · rfl
  · simp [writeByteEvents, writeEvents, writeCellsEvents, writeCellEvents, writeCellHead, sclEdges_cons, sclEdge]

theorem clockPulses_readByteEvents_full {T : Nat} {d : Nat} {q : Bool} {cs : List (Nat × Bool)} {k : Nat}
    (hok : (ReadEnd.full cs k).Ok T) : clockPulses (readByteEvents d q (.full cs k)) = 9 := by
  have hpulses := pulsesAfterLow_readFull d q cs k [] hok
  obtain ⟨_, hlen, _⟩ := hok
  obtain ⟨c, cs, rfl⟩ := List.exists_cons_of_length_eq_add_one hlen
  rw [List.append_nil] at hpulses
  rw [clockPulses_eq_pulsesAfterLow, hpulses]
  · rfl
  · simp [readByteEvents, readEvents, readCellsEvents, readCellEvents, readCellHead, sclEdges_cons, sclEdge]

/-! ### The bits and the samples of a byte (R66, R72, R73, R76, R77) -/

/-- The section marks put no bit on SDA. -/
theorem sentBits_section (low : Bool) (es : List Event) : sentBits low ([.ta] ++ es ++ [.tr]) = sentBits low es := by
  simp [sentBits, sentBits_append, lineAfter]

theorem sdaSamples_section (es : List Event) : sdaSamples ([.ta] ++ es ++ [.tr]) = sdaSamples es := by
  simp [sdaSamples_cons, sdaSample]

/-- Settles O28: the events of the byte hold its bits up to the one it ended in, and SCL is left low only by an ending with
all nine bits. -/
theorem writeByteSendsMostSignificantBitFirst : Obligations.WriteByteSendsMostSignificantBitFirst := by
  intro s t hexec
  obtain ⟨r, e, rfl, h⟩ := writeByte_of_exec hexec
  rw [newEvents_eq (t := setUopResult r.1 r.2) h.run.trace]
  refine ⟨?_, fun hlow => ?_⟩
  · rw [sentBits_section, sentBits_writeEvents _ _ _ e h.ok, ← h.bitCnt]
    rfl
  · have hscl : e.sclLow = true := h.sclDrv.symm.trans hlow
    cases e with
    | full ks k sda =>
      refine ⟨clockPulses_writeByteEvents_full h.ok, fun hfree => ?_⟩
      exact h.run.time.trans (congrArg _ (elapsed_writeByteEvents_full h.ok hfree))
    | ackTimeout | cellTimeout | cellLost => exact nomatch hscl

/-- The clocked data bits of value 1 are sampled, and read 1. -/
theorem sdaSamples_writeCells_eq (d : Nat) (v : Byte) {ks : List Nat} (h : ks.length ≤ 8) :
    sdaSamples (writeCellsEvents d v 0 ks) =
      List.replicate (((wireBits v).take ks.length).count true) true := by
  rw [sdaSamples_writeCells, wireBits_take v h]

/-- The sample of SDA in the bit WRITE_BYTE ended in: the ACK sample, or the one that lost arbitration. -/
def WriteEnd.lastSample : WriteEnd → List Bool
  | .full _ _ sda => [sda]
  | .ackTimeout _ _ => []
  | .cellTimeout _ _ => []
  | .cellLost _ _ => [false]

theorem sdaSamples_writeEvents {T : Nat} (d : Nat) {v : Byte} {e : WriteEnd} (hok : e.Ok T v) :
    sdaSamples (writeEvents d v e) =
      List.replicate (((wireBits v).take e.bits).count true) true ++ e.lastSample := by
  have hle := WriteEnd.bits_le hok
  cases e <;>
    simp [writeEvents, writeCellEvents, WriteEnd.bits, WriteEnd.lastSample, sdaSamples_writeCells_eq _ _ hle,
      sdaSamples_cons, sdaSample]

/-- Settles O29: the flag is set by the one ending that lost arbitration, whose last sample is the losing one. -/
theorem writeByteChecksEachOneBit : Obligations.WriteByteChecksEachOneBit := by
  intro s t hexec hclear
  obtain ⟨r, e, rfl, h⟩ := writeByte_of_exec hexec
  rw [newEvents_eq (t := setUopResult r.1 r.2) h.run.trace]
  have hok := h.ok
  have hack := h.ack
  have harb : (setUopResult r.1 r.2).arbLost = e.arbAfter false := hclear ▸ h.arbLost
  have hscl : (setUopResult r.1 r.2).sclDrv = e.sclLow := h.sclDrv
  have hbits : (setUopResult r.1 r.2).bitCnt = e.bits := h.bitCnt
  rw [harb, hscl, hbits]
  refine ⟨fun hset => ?_, fun hkept => ?_⟩
  · cases e with
    | full | ackTimeout | cellTimeout => exact nomatch hset
    | cellLost ks k =>
      obtain ⟨_, hlen, _⟩ := hok
      refine ⟨[.ta] ++ (writeCellsEvents s.delayUs.toNat s.uopByte 0 ks ++
        (writeCellHead s.delayUs.toNat (wireBit s.uopByte ks.length) k ++ [.sm .scl true, .dy s.delayUs.toNat])), ?_, ?_⟩
      · simp [writeEvents, writeCellEvents]
      · simp [WriteEnd.bits, sdaSamples_writeCells_eq _ _ (Nat.le_of_lt hlen), sdaSamples_cons, sdaSample]
  · rw [sdaSamples_section, sdaSamples_writeEvents _ hok]
    cases e with
    | full ks k sda =>
      have hsample : (!(setUopResult r.1 r.2).ack) = sda := (congrArg not hack).trans (Bool.not_not sda)
      rw [hsample]
      rfl
    | ackTimeout | cellTimeout => rfl
    | cellLost => exact nomatch hkept

theorem sentBits_readEvents_full (low : Bool) (d : Nat) (q : Bool) (cs : List (Nat × Bool)) (k : Nat) :
    sentBits low (readEvents d q (.full cs k)) = List.replicate cs.length true ++ [!q] := by
  cases q <;> simp [readEvents, sendAckHead, sentBits_append, sentBits_readCells, sentBits, lineAfter]

/-- Settles O31: only the ending with all nine bits succeeds. -/
theorem readByteReadsMostSignificantBitFirst : Obligations.ReadByteReadsMostSignificantBitFirst := by
  intro q s t hexec hsuccess
  obtain ⟨r, e, d, n, rfl, h, hdata⟩ := readByte_of_exec hexec
  have hresult : e.result = true := h.result.symm.trans hsuccess
  rw [newEvents_eq (t := handBack r.1 d n r.2) h.run.trace]
  cases e with
  | full cs k =>
    obtain ⟨_, hlen, _⟩ := h.ok
    refine ⟨?_, ?_, clockPulses_readByteEvents_full h.ok, fun hfree => ?_⟩
    · have hbyte : d = ReadEnd.data (.full cs k) := (hdata hsuccess).trans h.rxAcc
      rw [sdaSamples_section, sdaSamples_readEvents, ← ReadEnd.wireBits_data h.ok hresult, ← hbyte]
      rfl
    · rw [sentBits_section, sentBits_readEvents_full, hlen]
    · exact h.run.time.trans (congrArg _ (elapsed_readByteEvents_full h.ok hfree))
  | ackTimeout | cellTimeout => exact nomatch hresult

/-! ### A stretch timeout (R75) -/

/-- The end of a wait for SCL that failed after `T` polls, and of the byte. -/
def stretchTimeout (T : Nat) : List Event := .rl .scl :: sclPolls T ++ [.sm .scl false, .tr]

/-- A WRITE_BYTE that found no cause recorded and leaves CLOCK_STRETCH_TIMEOUT has ended in a failed wait. -/
theorem WriteEnd.ends_in_stretchTimeout {T d : Nat} {v : Byte} {e : WriteEnd} {lost : Bool} (hok : e.Ok T v)
    (h : e.causeAfter codeOk = Cause.clockStretchTimeout.code) :
    e.result lost = false ∧ stretchTimeout T <:+ writeByteEvents d v e := by
  cases e with
  | full ks k sda => cases sda <;> simp [WriteEnd.causeAfter, firstCause, codeOk, Cause.code] at h
  | ackTimeout ks k =>
    obtain ⟨_, _, rfl⟩ := hok
    exact ⟨rfl, [.ta] ++ writeCellsEvents d v 0 ks ++ [.rl .sda], by
      simp [stretchTimeout, writeByteEvents, writeEvents, ackHead]⟩
  | cellTimeout ks k =>
    obtain ⟨_, _, rfl⟩ := hok
    refine ⟨rfl, [.ta] ++ writeCellsEvents d v 0 ks ++
      [.dl .scl, if wireBit v ks.length then .rl .sda else .dl .sda, .dy d], ?_⟩
    simp [stretchTimeout, writeByteEvents, writeEvents, writeCellEvents, writeCellHead]
  | cellLost ks k => simp [WriteEnd.causeAfter, firstCause, codeOk, Cause.code] at h

/-- A READ_BYTE that failed has ended in a failed wait. -/
theorem ReadEnd.ends_in_stretchTimeout {T d : Nat} {q : Bool} {e : ReadEnd} (hok : e.Ok T) (h : e.result = false) :
    stretchTimeout T <:+ readByteEvents d q e := by
  cases e with
  | full cs k => exact nomatch h
  | ackTimeout cs k =>
    obtain ⟨_, _, rfl⟩ := hok
    exact ⟨[.ta] ++ readCellsEvents d cs ++ [if q then .dl .sda else .rl .sda], by
      simp [stretchTimeout, readByteEvents, readEvents, sendAckHead]⟩
  | cellTimeout cs k =>
    obtain ⟨_, _, rfl⟩ := hok
    exact ⟨[.ta] ++ readCellsEvents d cs ++ [.dl .scl, .rl .sda, .dy d], by
      simp [stretchTimeout, readByteEvents, readEvents, readCellHead]⟩

/-- Settles O32: with no cause recorded before, the code tells that the byte ended in a failed wait. -/
theorem stretchTimeoutEndsTheByteAtOnce : Obligations.StretchTimeoutEndsTheByteAtOnce := by
  intro i s t hi hexec hbefore hafter
  have ended {es : List Event} (htrace : t.trace = s.trace ++ es)
      (h : stretchTimeout s.params.sclStretchTimeoutUs <:+ es) : ∃ fs, newEvents s t =
        fs ++ .rl .scl :: sclPolls s.params.sclStretchTimeoutUs ++ [.sm .scl false, .tr] := by
    obtain ⟨fs, hfs⟩ := h
    exact ⟨fs, by rw [newEvents_eq htrace, ← hfs, stretchTimeout, List.append_assoc]⟩
  cases byteCase_of_exec hi hexec with
  | write r e eq spec =>
    subst eq
    have hcause := spec.cause
    rw [hbefore] at hcause
    obtain ⟨hresult, hend⟩ := WriteEnd.ends_in_stretchTimeout (lost := s.arbLost) spec.ok (hcause.symm.trans hafter)
    exact ⟨spec.result.trans hresult, ended spec.run.trace hend⟩
  | read q r e d n eq spec =>
    subst eq
    have hfailed : e.result = false := by
      cases hr : e.result with
      | false => rfl
      | true =>
        have hcause := spec.cause
        rw [hr, if_pos rfl, hbefore] at hcause
        exact absurd (hcause.symm.trans hafter) (by decide)
    exact ⟨spec.result.trans hfailed, ended spec.run.trace (ReadEnd.ends_in_stretchTimeout spec.ok hfailed)⟩

/-! ### SDA is set while SCL is low (R69) -/

/-- The clocked data bits of WRITE_BYTE leave SCL driven low. -/
theorem linesAfter_scl_writeCellsEvents (low : Bool) (d : Nat) (v : Byte) (i : Nat) {ks : List Nat} (h : ks ≠ []) :
    linesAfter .scl low (writeCellsEvents d v i ks) = true := by
  induction ks generalizing i low with
  | nil => exact absurd rfl h
  | cons k ks ih =>
    rw [writeCellsEvents, linesAfter_append, linesAfter_scl_writeCellEvents]
    cases ks with
    | nil => rfl
    | cons k' ks => exact ih _ _ (by simp)

/-- The clocked data bits of READ_BYTE leave SCL driven low. -/
theorem linesAfter_scl_readCellsEvents (low : Bool) (d : Nat) {cs : List (Nat × Bool)} (h : cs ≠ []) :
    linesAfter .scl low (readCellsEvents d cs) = true := by
  induction cs generalizing low with
  | nil => exact absurd rfl h
  | cons c cs ih =>
    have hcell : linesAfter .scl low (readCellEvents d c.1 c.2) = true := by
      simp [readCellEvents, readCellHead, lineAfter]
    rw [readCellsEvents, linesAfter_append, hcell]
    cases cs with
    | nil => rfl
    | cons c' cs => exact ih _ (by simp)

/-- A data bit cell of WRITE_BYTE drives SCL low before it sets SDA. -/
theorem sdaSetOnly_writeCellEvents (scl : Bool) (d : Nat) (b : Bool) (k : Nat) (c : CellEnd) :
    sdaSetOnlyWhileSclLow scl (writeCellEvents d b k c) = true := by
  cases c <;> cases b <;>
    simp [writeCellEvents, writeCellHead, sdaSetOnlyWhileSclLow_append, sdaSetOnlyWhileSclLow, lineAfter]

theorem sdaSetOnly_writeCellsEvents (scl : Bool) (d : Nat) (v : Byte) (i : Nat) (ks : List Nat) :
    sdaSetOnlyWhileSclLow scl (writeCellsEvents d v i ks) = true := by
  induction ks generalizing i scl with
  | nil => rfl
  | cons k ks ih => rw [writeCellsEvents, sdaSetOnlyWhileSclLow_append, sdaSetOnly_writeCellEvents, ih]; rfl

/-- A data bit cell of READ_BYTE drives SCL low before it sets SDA. -/
theorem sdaSetOnly_readCellHead (scl : Bool) (d k : Nat) :
    sdaSetOnlyWhileSclLow scl (readCellHead d k) = true := by
  simp [readCellHead, sdaSetOnlyWhileSclLow, lineAfter]

theorem sdaSetOnly_readCellsEvents (scl : Bool) (d : Nat) (cs : List (Nat × Bool)) :
    sdaSetOnlyWhileSclLow scl (readCellsEvents d cs) = true := by
  induction cs generalizing scl with
  | nil => rfl
  | cons c cs ih =>
    rw [readCellsEvents, readCellEvents, sdaSetOnlyWhileSclLow_append, sdaSetOnlyWhileSclLow_append,
      sdaSetOnly_readCellHead, ih]
    rfl

theorem sdaSetOnly_writeByteEvents {T : Nat} (scl : Bool) (d : Nat) {v : Byte} {e : WriteEnd} (hok : e.Ok T v) :
    sdaSetOnlyWhileSclLow scl (writeByteEvents d v e) = true := by
  have low {ks : List Nat} (hlen : ks.length = 8) (scl : Bool) :
      linesAfter .scl scl (writeCellsEvents d v 0 ks) = true :=
    linesAfter_scl_writeCellsEvents _ _ _ _ (List.ne_nil_of_length_eq_add_one hlen)
  cases e with
  | full ks k sda =>
    obtain ⟨_, hlen, _⟩ := hok
    simp [writeByteEvents, writeEvents, ackHead, sdaSetOnlyWhileSclLow_append, sdaSetOnlyWhileSclLow, lineAfter,
      sdaSetOnly_writeCellsEvents, low hlen]
  | ackTimeout ks k =>
    obtain ⟨_, hlen, _⟩ := hok
    simp [writeByteEvents, writeEvents, ackHead, sdaSetOnlyWhileSclLow_append, sdaSetOnlyWhileSclLow, lineAfter,
      sdaSetOnly_writeCellsEvents, low hlen]
  | cellTimeout ks k =>
    simp [writeByteEvents, writeEvents, sdaSetOnlyWhileSclLow_append, sdaSetOnlyWhileSclLow, sdaSetOnly_writeCellsEvents,
      sdaSetOnly_writeCellEvents]
  | cellLost ks k =>
    simp [writeByteEvents, writeEvents, sdaSetOnlyWhileSclLow_append, sdaSetOnlyWhileSclLow, sdaSetOnly_writeCellsEvents,
      sdaSetOnly_writeCellEvents]

theorem sdaSetOnly_readByteEvents {T : Nat} (scl : Bool) (d : Nat) (q : Bool) {e : ReadEnd} (hok : e.Ok T) :
    sdaSetOnlyWhileSclLow scl (readByteEvents d q e) = true := by
  have low {cs : List (Nat × Bool)} (hlen : cs.length = 8) (scl : Bool) :
      linesAfter .scl scl (readCellsEvents d cs) = true :=
    linesAfter_scl_readCellsEvents _ _ (List.ne_nil_of_length_eq_add_one hlen)
  cases e with
  | full cs k =>
    obtain ⟨_, hlen, _⟩ := hok
    cases q <;> simp [readByteEvents, readEvents, sendAckHead, sdaSetOnlyWhileSclLow_append, sdaSetOnlyWhileSclLow,
      lineAfter, sdaSetOnly_readCellsEvents, low hlen]
  | ackTimeout cs k =>
    obtain ⟨_, hlen, _⟩ := hok
    cases q <;> simp [readByteEvents, readEvents, sendAckHead, sdaSetOnlyWhileSclLow_append, sdaSetOnlyWhileSclLow,
      lineAfter, sdaSetOnly_readCellsEvents, low hlen]
  | cellTimeout cs k =>
    simp [readByteEvents, readEvents, sdaSetOnlyWhileSclLow_append, sdaSetOnlyWhileSclLow, sdaSetOnly_readCellsEvents,
      sdaSetOnly_readCellHead]

/-- Settles O33: each data bit begins with DriveLow(SCL), and the bit before an ACK bit leaves SCL low. -/
theorem sdaIsSetOnlyWhileSclIsLow : Obligations.SdaIsSetOnlyWhileSclIsLow := by
  intro i s t hi hexec
  cases byteCase_of_exec hi hexec with
  | write r e eq spec =>
    rw [eq, newEvents_eq (t := setUopResult r.1 r.2) spec.run.trace]
    exact sdaSetOnly_writeByteEvents _ _ spec.ok
  | read q r e d n eq spec =>
    rw [eq, newEvents_eq (t := handBack r.1 d n r.2) spec.run.trace]
    exact sdaSetOnly_readByteEvents _ _ _ spec.ok

/-! ### The timing-critical section (R67) -/

theorem marks_not_mem_of_plain {es : List Event} (h : es.all plainEvent = true) : .ta ∉ es ∧ .tr ∉ es := by
  rw [List.all_eq_true] at h
  exact ⟨fun hm => absurd (h _ hm) (by decide), fun hm => absurd (h _ hm) (by decide)⟩

/-- Between `s` and `t` the timing-critical section was left alone. -/
structure TcsUntouched (s t : State) : Prop where
  tcs : t.tcs = s.tcs
  noTa : .ta ∉ newEvents s t
  noTr : .tr ∉ newEvents s t

theorem TcsUntouched.of_plain {s t : State} {es : List Event} (htrace : t.trace = s.trace ++ es)
    (hplain : es.all plainEvent = true) (htcs : t.tcs = s.tcs) : TcsUntouched s t := by
  obtain ⟨hta, htr⟩ := marks_not_mem_of_plain hplain
  rw [← newEvents_eq htrace] at hta htr
  exact ⟨htcs, hta, htr⟩

theorem exec_tcsUntouched (i : Instr) (s : State) (hwrite : i ≠ .writeByte) (hread : ∀ q, i ≠ .readByte q)
    (hwm : ∀ a l, i ≠ .writeMessage a l) (hrm : ∀ a l, i ≠ .readMessage a l) :
    ∃ t, exec i s = .next t ∧ TcsUntouched s t := by
  cases i with
  | setDelay | getArbLost | clearArb | reservedOp0 | reservedOp6 | reservedOp7 | reservedOp8 | reservedOp9 | reservedOpA
  | reservedOpB | reservedOpC | reservedOpD | reservedOpE | reservedOpF =>
    exact ⟨_, rfl, .of_plain (es := [.rsp _ _ _]) rfl rfl rfl⟩
  | writeMessage a l => exact absurd rfl (hwm a l)
  | readMessage a l => exact absurd rfl (hrm a l)
  | driveLow l => exact ⟨_, rfl, .of_plain (driveLow_run l s).trace rfl (by cases l <;> rfl)⟩
  | release l => exact ⟨_, rfl, .of_plain (release_run l s).trace rfl (by cases l <;> rfl)⟩
  | readLevel l => exact ⟨_, exec_readLevel l s, .of_plain (sample_run l s).trace rfl (by rw [sample_wait l s]; rfl)⟩
  | delay => exact ⟨_, exec_delay s, .of_plain (delay_run _ s).trace rfl rfl⟩
  | waitBusIdle =>
    obtain ⟨r, lows, last, hexec, _, _, h⟩ := exec_waitBusIdle s
    have htrace := ((release_run .sda s).trans ((release_run .scl _).trans
      (BusRun.trans (es := []) (.regs rfl) h.run))).trace
    exact ⟨_, hexec, .of_plain htrace (by simp [plainEvent]) (by rw [h.wait]; rfl)⟩
  | waitSclHigh =>
    obtain ⟨r, k, hexec, h⟩ := exec_waitSclHigh s
    exact ⟨_, hexec, .of_plain h.run.trace (by simp [plainEvent]) (by rw [h.wait]; rfl)⟩
  | start =>
    obtain ⟨r, lows, last, hexec, h⟩ := exec_start s
    obtain ⟨_, _, _, _, _, htcs⟩ := h.regs
    exact ⟨_, hexec, .of_plain h.run.trace (wireEvents_plain (wire_startEvents ..)) htcs⟩
  | stop =>
    obtain ⟨t, b, hexec, h, _⟩ := exec_stop s
    obtain ⟨_, _, _, _, _, htcs⟩ := h.regs
    exact ⟨t, hexec, .of_plain h.run.trace (wireEvents_plain (wire_stopEvents ..)) htcs⟩
  | writeByte => exact absurd rfl hwrite
  | readByte q => exact absurd rfl (hread q)

/-- WRITE_BYTE and READ_BYTE hold the section from their first event to their last. -/
theorem ByteCase.spans {s t : State} (h : ByteCase s t) :
    t.tcs = false ∧ ∃ es, newEvents s t = .ta :: es ++ [.tr] ∧ .ta ∉ es ∧ .tr ∉ es := by
  cases h with
  | write r e eq spec =>
    subst eq
    exact ⟨spec.tcs, _, newEvents_eq spec.run.trace, marks_not_mem_of_plain (wireEvents_plain (wire_writeEvents ..))⟩
  | read q r e d n eq spec =>
    subst eq
    exact ⟨spec.tcs, _, newEvents_eq spec.run.trace, marks_not_mem_of_plain (wireEvents_plain (wire_readEvents ..))⟩

/-- `es` takes the section from not held to not held, and every acquisition in it has its release before the next one. -/
structure TcsPaired (es : List Event) : Prop where
  skip : ∀ fs, tcsPairs false (es ++ fs) = tcsPairs false fs

theorem TcsPaired.append {es fs : List Event} (h : TcsPaired es) (k : TcsPaired fs) : TcsPaired (es ++ fs) where
  skip gs := by rw [List.append_assoc, h.skip, k.skip]

theorem TcsPaired.plain {es : List Event} (h : es.all plainEvent = true) : TcsPaired es where
  skip fs := tcsPairs_plain false es fs h

theorem TcsPaired.bracketed {es : List Event} (h : es.all wireEvent = true) : TcsPaired ([.ta] ++ es ++ [.tr]) where
  skip fs := by simpa using tcsPairs_section es fs (wireEvents_plain h)

theorem TcsPaired.pairs {es : List Event} (h : TcsPaired es) : tcsPairs false es = true := by
  rw [← List.append_nil es, h.skip]
  rfl

theorem tcsPaired_startEvents (d : Nat) (lows : List (Bool × Bool)) (last : Bool × Bool) :
    TcsPaired (startEvents d lows last) :=
  .plain (wireEvents_plain (wire_startEvents ..))

theorem tcsPaired_writeByteEvents (d : Nat) (v : Byte) (e : WriteEnd) : TcsPaired (writeByteEvents d v e) :=
  .bracketed (wire_writeEvents ..)

theorem tcsPaired_readByteEvents (d : Nat) (q : Bool) (e : ReadEnd) : TcsPaired (readByteEvents d q e) :=
  .bracketed (wire_readEvents ..)

theorem tcsPaired_writeDataEvents (d : Nat) (i : BitVec 16) (bs : List (Byte × WriteEnd)) :
    TcsPaired (writeDataEvents d i bs) := by
  induction bs generalizing i with
  | nil => exact .plain rfl
  | cons b bs ih => exact ((TcsPaired.plain rfl).append (tcsPaired_writeByteEvents ..)).append (ih _)

theorem tcsPaired_readDataEvents (d : Nat) (len i : BitVec 16) (es : List ReadEnd) :
    TcsPaired (readDataEvents d len i es) := by
  induction es generalizing i with
  | nil => exact .plain rfl
  | cons e es ih => exact ((tcsPaired_readByteEvents ..).append (.plain rfl)).append (ih _)

theorem tcsPaired_readLastEvents (d : Nat) (len i : BitVec 16) (last : Option ReadEnd) :
    TcsPaired (readLastEvents d len i last) := by
  cases last with
  | none => exact .plain rfl
  | some e => exact tcsPaired_readByteEvents ..

section
variable {rw : Bool} {addr : BitVec 7} {len : BitVec 16} {s u t : State}

theorem DataSpec.tcsPaired {n : Nat} {r : DataEnd × State} (h : DataSpec rw n u r) :
    ∃ es, Run u r.2 es ∧ TcsPaired es ∧ (u.tcs = false → r.2.tcs = false) := by
  cases rw with
  | false =>
    obtain ⟨bs, last, hd⟩ := h
    exact ⟨_, hd.run.run, tcsPaired_writeDataEvents .., hd.tcs⟩
  | true =>
    obtain ⟨es, last, hd⟩ := h
    exact ⟨_, hd.run.run, (tcsPaired_readDataEvents ..).append (tcsPaired_readLastEvents ..), hd.tcs⟩

/-- STOP and the response leave the section alone. -/
theorem StopSpec.tcsPaired {r : Bool} {b : Option (Nat × Bool)} (h : StopSpec r u t b) :
    ∃ es, Run u t es ∧ TcsPaired es ∧ t.tcs = u.tcs := by
  obtain ⟨_, _, _, _, _, _, _, _, _, htcs⟩ := h.frame
  exact ⟨_, h.run, (TcsPaired.plain (wireEvents_plain (wire_stopEvents ..))).append (.plain rfl), htcs⟩

/-- The address byte acquires and releases the section, and so do the bytes after it. -/
theorem Addressed.tcsPaired {lows : List (Bool × Bool)} {e : WriteEnd} {es : List Event}
    (h : Addressed rw addr len s u lows e) (run : Run u t es) (paired : TcsPaired es) :
    tcsPairs false (newEvents s t) = true ∧ .ta ∈ newEvents s t := by
  rw [newEvents_eq (h.run.trans run).trace]
  exact ⟨(((tcsPaired_startEvents ..).append (tcsPaired_writeByteEvents ..)).append paired).pairs,
    by simp [writeByteEvents]⟩

/-- A message command acquires and releases the section in turn, or it sends no byte. -/
theorem MsgCase.tcs (h : MsgCase rw addr len s t) : tcsPairs false (newEvents s t) = true ∧
    (.ta ∈ newEvents s t ∧ t.tcs = false ∨ .ta ∉ newEvents s t ∧ t.tcs = s.tcs) := by
  cases h with
  | busy lows last h =>
    have hplain : (startEvents s.delayUs.toNat lows last ++ [Event.rsp false Cause.busBusyTimeout.code false]).all
        plainEvent = true := by
      rw [List.all_append, wireEvents_plain (wire_startEvents ..)]
      rfl
    rw [newEvents_eq h.run.trace]
    exact ⟨(TcsPaired.plain hplain).pairs, .inr ⟨(marks_not_mem_of_plain hplain).1, h.engine.1⟩⟩
  | address u lows e b h _ stop =>
    obtain ⟨_, run, paired, htcs⟩ := stop.tcsPaired
    obtain ⟨hpairs, hta⟩ := h.tcsPaired run paired
    exact ⟨hpairs, .inl ⟨hta, htcs.trans h.tcs⟩⟩
  | data u lows e r h _ _ _ data tail =>
    obtain ⟨_, dataRun, dataPaired, dataTcs⟩ := data.tcsPaired
    have ended : ∃ fs, Run r.2 t fs ∧ TcsPaired fs ∧ t.tcs = r.2.tcs := by
      obtain ⟨d, v⟩ := r
      cases d with
      | done =>
        obtain ⟨b, stop⟩ := tail
        exact stop.tcsPaired
      | failed =>
        obtain ⟨b, stop⟩ := tail
        exact stop.tcsPaired
      | stuck =>
        obtain rfl : t = v := tail
        exact ⟨[], (DataRun.refl t).run, .plain rfl, rfl⟩
    obtain ⟨_, endRun, endPaired, endTcs⟩ := ended
    obtain ⟨hpairs, hta⟩ := h.tcsPaired (dataRun.trans endRun) (dataPaired.append endPaired)
    exact ⟨hpairs, .inl ⟨hta, endTcs.trans (dataTcs h.tcs)⟩⟩

end

/-- Settles O34: a byte operation spans its section, a message is made of such spans, and every other operation leaves the
section alone. -/
theorem timingCriticalSectionSpansEachByte : Obligations.TimingCriticalSectionSpansEachByte := by
  intro i s t hexec
  refine ⟨fun hi => (byteCase_of_exec hi hexec).spans, fun ⟨hwrite, hack, hnack, hwm, hrm⟩ => ?_, fun ⟨a, l, hi⟩ => ?_⟩
  · have hread (q : Bool) : i ≠ .readByte q := by cases q <;> assumption
    obtain ⟨u, hu, h⟩ := exec_tcsUntouched i s hwrite hread hwm hrm
    obtain rfl := Host.Outcome.next.inj (hu.symm.trans hexec)
    exact ⟨h.tcs, h.noTa, h.noTr⟩
  · obtain ⟨u, hu, hcase⟩ := exec_message hi s
    obtain rfl := Host.Outcome.next.inj (hu.symm.trans hexec)
    obtain ⟨hpairs, ⟨hmem, htcs⟩ | ⟨hmem, htcs⟩⟩ := hcase.tcs
    · exact ⟨hpairs, fun _ => htcs, fun hno => absurd hmem hno⟩
    · exact ⟨hpairs, fun hta => absurd hta hmem, fun _ => htcs⟩

/-! ### The clock pulses of a message that succeeds (R66) -/

/-- `es` holds `n` whole bytes: it has `n` byte sections, and after a DriveLow(SCL) it makes nine clock pulses for each. -/
structure WholeBytes (n : Nat) (es : List Event) : Prop where
  sections : ∀ fs, (byteSections (es ++ fs)).length = n + (byteSections fs).length
  pulses : ∀ fs, pulsesAfterLow (es ++ fs) = 9 * n + pulsesAfterLow fs

theorem WholeBytes.append {m n : Nat} {es fs : List Event} (h : WholeBytes m es) (k : WholeBytes n fs) :
    WholeBytes (m + n) (es ++ fs) where
  sections gs := by rw [List.append_assoc, h.sections, k.sections, Nat.add_assoc]
  pulses gs := by rw [List.append_assoc, h.pulses, k.pulses, Nat.mul_add, Nat.add_assoc]

theorem WholeBytes.nil : WholeBytes 0 [] := ⟨fun _ => (Nat.zero_add _).symm, fun _ => (Nat.zero_add _).symm⟩

theorem WholeBytes.br (i : BitVec 16) (v : Byte) : WholeBytes 0 [.br i v] :=
  ⟨fun _ => (Nat.zero_add _).symm, fun _ => (Nat.zero_add _).symm⟩

theorem WholeBytes.bw (i : BitVec 16) (v : Byte) : WholeBytes 0 [.bw i v] :=
  ⟨fun _ => (Nat.zero_add _).symm, fun _ => (Nat.zero_add _).symm⟩

/-- A byte that was sent and acknowledged is whole. -/
theorem wholeBytes_writeByteEvents {T : Nat} (d : Nat) {v : Byte} {e : WriteEnd} (h : e.Good T v) :
    WholeBytes 1 (writeByteEvents d v e) where
  sections fs := by rw [byteSections_writeByteEvents, List.length_cons, Nat.add_comm]
  pulses fs := by
    obtain ⟨hok, hresult⟩ := h
    cases e with
    | full ks k sda => exact pulsesAfterLow_full d v ks k sda fs hok
    | ackTimeout | cellTimeout | cellLost => exact nomatch hresult

/-- A byte that was read with its ACK bit is whole. -/
theorem wholeBytes_readByteEvents {T : Nat} (d : Nat) (q : Bool) {e : ReadEnd} (hok : e.Ok T) (hresult : e.result = true) :
    WholeBytes 1 (readByteEvents d q e) where
  sections fs := by rw [byteSections_readByteEvents, List.length_cons, Nat.add_comm]
  pulses fs := by
    cases e with
    | full cs k => exact pulsesAfterLow_readFull d q cs k fs hok
    | ackTimeout | cellTimeout => exact nomatch hresult

theorem wholeBytes_writeDataEvents {T : Nat} (d : Nat) (i : BitVec 16) {bs : List (Byte × WriteEnd)}
    (h : ∀ b ∈ bs, b.2.Good T b.1) : WholeBytes bs.length (writeDataEvents d i bs) := by
  induction bs generalizing i with
  | nil => exact .nil
  | cons b bs ih =>
    obtain ⟨hb, hbs⟩ := List.forall_mem_cons.1 h
    have := ((WholeBytes.br i b.1).append (wholeBytes_writeByteEvents d hb)).append (ih (i + 1#16) hbs)
    rwa [Nat.zero_add, Nat.add_comm] at this

theorem wholeBytes_readDataEvents {T : Nat} (d : Nat) (len i : BitVec 16) {es : List ReadEnd}
    (h : ∀ e ∈ es, e.Ok T ∧ e.result = true) : WholeBytes es.length (readDataEvents d len i es) := by
  induction es generalizing i with
  | nil => exact .nil
  | cons e es ih =>
    obtain ⟨⟨hok, hresult⟩, hes⟩ := List.forall_mem_cons.1 h
    have := ((wholeBytes_readByteEvents d (ackRequest i len) hok hresult).append (.bw i e.data)).append (ih (i + 1#16) hes)
    rwa [Nat.add_zero, Nat.add_comm] at this

/-- A START that found the bus idle leaves SCL driven low, and has made no pulse. -/
theorem clockPulses_startEvents (d : Nat) (lows : List (Bool × Bool)) (es : List Event) :
    clockPulses (startEvents d lows (true, true) ++ es) = pulsesAfterLow es := by
  have hedges : (startEvents d lows (true, true)).filterMap sclEdge = [false, true] := by
    simp [startEvents, sclEdges_cons, sclEdge]
  rw [clockPulses, pulsesAfterLow, List.filterMap_append, hedges]
  rcases es.filterMap sclEdge with _ | ⟨a, rest⟩ <;> simp [pulsesOf]

/-- STOP releases SCL for good, so it makes no pulse. -/
theorem pulsesAfterLow_stopEvents (d : Nat) (b : Option (Nat × Bool)) (r : Bool) (c : BitVec 3) (a : Bool) :
    pulsesAfterLow (stopEvents d b ++ [.rsp r c a]) = 0 := by
  have hedges : (stopEvents d b).filterMap sclEdge = [false] := by
    rcases b with _ | ⟨k, _ | _⟩ <;> simp [stopEvents, sclEdges_cons, sclEdge]
  rw [pulsesAfterLow, List.filterMap_append, hedges]
  rfl

section
variable {rw : Bool} {addr : BitVec 7} {len : BitVec 16} {s t : State}

/-- A message from `s` to `t` that responded 1: its address byte and its data phase, whose events are `mid`, went through, and
STOP followed. -/
structure MsgSuccess (rw : Bool) (addr : BitVec 7) (len : BitVec 16) (s t u w : State) (lows : List (Bool × Bool))
    (e : WriteEnd) (b : Option (Nat × Bool)) (mid : List Event) : Prop where
  addressed : Addressed rw addr len s u lows e
  good : e.result false = true
  run : Run u w mid
  whole : WholeBytes len.toNat mid
  stop : StopSpec true w t b

/-- A data phase that is done consists of whole bytes. -/
theorem DataSpec.wholeBytes {n : Nat} {u w : State} (h : DataSpec rw n u (.done, w)) :
    ∃ mid, Run u w mid ∧ WholeBytes n mid := by
  cases rw with
  | false =>
    obtain ⟨bs, last, hd⟩ := h
    obtain ⟨rfl, rfl⟩ := hd.how
    refine ⟨_, hd.run.run, ?_⟩
    simpa using wholeBytes_writeDataEvents u.delayUs.toNat u.byteIdx hd.good
  | true =>
    obtain ⟨es, last, hd⟩ := h
    obtain ⟨rfl, rfl⟩ := hd.how
    refine ⟨_, hd.run.run, ?_⟩
    simpa [readLastEvents] using wholeBytes_readDataEvents u.delayUs.toNat u.tLen u.byteIdx hd.good

theorem MsgCase.success (h : MsgCase rw addr len s t) (idle : t.busy = false) (ok : t.rspResult = true) :
    ∃ u w lows e b mid, MsgSuccess rw addr len s t u w lows e b mid := by
  cases h with
  | busy lows last h => exact absurd (ok.symm.trans h.responded.rspResult) (by decide)
  | address u lows e b h _ stop => exact absurd (ok.symm.trans stop.responded.rspResult) (by decide)
  | data u lows e r h good idx phase data tail =>
    obtain ⟨d, w⟩ := r
    cases d with
    | done =>
      obtain ⟨b, stop⟩ := tail
      obtain ⟨mid, run, whole⟩ := data.wholeBytes
      exact ⟨u, w, lows, e, b, mid, h, good, run, whole, stop⟩
    | failed =>
      obtain ⟨b, stop⟩ := tail
      exact absurd (ok.symm.trans stop.responded.rspResult) (by decide)
    | stuck =>
      obtain rfl : t = w := tail
      exact absurd ((data.phase.trans phase).symm.trans (busy_eq_false.1 idle).1) (by decide)

/-- The address byte and the data bytes are the whole bytes of a message that succeeds, and STOP adds none. -/
theorem MsgSuccess.bytes {u w : State} {lows : List (Bool × Bool)} {e : WriteEnd} {b : Option (Nat × Bool)}
    {mid : List Event} (h : MsgSuccess rw addr len s t u w lows e b mid) :
    (byteSections (newEvents s t)).length = len.toNat + 1 ∧ clockPulses (newEvents s t) = 9 * (len.toNat + 1) := by
  have whole := (wholeBytes_writeByteEvents s.delayUs.toNat ⟨h.addressed.ok, h.good⟩).append h.whole
  rw [newEvents_eq (h.addressed.run.trans (h.run.trans h.stop.run)).trace, List.append_assoc, ← List.append_assoc _ mid]
  constructor
  · have hstop : byteSections (stopEvents w.delayUs.toNat b ++ [.rsp true w.cause w.arbLost]) = [] :=
      byteSections_plain _ _ (wireEvents_plain (wire_stopEvents ..))
    rw [byteSections_plain _ _ (wireEvents_plain (wire_startEvents ..)), whole.sections, hstop, Nat.add_comm 1]
    rfl
  · rw [clockPulses_startEvents, whole.pulses, pulsesAfterLow_stopEvents, Nat.add_comm 1]
    rfl

end

/-- Settles O49: a message that succeeds is its whole bytes between START and STOP, which make no pulse. -/
theorem successfulMessageMakesNinePulsesPerByte : Obligations.SuccessfulMessageMakesNinePulsesPerByte := by
  intro i addr len s t hi hw hexec idle ok
  obtain ⟨_, hlen⟩ := message_operands hi hw
  obtain ⟨v, hv, hcase⟩ := exec_message hi s
  obtain rfl := Host.Outcome.next.inj (hv.symm.trans hexec)
  obtain ⟨u, w, lows, e, b, mid, h⟩ := hcase.success idle ok
  have hbytes := h.bytes
  rwa [hlen] at hbytes

end Sys2Proof.Machine

/-! PROOFS. The statements about the host commands (44_i2c_master.md): the accessors and the reserved opcodes, the fields a
command reads, and the one response of a command. -/

namespace Sys2Proof.Machine

open Sys2Proof.Laws.EncodesInRange (isCommand)

/-! ### The accessors and the reserved opcodes (R82, R87, R88) -/

/-- Settles O14: the opcode map, and the response with the flag as it is. -/
theorem getArbLostRespondsTheFlag : Obligations.GetArbLostRespondsTheFlag := by
  refine ⟨fun word arg hop => ?_, fun s => rfl⟩
  obtain ⟨_, _, getArbLost, _⟩ := commandFieldsAndOpcodeMap word arg
  exact getArbLost hop

/-- Settles O15: the opcode map, and the response with the flag cleared. -/
theorem clearArbClearsTheFlag : Obligations.ClearArbClearsTheFlag := by
  refine ⟨fun word arg hop => ?_, fun s => rfl⟩
  obtain ⟨_, _, _, clearArb, _⟩ := commandFieldsAndOpcodeMap word arg
  exact clearArb hop

/-- The reserved opcodes (30_encoding.md R38). -/
def reservedOpcodes : List Instr :=
  [.reservedOp0, .reservedOp6, .reservedOp7, .reservedOp8, .reservedOp9, .reservedOpA, .reservedOpB, .reservedOpC,
    .reservedOpD, .reservedOpE, .reservedOpF]

/-- Every reserved opcode is rejected in the same way. -/
theorem exec_reserved {i : Instr} (h : i ∈ reservedOpcodes) (s : State) : exec i s = .next (rejectCommand s) := by
  simp only [reservedOpcodes, List.mem_cons, List.not_mem_nil, or_false] at h
  rcases h with rfl | rfl | rfl | rfl | rfl | rfl | rfl | rfl | rfl | rfl | rfl <;> rfl

/-- Settles O16: rejecting a command raises REJECTED in a cause register that its acceptance has made OK. -/
theorem reservedOpcodesAreRejected : Obligations.ReservedOpcodesAreRejected :=
  fun _ s h => exec_reserved h s

/-! ### The fields a command reads (R83) -/

theorem cmdOp_eq_iff {word : Word} {op : BitVec 4} : cmdOp word = op ↔ word.toNat % 16 = op.toNat := by
  rw [← BitVec.toNat_inj, cmdOp_toNat]

/-- Settles O6: the two commands decode to the same instruction, and the step runs it from the same state. -/
theorem unreadFieldsHaveNoEffect : Obligations.UnreadFieldsHaveNoEffect := by
  intro s word word' arg arg' rest hu hb hr hop harg hfields
  have hdecode : decodeCmd word arg = decodeCmd word' arg' := by
    apply decodeCmd_congr
    · rw [cmdOp_eq_iff, cmdOp_toNat, hop]
    · exact fun h => harg (cmdOp_eq_iff.1 h)
    · intro h
      obtain ⟨haddr, hlen⟩ := hfields (h.imp cmdOp_eq_iff.1 cmdOp_eq_iff.1)
      exact ⟨BitVec.eq_of_toNat_eq (by rw [cmdAddr_toNat, cmdAddr_toNat, haddr]),
        BitVec.eq_of_toNat_eq (by rw [cmdLen_toNat, cmdLen_toNat, hlen])⟩
  have hstep (word arg : Word) : step { s with port := (word, arg) :: rest } =
      underReset (setPort rest s) (exec (decodeCmd word arg) (setPort rest s)) :=
    step_command (s := { s with port := (word, arg) :: rest }) hr hu hb rfl
  rw [hstep, hstep, hdecode]

/-! ### The response of a command (R85) -/

/-- A command from `s` to `t` has responded once, as its last event, with the response registers and `rsp_valid` set. -/
structure RespondedOnce (s t : State) : Prop where
  last : ∃ es, newEvents s t = es ++ [.rsp t.rspResult t.rspErr t.rspArb] ∧ responses es = []
  err : t.rspErr = t.cause
  arb : t.rspArb = t.arbLost
  valid : t.rspValid = true
  inactive : t.active = false

/-- A command whose one event is its response. -/
theorem respondedOnce_respond {s u : State} (h : u.trace = s.trace) (r : Bool) : RespondedOnce s (respond r u) where
  last := ⟨[], newEvents_eq (by rw [← h]; rfl), rfl⟩
  err := rfl
  arb := rfl
  valid := rfl
  inactive := rfl

theorem MsgEnd.respondedOnce {rw : Bool} {addr : BitVec 7} {len : BitVec 16} {s t : State} {r : Bool} {c : BitVec 3}
    {es : List Event} (h : MsgEnd rw addr len s t r c es) : RespondedOnce s t := by
  have hp := h.responded
  exact {
    last := ⟨es, by rw [newEvents_eq h.run.trace, hp.rspResult, hp.rspErr, hp.rspArb], messageEvents_responses h.noRsp⟩
    err := hp.rspErr.trans hp.cause.symm
    arb := hp.rspArb
    valid := hp.rspValid
    inactive := hp.active }

/-- A message command whose host supplies the buffer is not stuck, so it responds. -/
theorem MsgOutcome.respondedOnce {rw : Bool} {addr : BitVec 7} {len : Nat} {s t : State}
    (h : MsgOutcome rw addr (BitVec.ofNat 16 len) s t) (supplied : len ≤ s.bufLen) :
    RespondedOnce s t ∧ (t.rspResult = true ↔ t.rspErr = codeOk) := by
  cases h with
  | ended r c es h => exact ⟨h.respondedOnce, by rw [h.responded.rspResult, h.responded.rspErr]; exact h.ok⟩
  | stuck es h phase short =>
    have hlen : (BitVec.ofNat 16 len).toNat ≤ len := by
      rw [BitVec.toNat_ofNat]
      exact Nat.mod_le ..
    omega

/-- What the response of a host command says. -/
theorem command_respondedOnce {i : Instr} {s t : State} (hcmd : isCommand i = true) (hexec : exec i s = .next t)
    (supplied : ∀ addr len, i = .writeMessage addr len ∨ i = .readMessage addr len → len ≤ s.bufLen) :
    RespondedOnce s t ∧ (i ≠ .getArbLost → (t.rspResult = true ↔ t.rspErr = codeOk)) := by
  have message {addr len : Nat} (hi : i = .writeMessage addr len ∨ i = .readMessage addr len) :
      RespondedOnce s t ∧ (i ≠ .getArbLost → (t.rspResult = true ↔ t.rspErr = codeOk)) := by
    obtain ⟨u, hu, hcase⟩ := exec_message hi s
    obtain rfl := Host.Outcome.next.inj (hu.symm.trans hexec)
    obtain ⟨hresponded, hresult⟩ := hcase.outcome.respondedOnce (supplied addr len hi)
    exact ⟨hresponded, fun _ => hresult⟩
  cases i with
  | writeMessage addr len => exact message (.inl rfl)
  | readMessage addr len => exact message (.inr rfl)
  | setDelay | clearArb =>
    obtain rfl := Host.Outcome.next.inj hexec
    exact ⟨respondedOnce_respond (by rfl) _, fun _ => ⟨fun _ => rfl, fun _ => rfl⟩⟩
  | getArbLost =>
    obtain rfl := Host.Outcome.next.inj hexec
    exact ⟨respondedOnce_respond (by rfl) _, fun f => absurd rfl f⟩
  | reservedOp0 | reservedOp6 | reservedOp7 | reservedOp8 | reservedOp9 | reservedOpA | reservedOpB | reservedOpC
  | reservedOpD | reservedOpE | reservedOpF =>
    obtain rfl := Host.Outcome.next.inj hexec
    exact ⟨respondedOnce_respond (by rfl) _, fun _ => ⟨fun f => (nomatch f), fun f => absurd f (Cause.code_ne_ok .rejected)⟩⟩
  | driveLow | release | readLevel | delay | waitBusIdle | waitSclHigh | start | stop | writeByte | readByte =>
    exact nomatch hcmd

/-- Settles O53: the port carries host commands only. -/
theorem eachCommandRespondsOnceAtItsEnd : Obligations.EachCommandRespondsOnceAtItsEnd := by
  intro word arg i s t hd hexec supplied
  obtain rfl : decodeCmd word arg = i := Except.ok.inj hd
  obtain ⟨h, hresult⟩ := command_respondedOnce (isCommand_decodeCmd word arg) hexec supplied
  exact ⟨h.last, h.err, h.arb, h.valid, h.inactive, hresult⟩

end Sys2Proof.Machine

/-! PROOFS. The statements about how the message commands use the host's buffer (44_i2c_master.md R91): a buffer that is too
short, and a host that races with the block. -/

namespace Sys2Proof.Machine

/-! ### How far a data phase gets -/

theorem toNat_index_of_lt {k : Nat} (h : k < 65536) : (0#16 + BitVec.ofNat 16 k).toNat = k := by
  rw [BitVec.zero_add, BitVec.toNat_ofNat]
  exact Nat.mod_eq_of_lt h

/-- A data phase of `n` bytes ends in `w` as `d` says: all bytes before `byte_idx` are in the buffer, which are all `n` when
it is done, and all of the buffer when it is stuck. -/
structure Reached (n : Nat) (u : State) (d : DataEnd) (w : State) : Prop where
  inside : w.byteIdx.toNat ≤ u.bufLen
  done : d = .done → w.byteIdx.toNat = n
  stuck : d = .stuck → w.byteIdx.toNat = u.bufLen

/-- The first `k` of `n` indices lie in the buffer, and the next is `byte_idx`. -/
theorem Reached.of_count {n k : Nat} {u w : State} {d : DataEnd} (hn : n < 65536) (hk : k ≤ n)
    (idx : w.byteIdx = 0#16 + BitVec.ofNat 16 k) (inside : ∀ j, j < k → (0#16 + BitVec.ofNat 16 j).toNat < u.bufLen)
    (done : d = .done → k = n) (stuck : d = .stuck → ¬ (0#16 + BitVec.ofNat 16 k).toNat < u.bufLen) :
    Reached n u d w := by
  have hidx : w.byteIdx.toNat = k := by rw [idx, toNat_index_of_lt (by omega)]
  have hle : k ≤ u.bufLen := by
    refine Nat.le_of_not_lt fun hlt => Nat.lt_irrefl u.bufLen ?_
    have := inside _ hlt
    rwa [toNat_index_of_lt (by omega)] at this
  refine ⟨hidx ▸ hle, fun f => hidx.trans (done f), fun f => ?_⟩
  have := stuck f
  rw [toNat_index_of_lt (by omega)] at this
  omega

theorem DataSpec.reached {rw : Bool} {n : Nat} {u : State} {r : DataEnd × State} (h : DataSpec rw n u r)
    (idx : u.byteIdx = 0#16) (hn : n < 65536) : Reached n u r.1 r.2 := by
  obtain ⟨d, w⟩ := r
  cases rw with
  | false =>
    obtain ⟨bs, last, hd⟩ := h
    have count := hd.count
    have how := hd.how
    have inside := hd.inside
    have next := hd.byteIdx
    rw [List.length_append] at count inside
    rw [idx] at how inside next
    refine .of_count hn (by omega) next (fun j hj => inside j (by omega)) ?_ ?_
    · rintro rfl
      exact how.1
    · rintro rfl
      exact how.2.2
  | true =>
    obtain ⟨es, last, hd⟩ := h
    have count := hd.count
    have how := hd.how
    have inside := hd.inside
    have next := hd.byteIdx
    simp only [idx, BitVec.toNat_ofNat, Nat.zero_mod, Nat.zero_add] at how inside next
    refine .of_count hn count next (fun j hj => ?_) ?_ ?_
    · rw [toNat_index_of_lt (by omega)]
      exact inside j hj
    · rintro rfl
      exact how.1
    · rintro rfl
      exact how.2.2

/-! ### A buffer that is too short -/

section
variable {rw : Bool} {addr : BitVec 7} {len : BitVec 16} {s u w t : State}

/-- A message from `s` to `t` went through: its address byte, as `e` says, all bytes of its data phase from `u` to `w`, and
STOP. -/
structure MsgDone (rw : Bool) (addr : BitVec 7) (len : BitVec 16) (s t u w : State) (lows : List (Bool × Bool))
    (e : WriteEnd) (b : Option (Nat × Bool)) : Prop where
  addressed : Addressed rw addr len s u lows e
  good : e.result false = true
  idx : u.byteIdx = 0#16
  data : DataSpec rw len.toNat u (.done, w)
  stop : StopSpec true w t b

/-- A message that responds 1 went through. -/
theorem MsgCase.done (h : MsgCase rw addr len s t) (idle : t.busy = false) (ok : t.rspResult = true) :
    ∃ u w lows e b, MsgDone rw addr len s t u w lows e b := by
  cases h with
  | busy lows last h => exact absurd (ok.symm.trans h.responded.rspResult) (by decide)
  | address u lows e b h _ stop => exact absurd (ok.symm.trans stop.responded.rspResult) (by decide)
  | data u lows e r h good idx phase data tail =>
    obtain ⟨d, w⟩ := r
    cases d with
    | done =>
      obtain ⟨b, stop⟩ := tail
      exact ⟨u, w, lows, e, b, h, good, idx, data, stop⟩
    | failed =>
      obtain ⟨b, stop⟩ := tail
      exact absurd (ok.symm.trans stop.responded.rspResult) (by decide)
    | stuck =>
      obtain rfl : t = w := tail
      exact absurd ((data.phase.trans phase).symm.trans (busy_eq_false.1 idle).1) (by decide)

/-- A message between its bytes stands at the end of the buffer. -/
theorem MsgCase.stuck_index (h : MsgCase rw addr len s t) (phase : t.phase = .data) : t.byteIdx.toNat = s.bufLen := by
  have ended {p : Phase} (hp : p = .idle) (hd : p = .data) : t.byteIdx.toNat = s.bufLen :=
    absurd (hp.symm.trans hd) (by decide)
  cases h with
  | busy lows last h => exact ended h.phase phase
  | address u lows e b h _ stop => exact ended stop.phase phase
  | data u lows e r h good idx _ data tail =>
    have reached := data.reached idx len.isLt
    obtain ⟨d, w⟩ := r
    cases d with
    | done =>
      obtain ⟨b, stop⟩ := tail
      exact ended stop.phase phase
    | failed =>
      obtain ⟨b, stop⟩ := tail
      exact ended stop.phase phase
    | stuck =>
      obtain rfl : t = w := tail
      exact (reached.stuck rfl).trans h.run.kept.bufLen

theorem MsgDone.supplied {lows : List (Bool × Bool)} {e : WriteEnd} {b : Option (Nat × Bool)}
    (h : MsgDone rw addr len s t u w lows e b) : len.toNat ≤ s.bufLen := by
  have reached := h.data.reached h.idx len.isLt
  rw [← reached.done rfl, ← h.addressed.run.kept.bufLen]
  exact reached.inside

theorem MsgEnd.answered {r : Bool} {c : BitVec 3} {es : List Event} (h : MsgEnd rw addr len s t r c es) :
    t.Answered r c t.arbLost where
  result := h.responded.rspResult
  err := h.responded.rspErr
  arb := h.responded.rspArb
  valid := h.responded.rspValid
  idle := busy_eq_false.2 ⟨h.phase, h.responded.active⟩

end

/-- Settles O36: a message with too short a buffer does not go through, so it responds 0 or is stuck, and then at the end of
the buffer. -/
theorem shortBufferBlocksTheMessage : Obligations.ShortBufferBlocksTheMessage := by
  intro i addr len s hi hw hshort
  obtain ⟨_, hlen⟩ := message_operands hi hw
  obtain ⟨t, ht, hcase⟩ := exec_message hi s
  refine ⟨t, ht, ?_⟩
  cases hcase.outcome with
  | ended r c es h =>
    cases r with
    | false => exact .inl ⟨c, fun hc => absurd (h.ok.2 hc) (by decide), h.answered⟩
    | true =>
      obtain ⟨u, w, lows, e, b, hdone⟩ := hcase.done h.answered.idle h.answered.result
      have := hdone.supplied
      omega
  | stuck es h phase _ =>
    have hbusy : t.busy = true := by simp [State.busy, phase]
    refine .inr ⟨hbusy, phase, ?_, hcase.stuck_index phase, fun hu hr => ?_⟩
    · rw [newEvents_eq h.run.trace]
      exact messageEvents_responses h.noRsp
    · have waiting := blockWithNothingToRunWaitsOrIsStuck t (h.run.kept.uop.trans hu)
      exact waiting.2.1 hbusy (h.run.kept.rstIn.trans hr)

/-! ### A host that races with the block -/

theorem mem_hostBytes {s : State} {i : BitVec 16} {v : Byte} : v ∈ s.hostBytes i ↔ (i, v) ∈ s.hostWrites := by
  simp [State.hostBytes]

/-- Writes to other indices leave a byte as it is. -/
theorem Memory.read_foldl_write {l : List (BitVec 16 × Byte)} {j : BitVec 16} (hj : ∀ c ∈ l, c.1 ≠ j) {m : Memory}
    (hm : m.wf = true) :
    Memory.read (l.foldl (fun m c => Memory.write m c.1.toNat c.2) m) j.toNat = Memory.read m j.toNat := by
  induction l generalizing m with
  | nil => rfl
  | cons c l ih =>
    obtain ⟨hc, hl⟩ := List.forall_mem_cons.1 hj
    have hne : j.toNat ≠ c.1.toNat := fun e => hc (BitVec.eq_of_toNat_eq e.symm)
    have hwf := Memory.write_wf c.2 (by simpa [Config.bufIndices] using c.1.isLt) m hm
    rw [List.foldl_cons, ih hl hwf, Memory.read_write _ _ _ _ hm, if_neg hne]

/-- The host's last writes leave a byte that it does not write as it is. -/
theorem landHostWrites_read {s : State} {j : BitVec 16} (wf : s.buf.wf = true) (h : s.hostBytes j = []) :
    (landHostWrites s).buf.read j.toNat = s.buf.read j.toNat := by
  refine Memory.read_foldl_write (fun c hc hj => ?_) wf
  subst hj
  exact List.not_mem_nil (h ▸ mem_hostBytes.2 hc)

section
variable {addr : BitVec 7} {len : BitVec 16} {s u t : State}

/-- Each byte that a data phase has stored is left as received or as the host wrote it. -/
theorem ReadDataSpec.stored_or_host {n : Nat} {r : DataEnd × State} {es : List ReadEnd} {last : Option ReadEnd}
    (h : ReadDataSpec n u r es last) (idx : u.byteIdx = 0#16) (hn : n < 65536) (wf : u.buf.wf = true) {j : Nat}
    {e : ReadEnd} (he : es[j]? = some e) :
    (r.2.buf.read (BitVec.ofNat 16 j).toNat = e.data ∨
      (BitVec.ofNat 16 j, r.2.buf.read (BitVec.ofNat 16 j).toNat) ∈ u.hostWrites) ∧
    r.2.hostBytes (BitVec.ofNat 16 j) = [] := by
  have hj : j < es.length := (List.getElem?_eq_some_iff.1 he).1
  have hcount := h.count
  have hidx : (BitVec.ofNat 16 j).toNat = j := by
    rw [← BitVec.zero_add (BitVec.ofNat 16 j), toNat_index_of_lt (by omega)]
  have hzero : u.byteIdx.toNat = 0 := by rw [idx]; rfl
  have hstored := h.stored wf j e he
  rw [hzero, Nat.zero_add, idx, BitVec.zero_add, mem_hostBytes] at hstored
  exact ⟨hidx.symm ▸ hstored, h.storedHost _ (by omega) (by omega)⟩

/-- Each byte READ_MESSAGE wrote is left as received or as the host wrote it. -/
theorem MsgCase.stored_or_host (h : MsgCase true addr len s t) (wf : s.buf.wf = true) {c : BitVec 16 × Byte}
    (hc : c ∈ bufWrites (newEvents s t)) : t.buf.read c.1.toNat = c.2 ∨ (c.1, t.buf.read c.1.toNat) ∈ s.hostWrites := by
  cases h with
  | busy lows last h =>
    have hnone := (noAccess_of_wire (wire_startEvents s.delayUs.toNat lows last)).append
      (.rsp false Cause.busBusyTimeout.code false)
    rw [newEvents_eq h.run.trace, hnone.2] at hc
    exact absurd hc List.not_mem_nil
  | address u lows e b h _ stop =>
    have hnone := ((noAccess_of_wire (wire_startEvents s.delayUs.toNat lows (true, true))).append
      (noAccess_writeByteEvents s.delayUs.toNat (addressByte addr true) e)).append stop.noAccess
    rw [newEvents_eq (h.run.trans stop.run).trace, hnone.2] at hc
    exact absurd hc List.not_mem_nil
  | data u lows e r h good idx phase data tail =>
    obtain ⟨es, last, hd⟩ := data
    obtain ⟨hbuf, hhost, _⟩ := h.buffer
    have hwf := hd.run.bufWf (hbuf ▸ wf)
    have hend : ∃ fs, Run r.2 t fs ∧ NoAccess fs ∧
        ∀ j, r.2.hostBytes j = [] → t.buf.read j.toNat = r.2.buf.read j.toNat := by
      have stopped {v : State} {q : Bool} {b : Option (Nat × Bool)} (stop : StopSpec q v t b) (hv : v.buf.wf = true) :
          ∃ fs, Run v t fs ∧ NoAccess fs ∧ ∀ j, v.hostBytes j = [] → t.buf.read j.toNat = v.buf.read j.toNat :=
        ⟨_, stop.run, stop.noAccess, fun j hj => stop.buf ▸ landHostWrites_read hv hj⟩
      obtain ⟨d, v⟩ := r
      cases d with
      | done =>
        obtain ⟨b, stop⟩ := tail
        exact stopped stop hwf
      | failed =>
        obtain ⟨b, stop⟩ := tail
        exact stopped stop hwf
      | stuck =>
        obtain rfl : t = v := tail
        exact ⟨[], (DataRun.refl t).run, .nil, fun _ _ => rfl⟩
    obtain ⟨fs, hfs, hnone, hread⟩ := hend
    have hwrites : bufWrites (newEvents s t) = es.mapIdx fun j e => (BitVec.ofNat 16 j, e.data) := by
      rw [newEvents_eq (h.run.trans (hd.run.run.trans hfs)).trace]
      simp only [bufWrites_append, (noAccess_of_wire (wire_startEvents _ lows _)).2, (noAccess_writeByteEvents _ _ e).2,
        bufWrites_readDataEvents, (noAccess_readLastEvents _ _ _ last).2, hnone.2, idx, BitVec.zero_add, List.nil_append,
        List.append_nil]
    rw [hwrites] at hc
    obtain ⟨j, hj, rfl⟩ := List.mem_mapIdx.1 hc
    obtain ⟨hstored, hlanded⟩ := hd.stored_or_host idx len.isLt (hbuf ▸ wf) (List.getElem?_eq_getElem hj)
    rw [hhost] at hstored
    rw [hread _ hlanded]
    exact hstored

end

/-- Settles O48: a byte read is an answer of the host, and a byte stored meets the host's own writes to its index at once, of
which none is left for later. -/
theorem hostRacesGiveOneOfTheirValues : Obligations.HostRacesGiveOneOfTheirValues := by
  intro addr len s t
  refine ⟨fun hexec c hc hanswered => ?_, fun hexec wf c hc => ?_⟩
  · obtain ⟨head, bs, tail, tr⟩ := writeMessage_trace hexec
    rw [tr.reads] at hc
    obtain ⟨j, hj, rfl⟩ := List.mem_mapIdx.1 hc
    exact (tr.answers j _ (List.getElem?_eq_getElem hj) hanswered).imp id mem_hostBytes.1
  · obtain ⟨u, hu, hcase⟩ := exec_readMessage addr len s
    obtain rfl := Host.Outcome.next.inj (hu.symm.trans hexec)
    exact hcase.stored_or_host wf hc

end Sys2Proof.Machine

/-! PROOFS. The statements about the bytes of a message on the wire (44_i2c_master.md R90, R92, R93). -/

namespace Sys2Proof.Machine

/-! ### The bytes of a message (30_encoding.md R39) -/

theorem addressByte_toNat (addr : BitVec 7) (rw : Bool) : (addressByte addr rw).toNat = 2 * addr.toNat + rw.toNat := by
  rw [addressByte, BitVec.toNat_append, ← Nat.shiftLeft_add_eq_or_of_lt (BitVec.isLt _), Nat.shiftLeft_eq,
    BitVec.toNat_ofBool]
  omega

theorem addressByte_ofNat {addr : Nat} (h : (BitVec.ofNat 7 addr).toNat = addr) (rw : Bool) :
    addressByte (BitVec.ofNat 7 addr) rw = BitVec.ofNat 8 (2 * addr + rw.toNat) := by
  apply BitVec.eq_of_toNat_eq
  have hlt := (BitVec.ofNat 7 addr).isLt
  have hrw := rw.toNat_lt
  rw [addressByte_toNat, h, BitVec.toNat_ofNat, Nat.mod_eq_of_lt (by omega)]

/-- The bytes WRITE_MESSAGE sends: the address byte and the first `n` bytes of the host's buffer. -/
def messageBytes (first : Byte) (n : Nat) (buf : Memory) : List Byte := first :: (List.range n).map buf.read

/-- The bits on the wire of a byte that is sent in full, its ACK bit released. -/
def sentInFull (v : Byte) : List Bool := wireBits v ++ [true]

/-- The byte sections of bytes that were sent by WRITE_BYTE. -/
def sections (d : Nat) (bs : List (Byte × WriteEnd)) : List (List Event) := bs.map fun b => writeEvents d b.1 b.2

section
variable {T d : Nat} {v : Byte} {e : WriteEnd} {bs : List (Byte × WriteEnd)}

/-- A byte that was acknowledged was sent in full. -/
theorem WriteEnd.Good.full (h : e.Good T v) : e.bits = 8 ∧ e.lastSample = [false] := by
  obtain ⟨hok, hresult⟩ := h
  cases e with
  | full ks k sda =>
    obtain ⟨_, hlen, _⟩ := hok
    cases sda
    · exact ⟨hlen, rfl⟩
    · exact nomatch hresult
  | ackTimeout | cellTimeout | cellLost => exact nomatch hresult

theorem WriteEnd.Good.sentBits (h : e.Good T v) : Machine.sentBits false (writeEvents d v e) = sentInFull v := by
  rw [sentBits_writeEvents false d v e h.1, h.full.1]
  exact List.take_of_length_le (Nat.le_refl 9)

theorem WriteEnd.Good.acknowledged (h : e.Good T v) : (sdaSamples (writeEvents d v e)).getLast? = some false := by
  rw [sdaSamples_writeEvents d h.1, h.full.2, List.getLast?_concat]

theorem sentBits_sections (h : ∀ b ∈ bs, b.2.Good T b.1) :
    (sections d bs).map (sentBits false) = (bs.map (·.1)).map sentInFull := by
  rw [sections, List.map_map, List.map_map]
  exact List.map_congr_left fun b hb => (h b hb).sentBits

theorem acknowledged_sections (h : ∀ b ∈ bs, b.2.Good T b.1) :
    ∀ sec ∈ sections d bs, (sdaSamples sec).getLast? = some false := by
  intro sec hsec
  obtain ⟨b, hb, rfl⟩ := List.mem_map.1 hsec
  exact (h b hb).acknowledged

/-- WRITE_BYTE puts the first bits of its byte on the wire, one at least. -/
theorem sentBits_writeEvents_prefix (h : e.Ok T v) :
    sentBits false (writeEvents d v e) ≠ [] ∧ sentBits false (writeEvents d v e) <+: sentInFull v := by
  rw [sentBits_writeEvents false d v e h]
  exact ⟨by simp [wireBits], List.take_prefix ..⟩

/-- A byte that failed has no ACK sample of 0 after its nine bits. -/
theorem not_acknowledged_of_failed (h : e.Ok T v) (hresult : e.result false = false) :
    ¬ ((sentBits false (writeEvents d v e)).length = 9 ∧ (sdaSamples (writeEvents d v e)).getLast? = some false) := by
  rintro ⟨hbits, hsample⟩
  have hlen : (sentInFull v).length = 9 := rfl
  rw [sentBits_writeEvents false d v e h, List.length_take, ← sentInFull, hlen] at hbits
  rw [sdaSamples_writeEvents d h] at hsample
  cases e with
  | full ks k sda =>
    cases sda
    · exact nomatch hresult
    · rw [WriteEnd.lastSample, List.getLast?_concat] at hsample
      exact nomatch hsample
  | ackTimeout ks k | cellTimeout ks k =>
    rw [WriteEnd.lastSample, List.append_nil, List.getLast?_replicate] at hsample
    split at hsample <;> exact nomatch hsample
  | cellLost ks k =>
    obtain ⟨_, hcells, _⟩ := h
    rw [WriteEnd.bits] at hbits
    omega

end

/-! ### STOP and the response -/

theorem isStop_stopEvents {T d : Nat} {b : Option (Nat × Bool)}
    (bound : ∀ k v, b = some (k, v) → k ≤ T ∧ (v = false → k = T)) : IsStop T d b.isNone (stopEvents d b) := by
  rcases b with _ | ⟨k, v⟩
  · rfl
  · obtain ⟨hbound, hfailed⟩ := bound k v rfl
    cases v with
    | true => exact .inl ⟨k, hbound, by simp [stopEvents]⟩
    | false =>
      obtain rfl := hfailed rfl
      exact .inr (by simp [stopEvents])

theorem byteSections_stop (d : Nat) (b : Option (Nat × Bool)) (r : Bool) (c : BitVec 3) (a : Bool) :
    byteSections (stopEvents d b ++ [.rsp r c a]) = [] :=
  byteSections_plain _ _ (wireEvents_plain (wire_stopEvents ..))

section
variable {rw : Bool} {addr : BitVec 7} {len : BitVec 16} {s u w t : State}

/-- Before the data phase stands START and the address byte. -/
theorem byteSections_addressed (d : Nat) (lows : List (Bool × Bool)) (v : Byte) (e : WriteEnd) (fs : List Event) :
    byteSections (startEvents d lows (true, true) ++ writeByteEvents d v e ++ fs) =
      writeEvents d v e :: byteSections fs := by
  rw [List.append_assoc, byteSections_plain _ _ (wireEvents_plain (wire_startEvents ..)), byteSections_writeByteEvents]

/-- STOP and the response end a message from `u` to `t`. -/
theorem StopSpec.events {r : Bool} {b : Option (Nat × Bool)} (h : StopSpec r u t b) (hd : u.delayUs = s.delayUs) :
    ∃ stop, stop = stopEvents s.delayUs.toNat b ∧ Run u t (stop ++ [.rsp r t.rspErr t.arbLost]) := by
  refine ⟨_, rfl, ?_⟩
  rw [h.responded.rspErr, h.responded.arbLost, ← hd]
  exact h.run

/-- A message that responds 1 answers OK, and it has not lost arbitration. -/
theorem MsgOutcome.success (h : MsgOutcome rw addr len s t) (idle : t.busy = false) (ok : t.rspResult = true) :
    t.Answered true codeOk false ∧ t.arbLost = false ∧ t.released := by
  cases h with
  | ended r c es h =>
    obtain rfl : r = true := h.responded.rspResult.symm.trans ok
    obtain rfl : c = codeOk := h.ok.1 rfl
    have harb : t.arbLost = false := by
      rw [Bool.eq_false_iff, Ne, h.fits.2]
      decide
    exact ⟨harb ▸ h.answered, harb, h.released⟩
  | stuck es h phase short => exact absurd (phase.symm.trans (busy_eq_false.1 idle).1) (by decide)

/-! ### The bytes a WRITE_MESSAGE sends -/

/-- With the host's duties kept a buffer read gives the stored byte (20_memory.md R29). -/
theorem Answers.kept {i : BitVec 16} {v : Byte} (h : Answers s i v) (hh : s.hostWrites = []) (hm : s.misanswers = []) :
    v = s.buf.read i.toNat := by
  have := h (by simp [hm])
  rw [hostBytes_nil hh] at this
  exact this.resolve_right List.not_mem_nil

/-- With the host's duties kept the bytes of a data phase are those of the buffer, in order. -/
theorem WriteDataSpec.bytes {n : Nat} {r : DataEnd × State} {bs : List (Byte × WriteEnd)}
    {last : Option (Byte × WriteEnd)} (h : WriteDataSpec n u r bs last) (idx : u.byteIdx = 0#16) (hn : n < 65536)
    (hh : u.hostWrites = []) (hm : u.misanswers = []) :
    (bs ++ last.toList).map (·.1) = (List.range (bs ++ last.toList).length).map u.buf.read := by
  have hcount := h.count
  apply List.ext_getElem
  · simp
  · intro j hj _
    have hj : j < (bs ++ last.toList).length := by simpa using hj
    have hanswer := (h.answers j _ (List.getElem?_eq_getElem hj)).kept hh hm
    rw [idx, toNat_index_of_lt (by omega)] at hanswer
    rw [List.getElem_map, List.getElem_map, List.getElem_range]
    exact hanswer

/-- The byte sections of a WRITE_MESSAGE that went through. -/
theorem MsgDone.sections {lows : List (Bool × Bool)} {e : WriteEnd} {b : Option (Nat × Bool)}
    (h : MsgDone false addr len s t u w lows e b) (hh : s.hostWrites = []) (hm : s.misanswers = []) :
    ∃ bs, byteSections (newEvents s t) = Machine.sections s.delayUs.toNat bs ∧
      bs.map (·.1) = messageBytes (addressByte addr false) len.toNat s.buf ∧
      ∀ b ∈ bs, b.2.Good s.params.sclStretchTimeoutUs b.1 := by
  obtain ⟨bs, last, hd⟩ := h.data
  obtain ⟨hcount, rfl⟩ := hd.how
  obtain ⟨hbuf, hhost, hmis⟩ := h.addressed.buffer
  have hbytes := hd.bytes h.idx len.isLt (hhost.trans hh) (hmis.trans hm)
  have hrun := hd.run.run
  have hkept := h.addressed.run.kept
  rw [Option.toList_none, List.append_nil] at hbytes hrun
  rw [hcount, hbuf] at hbytes
  refine ⟨(addressByte addr false, e) :: bs, ?_, congrArg _ hbytes, List.forall_mem_cons.2 ⟨⟨h.addressed.ok, h.good⟩, ?_⟩⟩
  · rw [newEvents_eq (h.addressed.run.trans (hrun.trans h.stop.run)).trace, byteSections_addressed,
      byteSections_writeDataEvents, byteSections_stop, List.append_nil, hkept.delayUs]
    rfl
  · rw [← hkept.params]
    exact hd.good

end

/-- Settles O41: a message that responds 1 went through, and its bytes were all acknowledged. -/
theorem successfulWriteSentEveryByte : Obligations.SuccessfulWriteSentEveryByte := by
  intro addr len s t hw hexec idle ok hh hm
  obtain ⟨haddr, hlen⟩ := message_operands (.inl rfl) hw
  obtain ⟨v, hv, hcase⟩ := exec_writeMessage addr len s
  obtain rfl := Host.Outcome.next.inj (hv.symm.trans hexec)
  obtain ⟨u, w, lows, e, b, hdone⟩ := hcase.done idle ok
  obtain ⟨bs, hsec, hbytes, good⟩ := hdone.sections hh hm
  rw [hlen, addressByte_ofNat haddr] at hbytes
  obtain ⟨answered, harb, _⟩ := hcase.outcome.success idle ok
  rw [hsec, sentBits_sections good, hbytes]
  exact ⟨rfl, acknowledged_sections good, answered.err, harb⟩

/-! ### The bytes of a WRITE_MESSAGE that failed -/

theorem writeDataEvents_concat (d : Nat) (i : BitVec 16) (bs : List (Byte × WriteEnd)) (b : Byte × WriteEnd) :
    writeDataEvents d i (bs ++ [b]) =
      writeDataEvents d i bs ++ [.br (i + BitVec.ofNat 16 bs.length) b.1] ++ writeByteEvents d b.1 b.2 := by
  induction bs generalizing i with
  | nil => simp [writeDataEvents]
  | cons c bs ih => simp [writeDataEvents, ih, bv16_shift]

section
variable {addr : BitVec 7} {len : BitVec 16} {s u t : State}

/-- A WRITE_MESSAGE of `bytes` from `s` to `t` sent `sent` in full, in the events `es`; byte `v` failed as `e` says; and STOP
followed with branch `b`. -/
structure WriteFailure (bytes : List Byte) (s t : State) (sent : List (Byte × WriteEnd)) (v : Byte) (e : WriteEnd)
    (es : List Event) (b : Option (Nat × Bool)) : Prop where
  events : newEvents s t =
    es ++ (writeByteEvents s.delayUs.toNat v e ++ (stopEvents s.delayUs.toNat b ++ [.rsp false t.rspErr t.arbLost]))
  before : ∀ fs, byteSections (es ++ fs) = sections s.delayUs.toNat sent ++ byteSections fs
  reads : (bufReads es).length = sent.length
  order : sent.map (·.1) ++ [v] <+: bytes
  good : ∀ b ∈ sent, b.2.Good s.params.sclStretchTimeoutUs b.1
  ok : e.Ok s.params.sclStretchTimeoutUs v
  failed : e.result false = false
  branch : b.isNone = t.arbLost
  bound : ∀ k v, b = some (k, v) → k ≤ s.params.sclStretchTimeoutUs ∧ (v = false → k = s.params.sclStretchTimeoutUs)

theorem MsgCase.writeFailure (h : MsgCase false addr len s t) (idle : t.busy = false) (ok : t.rspResult = false)
    (started : t.rspErr ≠ Cause.busBusyTimeout.code) (hh : s.hostWrites = []) (hm : s.misanswers = []) :
    ∃ sent v e es b, WriteFailure (messageBytes (addressByte addr false) len.toNat s.buf) s t sent v e es b := by
  cases h with
  | busy lows last h => exact absurd h.responded.rspErr started
  | address u lows e b h bad stop =>
    have hkept := h.run.kept
    obtain ⟨_, rfl, hstop⟩ := stop.events hkept.delayUs
    refine ⟨[], _, e, startEvents s.delayUs.toNat lows (true, true), b, {
      events := ?_
      before := fun fs => byteSections_plain _ _ (wireEvents_plain (wire_startEvents ..))
      reads := congrArg List.length (noAccess_of_wire (wire_startEvents ..)).1
      order := ⟨_, rfl⟩
      good := fun _ hb => absurd hb List.not_mem_nil
      ok := h.ok
      failed := bad
      branch := stop.branch.trans stop.responded.arbLost.symm
      bound := hkept.params ▸ stop.bound }⟩
    rw [newEvents_eq (h.run.trans hstop).trace, List.append_assoc]
  | data u lows e r h good idx phase data tail =>
    obtain ⟨bs, last, hd⟩ := data
    obtain ⟨hbuf, hhost, hmis⟩ := h.buffer
    have hkept := h.run.kept
    have hparams := hkept.params
    have hbytes := hd.bytes idx len.isLt (hhost.trans hh) (hmis.trans hm)
    have hcount := hd.count
    have hrun := hd.run
    have hphase := hrun.frame
    have how := hd.how
    have hbad := hd.bad
    have hgood := hd.good
    rw [hparams] at hgood hbad
    rw [idx, hkept.delayUs] at hrun
    obtain ⟨d, w⟩ := r
    cases d with
    | done =>
      obtain ⟨b, stop⟩ := tail
      exact absurd (ok.symm.trans stop.responded.rspResult) (by decide)
    | stuck =>
      obtain rfl : t = w := tail
      have : t.phase = .data := (DataSpec.phase (rw := false) ⟨bs, last, hd⟩).trans phase
      exact absurd (this.symm.trans (busy_eq_false.1 idle).1) (by decide)
    | failed =>
      obtain ⟨b, stop⟩ := tail
      obtain ⟨v, rfl⟩ := Option.isSome_iff_exists.1 how.2
      obtain ⟨_, rfl, hstop⟩ := stop.events (hrun.delayUs.trans hkept.delayUs)
      obtain ⟨hok, hfailed⟩ := hbad v rfl
      rw [Option.toList_some] at hbytes hcount hrun
      refine ⟨(addressByte addr false, e) :: bs, v.1, v.2, startEvents s.delayUs.toNat lows (true, true) ++
        writeByteEvents s.delayUs.toNat (addressByte addr false) e ++ (writeDataEvents s.delayUs.toNat 0#16 bs ++
          [.br (0#16 + BitVec.ofNat 16 bs.length) v.1]), b, {
        events := ?_
        before := fun fs => ?_
        reads := ?_
        order := ?_
        good := List.forall_mem_cons.2 ⟨⟨h.ok, good⟩, hgood⟩
        ok := hok
        failed := hfailed
        branch := stop.branch.trans stop.responded.arbLost.symm
        bound := hparams ▸ hrun.params ▸ stop.bound }⟩
      · rw [newEvents_eq (h.run.trans (hrun.run.trans hstop)).trace, writeDataEvents_concat]
        simp only [List.append_assoc]
      · rw [List.append_assoc, byteSections_addressed, List.append_assoc, byteSections_writeDataEvents,
          byteSections_plain _ _ rfl]
        rfl
      · simp only [bufReads_append, (noAccess_of_wire (wire_startEvents ..)).1, (noAccess_writeByteEvents ..).1,
          bufReads_writeDataEvents, List.nil_append, List.length_append, List.length_mapIdx]
        rfl
      · have hle : (bs ++ [v]).length ≤ len.toNat := hcount
        have hprefix : (bs ++ [v]).map (·.1) <+: (List.range len.toNat).map u.buf.read := by
          rw [hbytes, ← Nat.min_eq_left hle, ← List.take_range]
          exact (List.take_prefix ..).map _
        rw [hbuf] at hprefix
        simpa [messageBytes] using hprefix

variable {bytes : List Byte} {sent : List (Byte × WriteEnd)} {v : Byte} {e : WriteEnd} {es : List Event}
  {b : Option (Nat × Bool)}

theorem WriteFailure.isStop (h : WriteFailure bytes s t sent v e es b) :
    IsStop s.params.sclStretchTimeoutUs s.delayUs.toNat t.arbLost (stopEvents s.delayUs.toNat b) :=
  h.branch ▸ isStop_stopEvents h.bound

/-- The failing byte comes after those that were sent, which are the first of the message. -/
theorem WriteFailure.position (h : WriteFailure bytes s t sent v e es b) :
    bytes[sent.length]? = some v ∧ sent.map (·.1) = bytes.take sent.length := by
  obtain ⟨rest, rfl⟩ := h.order
  have hlen : (sent.map (·.1)).length = sent.length := List.length_map ..
  rw [← hlen]
  simp

/-- The byte sections before the failing byte. -/
theorem WriteFailure.sections_before (h : WriteFailure bytes s t sent v e es b) :
    byteSections es = sections s.delayUs.toNat sent := by
  have := h.before []
  rwa [List.append_nil, show byteSections [] = [] from rfl, List.append_nil] at this

theorem WriteFailure.sections_all (h : WriteFailure bytes s t sent v e es b) :
    byteSections (newEvents s t) = byteSections es ++ [writeEvents s.delayUs.toNat v e] := by
  rw [h.events, h.before, h.sections_before, byteSections_writeByteEvents, byteSections_stop]

/-- There is one buffer read for each byte of the message but the address byte. -/
theorem WriteFailure.reads_all (h : WriteFailure bytes s t sent v e es b) :
    (bufReads (newEvents s t)).length = sent.length := by
  rw [h.events]
  simp only [bufReads_append, (noAccess_writeByteEvents ..).1, (noAccess_of_wire (wire_stopEvents ..)).1,
    List.nil_append, List.length_append, h.reads]
  rfl

end

/-- Settles O42: the failing byte is the address byte or a data byte (`WriteFailure`). -/
theorem failedWriteStopsAtTheFailingByte : Obligations.FailedWriteStopsAtTheFailingByte := by
  intro addr len s t hw hexec idle ok started hh hm
  obtain ⟨haddr, hlen⟩ := message_operands (.inl rfl) hw
  obtain ⟨x, hx, hcase⟩ := exec_writeMessage addr len s
  obtain rfl := Host.Outcome.next.inj (hx.symm.trans hexec)
  obtain ⟨sent, v, e, es, b, h⟩ := hcase.writeFailure idle ok started hh hm
  rw [hlen, addressByte_ofNat haddr] at h
  obtain ⟨hv, hsent⟩ := h.position
  obtain ⟨hsome, hprefix⟩ := sentBits_writeEvents_prefix (d := s.delayUs.toNat) h.ok
  have hcount : sent.length ≤ len := by
    have := (List.getElem?_eq_some_iff.1 hv).1
    simp only [messageBytes, List.length_cons, List.length_map, List.length_range] at this
    omega
  refine ⟨sent.length, v, writeEvents s.delayUs.toNat v e, es, stopEvents s.delayUs.toNat b, hcount, hv, hsome, hprefix,
    not_acknowledged_of_failed h.ok h.failed, h.reads_all, h.sections_all, ?_, ?_, ?_, h.isStop⟩
  · rw [h.events]
    simp [writeByteEvents]
  · rw [h.sections_before, sentBits_sections h.good, hsent]
    rfl
  · rw [h.sections_before]
    exact acknowledged_sections h.good

/-! ### The bytes a READ_MESSAGE reads -/

/-- The master requests an ACK for every byte but the last (R92). -/
theorem ackRequest_ofNat {j : Nat} {len : BitVec 16} (hj : j < len.toNat) :
    ackRequest (BitVec.ofNat 16 j) len = !decide (j + 1 = len.toNat) := by
  have := len.isLt
  rw [ackRequest, BitVec.toNat_ofNat, Nat.mod_eq_of_lt (by omega), ← decide_not, decide_eq_decide]
  omega

/-- A byte that was read was clocked with its ACK bit. -/
theorem sentBits_readEvents_of_result {T : Nat} (d : Nat) (q : Bool) {e : ReadEnd} (hok : e.Ok T)
    (hresult : e.result = true) : sentBits false (readEvents d q e) = List.replicate 8 true ++ [!q] := by
  cases e with
  | full cs k =>
    obtain ⟨_, hlen, _⟩ := hok
    rw [sentBits_readEvents_full, hlen]
  | ackTimeout | cellTimeout => exact nomatch hresult

/-- The byte sections of the data phase of a READ_MESSAGE (`ackRequest`: R92). -/
def readSections (d : Nat) (len : BitVec 16) (es : List ReadEnd) : List (List Event) :=
  es.mapIdx fun j e => readEvents d (ackRequest (BitVec.ofNat 16 j) len) e

section
variable {addr : BitVec 7} {len : BitVec 16} {s t u w : State}

/-- The byte sections of a READ_MESSAGE that went through, and the bytes it stored. -/
structure ReadDone (s t : State) (len : BitVec 16) (first : Byte) (e : WriteEnd) (es : List ReadEnd) : Prop where
  sections : byteSections (newEvents s t) = writeEvents s.delayUs.toNat first e :: readSections s.delayUs.toNat len es
  address : e.Good s.params.sclStretchTimeoutUs first
  count : es.length = len.toNat
  good : ∀ e ∈ es, e.Ok s.params.sclStretchTimeoutUs ∧ e.result = true
  stored : ∀ j e, es[j]? = some e → t.buf.read j = e.data

theorem MsgDone.readDone {lows : List (Bool × Bool)} {e : WriteEnd} {b : Option (Nat × Bool)}
    (h : MsgDone true addr len s t u w lows e b) (wf : s.buf.wf = true) (hh : s.hostWrites = []) :
    ∃ es, ReadDone s t len (addressByte addr true) e es := by
  obtain ⟨es, last, hd⟩ := h.data
  obtain ⟨hcount, rfl⟩ := hd.how
  obtain ⟨hbuf, hhost, _⟩ := h.addressed.buffer
  obtain ⟨_, _, htl⟩ := h.addressed.latch
  have hkept := h.addressed.run.kept
  refine ⟨es, ?_, ⟨h.addressed.ok, h.good⟩, hcount, hkept.params ▸ hd.good, fun j e he => ?_⟩
  · rw [newEvents_eq (h.addressed.run.trans (hd.run.run.trans h.stop.run)).trace, byteSections_addressed,
      List.append_assoc, byteSections_readDataEvents, readLastEvents, List.nil_append, byteSections_stop,
      List.append_nil, hkept.delayUs, htl, h.idx]
    simp only [BitVec.zero_add, readSections]
  · have hstored := hd.stored (hbuf ▸ wf) j e he
    have hzero : u.byteIdx.toNat = 0 := by rw [h.idx]; rfl
    rw [hostBytes_nil (hhost.trans hh), hzero, Nat.zero_add] at hstored
    rw [h.stop.buf, landHostWrites_noHost (hd.noHost (hhost.trans hh))]
    exact hstored.resolve_right List.not_mem_nil

variable {first : Byte} {e : WriteEnd} {es : List ReadEnd}

/-- The samples of SDA in each byte are the bits of the byte stored. -/
theorem ReadDone.samples (h : ReadDone s t len first e es) :
    (readSections s.delayUs.toNat len es).map sdaSamples =
      (List.range len.toNat).map fun i => wireBits (t.buf.read i) := by
  apply List.ext_getElem
  · simp [readSections, h.count]
  · intro j hj _
    have hj : j < es.length := by simpa [readSections] using hj
    obtain ⟨hok, hresult⟩ := h.good _ (List.getElem_mem hj)
    simp [readSections, sdaSamples_readEvents, h.stored j _ (List.getElem?_eq_getElem hj),
      ReadEnd.wireBits_data hok hresult]

/-- The master releases SDA in each data bit and ACKs each byte but the last. -/
theorem ReadDone.sent (h : ReadDone s t len first e es) :
    (readSections s.delayUs.toNat len es).map (sentBits false) =
      (List.range len.toNat).map fun i => List.replicate 8 true ++ [decide (i + 1 = len.toNat)] := by
  apply List.ext_getElem
  · simp [readSections, h.count]
  · intro j hj _
    have hj : j < es.length := by simpa [readSections] using hj
    obtain ⟨hok, hresult⟩ := h.good _ (List.getElem_mem hj)
    simp only [readSections, List.getElem_map, List.getElem_mapIdx, List.getElem_range,
      sentBits_readEvents_of_result _ _ hok hresult, ackRequest_ofNat (h.count ▸ hj), Bool.not_not]

end

/-- Settles O45: a message that responds 1 went through, and each byte it read is in the buffer. -/
theorem successfulReadStoredEveryByte : Obligations.SuccessfulReadStoredEveryByte := by
  intro addr len s t hw hexec idle ok wf hh
  obtain ⟨haddr, hlen⟩ := message_operands (.inr rfl) hw
  obtain ⟨v, hv, hcase⟩ := exec_readMessage addr len s
  obtain rfl := Host.Outcome.next.inj (hv.symm.trans hexec)
  obtain ⟨u, w, lows, e, b, hdone⟩ := hcase.done idle ok
  obtain ⟨es, h⟩ := hdone.readDone wf hh
  have hsamples := h.samples
  have hsent := h.sent
  rw [hlen] at hsamples hsent
  rw [addressByte_ofNat haddr] at h
  exact ⟨_, _, h.sections, h.address.sentBits, h.address.acknowledged, hsamples, hsent⟩

end Sys2Proof.Machine

/-! PROOFS. The statements about messages on a bus that serves them (44_i2c_master.md R89, R90; 70_reset_and_hazards.md R129):
no device stretches SCL, and the addressed device answers. -/

namespace Sys2Proof.Machine

/-- A command has come to `s` on a bus that serves it: it has not lost arbitration, a delay step takes `d` microseconds,
the other devices' coming answers are `sda` and `scl`, and model time is `now`. -/
structure Served (d : Nat) (s : State) (sda scl : List Bool) (now : Nat) : Prop where
  flag : s.arbLost = false
  delay : s.delayUs.toNat = d
  sda : s.extSda = sda
  scl : s.extScl = scl
  time : s.nowUs = now

section
variable {d now : Nat} {s : State} {sda scl : List Bool} {held : Bool}

/-! ### The operations of the sub-blocks -/

theorem Served.after_driveLow (l : Line) (h : Served d s sda scl now) : Served d (driveLow l s) sda scl now := by
  cases l <;> exact ⟨h.flag, h.delay, h.sda, h.scl, h.time⟩

theorem Served.after_release (l : Line) (h : Served d s sda scl now) : Served d (release l s) sda scl now := by
  cases l <;> exact ⟨h.flag, h.delay, h.sda, h.scl, h.time⟩

theorem Served.after_setLine (l : Line) (b : Bool) (h : Served d s sda scl now) :
    Served d (setLine l b s) sda scl now := by
  cases b
  · exact h.after_driveLow l
  · exact h.after_release l

theorem Served.after_delayStep (h : Served d s sda scl now) : Served d (delayStep s) sda scl (now + d) :=
  ⟨h.flag, h.delay, h.sda, h.scl, by rw [← h.time, ← h.delay]; rfl⟩

/-- The state after a sample of a released line for which the script's next answer is `held`. -/
def sampled (l : Line) (held : Bool) (s : State) : State := emit (.sm l (!held)) (setExt l (s.ext l).tail s)

theorem sample_scripted {l : Line} {rest : List Bool} (hrel : s.drv l = false) (hext : s.ext l = held :: rest) :
    sample l s = (!held, sampled l held s) := by
  rw [sample, drawExt_scripted hext, hrel, sampled, hext]
  rfl

theorem Served.after_sample_sda (h : Served d s (held :: sda) scl now) (hrel : s.sdaDrv = false) :
    sample .sda s = (!held, sampled .sda held s) ∧ Served d (sampled .sda held s) sda scl now :=
  ⟨sample_scripted (l := .sda) hrel h.sda, h.flag, h.delay, congrArg List.tail h.sda, h.scl, h.time⟩

/-- The state after WAIT_SCL_HIGH of a released SCL that no other device holds. -/
def waited (s : State) : State := sampled .scl false (setWaitElapsed 0 s)

theorem Served.after_waitSclHigh (h : Served d s sda (false :: scl) now) (hrel : s.sclDrv = false) :
    waitSclHigh s = (true, waited s) ∧ Served d (waited s) sda scl now := by
  have hsample : sample .scl (setWaitElapsed 0 s) = (true, waited s) :=
    sample_scripted (s := setWaitElapsed 0 s) (l := .scl) hrel h.scl
  refine ⟨?_, h.flag, h.delay, h.sda, congrArg List.tail h.scl, h.time⟩
  rw [waitSclHigh, sclHighLoop_high _ (by rw [hsample]), hsample]

/-! ### WRITE_BYTE -/

theorem Served.after_arbitrate (h : Served d s ((if s.curBit then [false] else []) ++ sda) scl now)
    (hrel : s.curBit = true → s.sdaDrv = false) :
    (arbitrate s).1 = .done ∧ Served d (arbitrate s).2 sda scl now := by
  unfold arbitrate
  cases hb : s.curBit with
  | false =>
    rw [hb] at h
    exact ⟨rfl, h.flag, h.delay, h.sda, h.scl, h.time⟩
  | true =>
    rw [hb] at h
    obtain ⟨hsample, hnext⟩ := h.after_sample_sda (hrel hb)
    simp only [if_true, hsample]
    exact ⟨rfl, hnext.flag, hnext.delay, hnext.sda, hnext.scl, hnext.time⟩

/-- A data bit cell samples SDA when its bit is 1. -/
theorem Served.after_writeCell
    (h : Served d s ((if wireBit s.txByte s.bitCnt then [false] else []) ++ sda) (false :: scl) now) :
    (writeCell s).1 = .done ∧ Served d (writeCell s).2 sda scl (now + 2 * d) := by
  have hset : Served d (setCurBit (wireBit s.txByte s.bitCnt) s) _ _ now := ⟨h.flag, h.delay, h.sda, h.scl, h.time⟩
  obtain ⟨hwait, hnext⟩ := ((((hset.after_driveLow .scl).after_setLine .sda (wireBit s.txByte s.bitCnt)).after_delayStep
    ).after_release .scl).after_waitSclHigh rfl
  unfold writeCell
  simp only [hwait, if_true]
  rw [Nat.two_mul, ← Nat.add_assoc]
  generalize wireBit s.txByte s.bitCnt = b at hnext ⊢
  refine Served.after_arbitrate ?_ ?_
  · have hcur : (delayStep (waited (release .scl (delayStep (setLine .sda b (driveLow .scl (setCurBit b s))))))).curBit =
        b := by cases b <;> rfl
    rw [hcur]
    exact hnext.after_delayStep
  · cases b
    · exact fun f => nomatch f
    · exact fun _ => rfl

/-- The answers at the data bits of value 1: SDA is not held. -/
theorem oneBitAnswers_cons (b : Bool) (bs : List Bool) : List.replicate ((b :: bs).count true) false =
    (if b then [false] else []) ++ List.replicate (bs.count true) false := by
  cases b <;> simp [List.replicate_succ]

theorem Served.after_writeCells (k : Nat) (h : Served d s
      (List.replicate (((List.range' s.bitCnt k).map (wireBit s.txByte)).count true) false ++ sda)
      (List.replicate k false ++ scl) now) :
    (writeCells k s).1 = .done ∧ Served d (writeCells k s).2 sda scl (now + k * (2 * d)) := by
  induction k generalizing s now with
  | zero => exact ⟨rfl, by simpa [writeCells] using h⟩
  | succ k ih =>
    rw [List.range'_succ, List.map_cons, oneBitAnswers_cons, List.append_assoc] at h
    obtain ⟨hdone, hnext⟩ := h.after_writeCell
    obtain ⟨_, hcell⟩ := writeCell_end s
    have hbit := hcell.bitCnt
    rw [if_pos hdone] at hbit
    rw [← hcell.txByte, ← hbit] at hnext
    unfold writeCells
    simp only [hdone, if_true]
    rw [Nat.add_mul, Nat.one_mul, Nat.add_comm (k * _), ← Nat.add_assoc]
    exact ih hnext

theorem Served.after_receiveAck (h : Served d s (true :: sda) (false :: scl) now) :
    (receiveAck s).1 = true ∧ (receiveAck s).2.ack = true ∧ Served d (receiveAck s).2 sda scl (now + d) := by
  obtain ⟨hwait, hwaited⟩ := ((h.after_release .sda).after_release .scl).after_waitSclHigh rfl
  obtain ⟨hsample, hnext⟩ := hwaited.after_delayStep.after_sample_sda rfl
  unfold receiveAck
  simp only [hwait, if_true, hsample]
  exact ⟨trivial, rfl, hnext.flag, hnext.delay, hnext.sda, hnext.scl, hnext.time⟩

/-- The answers of SDA to a byte that the addressed device acknowledges. -/
def ackingAnswers (v : Byte) : List Bool := List.replicate ((wireBits v).count true) false ++ [true]

theorem Served.after_writeByte (v : Byte)
    (h : Served d s (ackingAnswers v ++ sda) (List.replicate 9 false ++ scl) now) :
    (writeByte v s).1 = true ∧ Served d (writeByte v s).2 sda scl (now + 17 * d) := by
  have hstart : Served d (setBitCnt 0 (setTxByte v (acquireTcs s)))
      (List.replicate (((List.range' 0 8).map (wireBit v)).count true) false ++ true :: sda)
      (List.replicate 8 false ++ false :: scl) now :=
    ⟨h.flag, h.delay, h.sda.trans (List.append_assoc ..), h.scl, h.time⟩
  obtain ⟨hdone, hcells⟩ := hstart.after_writeCells
  obtain ⟨hclocked, hack, hnext⟩ := hcells.after_receiveAck
  unfold writeByte
  simp only [hdone, hclocked, if_true]
  generalize receiveAck _ = a at hack hnext ⊢
  rw [writeResult, show (releaseTcs a.2).ack = true from hack, if_pos rfl]
  refine ⟨congrArg not hnext.flag, hnext.flag, hnext.delay, hnext.sda, hnext.scl, ?_⟩
  have htime : a.2.nowUs = _ := hnext.time
  show a.2.nowUs = _
  omega

/-! ### READ_BYTE -/

theorem Served.after_readCell (h : Served d s (held :: sda) (false :: scl) now) :
    (readCell s).1 = .done ∧ (readCell s).2.rxAcc = shiftIn s.rxAcc (!held) ∧
      Served d (readCell s).2 sda scl (now + 2 * d) := by
  obtain ⟨hwait, hwaited⟩ :=
    (((h.after_driveLow .scl).after_release .sda).after_delayStep.after_release .scl).after_waitSclHigh rfl
  obtain ⟨hsample, hnext⟩ := hwaited.after_delayStep.after_sample_sda rfl
  unfold readCell
  simp only [hwait, if_true, hsample]
  have hacc : (sampled .sda held (delayStep (waited (release .scl (delayStep (release .sda (driveLow .scl s))))))).rxAcc =
      s.rxAcc := by simp [sampled, waited, delayStep, release, driveLow]
  generalize sampled .sda held _ = u at hnext hacc ⊢
  rw [Nat.two_mul, ← Nat.add_assoc, ← hacc]
  exact ⟨trivial, rfl, hnext.flag, hnext.delay, hnext.sda, hnext.scl, hnext.time⟩

/-- The samples of the data bits are shifted in. -/
theorem Served.after_readCells (bits : List Bool)
    (h : Served d s (bits.map (!·) ++ sda) (List.replicate bits.length false ++ scl) now) :
    (readCells bits.length s).1 = .done ∧ (readCells bits.length s).2.rxAcc = bits.foldl shiftIn s.rxAcc ∧
      Served d (readCells bits.length s).2 sda scl (now + bits.length * (2 * d)) := by
  induction bits generalizing s now with
  | nil => exact ⟨rfl, rfl, by simpa [readCells] using h⟩
  | cons b bits ih =>
    obtain ⟨hdone, hacc, hnext⟩ := h.after_readCell
    rw [Bool.not_not] at hacc
    rw [List.length_cons, readCells]
    simp only [hdone, if_true]
    rw [Nat.add_mul, Nat.one_mul, Nat.add_comm (bits.length * _), ← Nat.add_assoc, List.foldl_cons, ← hacc]
    exact ih hnext

theorem Served.after_sendAck (q : Bool) (h : Served d s sda (false :: scl) now) :
    (sendAck q s).1 = true ∧ Served d (sendAck q s).2 sda scl (now + d) := by
  obtain ⟨hwait, hnext⟩ := ((h.after_setLine .sda (!q)).after_release .scl).after_waitSclHigh rfl
  unfold sendAck
  simp only [hwait, if_true]
  exact ⟨trivial, (hnext.after_delayStep.after_driveLow .scl).after_release .sda⟩

theorem wireBits_injective {v w : Byte} (h : wireBits v = wireBits w) : v = w := by
  simp only [wireBits, List.cons.injEq, and_true] at h
  obtain ⟨h7, h6, h5, h4, h3, h2, h1, h0⟩ := h
  refine BitVec.eq_of_getLsbD_eq fun i hi => ?_
  match i, hi with
  | 0, _ => exact h0
  | 1, _ => exact h1
  | 2, _ => exact h2
  | 3, _ => exact h3
  | 4, _ => exact h4
  | 5, _ => exact h5
  | 6, _ => exact h6
  | 7, _ => exact h7

theorem shiftIn_wireBits (v : Byte) : (wireBits v).foldl shiftIn 0#8 = v :=
  wireBits_injective (wireBits_shiftIn _ rfl)

/-- The answers of SDA to a READ_BYTE in which the addressed device sends `v`. -/
def sendingAnswers (v : Byte) : List Bool := (wireBits v).map (!·)

theorem Served.after_readByte (q : Bool) (v : Byte)
    (h : Served d s (sendingAnswers v ++ sda) (List.replicate 9 false ++ scl) now) :
    (readByte q s).1 = true ∧ (readByte q s).2.rxAcc = v ∧ Served d (readByte q s).2 sda scl (now + 17 * d) := by
  have hstart : Served d (setBitCnt 0 (setRxAcc 0#8 (acquireTcs s))) ((wireBits v).map (!·) ++ sda)
      (List.replicate (wireBits v).length false ++ false :: scl) now := ⟨h.flag, h.delay, h.sda, h.scl, h.time⟩
  obtain ⟨hdone, hacc, hcells⟩ := hstart.after_readCells
  obtain ⟨_, _, _, _, hkept, _⟩ := sendAck_end q (readCells 8 (setBitCnt 0 (setRxAcc 0#8 (acquireTcs s)))).2
  obtain ⟨hclocked, hnext⟩ := hcells.after_sendAck q
  have hlen : (wireBits v).length = 8 := rfl
  rw [hlen] at hdone hacc hclocked hnext
  unfold readByte
  simp only [hdone, if_true, hclocked]
  have htime : now + 8 * (2 * d) + d = now + 17 * d := by omega
  rw [htime] at hnext
  generalize readCells 8 _ = c at hacc hkept hnext ⊢
  generalize sendAck q c.2 = a at hkept hnext ⊢
  exact ⟨trivial, hkept.trans (hacc.trans (shiftIn_wireBits v)), hnext.flag, hnext.delay, hnext.sda, hnext.scl, hnext.time⟩

/-! ### START and STOP -/

/-- START clears the flag before anything else. -/
theorem Served.after_startCondition (h : Served d (setArbLost false s) (false :: sda) (false :: scl) now) :
    (startCondition s).1 = true ∧ Served d (startCondition s).2 sda scl (now + d) := by
  have hbus : ScriptedBus (setWaitElapsed 0 (release .scl (release .sda (setArbLost false s)))) (false :: sda)
      (false :: scl) := ⟨⟨rfl, rfl⟩, h.sda, h.scl⟩
  obtain ⟨hidle, hnext⟩ := ScriptedBus.after_sample2 (p := (false, false)) hbus
  have hwait : waitBusIdle (setArbLost false s) = (true, (sample2 (setWaitElapsed 0 (release .scl (release .sda
      (setArbLost false s))))).2) := busIdleLoop_idle _ hidle
  have hframe := sample2_wait (setWaitElapsed 0 (release .scl (release .sda (setArbLost false s))))
  have htime := (sample2_run (setWaitElapsed 0 (release .scl (release .sda (setArbLost false s))))).time
  unfold startCondition
  simp only [hwait, if_true]
  generalize sample2 _ = r at hnext hframe htime ⊢
  have hsampled : Served d r.2 sda scl now :=
    ⟨hframe.arbLost, hframe.delayUs ▸ h.delay, hnext.sda, hnext.scl, htime.trans h.time⟩
  exact ⟨trivial, (hsampled.after_driveLow .sda).after_delayStep.after_driveLow .scl⟩

theorem Served.after_stopCondition (h : Served d s sda (false :: scl) now) :
    Served d (stopCondition s) sda scl (now + d) := by
  obtain ⟨hwait, hnext⟩ := ((h.after_driveLow .sda).after_release .scl).after_waitSclHigh rfl
  rw [stopCondition, if_neg (by simp [h.flag]), stopDriving]
  simp only [hwait, if_true]
  exact hnext.after_delayStep.after_release .sda

/-- The host's last writes and the response change nothing on the bus. -/
theorem Served.after_endWithStop (r : Bool) (h : Served d s sda (false :: scl) now) :
    Served d (endWithStop r s) sda scl (now + d) := by
  have hphase : Served d (setPhase .stop s) sda (false :: scl) now := ⟨h.flag, h.delay, h.sda, h.scl, h.time⟩
  have hstop := hphase.after_stopCondition
  unfold endWithStop
  generalize stopCondition _ = t at hstop ⊢
  exact ⟨hstop.flag, hstop.delay, hstop.sda, hstop.scl, hstop.time⟩

/-! ### The data phases -/

/-- A buffer read of a host that keeps its duties (44_i2c_master.md R91). -/
theorem memRead_kept {i : BitVec 16} (inside : i.toNat < s.bufLen) (hh : s.hostWrites = []) (hm : s.misanswers = []) :
    memRead i s = some (s.buf.read i.toNat, strobeRead i (emit (.br i (s.buf.read i.toNat)) s)) := by
  simp [memRead, answerRead, inside, hm, hostBytes_nil hh]

/-- A buffer write of a host that keeps its duties (44_i2c_master.md R91). -/
theorem memWrite_kept {i : BitVec 16} (v : Byte) (inside : i.toNat < s.bufLen) (hh : s.hostWrites = []) :
    memWrite i v s = some (strobeWrite i v (emit (.bw i v) (setBuf (s.buf.write i.toNat v) s))) := by
  simp [memWrite, storeByte, inside, hostBytes_nil hh]

theorem toNat_next {i : BitVec 16} {n : Nat} (h : i.toNat + (n + 1) < 65536) : (i + 1#16).toNat = i.toNat + 1 := by
  rw [BitVec.toNat_add]
  exact Nat.mod_eq_of_lt (by simpa using Nat.lt_of_le_of_lt (by omega) h)

theorem replicate_nine_succ (k : Nat) (scl : List Bool) : List.replicate (9 * (k + 1)) false ++ scl =
    List.replicate 9 false ++ (List.replicate (9 * k) false ++ scl) := by
  rw [← List.append_assoc, List.replicate_append_replicate, Nat.mul_add, Nat.add_comm]

/-- The time of a byte and of `k` more. -/
theorem byte_time (k : Nat) : now + (k + 1) * (17 * d) = now + 17 * d + k * (17 * d) := by
  rw [Nat.add_mul, Nat.one_mul, Nat.add_comm (k * _), Nat.add_assoc]

/-- Every byte of the data phase of a WRITE_MESSAGE is acknowledged. -/
theorem Served.after_writeData (k : Nat) (small : s.byteIdx.toNat + k < 65536) (inside : s.byteIdx.toNat + k ≤ s.bufLen)
    (hh : s.hostWrites = []) (hm : s.misanswers = [])
    (h : Served d s (((List.range' s.byteIdx.toNat k).map s.buf.read).flatMap ackingAnswers ++ sda)
      (List.replicate (9 * k) false ++ scl) now) :
    (writeData k s).1 = .done ∧ Served d (writeData k s).2 sda scl (now + k * (17 * d)) := by
  induction k generalizing s now with
  | zero => exact ⟨rfl, by simpa [writeData] using h⟩
  | succ k ih =>
    rw [List.range'_succ, List.map_cons, List.flatMap_cons, List.append_assoc, replicate_nine_succ] at h
    have hread := memRead_kept (i := s.byteIdx) (by omega) hh hm
    generalize hv : s.buf.read s.byteIdx.toNat = v at h hread
    have hstrobe : Served d (strobeRead s.byteIdx (emit (.br s.byteIdx v) s)) _ _ now :=
      ⟨h.flag, h.delay, h.sda, h.scl, h.time⟩
    obtain ⟨hok, hnext⟩ := hstrobe.after_writeByte v
    obtain ⟨e, spec⟩ := writeByte_spec v (strobeRead s.byteIdx (emit (.br s.byteIdx v) s))
    obtain ⟨hbuf, hhost, hmis, hlen, hidx⟩ := spec.run.buffer
    unfold writeData
    simp only [hread, hok, if_true]
    generalize writeByte v _ = w at hnext hbuf hhost hmis hlen hidx ⊢
    have hidx : (nextByte w.2).byteIdx.toNat = s.byteIdx.toNat + 1 := by
      rw [nextByte, setByteIdx_byteIdx, hidx]
      exact toNat_next small
    have hbuf : (nextByte w.2).buf = s.buf := hbuf
    have hlen : (nextByte w.2).bufLen = s.bufLen := hlen
    rw [byte_time]
    refine ih (by omega) (by omega) (hhost.trans hh) (hmis.trans hm) ?_
    rw [hidx, hbuf]
    exact ⟨hnext.flag, hnext.delay, hnext.sda, hnext.scl, hnext.time⟩

/-- What the step to the next byte of a READ_MESSAGE leaves, after the byte `v` was stored at `byte_idx`. -/
structure StoredNext (v : Byte) (s t : State) : Prop where
  idx : t.byteIdx = s.byteIdx + 1#16
  buf : t.buf = s.buf.write s.byteIdx.toNat v
  bufLen : t.bufLen = s.bufLen
  host : t.hostWrites = []

theorem Served.after_memWrite (inside : s.byteIdx.toNat < s.bufLen) (hh : s.hostWrites = [])
    (h : Served d s sda scl now) : ∃ t, memWrite s.byteIdx s.rxAcc s = some t ∧
      Served d (nextByte t) sda scl now ∧ StoredNext s.rxAcc s (nextByte t) :=
  ⟨_, memWrite_kept s.rxAcc inside hh, ⟨h.flag, h.delay, h.sda, h.scl, h.time⟩, rfl, rfl, rfl, hh⟩

/-- The bytes the device sends are in the buffer after the data phase of a READ_MESSAGE. -/
theorem Served.after_readData (data : List Byte) (small : s.byteIdx.toNat + data.length < 65536)
    (inside : s.byteIdx.toNat + data.length ≤ s.bufLen) (hh : s.hostWrites = []) (wf : s.buf.wf = true)
    (h : Served d s (data.flatMap sendingAnswers ++ sda) (List.replicate (9 * data.length) false ++ scl) now) :
    (readData data.length s).1 = .done ∧ Served d (readData data.length s).2 sda scl (now + data.length * (17 * d)) ∧
      ∀ i v, data[i]? = some v → (readData data.length s).2.buf.read (s.byteIdx.toNat + i) = v := by
  induction data generalizing s now with
  | nil => exact ⟨rfl, by simpa [readData] using h, fun i v hi => nomatch hi⟩
  | cons v data ih =>
    rw [List.length_cons] at small inside
    rw [List.flatMap_cons, List.append_assoc, List.length_cons, replicate_nine_succ] at h
    obtain ⟨hok, hacc, hread⟩ := h.after_readByte (ackRequest s.byteIdx s.tLen) v
    obtain ⟨e, spec⟩ := readByte_spec (ackRequest s.byteIdx s.tLen) s
    obtain ⟨hbuf, hhost, _, hlen, hidx⟩ := spec.run.buffer
    rw [List.length_cons, readData]
    simp only [hok, if_true]
    generalize readByte _ s = r at hacc hread hbuf hhost hlen hidx ⊢
    obtain ⟨t, hwrite, hnext, stored⟩ := hread.after_memWrite (by rw [hidx, hlen]; omega) (hhost.trans hh)
    rw [hwrite, byte_time]
    have hstep := stored.idx
    have hbyte := stored.buf
    rw [hidx] at hstep hbyte
    rw [hbuf, hacc] at hbyte
    have hstep : (nextByte t).byteIdx.toNat = s.byteIdx.toNat + 1 := by
      rw [hstep, toNat_next small]
    have hwf : (nextByte t).buf.wf = true :=
      hbyte ▸ Memory.write_wf v (by simpa [Config.bufIndices] using s.byteIdx.isLt) s.buf wf
    obtain ⟨hdone, hrest, hlater⟩ := ih (by omega) (by rw [stored.bufLen, hlen]; omega) stored.host hwf hnext
    refine ⟨hdone, hrest, fun i x hi => ?_⟩
    cases i with
    | zero =>
      obtain rfl : v = x := by simpa using hi
      obtain ⟨es, last, later⟩ := readData_spec data.length (nextByte t) (by omega)
      have hkept := (later.rest s.byteIdx (.inl (by omega))).1 hwf
      rw [Nat.add_zero, hkept, hbyte, Memory.read_write _ _ _ _ wf, if_pos rfl]
    | succ i =>
      have := hlater i x (by simpa using hi)
      rwa [hstep, Nat.add_assoc, Nat.add_comm 1] at this

/-! ### The messages -/

/-- The data phase of a message, begun in `u`. -/
def dataOf (rw : Bool) (len : BitVec 16) (u : State) : DataEnd × State :=
  if rw then readData len.toNat u else writeData len.toNat u

/-- A message from `s` begins its data phase in `u`. -/
structure AtData (rw : Bool) (addr : BitVec 7) (len : BitVec 16) (s u : State) : Prop where
  message : runMessage rw addr len s = endMessage (dataOf rw len u)
  idx : u.byteIdx.toNat = 0
  buf : u.buf = s.buf
  host : u.hostWrites = s.hostWrites
  misanswers : u.misanswers = s.misanswers
  bufLen : u.bufLen = s.bufLen

theorem BusRun.latch {u v : State} {es : List Event} (h : BusRun u v es) :
    v.tAddr = u.tAddr ∧ v.tRw = u.tRw ∧ v.tLen = u.tLen := by
  rw [h.frame]
  exact ⟨rfl, rfl, rfl⟩

/-- The address byte of a message, after its START. -/
def addressed (rw : Bool) (addr : BitVec 7) (len : BitVec 16) (s : State) : Bool × State :=
  writeByte (addressByte addr rw) (setPhase .address (startCondition (openTransaction rw addr len s)).2)

/-- A message whose START and address byte succeed comes to its data phase. -/
theorem atData_addressed {rw : Bool} {addr : BitVec 7} {len : BitVec 16}
    (started : (startCondition (openTransaction rw addr len s)).1 = true) (acked : (addressed rw addr len s).1 = true) :
    AtData rw addr len s (setByteIdx 0#16 (setPhase .data (addressed rw addr len s).2)) := by
  obtain ⟨lows, last, start⟩ := startCondition_end (openTransaction rw addr len s)
  obtain ⟨e, spec⟩ : ∃ e, WriteSpec _ _ (addressed rw addr len s) e := writeByte_spec ..
  obtain ⟨hAddr, hRw, hLen⟩ := start.run.latch
  obtain ⟨_, _, hLen'⟩ := spec.run.latch
  obtain ⟨hbuf, hhost, hmis, hlen, _⟩ := start.run.buffer
  obtain ⟨hbuf', hhost', hmis', hlen', _⟩ := spec.run.buffer
  have hmessage : runMessage rw addr len s = endMessage (dataPhase rw (addressed rw addr len s).2) := by
    rw [addressed] at acked ⊢
    simp only [runMessage, started, if_true, hAddr, hRw]
    exact if_pos acked
  generalize addressed rw addr len s = b at hmessage hbuf' hhost' hmis' hlen' hLen' ⊢
  generalize startCondition _ = a at hbuf hhost hmis hlen hLen hbuf' hhost' hmis' hlen' hLen'
  have hTLen : b.2.tLen = len := hLen'.trans hLen
  exact {
    message := by rw [hmessage, ← hTLen]; rfl
    idx := rfl
    buf := hbuf'.trans hbuf
    host := hhost'.trans hhost
    misanswers := hmis'.trans hmis
    bufLen := hlen'.trans hlen }

/-- START finds the bus idle, and the address byte is acknowledged. -/
theorem Served.after_address (rw : Bool) (addr : BitVec 7) (len : BitVec 16)
    (h : Served d (setArbLost false s) (false :: (ackingAnswers (addressByte addr rw) ++ sda))
      (List.replicate 10 false ++ scl) now) :
    ∃ u, Served d u sda scl (now + 18 * d) ∧ AtData rw addr len s u := by
  have hopen : Served d (setArbLost false (openTransaction rw addr len s)) _ (false :: (List.replicate 9 false ++ scl))
      now := ⟨rfl, h.delay, h.sda, h.scl, h.time⟩
  obtain ⟨started, hstarted⟩ := hopen.after_startCondition
  have haddressing : Served d (setPhase .address (startCondition (openTransaction rw addr len s)).2) _ _ (now + d) :=
    ⟨hstarted.flag, hstarted.delay, hstarted.sda, hstarted.scl, hstarted.time⟩
  obtain ⟨acked, hnext⟩ : (addressed rw addr len s).1 = true ∧ Served d (addressed rw addr len s).2 _ _ _ :=
    haddressing.after_writeByte (addressByte addr rw)
  refine ⟨_, ?_, atData_addressed started acked⟩
  rw [Nat.add_assoc, show d + 17 * d = 18 * d by omega] at hnext
  generalize addressed rw addr len s = b at hnext ⊢
  exact ⟨hnext.flag, hnext.delay, hnext.sda, hnext.scl, hnext.time⟩

theorem AtData.ended {rw : Bool} {addr : BitVec 7} {len : BitVec 16} {u : State} (hu : AtData rw addr len s u)
    (done : (dataOf rw len u).1 = .done) : runMessage rw addr len s = endWithStop true (dataOf rw len u).2 := by
  rw [hu.message, endMessage, done]

/-- A message that comes to the end of its data phase succeeds when SCL is not held at STOP. -/
theorem Served.after_message {rw : Bool} {addr : BitVec 7} {len : BitVec 16} {u : State} (hu : AtData rw addr len s u)
    (done : (dataOf rw len u).1 = .done) (h : Served d (dataOf rw len u).2 sda (false :: scl) now) :
    (runMessage rw addr len s).Answered true codeOk false ∧ (runMessage rw addr len s).released ∧
      Served d (runMessage rw addr len s) sda scl (now + d) := by
  have outcome := (runMessage_case rw addr len s).outcome
  rw [hu.ended done] at outcome ⊢
  obtain ⟨answered, _, released⟩ := outcome.success (by rfl) (by rfl)
  exact ⟨answered, released, h.after_endWithStop true⟩

/-- The answers of SCL to a message of `len` bytes: those up to the address byte, those of the data, and STOP's. -/
theorem sclAnswers_split (len : Nat) (scl : List Bool) : List.replicate (9 * (len + 1) + 2) false ++ scl =
    List.replicate 10 false ++ (List.replicate (9 * len) false ++ false :: scl) := by
  rw [← List.append_assoc, List.replicate_append_replicate, show false :: scl = List.replicate 1 false ++ scl from rfl,
    ← List.append_assoc, List.replicate_append_replicate]
  congr 2
  omega

/-- The time of a message of `len` bytes (70_reset_and_hazards.md R129). -/
theorem message_time (len : Nat) : now + 18 * d + len * (17 * d) + d = now + (17 * len + 19) * d := by
  rw [Nat.add_mul, Nat.mul_left_comm len, Nat.mul_assoc 17]
  omega

/-- A message whose bus serves it comes to its data phase. -/
theorem served_atData {rw : Bool} {addr len : Nat} (haddr : (BitVec.ofNat 7 addr).toNat = addr)
    (hsda : s.extSda = false :: (ackingAnswers (BitVec.ofNat 8 (2 * addr + rw.toNat)) ++ sda))
    (hscl : s.extScl = List.replicate (9 * (len + 1) + 2) false ++ scl) :
    ∃ u, Served s.delayUs.toNat u sda (List.replicate (9 * len) false ++ false :: scl) (s.nowUs + 18 * s.delayUs.toNat) ∧
      AtData rw (BitVec.ofNat 7 addr) (BitVec.ofNat 16 len) s u := by
  have hopen : Served s.delayUs.toNat (setArbLost false s) _ _ s.nowUs :=
    ⟨rfl, rfl, hsda, hscl.trans (sclAnswers_split ..), rfl⟩
  rw [← addressByte_ofNat haddr] at hopen
  exact hopen.after_address rw (BitVec.ofNat 7 addr) (BitVec.ofNat 16 len)

end

/-- Settles O46: START, the address byte, the data phase and STOP go through one after the other. -/
theorem acknowledgedWriteSucceeds : Obligations.AcknowledgedWriteSucceeds := by
  intro addr len s sda scl hw supplied hh hm hsda hscl
  obtain ⟨haddr, hlen⟩ := message_operands (.inl rfl) hw
  rw [List.flatMap_cons, List.cons_append, List.append_assoc] at hsda
  obtain ⟨u, hserved, hu⟩ := served_atData (rw := rwWrite) haddr hsda hscl
  rw [List.range_eq_range', ← hu.idx, ← hu.buf] at hserved
  have hsmall := hlen ▸ (BitVec.ofNat 16 len).isLt
  obtain ⟨done, hdata⟩ := hserved.after_writeData len (by rw [hu.idx]; omega) (by rw [hu.idx, hu.bufLen]; omega)
    (hu.host.trans hh) (hu.misanswers.trans hm)
  rw [← hlen] at done hdata
  obtain ⟨answered, released, h⟩ := Served.after_message hu done hdata
  rw [hlen, message_time] at h
  exact ⟨_, rfl, answered, h.flag, released, h.time, h.sda, h.scl⟩

/-- Settles O47: as O46, and no write of the host comes after the data phase. -/
theorem acknowledgedReadStoresTheBytes : Obligations.AcknowledgedReadStoresTheBytes := by
  intro addr data s sda scl hw supplied hh wf hsda hscl
  obtain ⟨haddr, hlen⟩ := message_operands (.inr rfl) hw
  rw [List.cons_append, List.append_assoc] at hsda
  obtain ⟨u, hserved, hu⟩ := served_atData (rw := rwRead) haddr hsda hscl
  have hsmall := hlen ▸ (BitVec.ofNat 16 data.length).isLt
  have hhost := hu.host.trans hh
  obtain ⟨done, hdata, hread⟩ := hserved.after_readData data (by rw [hu.idx]; omega) (by rw [hu.idx, hu.bufLen]; omega)
    hhost (hu.buf ▸ wf)
  obtain ⟨es, last, spec⟩ := readData_spec data.length u (by rw [hu.idx]; omega)
  have hlast := landHostWrites_noHost (spec.noHost hhost)
  rw [← hlen] at done hdata hread hlast
  obtain ⟨answered, released, h⟩ := Served.after_message hu done hdata
  rw [hlen, message_time] at h
  refine ⟨_, rfl, answered, h.flag, released, fun i v hi => ?_, h.time, h.sda, h.scl⟩
  obtain ⟨b, stop⟩ := endWithStop_spec true (dataOf rwRead (BitVec.ofNat 16 data.length) u).2
  have hbyte := hread i v hi
  rw [hu.idx, Nat.zero_add] at hbyte
  rw [show runMessage _ _ _ s = _ from hu.ended done, stop.buf]
  exact hlast ▸ hbyte

end Sys2Proof.Machine

/-! PROOFS. The statements about how a message command fails (60_exceptions.md R96 to R99, R105 to R108): the events that tell
one cause from another, and the time in which every message command has ended. -/

namespace Sys2Proof.Machine

/-! ### The byte a message fails in -/

/-- The last events of a byte whose ACK bit was clocked in full and read 1 (43_byte_transfer_engine.md R74). -/
def nackedAckBit : List Event := [.sm .sda true, .dl .scl, .rl .sda, .tr]

/-- The events `bad` of a byte that failed with cause `c`, under the stretch timeout `T`. -/
inductive FailedByte (T : Nat) (c : BitVec 3) (bad : List Event) : Prop where
  /-- A wait for SCL failed (R97). -/
  | timeout (code : c = Cause.clockStretchTimeout.code) (ends : stretchTimeout T <:+ bad)
  /-- The byte was clocked in full and not acknowledged (R98). -/
  | nack (code : c = Cause.nack.code) (whole : WholeBytes 1 bad) (ends : nackedAckBit <:+ bad)
  /-- Arbitration was lost (R99). -/
  | lost (code : c = Cause.arbitrationLost.code) (ends : arbitrationLoss <:+ bad)

/-- A byte of which all nine bits were clocked is whole, acknowledged or not. -/
theorem wholeBytes_writeByteEvents_full {T : Nat} (d : Nat) {v : Byte} {ks : List Nat} {k : Nat} {sda : Bool}
    (hok : (WriteEnd.full ks k sda).Ok T v) : WholeBytes 1 (writeByteEvents d v (.full ks k sda)) where
  sections fs := by rw [byteSections_writeByteEvents, List.length_cons, Nat.add_comm]
  pulses fs := pulsesAfterLow_full d v ks k sda fs hok

theorem WriteEnd.failedByte {T : Nat} (d : Nat) {v : Byte} {e : WriteEnd} (hok : e.Ok T v)
    (hfailed : e.result false = false) : FailedByte T (e.causeAfter codeOk) (writeByteEvents d v e) := by
  cases e with
  | full ks k sda =>
    cases sda with
    | false => exact nomatch hfailed
    | true =>
      refine .nack rfl (wholeBytes_writeByteEvents_full d hok)
        ⟨[.ta] ++ writeCellsEvents d v 0 ks ++ ackHead k ++ [.sm .scl true, .dy d], ?_⟩
      simp [nackedAckBit, writeByteEvents, writeEvents]
  | ackTimeout ks k | cellTimeout ks k =>
    obtain ⟨_, ends⟩ := WriteEnd.ends_in_stretchTimeout (d := d) (lost := false) hok rfl
    exact .timeout rfl ends
  | cellLost ks k =>
    refine .lost rfl ⟨[.ta] ++ writeCellsEvents d v 0 ks ++ writeCellHead d (wireBit v ks.length) k ++
      [.sm .scl true, .dy d], ?_⟩
    simp [arbitrationLoss, writeByteEvents, writeEvents, writeCellEvents]

/-! ### The data phase of a message that fails -/

section
variable {rw : Bool} {addr : BitVec 7} {len : BitVec 16} {s t u w : State}

/-- A data phase that failed is whole bytes and then the byte that failed, whose cause it leaves. -/
theorem DataSpec.failure {n : Nat} (h : DataSpec rw n u (.failed, w)) (clear : u.cause = codeOk) :
    ∃ mid bad k, Run u w (mid ++ bad) ∧ WholeBytes k mid ∧
      FailedByte u.params.sclStretchTimeoutUs w.cause bad := by
  cases rw with
  | false =>
    obtain ⟨bs, last, hd⟩ := h
    obtain ⟨_, hsome⟩ := hd.how
    obtain ⟨b, rfl⟩ := Option.isSome_iff_exists.1 hsome
    obtain ⟨hok, hfailed⟩ := hd.bad b rfl
    have hrun := hd.run.run
    rw [Option.toList_some, writeDataEvents_concat] at hrun
    refine ⟨_, _, _, hrun, (wholeBytes_writeDataEvents _ _ hd.good).append (.br _ _), ?_⟩
    rw [hd.cause, clear]
    exact WriteEnd.failedByte _ hok hfailed
  | true =>
    obtain ⟨es, last, hd⟩ := h
    obtain ⟨_, e, rfl, hfailed⟩ := hd.how
    refine ⟨_, _, _, hd.run.run, wholeBytes_readDataEvents _ _ _ hd.good, .timeout ?_ ?_⟩
    · rw [hd.cause, clear]
      rfl
    · exact ReadEnd.ends_in_stretchTimeout (hd.bad e rfl) hfailed

/-! ### The message that fails -/

/-- A message from `s` to `t` failed after its START: `n` whole bytes went through (`mid`), the next one failed (`bad`), STOP
followed with branch `b`, whose own timeout is not reported, and the response gave the code `c` and the flag `arb`. -/
structure MsgFailure (s t : State) (c : BitVec 3) (arb : Bool) (lows : List (Bool × Bool)) (mid bad : List Event) (n : Nat)
    (b : Option (Nat × Bool)) : Prop where
  events : newEvents s t = startEvents s.delayUs.toNat lows (true, true) ++ mid ++ bad ++
    (stopEvents s.delayUs.toNat b ++ [.rsp false c arb])
  before : WholeBytes n mid
  failed : FailedByte s.params.sclStretchTimeoutUs c bad
  stop : IsStop s.params.sclStretchTimeoutUs s.delayUs.toNat arb (stopEvents s.delayUs.toNat b)
  result : t.rspResult = false

/-- The abort path after the byte that failed (R105). -/
theorem StopSpec.msgFailure {lows : List (Bool × Bool)} {mid bad : List Event} {n : Nat} {b : Option (Nat × Bool)}
    (h : StopSpec false u t b) (run : Run s u (startEvents s.delayUs.toNat lows (true, true) ++ mid ++ bad))
    (before : WholeBytes n mid) (failed : FailedByte s.params.sclStretchTimeoutUs u.cause bad) :
    MsgFailure s t t.rspErr t.arbLost lows mid bad n b := by
  obtain ⟨_, rfl, hstop⟩ := h.events run.kept.delayUs
  have hbound := h.bound
  rw [run.kept.params] at hbound
  exact {
    events := newEvents_eq (run.trans hstop).trace
    before := before
    failed := by rw [h.responded.rspErr]; exact failed
    stop := by rw [h.responded.arbLost, ← h.branch]; exact isStop_stopEvents hbound
    result := h.responded.rspResult }

section
variable {c : BitVec 3} {arb : Bool} {lows : List (Bool × Bool)} {mid bad : List Event} {n : Nat} {b : Option (Nat × Bool)}

/-- What ends the byte that failed comes right before STOP. -/
theorem MsgFailure.events_of_suffix (h : MsgFailure s t c arb lows mid bad n b) {last : List Event} (ends : last <:+ bad) :
    ∃ es, newEvents s t = es ++ last ++ (stopEvents s.delayUs.toNat b ++ [.rsp false c arb]) := by
  obtain ⟨pre, rfl⟩ := ends
  exact ⟨startEvents s.delayUs.toNat lows (true, true) ++ mid ++ pre, by rw [h.events, List.append_assoc _ pre]⟩

/-- When the byte that failed is whole as well, there are nine pulses for each byte, and STOP makes none. -/
theorem MsgFailure.pulses (h : MsgFailure s t c arb lows mid bad n b) (whole : WholeBytes 1 bad) :
    clockPulses (newEvents s t) = 9 * (byteSections (newEvents s t)).length := by
  have bytes := h.before.append whole
  rw [h.events, List.append_assoc _ mid, List.append_assoc (startEvents _ _ _), clockPulses_startEvents, bytes.pulses,
    pulsesAfterLow_stopEvents, byteSections_plain _ _ (wireEvents_plain (wire_startEvents ..)), bytes.sections,
    byteSections_stop]
  rfl

end

/-- A message that is over with a failure failed in its START or in a byte. -/
theorem MsgCase.failure (h : MsgCase rw addr len s t) (idle : t.busy = false) (err : t.rspErr ≠ codeOk) :
    (∃ lows last, MsgBusy rw addr len s t lows last) ∨
      ∃ lows mid bad n b, MsgFailure s t t.rspErr t.arbLost lows mid bad n b := by
  have result_iff := h.outcome.result_iff idle
  cases h with
  | busy lows last h => exact .inl ⟨lows, last, h⟩
  | address u lows e b h bad stop =>
    refine .inr ⟨lows, [], writeByteEvents s.delayUs.toNat (addressByte addr rw) e, 0, b, stop.msgFailure ?_ .nil ?_⟩
    · rw [List.append_nil]
      exact h.run
    · rw [h.cause]
      exact WriteEnd.failedByte _ h.ok bad
  | data u lows e r h good idx phase data tail =>
    obtain ⟨d, w⟩ := r
    cases d with
    | done =>
      obtain ⟨b, stop⟩ := tail
      exact absurd (result_iff.1 stop.responded.rspResult) err
    | stuck =>
      obtain rfl : t = w := tail
      exact absurd ((data.phase.trans phase).symm.trans (busy_eq_false.1 idle).1) (by decide)
    | failed =>
      obtain ⟨b, stop⟩ := tail
      obtain ⟨clear, _⟩ := WriteEnd.good_cause codeOk ⟨h.ok, good⟩
      obtain ⟨mid, bad, k, run, whole, failed⟩ := data.failure (h.cause.trans clear)
      have address := wholeBytes_writeByteEvents s.delayUs.toNat ⟨h.ok, good⟩
      refine .inr ⟨lows, _, bad, _, b, stop.msgFailure ?_ (address.append whole) ?_⟩
      · simpa only [List.append_assoc] using h.run.trans run
      · rw [← h.run.kept.params]
        exact failed

/-- A message that is over has its flag set exactly when its code is ARBITRATION_LOST. -/
theorem MsgOutcome.arbLost_eq (h : MsgOutcome rw addr len s t) (idle : t.busy = false) :
    t.arbLost = decide (t.rspErr = Cause.arbitrationLost.code) := by
  cases h with
  | ended r c es h =>
    rw [h.responded.rspErr, Bool.eq_iff_iff, decide_eq_true_iff]
    exact h.fits.2
  | stuck es h phase => exact absurd (phase.symm.trans (busy_eq_false.1 idle).1) (by decide)

end

section
variable {i : Instr} {addr len : Nat} {s t : State}

theorem messageCase_of_exec (hi : i = .writeMessage addr len ∨ i = .readMessage addr len) (hexec : exec i s = .next t) :
    MsgCase (decide (i = .readMessage addr len)) (BitVec.ofNat 7 addr) (BitVec.ofNat 16 len) s t := by
  obtain ⟨u, hu, hcase⟩ := exec_message hi s
  obtain rfl := Host.Outcome.next.inj (hu.symm.trans hexec)
  exact hcase

/-- A message command that is over with the code of a byte's failure has failed in a byte. -/
theorem message_failure {c : BitVec 3} {arb : Bool} (hi : i = .writeMessage addr len ∨ i = .readMessage addr len)
    (hexec : exec i s = .next t) (idle : t.busy = false) (err : t.rspErr = c)
    (code : c ≠ codeOk ∧ c ≠ Cause.busBusyTimeout.code ∧ arb = decide (c = Cause.arbitrationLost.code)) :
    t.rspResult = false ∧ t.arbLost = arb ∧ ∃ lows mid bad n b, MsgFailure s t c arb lows mid bad n b := by
  obtain ⟨hok, hbusy, rfl⟩ := code
  subst err
  have hcase := messageCase_of_exec hi hexec
  have harb := hcase.outcome.arbLost_eq idle
  rcases hcase.failure idle hok with ⟨lows, last, h⟩ | ⟨lows, mid, bad, n, b, h⟩
  · exact absurd h.responded.rspErr hbusy
  · exact ⟨h.result, harb, lows, mid, bad, n, b, harb ▸ h⟩

end

/-! ### The exceptions (R96 to R99) -/

/-- Settles O37: no byte fails with BUS_BUSY_TIMEOUT, so START failed. -/
theorem busBusyEndsWithoutStop : Obligations.BusBusyEndsWithoutStop := by
  intro i addr len s t hi _ hexec idle err
  rcases (messageCase_of_exec hi hexec).failure idle (by rw [err]; decide) with
    ⟨lows, last, h⟩ | ⟨lows, mid, bad, n, b, h⟩
  · refine ⟨h.responded.rspResult, h.responded.arbLost, h.released, lows, last, h.count,
      List.forall_mem_cons.2 ⟨h.lastLow, h.low⟩, ?_⟩
    rw [newEvents_eq h.run.trace]
    simp [startEvents, h.lastLow, Cause.code]
  · cases h.failed with
    | timeout code | nack code | lost code => exact absurd (err.symm.trans code) (by decide)

/-- Settles O38: the one failure of a byte with this code is the failed wait. -/
theorem stretchTimeoutEndsTheMessageWithStop : Obligations.StretchTimeoutEndsTheMessageWithStop := by
  intro i addr len s t hi _ hexec idle err
  obtain ⟨result, flag, lows, mid, bad, n, b, h⟩ := message_failure (arb := false) hi hexec idle err (by decide)
  cases h.failed with
  | timeout _ ends =>
    obtain ⟨es, hes⟩ := h.events_of_suffix ends
    exact ⟨result, flag, es, _, h.stop, by simp [hes, stretchTimeout]⟩
  | nack code | lost code => exact absurd code (by decide)

/-- Settles O39: the failing byte is as whole as those before it, and STOP makes no pulse. -/
theorem nackEndsTheMessageWithStop : Obligations.NackEndsTheMessageWithStop := by
  intro i addr len s t hi _ hexec idle err
  obtain ⟨result, flag, lows, mid, bad, n, b, h⟩ := message_failure (arb := false) hi hexec idle err (by decide)
  cases h.failed with
  | nack _ whole ends =>
    obtain ⟨es, hes⟩ := h.events_of_suffix ends
    exact ⟨result, flag, h.pulses whole, es, _, h.stop, by simp [hes, nackedAckBit]⟩
  | timeout code | lost code => exact absurd code (by decide)

/-- Settles O40: the flag is set, so STOP takes its release-only branch. -/
theorem arbitrationLossOnlyReleasesTheLines : Obligations.ArbitrationLossOnlyReleasesTheLines := by
  intro i addr len s t hi _ hexec idle err
  obtain ⟨result, flag, lows, mid, bad, n, b, h⟩ := message_failure (arb := true) hi hexec idle err (by decide)
  have releaseOnly : stopEvents s.delayUs.toNat b = [.rl .sda, .rl .scl] := h.stop
  cases h.failed with
  | lost _ ends =>
    obtain ⟨es, hes⟩ := h.events_of_suffix ends
    exact ⟨result, flag, es, by simp [hes, releaseOnly, arbitrationLoss]⟩
  | timeout code | nack code => exact absurd code (by decide)

/-! ### The time of a message (R108; 41_timing_and_timeout.md R57) -/

/-- The longest time of a byte: nine stretch waits and seventeen delay steps. -/
def byteTimeBound (T d : Nat) : Nat := 9 * T + 17 * d

theorem sum_le_length_mul {T : Nat} {ks : List Nat} (h : ∀ k ∈ ks, k ≤ T) : ks.sum ≤ ks.length * T := by
  induction ks with
  | nil => exact Nat.zero_le _
  | cons k ks ih =>
    obtain ⟨hk, hks⟩ := List.forall_mem_cons.1 h
    rw [List.sum_cons, List.length_cons, Nat.succ_mul, Nat.add_comm]
    exact Nat.add_le_add (ih hks) hk

/-- At most `n` data bits, of two delay steps each, with at most `T` polls each. -/
theorem bits_time_le {T n : Nat} (d : Nat) {ks : List Nat} (hpolls : ∀ k ∈ ks, k ≤ T) (hlen : ks.length ≤ n) :
    ks.length * (2 * d) + ks.sum ≤ n * (2 * d + T) :=
  calc ks.length * (2 * d) + ks.sum
      ≤ ks.length * (2 * d) + ks.length * T := Nat.add_le_add_left (sum_le_length_mul hpolls) _
    _ = ks.length * (2 * d + T) := (Nat.mul_add ..).symm
    _ ≤ n * (2 * d + T) := Nat.mul_le_mul_right _ hlen

section
variable {T n : Nat} (d : Nat)

theorem elapsed_writeCellsEvents_le (v : Byte) (i : Nat) {ks : List Nat} (hpolls : ∀ k ∈ ks, k ≤ T)
    (hlen : ks.length ≤ n) :
    elapsed (writeCellsEvents d v i ks) ≤ n * (2 * d + T) := by
  rw [elapsed_writeCellsEvents]
  exact bits_time_le d hpolls hlen

theorem elapsed_readCellsEvents_le {cs : List (Nat × Bool)} (hpolls : ∀ p ∈ cs, p.1 ≤ T) (hlen : cs.length ≤ n) :
    elapsed (readCellsEvents d cs) ≤ n * (2 * d + T) := by
  rw [elapsed_readCellsEvents, ← List.length_map (f := (·.1))]
  exact bits_time_le d (List.forall_mem_map.2 hpolls) (by rwa [List.length_map])

theorem elapsed_writeCellHead (b : Bool) (k : Nat) : elapsed (writeCellHead d b k) = d + k := by
  cases b <;> simp [writeCellHead, eventTime]

theorem elapsed_readCellHead (k : Nat) : elapsed (readCellHead d k) = d + k := by
  simp [readCellHead, eventTime]

theorem elapsed_ackHead (k : Nat) : elapsed (ackHead k) = k := by
  simp [ackHead, eventTime]

theorem elapsed_sendAckHead (q : Bool) (k : Nat) : elapsed (sendAckHead q k) = k := by
  cases q <;> simp [sendAckHead, eventTime]

/-- A byte that stops in a data bit has clocked seven data bits at most. -/
theorem elapsed_writeByteEvents_le {v : Byte} {e : WriteEnd} (hok : e.Ok T v) :
    elapsed (writeByteEvents d v e) ≤ byteTimeBound T d := by
  unfold byteTimeBound
  cases e with
  | full ks k sda | ackTimeout ks k =>
    obtain ⟨hpolls, hlen, hk⟩ := hok
    have hbits := elapsed_writeCellsEvents_le d v 0 hpolls (Nat.le_of_eq hlen)
    simp only [writeByteEvents, writeEvents, elapsed_append, elapsed_cons, elapsed_nil, elapsed_ackHead, eventTime]
    omega
  | cellTimeout ks k | cellLost ks k =>
    obtain ⟨hpolls, hlen, hk⟩ := hok
    have hbits := elapsed_writeCellsEvents_le d v 0 hpolls (Nat.le_of_lt_succ hlen)
    simp only [writeByteEvents, writeEvents, writeCellEvents, elapsed_append, elapsed_cons, elapsed_nil,
      elapsed_writeCellHead, eventTime]
    omega

theorem elapsed_readByteEvents_le (q : Bool) {e : ReadEnd} (hok : e.Ok T) :
    elapsed (readByteEvents d q e) ≤ byteTimeBound T d := by
  unfold byteTimeBound
  cases e with
  | full cs k | ackTimeout cs k =>
    obtain ⟨hpolls, hlen, hk⟩ := hok
    have hbits := elapsed_readCellsEvents_le d hpolls (Nat.le_of_eq hlen)
    simp only [readByteEvents, readEvents, elapsed_append, elapsed_cons, elapsed_nil, elapsed_sendAckHead, eventTime]
    omega
  | cellTimeout cs k =>
    obtain ⟨hpolls, hlen, hk⟩ := hok
    have hbits := elapsed_readCellsEvents_le d hpolls (Nat.le_of_lt_succ hlen)
    simp only [readByteEvents, readEvents, elapsed_append, elapsed_cons, elapsed_nil, elapsed_readCellHead, eventTime]
    omega

theorem elapsed_writeDataEvents_le (i : BitVec 16) {bs : List (Byte × WriteEnd)}
    (h : ∀ b ∈ bs, b.2.Ok T b.1) : elapsed (writeDataEvents d i bs) ≤ bs.length * byteTimeBound T d := by
  induction bs generalizing i with
  | nil => exact Nat.zero_le _
  | cons b bs ih =>
    obtain ⟨hb, hbs⟩ := List.forall_mem_cons.1 h
    have hbyte := elapsed_writeByteEvents_le d hb
    have hrest := ih (i + 1#16) hbs
    simp only [writeDataEvents, elapsed_append, elapsed_cons, elapsed_nil, eventTime, List.length_cons, Nat.succ_mul]
    omega

theorem elapsed_readDataEvents_le (len i : BitVec 16) {es : List ReadEnd}
    (h : ∀ e ∈ es, e.Ok T) : elapsed (readDataEvents d len i es) ≤ es.length * byteTimeBound T d := by
  induction es generalizing i with
  | nil => exact Nat.zero_le _
  | cons e es ih =>
    obtain ⟨he, hes⟩ := List.forall_mem_cons.1 h
    have hbyte := elapsed_readByteEvents_le d (ackRequest i len) he
    have hrest := ih (i + 1#16) hes
    simp only [readDataEvents, elapsed_append, elapsed_cons, elapsed_nil, eventTime, List.length_cons, Nat.succ_mul]
    omega

theorem elapsed_readLastEvents_le (len i : BitVec 16) {last : Option ReadEnd}
    (h : ∀ e ∈ last, e.Ok T) : elapsed (readLastEvents d len i last) ≤ last.toList.length * byteTimeBound T d := by
  cases last with
  | none => exact Nat.zero_le _
  | some e =>
    rw [Option.toList_some, List.length_singleton, Nat.one_mul]
    exact elapsed_readByteEvents_le d _ (h e rfl)

theorem elapsed_stopEvents_le {b : Option (Nat × Bool)}
    (bound : ∀ k v, b = some (k, v) → k ≤ T ∧ (v = false → k = T)) : elapsed (stopEvents d b) ≤ T + d := by
  rcases b with _ | ⟨k, v⟩
  · exact Nat.zero_le _
  · obtain ⟨hk, _⟩ := bound k v rfl
    have hdelay : elapsed (stopEvents d (some (k, v))) = k + if v then d else 0 := by
      cases v <;> simp [stopEvents, eventTime]
    rw [hdelay]
    split <;> omega

end

section
variable {rw : Bool} {addr : BitVec 7} {len : BitVec 16} {s t u : State}

/-- The bytes of a data phase, the failed or unstored one among them, are at most `n`. -/
theorem ReadDataSpec.count_all {n : Nat} {r : DataEnd × State} {es : List ReadEnd} {last : Option ReadEnd}
    (h : ReadDataSpec n u r es last) : es.length + last.toList.length ≤ n := by
  have how := h.how
  obtain ⟨d, w⟩ := r
  cases d with
  | done =>
    obtain ⟨hlen, rfl⟩ := how
    exact Nat.le_of_eq hlen
  | failed =>
    obtain ⟨hlen, e, rfl, _⟩ := how
    exact hlen
  | stuck =>
    obtain ⟨hlen, ⟨e, rfl, _⟩, _⟩ := how
    exact hlen

theorem DataSpec.kept {n : Nat} {r : DataEnd × State} (h : DataSpec rw n u r) : Kept u r.2 := by
  cases rw with
  | false =>
    obtain ⟨bs, last, hd⟩ := h
    exact hd.run.run.kept
  | true =>
    obtain ⟨es, last, hd⟩ := h
    exact hd.run.run.kept

theorem DataSpec.time_le {n : Nat} {r : DataEnd × State} (h : DataSpec rw n u r) :
    r.2.nowUs ≤ u.nowUs + n * byteTimeBound u.params.sclStretchTimeoutUs u.delayUs.toNat := by
  cases rw with
  | false =>
    obtain ⟨bs, last, hd⟩ := h
    have ok : ∀ b ∈ bs ++ last.toList, b.2.Ok u.params.sclStretchTimeoutUs b.1 := by
      intro b hb
      rcases List.mem_append.1 hb with hb | hb
      · exact (hd.good b hb).1
      · exact (hd.bad b (Option.mem_toList.1 hb)).1
    rw [hd.run.time]
    exact Nat.add_le_add_left (Nat.le_trans (elapsed_writeDataEvents_le _ _ ok) (Nat.mul_le_mul_right _ hd.count)) _
  | true =>
    obtain ⟨es, last, hd⟩ := h
    have hbytes := elapsed_readDataEvents_le u.delayUs.toNat u.tLen u.byteIdx fun e he => (hd.good e he).1
    have hlast := elapsed_readLastEvents_le u.delayUs.toNat u.tLen (u.byteIdx + BitVec.ofNat 16 es.length) hd.bad
    rw [hd.run.time, elapsed_append]
    refine Nat.add_le_add_left (Nat.le_trans (Nat.add_le_add hbytes hlast) ?_) _
    rw [← Nat.add_mul]
    exact Nat.mul_le_mul_right _ hd.count_all

theorem Addressed.time_le {lows : List (Bool × Bool)} {e : WriteEnd} (h : Addressed rw addr len s u lows e) :
    u.nowUs ≤ s.nowUs + s.params.busIdleTimeoutUs + s.delayUs.toNat +
      byteTimeBound s.params.sclStretchTimeoutUs s.delayUs.toNat := by
  have hstart := h.bound
  have hbyte := elapsed_writeByteEvents_le s.delayUs.toNat h.ok
  rw [h.run.time, elapsed_append, elapsed_startEvents, Bool.and_self, if_pos rfl]
  omega

theorem StopSpec.time_le {r : Bool} {b : Option (Nat × Bool)} (h : StopSpec r u t b) :
    t.nowUs ≤ u.nowUs + u.params.sclStretchTimeoutUs + u.delayUs.toNat := by
  have hstop := elapsed_stopEvents_le u.delayUs.toNat h.bound
  rw [h.run.time, elapsed_append, show elapsed [.rsp r u.cause u.arbLost] = 0 from rfl]
  omega

theorem MsgBusy.time_le {lows : List (Bool × Bool)} {last : Bool × Bool} (h : MsgBusy rw addr len s t lows last) :
    t.nowUs ≤ s.nowUs + s.params.busIdleTimeoutUs := by
  rw [h.run.time, elapsed_append, elapsed_startEvents, h.lastLow, h.count]
  exact Nat.le_refl _

theorem MsgCase.time_le (h : MsgCase rw addr len s t) :
    t.nowUs ≤ s.nowUs + s.params.busIdleTimeoutUs + s.delayUs.toNat +
      (len.toNat + 1) * byteTimeBound s.params.sclStretchTimeoutUs s.delayUs.toNat +
      s.params.sclStretchTimeoutUs + s.delayUs.toNat := by
  rw [Nat.succ_mul]
  cases h with
  | busy lows last h =>
    have hstart := h.time_le
    omega
  | address u lows e b h _ stop =>
    have haddress := h.time_le
    have hstop := stop.time_le
    rw [h.run.kept.params, h.run.kept.delayUs] at hstop
    omega
  | data u lows e r h _ _ _ data tail =>
    have haddress := h.time_le
    have hdata := data.time_le
    have hkept := h.run.kept.trans data.kept
    have ended : t.nowUs ≤ r.2.nowUs + r.2.params.sclStretchTimeoutUs + r.2.delayUs.toNat := by
      obtain ⟨d, w⟩ := r
      cases d with
      | done | failed =>
        obtain ⟨b, stop⟩ := tail
        exact stop.time_le
      | stuck =>
        obtain rfl : t = w := tail
        exact Nat.le_trans (Nat.le_add_right ..) (Nat.le_add_right ..)
    rw [h.run.kept.params, h.run.kept.delayUs] at hdata
    rw [hkept.params, hkept.delayUs] at ended
    omega

end

/-- Settles O51: the waits and the delay steps of each part of a message bound its time, wherever it ends. -/
theorem messageTimeIsBounded : Obligations.MessageTimeIsBounded := by
  intro i addr len s t hi hw hexec
  obtain ⟨_, hlen⟩ := message_operands hi hw
  have htime := (messageCase_of_exec hi hexec).time_le
  rwa [hlen] at htime

end Sys2Proof.Machine

/-! PROOFS. The statements about reset and about the time of a message that succeeds (70_reset_and_hazards.md): what a reset
sets, what a reset in the middle of a command leaves, and the state a program starts in. -/

namespace Sys2Proof.Machine

/-! ### A reset in the middle of a command (R118) -/

/-- The last write to an index is the byte read there. -/
theorem Memory.read_foldl_write_lookup (l : List (BitVec 16 × Byte)) {m : Memory} (hm : m.wf = true) (j : BitVec 16) :
    Memory.read (l.foldl (fun m c => Memory.write m c.1.toNat c.2) m) j.toNat =
      (l.reverse.lookup j).getD (Memory.read m j.toNat) := by
  induction l generalizing m with
  | nil => rfl
  | cons c l ih =>
    obtain ⟨i, v⟩ := c
    have hwf := Memory.write_wf v (by simpa [Config.bufIndices] using i.isLt) m hm
    rw [List.foldl_cons, ih hwf, Memory.read_write _ _ _ _ hm, List.reverse_cons, List.lookup_append]
    cases l.reverse.lookup j with
    | some w => rfl
    | none =>
      by_cases hj : j = i
      · simp [List.lookup, hj]
      · simp [List.lookup, beq_eq_false_iff_ne.2 hj, BitVec.toNat_inj, hj]

/-- What the events of an abandoned command leave outside the block, from a host that writes nothing: the block's writes `ws`
are in the buffer, and the port is as it was. -/
structure Replayed (s t : State) (ws : List (BitVec 16 × Byte)) : Prop where
  buf : t.buf = ws.foldl (fun m c => Memory.write m c.1.toNat c.2) s.buf
  host : t.hostWrites = []
  port : t.port = s.port

theorem Replayed.trans {s t u : State} {ws xs : List (BitVec 16 × Byte)} (h : Replayed s t ws) (k : Replayed t u xs) :
    Replayed s u (ws ++ xs) where
  buf := by rw [k.buf, h.buf, List.foldl_append]
  host := k.host
  port := k.port.trans h.port

theorem drawExt_replayed (l : Line) {s : State} (h : s.hostWrites = []) : Replayed s (drawExt l s).2 [] := by
  rw [drawExt_frame]
  exact ⟨rfl, h, rfl⟩

theorem storeByte_replayed (i : BitVec 16) (v : Byte) {s : State} (h : s.hostWrites = []) :
    Replayed s (storeByte i v s) [(i, v)] := by
  obtain ⟨host, buf⟩ := (storeByte_spec i v s).noHost h
  exact ⟨buf, host, by rw [storeByte_frame]⟩

theorem replayEvent_replayed (e : Event) {s : State} (h : s.hostWrites = []) :
    Replayed s (replayEvent s e) (bufWrites [e]) := by
  cases e with
  | sm l v => exact drawExt_replayed l h
  | sm2 a b =>
    have hsda := drawExt_replayed .sda h
    exact hsda.trans (drawExt_replayed .scl hsda.host)
  | bw i v => exact storeByte_replayed i v h
  | dl | rl | dy | br | ta | tr | rsp => exact ⟨rfl, h, rfl⟩

theorem replay_replayed (es : List Event) {s : State} (h : s.hostWrites = []) :
    Replayed s (es.foldl replayEvent s) (bufWrites es) := by
  induction es generalizing s with
  | nil => exact ⟨rfl, h, rfl⟩
  | cons e es ih =>
    have hevent := replayEvent_replayed e h
    rw [← List.singleton_append, bufWrites_append]
    exact hevent.trans (ih hevent.host)

/-- What an abandoned command leaves outside the block: the block's parameters, the commands after it at the port, and its
first `k` events' writes in the buffer. -/
theorem abandon_outside (k : Nat) {s : State} (t : State) (h : s.hostWrites = []) :
    (abandon k s t).params = s.params ∧ (abandon k s t).port = s.port ∧
    (abandon k s t).buf =
      (bufWrites ((newEvents s t).take k)).foldl (fun m c => Memory.write m c.1.toNat c.2) s.buf := by
  have hreplay := replay_replayed ((newEvents s t).take k) (s := { s with freeCtr := t.freeCtr }) h
  exact ⟨replay_params .., hreplay.port, (landHostWrites_noHost hreplay.host).trans hreplay.buf⟩

/-- A reset after the acceptance of a command and `k` of its atomic steps abandons it. -/
theorem step_abandon {s t : State} {word arg : Word} {rest : List (Word × Word)} {k : Nat} (hu : s.uop = none)
    (hb : s.busy = false) (hp : s.port = (word, arg) :: rest) (hr : s.rstIn = some (k + 1))
    (hexec : exec (decodeCmd word arg) (setPort rest s) = .next t) (hk : k < (newEvents s t).length) :
    step s = .next (abandon k (setPort rest s) t) := by
  have hmade : stepsMade (setPort rest s) t = (newEvents s t).length + 1 := by
    simp [stepsMade, newEvents]
  rw [step_command (by simp [hr]) hu hb hp, hexec, underReset_next (show (setPort rest s).rstIn = some (k + 1) from hr),
    hmade, if_pos (Nat.succ_lt_succ hk), Nat.add_sub_cancel]

/-- Settles O11: the reset overwrites the block, and of the abandoned command its first events' writes remain. -/
theorem resetMidCommandAbandonsIt : Obligations.ResetMidCommandAbandonsIt := by
  intro s t word arg rest i k hu hb hp hr hdec hexec hk hh wf
  obtain rfl : decodeCmd word arg = i := Except.ok.inj hdec
  obtain ⟨params, port, buf⟩ := abandon_outside k (s := setPort rest s) t hh
  refine ⟨_, step_abandon hu hb hp hr hexec hk, ⟨rfl, rfl⟩, rfl, rfl, rfl, rfl, rfl, rfl, rfl, ?_, rfl, rfl, rfl, port,
    fun j => ?_⟩
  · exact congrArg Params.defaultDelayUs params
  · rw [buf]
    exact Memory.read_foldl_write_lookup _ wf j

/-! ### The time of a message that succeeds (R129) -/

/-- A byte that was sent and acknowledged with no stretching takes 17 delay steps. -/
theorem WriteEnd.Good.elapsed_unstretched {T d : Nat} {v : Byte} {e : WriteEnd} (good : e.Good T v)
    (h : Unstretched (writeByteEvents d v e)) : elapsed (writeByteEvents d v e) = 17 * d := by
  obtain ⟨ok, result⟩ := good
  cases e with
  | full ks k sda => exact elapsed_writeByteEvents_full ok h
  | ackTimeout | cellTimeout | cellLost => exact nomatch result

/-- A byte that was read with its ACK bit with no stretching takes 17 delay steps. -/
theorem ReadEnd.elapsed_unstretched {T d : Nat} {q : Bool} {e : ReadEnd} (ok : e.Ok T) (result : e.result = true)
    (h : Unstretched (readByteEvents d q e)) : elapsed (readByteEvents d q e) = 17 * d := by
  cases e with
  | full cs k => exact elapsed_readByteEvents_full ok h
  | ackTimeout | cellTimeout => exact nomatch result

theorem elapsed_writeDataEvents_unstretched {T d : Nat} {i : BitVec 16} {bs : List (Byte × WriteEnd)}
    (good : ∀ b ∈ bs, b.2.Good T b.1) (h : Unstretched (writeDataEvents d i bs)) :
    elapsed (writeDataEvents d i bs) = bs.length * (17 * d) := by
  induction bs generalizing i with
  | nil => exact (Nat.zero_mul _).symm
  | cons b bs ih =>
    obtain ⟨hb, hbs⟩ := List.forall_mem_cons.1 good
    rw [writeDataEvents, unstretched_append, unstretched_append] at h
    obtain ⟨⟨_, hbyte⟩, hrest⟩ := h
    rw [writeDataEvents, elapsed_append, elapsed_append, hb.elapsed_unstretched hbyte, ih hbs hrest, List.length_cons,
      Nat.succ_mul bs.length, Nat.add_comm (bs.length * _)]
    simp [eventTime]

theorem elapsed_readDataEvents_unstretched {T d : Nat} {len i : BitVec 16} {es : List ReadEnd}
    (good : ∀ e ∈ es, e.Ok T ∧ e.result = true) (h : Unstretched (readDataEvents d len i es)) :
    elapsed (readDataEvents d len i es) = es.length * (17 * d) := by
  induction es generalizing i with
  | nil => exact (Nat.zero_mul _).symm
  | cons e es ih =>
    obtain ⟨⟨ok, result⟩, hes⟩ := List.forall_mem_cons.1 good
    rw [readDataEvents, unstretched_append, unstretched_append] at h
    obtain ⟨⟨hbyte, _⟩, hrest⟩ := h
    rw [readDataEvents, elapsed_append, elapsed_append, ReadEnd.elapsed_unstretched ok result hbyte, ih hes hrest,
      List.length_cons, Nat.succ_mul es.length, Nat.add_comm (es.length * _)]
    simp [eventTime]

/-- A START that found the bus idle at its first sample takes one delay step. -/
theorem elapsed_startEvents_unstretched {d : Nat} {lows : List (Bool × Bool)}
    (low : ∀ p ∈ lows, (p.1 && p.2) = false) (h : Unstretched (startEvents d lows (true, true))) :
    elapsed (startEvents d lows (true, true)) = d := by
  simp only [startEvents, unstretched_append] at h
  obtain ⟨⟨_, hpolls, _⟩, _⟩ := h
  obtain rfl := idlePolls_noFailed low hpolls
  simp [elapsed_startEvents]

/-- A STOP that drives the bus takes one delay step when SCL rises at its first sample. -/
theorem elapsed_stopEvents_unstretched {d k : Nat} {v : Bool} (h : Unstretched (stopEvents d (some (k, v)))) :
    elapsed (stopEvents d (some (k, v))) = d := by
  simp only [stopEvents, unstretched_append] at h
  obtain ⟨⟨⟨_, hpolls, hlast⟩, _⟩, _⟩ := h
  obtain rfl := sclPolls_noFailed hpolls
  cases v with
  | true => simp [stopEvents, sclPolls, eventTime]
  | false => exact nomatch hlast

/-- A data phase of `n` bytes that is done took 17 delay steps for each, when no wait failed a sample. -/
theorem DataSpec.duration {rw : Bool} {n : Nat} {u w : State} (h : DataSpec rw n u (.done, w)) :
    ∃ mid, Run u w mid ∧ (Unstretched mid → elapsed mid = n * (17 * u.delayUs.toNat)) := by
  cases rw with
  | false =>
    obtain ⟨bs, last, hd⟩ := h
    obtain ⟨rfl, rfl⟩ := hd.how
    refine ⟨_, hd.run.run, fun hmid => ?_⟩
    rw [Option.toList_none, List.append_nil] at hmid ⊢
    exact elapsed_writeDataEvents_unstretched hd.good hmid
  | true =>
    obtain ⟨es, last, hd⟩ := h
    obtain ⟨rfl, rfl⟩ := hd.how
    refine ⟨_, hd.run.run, fun hmid => ?_⟩
    rw [readLastEvents, List.append_nil] at hmid ⊢
    exact elapsed_readDataEvents_unstretched hd.good hmid

section
variable {rw : Bool} {addr : BitVec 7} {len : BitVec 16} {s t u w : State} {lows : List (Bool × Bool)} {e : WriteEnd}
  {b : Option (Nat × Bool)}

/-- The parts of a message that went through each take their delay steps when no wait failed a sample. -/
theorem MsgDone.duration (h : MsgDone rw addr len s t u w lows e b) (flag : w.arbLost = false)
    (unstretched : Unstretched (newEvents s t)) : t.nowUs = s.nowUs + (17 * len.toNat + 19) * s.delayUs.toNat := by
  obtain ⟨mid, hmid, midTime⟩ := h.data.duration
  obtain ⟨⟨k, v⟩, rfl⟩ := Option.isSome_iff_exists.1 (Option.isNone_eq_false_iff.1 (h.stop.branch.trans flag))
  have delay : u.delayUs = s.delayUs := h.addressed.run.kept.delayUs
  have run := h.addressed.run.trans (hmid.trans h.stop.run)
  rw [newEvents_eq run.trace, hmid.kept.delayUs, delay] at unstretched
  simp only [unstretched_append] at unstretched
  obtain ⟨⟨hstart, haddress⟩, hdata, hstop, _⟩ := unstretched
  have startTime := elapsed_startEvents_unstretched h.addressed.low hstart
  have addressTime := WriteEnd.Good.elapsed_unstretched ⟨h.addressed.ok, h.good⟩ haddress
  have stopTime := elapsed_stopEvents_unstretched hstop
  rw [run.time, hmid.kept.delayUs, delay, ← message_time]
  simp only [elapsed_append, startTime, addressTime, midTime hdata, delay, stopTime, elapsed_cons, elapsed_nil, eventTime]
  omega

end

/-- Settles O50: START and STOP take one delay step each, the address byte and every data byte seventeen. -/
theorem successfulMessageDuration : Obligations.SuccessfulMessageDuration := by
  intro i addr len s t hi hw hexec idle ok unstretched
  obtain ⟨_, hlen⟩ := message_operands hi hw
  have hcase := messageCase_of_exec hi hexec
  obtain ⟨u, w, lows, e, b, h⟩ := hcase.done idle ok
  obtain ⟨_, flag, _⟩ := hcase.outcome.success idle ok
  have htime := h.duration (h.stop.responded.arbLost.symm.trans flag) unstretched
  rwa [hlen] at htime

/-! ### What reset sets (R117, R121) -/

/-- Settles O10: the fields of the state that a reset leaves. -/
theorem resetSetsTheBlock : Obligations.ResetSetsTheBlock := by
  intro s hr
  exact ⟨hardReset s, step_reset hr, rfl, rfl, fun l => by cases l <;> exact ⟨rfl, rfl⟩, rfl, rfl, rfl, rfl, rfl, rfl, rfl,
    rfl, rfl, rfl, rfl, rfl, rfl, rfl, rfl, rfl, rfl, rfl, rfl, rfl⟩

/-- The built default delay is at least 1 (00_scope.md R3). -/
theorem defaultDelayUs_ne_zero : Config.defaultDelayUs ≠ 0#31 := by
  unfold Config.defaultDelayUs
  split
  · decide
  · assumption

/-- A ready block takes a presented command and runs it to its end. -/
theorem step_presentCommand (word arg : Word) (s : State) : step (presentCommand word arg s) =
    exec (decodeCmd word arg) (setPort s.port (presentCommand word arg s)) := by
  rw [step_command (s := presentCommand word arg s) (by simp [presentCommand]) rfl rfl rfl]
  exact underReset_none rfl

/-- Settles O12: a GET_ARB_LOST reads the flag as the reset left it. -/
theorem firstCommandAfterReset : Obligations.FirstCommandAfterReset := by
  refine ⟨rfl, ?_, rfl, _, step_presentCommand 0x00000002#32 0#32 State.reset, ⟨rfl, rfl, rfl, rfl, rfl⟩, rfl⟩
  exact Nat.pos_of_ne_zero fun h => defaultDelayUs_ne_zero (BitVec.eq_of_toNat_eq h)

/-- Settles O60: the state after reset is what a reset makes of it. -/
theorem resetMeetsTheInvariant : Obligations.ResetMeetsTheInvariant :=
  hardReset_inv (s := State.reset) defaultDelayUs_ne_zero rfl

end Sys2Proof.Machine
